-- ==== Sys2Proof/Word.lean ====
section
/-!
DEFINITION. The word types of the K512 and their plainest conversions (R1, R2).
-/
namespace Sys2Proof

/-- A byte of scratchpad or memory. -/
abbrev Byte := BitVec 8
/-- A 32-bit lane, tile element or list entry. -/
abbrev W32 := BitVec 32
/-- A 64-bit register, record word or command word. -/
abbrev W64 := BitVec 64

end Sys2Proof
end

