-- ==== Sys2Proof/Machine/Bits.lean ====
section
/-!
DEFINITION. Bit fields, sign extension, byte order and keyed tables (R1, R2, Table 0.4).
-/
namespace Sys2Proof.Machine

/-- `Bits(x, h, l)` of Table 0.4. -/
def bits (x h l : Nat) : Nat := (x >>> l) % 2 ^ (h + 1 - l)

/-- Bit `n` of `x`. -/
def bit (x n : Nat) : Bool := x.testBit n

/-- `SignExt(x, n)` of Table 0.4: `x`, below `2^n`, as an `n`-bit two's-complement value. -/
def sext (x n : Nat) : Int := if x < 2 ^ (n - 1) then (x : Int) else (x : Int) - 2 ^ n

/-- An integer modulo `2^64`. -/
def w64 (x : Int) : W64 := BitVec.ofInt 64 x

/-- `x` with its bits `[h:l]` replaced by the low bits of `v`. -/
def putBits (x h l v : Nat) : Nat :=
  x - bits x h l * 2 ^ l + (v % 2 ^ (h + 1 - l)) * 2 ^ l

/-- The little-endian bytes of a value, `n` of them (R2). -/
def leBytes : Nat → Nat → List Byte
  | 0, _ => []
  | n + 1, v => BitVec.ofNat 8 v :: leBytes n (v / 256)

/-- The value of little-endian bytes (R2). -/
def ofLe : List Byte → Nat
  | [] => 0
  | b :: bs => b.toNat + 256 * ofLe bs

/-- ⌈a / b⌉. -/
def ceilDiv (a b : Nat) : Nat := (a + b - 1) / b

/-- A table by number. -/
abbrev Tab (α : Type) := List (Nat × α)

/-- The entry of `k`, or `d` where none is listed. -/
def tabGet {α : Type} (d : α) : Tab α → Nat → α
  | [], _ => d
  | (i, v) :: r, k => if i = k then v else tabGet d r k

/-- The entry of `k`, if listed. -/
def tabFind {α : Type} : Tab α → Nat → Option α
  | [], _ => none
  | (i, v) :: r, k => if i = k then some v else tabFind r k

/-- The table with the entry of `k` set, keys rising. -/
def tabSet {α : Type} : Tab α → Nat → α → Tab α
  | [], k, v => [(k, v)]
  | (i, x) :: r, k, v =>
    if k < i then (k, v) :: (i, x) :: r
    else if k = i then (k, v) :: r
    else (i, x) :: tabSet r k v

/-- The table without `k`. -/
def tabDel {α : Type} (t : Tab α) (k : Nat) : Tab α := t.filter fun e => e.1 ≠ k

/-- Element `i` of a list, or `d`. -/
def nth {α : Type} (l : List α) (i : Nat) (d : α) : α := l.getD i d

/-- Element `n` of a list set to `v`; a list that is too short is filled with `d`. -/
def setNth {α : Type} (d : α) : List α → Nat → α → List α
  | [], 0, v => [v]
  | [], n + 1, v => d :: setNth d [] n v
  | _ :: l, 0, v => v :: l
  | x :: l, n + 1, v => x :: setNth d l n v

/-- Index of the first element that satisfies `p`. -/
def findIx {α : Type} (p : α → Bool) : List α → Option Nat
  | [] => none
  | x :: xs => if p x then some 0 else (findIx p xs).map (· + 1)

/-- The numbers `lo … lo + n - 1`. -/
def upto (lo n : Nat) : List Nat := (List.range n).map (· + lo)

/-- Do the bytes `[a, a+n)` and `[b, b+m)` meet? -/
def overlap (a n b m : Nat) : Bool := a < b + m && b < a + n && n > 0 && m > 0

end Sys2Proof.Machine
end

