-- ==== Sys2Proof/Syntax.lean ====
section
/-!
DEFINITION. The instructions of the four streams and the events of the machine: one constructor for each row of
the opcode table. An instruction carries the fields of its word (R20 to R35); an event carries the part it happens
in and what the outside world brings to it.
-/
namespace Sys2Proof

/-- The four sequencers of a task (R11). -/
inductive Seq where
  | c | l | x | s
  deriving DecidableEq, Repr

/-- The four engine queues of a core, in the order of R309. -/
inductive Queue where
  | matrix | copy | weight | pred
  deriving DecidableEq, Repr

/-- An agent that performs memory accesses in its own order (R258, Table 14.3): a sequencer of a task, the handler context that
serves a task, one of its commands in an engine queue, by its index, one of its in-stream runs, by its number in the stream. -/
inductive Viewer where
  | seq (core slot : Nat) (q : Seq)
  | handler (core slot : Nat)
  | cmd (core slot : Nat) (q : Queue) (idx : Nat)
  | run (core slot stream no : Nat)
  deriving DecidableEq, Repr

/-- The masters of the control space (R330). -/
inductive Master where
  | host | sideBand
  deriving DecidableEq, Repr

/-- The wait and signal fields of an L or S word (R16). -/
structure Tok where
  wait : BitVec 5
  sig  : BitVec 5
  deriving DecidableEq, Repr

/-- The fields of an X slot other than its op8 (Table 2.6). -/
structure Slot where
  dst  : BitVec 5
  srcA : BitVec 5
  srcB : BitVec 5
  srcC : BitVec 5
  pred : BitVec 3
  fi   : Bool
  fo   : Bool
  rnd  : BitVec 3
  sat  : Bool
  type : BitVec 5
  imm  : BitVec 14
  deriving DecidableEq, Repr

/-- What a scrub of one row finds: corrected bit positions and the columns with an uncorrectable error (R83). -/
structure ScrubFind where
  corrected : List Nat
  bad       : List Nat
  deriving DecidableEq, Repr

/-- A block of a payload as a port sends it (R218): raw, or its mask followed by its non-zero bytes. -/
structure LinkBlock where
  raw  : Bool
  len  : Nat
  sent : List Byte
  deriving DecidableEq, Repr

/-- What a flit carries (R217 to R219): a write, with its payload as sent, a read, the acknowledgement of the other end's flits up
to a sequence number, or the request for their replay from one. -/
inductive FlitBody where
  | write (pa : Nat) (payload : List LinkBlock)
  | read (m pa n : Nat)
  | data (payload : List LinkBlock) (poisoned : Bool)
  | ack (upTo : Nat)
  | replay (from_ : Nat)
  deriving DecidableEq, Repr

/-- A unit with counted errors (Table 22.10). -/
inductive FaultUnit where
  | sramCorrected (core : Nat)
  | sramUncorrectable (core : Nat)
  | mismatch (core eng : Nat)
  | retrain (port : Nat)
  deriving DecidableEq, Repr

/-- The instructions and events of the K512. -/
inductive Instr where
  -- C stream, ALU-R (Table 2.3)
  | add (d a b : BitVec 5) | sub (d a b : BitVec 5) | and (d a b : BitVec 5) | or (d a b : BitVec 5)
  | xor (d a b : BitVec 5) | shl (d a b : BitVec 5) | shr (d a b : BitVec 5) | sra (d a b : BitVec 5)
  | min (d a b : BitVec 5) | max (d a b : BitVec 5) | minu (d a b : BitVec 5) | maxu (d a b : BitVec 5)
  | mul (d a b : BitVec 5) | mulh (d a b : BitVec 5) | mulhu (d a b : BitVec 5) | divu (d a b : BitVec 5)
  | remu (d a b : BitVec 5) | clz (d a : BitVec 5) | popc (d a : BitVec 5) | sel (d a b : BitVec 5) (f : BitVec 3)
  -- C stream, immediates (Table 13.3)
  | addi (d a : BitVec 5) (i : BitVec 16) | andi (d a : BitVec 5) (i : BitVec 16)
  | ori (d a : BitVec 5) (i : BitVec 16) | xori (d a : BitVec 5) (i : BitVec 16)
  | shli (d a : BitVec 5) (n : BitVec 6) | shri (d a : BitVec 5) (n : BitVec 6) | srai (d a : BitVec 5) (n : BitVec 6)
  | lui (d : BitVec 5) (i : BitVec 21) | liw (d : BitVec 5) (i : BitVec 21)
  | ext (d a : BitVec 5) (p l : BitVec 6) | ins (d a : BitVec 5) (p l : BitVec 6)
  -- C stream, compare and branch (R236 to R239)
  | cmp (c f : BitVec 3) (a b : BitVec 5) | cmpi (c f : BitVec 3) (a : BitVec 5) (i : BitVec 15)
  | pbt (b : BitVec 2) (o : BitVec 21) | bt (b : BitVec 2) (f : BitVec 3) | btn (b : BitVec 2) (f : BitVec 3)
  | ba (b : BitVec 2) | call (b : BitVec 2) | mtb (b : BitVec 2) (a : BitVec 5)
  -- C stream, memory (Table 8.1, R143 to R148)
  | ldb (d a : BitVec 5) (c : BitVec 4) (o : BitVec 12) | ldh (d a : BitVec 5) (c : BitVec 4) (o : BitVec 12)
  | ldw (d a : BitVec 5) (c : BitVec 4) (o : BitVec 12) | ldd (d a : BitVec 5) (c : BitVec 4) (o : BitVec 12)
  | ldbu (d a : BitVec 5) (c : BitVec 4) (o : BitVec 12) | ldhu (d a : BitVec 5) (c : BitVec 4) (o : BitVec 12)
  | ldwu (d a : BitVec 5) (c : BitVec 4) (o : BitVec 12)
  | stb (d a : BitVec 5) (c : BitVec 4) (o : BitVec 12) | sth (d a : BitVec 5) (c : BitVec 4) (o : BitVec 12)
  | stw (d a : BitVec 5) (c : BitVec 4) (o : BitVec 12) | std (d a : BitVec 5) (c : BitVec 4) (o : BitVec 12)
  | lda (d a : BitVec 5) (c : BitVec 4) (z : BitVec 2) (s : BitVec 3) (o : BitVec 7)
  | stl (d a : BitVec 5) (c : BitVec 4) (z : BitVec 2) (s : BitVec 3) (o : BitVec 7)
  | atomCas (d a b : BitVec 5) (z : BitVec 1) (s : BitVec 3) (c : BitVec 4)
  | atomXadd (d a b : BitVec 5) (z : BitVec 1) (s : BitVec 3) (c : BitVec 4)
  | atomXchg (d a b : BitVec 5) (z : BitVec 1) (s : BitVec 3) (c : BitVec 4)
  | atomAnd (d a b : BitVec 5) (z : BitVec 1) (s : BitVec 3) (c : BitVec 4)
  | atomOr (d a b : BitVec 5) (z : BitVec 1) (s : BitVec 3) (c : BitVec 4)
  | atomMin (d a b : BitVec 5) (z : BitVec 1) (s : BitVec 3) (c : BitVec 4)
  | atomMax (d a b : BitVec 5) (z : BitVec 1) (s : BitVec 3) (c : BitVec 4)
  | llk (d a : BitVec 5) (c : BitVec 4) (z : BitVec 1) (o : BitVec 11)
  | sul (d a : BitVec 5) (c : BitVec 4) (z : BitVec 1) (o : BitVec 11)
  -- C stream, ordering, tokens, system, scheduling, queues
  | fence (s : BitVec 3) (m : BitVec 16)
  | tksig (q : BitVec 4) | tksigRemote (a : BitVec 5) (q : BitVec 4) | tkwait (q : BitVec 4)
  | tkcnt (d : BitVec 5) (q : BitVec 4) | tkinit (v : BitVec 8) (q : BitVec 4)
  | trap (c : BitVec 12) | eret | mfs (d : BitVec 5) (n : BitVec 12) | mts (a : BitVec 5) (n : BitVec 12)
  | node | endC
  | launch (d a : BitVec 5) | spawn (d a : BitVec 5) | remq (d a b : BitVec 5) | tndr (d a b : BitVec 5)
  | wdraw (d a : BitVec 5) | bidf (a b : BitVec 5)
  | qdrop (d : BitVec 5) (q : BitVec 2) | qdepth (d : BitVec 5) (q : BitVec 2)
  -- L stream (Table 2.5)
  | jadd (t : Tok) (d a b : BitVec 4) | jsub (t : Tok) (d a b : BitVec 4) | jshl (t : Tok) (d a b : BitVec 4)
  | jshr (t : Tok) (d a b : BitVec 4) | jand (t : Tok) (d a b : BitVec 4) | jor (t : Tok) (d a b : BitVec 4)
  | jmul (t : Tok) (d a b : BitVec 4)
  | jaddi (t : Tok) (d a : BitVec 4) (i : BitVec 32) | jli (t : Tok) (d : BitVec 4) (i : BitVec 32)
  | jlih (t : Tok) (d : BitVec 4) (i : BitVec 32)
  | lloop (t : Tok) (n : BitVec 2) (a : BitVec 4) (e : BitVec 12)
  | lbr (t : Tok) (c : BitVec 3) (a b : BitVec 4) (i : BitVec 32)
  | bindi (t : Tok) (a b : BitVec 4) (n : BitVec 3) (xp zorg : Bool)
  | istart (t : Tok) (c : BitVec 4) (n : BitVec 3)
  | copy (t : Tok) (c : BitVec 4) (d a b : BitVec 4) (zorg xp : Bool)
  | wgath (t : Tok) (c : BitVec 4) (d a b : BitVec 4) (hst : BitVec 8) (nm : BitVec 2) (heat : Bool)
      (buf : BitVec 2) (boff : BitVec 11)
  | wtile (t : Tok) (c : BitVec 4) (a : BitVec 4) (row0 : BitVec 16) (nm buf : BitVec 2) (boff : BitVec 11)
  | aircfg (t : Tok) (slot : BitVec 12) (pmin : BitVec 8) (size : BitVec 5)
  | airq (t : Tok) (d a b : BitVec 4)
  | lnopen (t : Tok) (a : BitVec 4) (i : BitVec 32) | lnpeg (t : Tok) (d a : BitVec 4) (i : BitVec 32)
  | lnfree (t : Tok) (d a : BitVec 4) (i : BitVec 32) | lnqry (t : Tok) (d a : BitVec 4) (i : BitVec 32)
  | pred (t : Tok) (c : BitVec 4) (a b : BitVec 4) (vfy : Bool)
  | darn (t : Tok) (c : BitVec 4) (d a : BitVec 4) (sel : Bool) (hst : BitVec 8) (nm : BitVec 2) (heat : Bool)
      (buf : BitVec 2) (boff : BitVec 11)
  | pfch (t : Tok) (c : BitVec 4) (a b : BitVec 4)
  | ltk (t : Tok) (d : BitVec 4) (cnt : Bool) (q : BitVec 4)
  | lend (t : Tok)
  -- X stream (Table 2.8)
  | nop
  | vadd (x : Slot) | vsub (x : Slot) | vmul (x : Slot) | vfma (x : Slot) | vfms (x : Slot) | vmin (x : Slot)
  | vmax (x : Slot) | vabs (x : Slot) | vneg (x : Slot) | vand (x : Slot) | vor (x : Slot) | vxor (x : Slot)
  | vshl (x : Slot) | vshr (x : Slot) | vsra (x : Slot) | vsel (x : Slot) | vcmp (x : Slot) | vmov (x : Slot)
  | vldi (x : Slot) | vclamp (x : Slot) | vrotr (x : Slot) | vrotc (x : Slot) | vbcr (x : Slot) | vbcc (x : Slot)
  | vredr (x : Slot) | vredc (x : Slot) | vscnr (x : Slot) | vscnc (x : Slot) | vxpq (x : Slot)
  | pand (x : Slot) | por (x : Slot) | pxor (x : Slot) | pnot (x : Slot) | pset (x : Slot) | pcnt (x : Slot)
  | voteAny (x : Slot) | voteAll (x : Slot)
  | vcvt (x : Slot) | vflip (x : Slot) | vunflip (x : Slot) | vexp2 (x : Slot) | vlog2 (x : Slot) | vrcp (x : Slot)
  | vrsq (x : Slot) | vsqrt (x : Slot) | vtanh (x : Slot) | vsig (x : Slot)
  | vtopk (x : Slot) | vhist (x : Slot) | vcompr (x : Slot) | vexpnd (x : Slot) | vnrm (x : Slot) | vcheck (x : Slot)
  | vrng (x : Slot) | vsample (x : Slot) | vspchk (x : Slot)
  | vrdacc (x : Slot) | vrdaccPeek (x : Slot) | vwracc (x : Slot) | mclr (x : Slot) | mldc (x : Slot)
  | msetf (sel : BitVec 8) (v : W64) | mgo (x : Slot) | mqry (x : Slot)
  | xloop (x : Slot) | xbt (x : Slot) | xbn (x : Slot) | xtk (x : Slot) | xend (x : Slot)
  -- S stream (Table 2.9)
  | bindo (t : Tok) (o : BitVec 2) (a : BitVec 3) | drain (t : Tok) (o : BitVec 2) (n : BitVec 9)
  | drainx (t : Tok) (o : BitVec 2) (b : BitVec 3) (n : BitVec 9)
  | sloop (t : Tok) (c : BitVec 2) (a : BitVec 3) (e : BitVec 12)
  | saddi (t : Tok) (d a : BitVec 3) (i : BitVec 11) | sli (t : Tok) (d : BitVec 3) (i : BitVec 14)
  | rgapnd (t : Tok) (a b c : BitVec 3) | rgcmt (t : Tok) (a b c : BitVec 3) | rgupk (t : Tok) (a b c : BitVec 3)
  | stk (t : Tok) (d : BitVec 3) (q : BitVec 4) | send (t : Tok) | sld (t : Tok) (d a : BitVec 3) (i : BitVec 11)
  -- Events: tasks and scheduling
  | taskDispatch (core : Nat) | taskStart (core slot : Nat) | streamEndRetire (core slot : Nat) (q : Seq)
  | loaderStage (core : Nat) | planeFlip (core : Nat) | faultedRetirement (core slot : Nat)
  | hostLaunchEntry | counterEvent (e : Nat) | budgetFlush (core : Nat) | budgetOverrun (core slot : Nat)
  | tenderBid (core slot bidder : Nat) | tenderWindowClose (core slot : Nat) | tenderOffer (core slot : Nat)
  | withdrawalNotice (k : Nat)
  -- Events: traps and translation
  | trapDelivery (core slot : Nat) | refillEvent (core slot : Nat) | tableWalk (core slot : Nat) (q : Seq)
  | notification (core slot : Nat) | holdTimeout (core slot : Nat) (q : Seq) | engineWaitmTimeout (core : Nat) (q : Queue)
  | tfillWrite (core : Nat) (v : W64) | tinvWrite (core : Nat) (v : W64) | trvalWrite (core : Nat) (v : W64)
  | prviolWrite (core slot : Nat) (v : W64)
  -- Events: engines
  | commandDequeue (core : Nat) (q : Queue) | matrixCommand (core : Nat) | copyCommand (core : Nat)
  | weightGather (core : Nat) | weightTile (core : Nat) | darnGather (core : Nat) | prefetch (core : Nat)
  | predictScore (core : Nat) | commandRetire (core : Nat) (q : Queue) (k : Nat)
  | startGrant (col : Nat) | warmWindowExpiry (core eng : Nat) | fillerEnd (core eng : Nat)
  -- Events: streams, X, locks, remote accesses
  | inStreamRun (core slot n : Nat) | inStreamBlock (core slot n : Nat) | drainBlock (core slot : Nat)
  | xOperationLand (core slot k : Nat) | xSignalPush (core slot : Nat) | lockGrant (core : Nat) (bank line : Nat)
  | remoteAccess (k : Nat) | remoteTokenArrival (k : Nat) | remqArrival (k : Nat)
  -- Events: stack memory
  | epochEnd | swapFlip | refresh (bank : Nat) | rowHammerAlert (bank : Nat) | lineReopen (bank : Nat) (bad : List (Nat × Nat))
  | patrolScrub (bank row : Nat) (f : ScrubFind) | hotListScrub (bank row : Nat) (f : ScrubFind)
  | rowRetirement (bank row : Nat) | errorWindowEnd | lastingFault (u : FaultUnit)
  -- Events: power and heat
  | timingReplay (core : Nat) | replayWindowEnd (col : Nat) | tempSample (core : Nat) (e0 e1 rest : Int)
  -- Events: links
  | flitReceive (port seq : Nat) (ok : Bool) (b : FlitBody) | portRetrain (port : Nat) (ok : Bool)
  | routeEntryWrite (m : Master) (n : Nat) (v : W64) | routeChangeEffect (n : Nat)
  -- Events: host, side band, security
  | hostBar2Read (a n : Nat) | hostBar2Write (a : Nat) (bs : List Byte)
  | controlSpaceWrite (m : Master) (off : Nat) (v : W64) | hrst (m : Master) | tadjWrite (m : Master) (v : BitVec 32)
  | domidWrite (m : Master) (v : BitVec 6) | unitMapWrite (m : Master) (off : Nat) (v : W64)
  | hostReset | moduleReset | powerOn | alarm (src : Nat) | debugUnlock (challenge response : Nat)
  | pldmFirmwareUpdate (kind svn sig : Nat) (image : List Byte) | svnRaise (svn sig : Nat) | pldmPlatformMonitoring
  | getVersion | getCapabilities | negotiateAlgorithms | getDigests | getCertificate | challenge (nonce : Nat)
  | getMeasurements (nonce : Nat) | timeSlew | pcieLinkChange (up : Bool)
  deriving DecidableEq, Repr

end Sys2Proof
end

