-- ==== Sys2Proof/Decode.lean ====
section
/-!
DEFINITION. The decoders of the four streams, total on any word and refusing by cause, reason and bit (R16 to R37),
and the encoders, written from the same tables.
-/
namespace Sys2Proof

open Machine

/-- A failed decode check: cause 0x01 or 0x02, reason of Table 2.10, bit position in the word, whether in slot B. -/
structure Fail where
  cause  : Nat
  reason : Nat
  at_    : Nat
  slotB  : Bool := false
  deriving DecidableEq, Repr

/-- The position of the lowest set bit of `v`, below `n`. -/
def lowBit (v : Nat) : Nat → Nat
  | 0 => 0
  | n + 1 => if v % 2 = 1 then 0 else 1 + lowBit (v / 2) n

/-- A reserved field `[h:l]`: cause 0x02 at its lowest set bit. -/
def rsv (w h l : Nat) : List Fail :=
  if bits w h l = 0 then [] else [⟨2, 7, l + lowBit (bits w h l) (h + 1 - l), false⟩]

/-- A reserved value of a field that is otherwise assigned, if `b`: cause 0x02 at the field's lowest bit (R37). -/
def rsvValue (b : Bool) (at_ : Nat) : List Fail := if b then [⟨2, 7, at_, false⟩] else []

/-- Cause 0x01 with a reason at a bit, if `b`. -/
def ill (b : Bool) (reason at_ : Nat) : List Fail := if b then [⟨1, reason, at_, false⟩] else []

/-- The failure that is reported (R36): the lowest bit among those of cause 0x01, or of cause 0x02 if there is none. -/
def pickFail (fs : List Fail) : Option Fail :=
  let one := fs.filter fun f => f.cause = 1
  (if one.isEmpty then fs else one).foldl (fun best f => match best with
    | none => some f
    | some b => if f.at_ < b.at_ then some f else some b) none

/-- What a decoder reads: the instruction where the opcode is one, and every failed check. -/
abbrev Read := Option Instr × List Fail

/-- Field `[l+n-1:l]` as a bit vector. -/
def fld (n w l : Nat) : BitVec n := BitVec.ofNat n (w >>> l)

/-- The wait or signal field at `[l+4:l]` (R16): a clear flag needs queue number 0. -/
def tokFail (w l : Nat) : List Fail := if w.testBit (l + 4) then [] else rsv w (l + 3) l

/-! ## The C stream -/

/-- A scope field at `l` (R24): the values 5 to 7 raise cause 0x02. -/
def scopeFail (w l : Nat) : List Fail := rsvValue (bits w (l + 2) l ≥ 5) l

/-- ALU-R (Table 2.3, Table 2.4). -/
def decodeAluR (w : Nat) : Read :=
  let d := fld 5 w 21; let a := fld 5 w 16; let b := fld 5 w 11
  let z := rsv w 3 0
  match bits w 10 4 with
  | 0x00 => (some (.add d a b), z) | 0x01 => (some (.sub d a b), z) | 0x02 => (some (.and d a b), z)
  | 0x03 => (some (.or d a b), z) | 0x04 => (some (.xor d a b), z) | 0x05 => (some (.shl d a b), z)
  | 0x06 => (some (.shr d a b), z) | 0x07 => (some (.sra d a b), z) | 0x08 => (some (.min d a b), z)
  | 0x09 => (some (.max d a b), z) | 0x0A => (some (.minu d a b), z) | 0x0B => (some (.maxu d a b), z)
  | 0x0C => (some (.mul d a b), z) | 0x0D => (some (.mulh d a b), z) | 0x0E => (some (.mulhu d a b), z)
  | 0x0F => (some (.divu d a b), z) | 0x10 => (some (.remu d a b), z)
  | 0x11 => (some (.clz d a), z ++ rsv w 15 11) | 0x12 => (some (.popc d a), z ++ rsv w 15 11)
  | 0x13 => (some (.sel d a b (fld 3 w 0)), rsv w 3 3)
  | _ => (none, ill true 0 4)

/-- TK (Table 14.2). -/
def decodeTk (w : Nat) : Read :=
  let q := fld 4 w 0; let rmt := w.testBit 13
  match bits w 15 14 with
  | 0 => if rmt then (some (.tksigRemote (fld 5 w 16) q), rsv w 25 21 ++ rsv w 12 4)
         else (some (.tksig q), rsv w 25 16 ++ rsv w 12 4)
  | 1 => (some (.tkwait q), ill rmt 6 13 ++ rsv w 25 16 ++ rsv w 12 4)
  | 2 => (some (.tkcnt (fld 5 w 21) q), ill rmt 6 13 ++ rsv w 20 16 ++ rsv w 12 4)
  | _ => (some (.tkinit (fld 8 w 4) q), ill rmt 6 13 ++ rsv w 25 16 ++ rsv w 12 12)

/-- SYS (R252, R276, R285, R44). -/
def decodeSys (w : Nat) : Read :=
  let n := fld 12 w 0
  match bits w 15 12 with
  | 0 => (some (.trap n), rsv w 25 16)
  | 1 => (some .eret, rsv w 25 16 ++ rsv w 11 0)
  | 2 => (some (.mfs (fld 5 w 21) n), rsv w 20 16)
  | 3 => (some (.mts (fld 5 w 16) n), rsv w 25 21)
  | 4 => (some .node, rsv w 25 16 ++ rsv w 11 0)
  | 5 => (some .endC, rsv w 25 16 ++ rsv w 11 0)
  | _ => (none, ill true 0 12)

/-- SCHED (Table 19.5). -/
def decodeSched (w : Nat) : Read :=
  let d := fld 5 w 21; let a := fld 5 w 16; let b := fld 5 w 11
  let z := rsv w 3 0
  match bits w 10 4 with
  | 0 => (some (.launch d a), z ++ rsv w 15 11)
  | 1 => (some (.spawn d a), z ++ rsv w 15 11)
  | 2 => (some (.remq d a b), z)
  | 3 => (some (.tndr d a b), z)
  | 4 => (some (.wdraw d a), z ++ rsv w 15 11)
  | 5 => (some (.bidf a b), z ++ rsv w 25 21)
  | _ => (none, ill true 0 4)

/-- ATOM (R148). -/
def decodeAtom (w : Nat) : Read :=
  let d := fld 5 w 21; let a := fld 5 w 16; let b := fld 5 w 11
  let z := fld 1 w 7; let s := fld 3 w 4; let c := fld 4 w 0
  let sf := scopeFail w 4
  match bits w 10 8 with
  | 0 => (some (.atomCas d a b z s c), sf) | 1 => (some (.atomXadd d a b z s c), sf)
  | 2 => (some (.atomXchg d a b z s c), sf) | 3 => (some (.atomAnd d a b z s c), sf)
  | 4 => (some (.atomOr d a b z s c), sf) | 5 => (some (.atomMin d a b z s c), sf)
  | 6 => (some (.atomMax d a b z s c), sf)
  | _ => (none, ill true 0 8)

/-- A C word (Tables 2.1 to 2.4). -/
def decodeC (w : Nat) : Read :=
  let d := fld 5 w 21; let a := fld 5 w 16
  let i16 := fld 16 w 0; let i21 := fld 21 w 0
  let c := fld 4 w 12; let o := fld 12 w 0
  let p := fld 6 w 6; let l := fld 6 w 0
  let lenBad := ill (bits w 11 6 + bits w 5 0 + 1 > 64) 6 0 ++ rsv w 15 12
  let cond := ill (bits w 25 23 ≥ 6) 0 23 ++ ill (bits w 22 20 = 0) 2 20
  let b := fld 2 w 24
  match bits w 31 26 with
  | 0x00 => decodeAluR w
  | 0x01 => (some (.addi d a i16), []) | 0x02 => (some (.andi d a i16), [])
  | 0x03 => (some (.ori d a i16), []) | 0x04 => (some (.xori d a i16), [])
  | 0x05 =>
    match bits w 15 14 with
    | 0 => (some (.shli d a l), rsv w 13 6)
    | 1 => (some (.shri d a l), rsv w 13 6)
    | 2 => (some (.srai d a l), rsv w 13 6)
    | _ => (none, ill true 0 14)
  | 0x06 => (some (.lui d i21), []) | 0x07 => (some (.liw d i21), [])
  | 0x08 => (some (.ext d a p l), lenBad) | 0x09 => (some (.ins d a p l), lenBad)
  | 0x0A => (some (.cmp (fld 3 w 23) (fld 3 w 20) (fld 5 w 15) (fld 5 w 10)), cond ++ rsv w 9 0)
  | 0x0B => (some (.cmpi (fld 3 w 23) (fld 3 w 20) (fld 5 w 15) (fld 15 w 0)), cond)
  | 0x0C => (some (.pbt b i21), rsv w 23 21)
  | 0x0D => (some (.bt b (fld 3 w 21)), rsv w 20 0) | 0x0E => (some (.btn b (fld 3 w 21)), rsv w 20 0)
  | 0x0F => (some (.ba b), rsv w 23 0) | 0x10 => (some (.call b), rsv w 23 0)
  | 0x11 => (some (.mtb (fld 2 w 21) a), rsv w 25 23 ++ rsv w 15 0)
  | 0x12 => (some (.ldb d a c o), []) | 0x13 => (some (.ldh d a c o), []) | 0x14 => (some (.ldw d a c o), [])
  | 0x15 => (some (.ldd d a c o), []) | 0x16 => (some (.ldbu d a c o), []) | 0x17 => (some (.ldhu d a c o), [])
  | 0x18 => (some (.ldwu d a c o), [])
  | 0x19 => (some (.stb d a c o), []) | 0x1A => (some (.sth d a c o), []) | 0x1B => (some (.stw d a c o), [])
  | 0x1C => (some (.std d a c o), [])
  | 0x1D => (some (.lda d a c (fld 2 w 10) (fld 3 w 7) (fld 7 w 0)), scopeFail w 7)
  | 0x1E => (some (.stl d a c (fld 2 w 10) (fld 3 w 7) (fld 7 w 0)), scopeFail w 7)
  | 0x1F => decodeAtom w
  | 0x20 => (some (.llk d a c (fld 1 w 11) (fld 11 w 0)), [])
  | 0x21 => (some (.sul d a c (fld 1 w 11) (fld 11 w 0)), [])
  | 0x22 => (some (.fence (fld 3 w 16) i16), scopeFail w 16 ++ rsv w 25 19)
  | 0x23 => decodeTk w
  | 0x24 => decodeSys w
  | 0x25 => decodeSched w
  | 0x26 =>
    match bits w 15 12 with
    | 0 => (some (.qdrop d (fld 2 w 0)), rsv w 20 16 ++ rsv w 11 2)
    | 1 => (some (.qdepth d (fld 2 w 0)), rsv w 20 16 ++ rsv w 11 2)
    | _ => (none, ill true 0 12)
  | _ => (none, ill true 0 26)

/-! ## The L stream -/

/-- An L word (R25, Table 2.5 and the instructions' entries). -/
def decodeL (w : Nat) : Read :=
  let t : Tok := ⟨fld 5 w 49, fld 5 w 44⟩
  let c := fld 4 w 54; let d := fld 4 w 40; let a := fld 4 w 36; let b := fld 4 w 32; let i := fld 32 w 0
  let tf := tokFail w 49 ++ tokFail w 44
  let rc := rsv w 57 54; let rd := rsv w 43 40; let ra := rsv w 39 36; let rb := rsv w 35 32; let ri := rsv w 31 0
  let heat := w.testBit 13
  let buf3 := ill (bits w 12 11 = 3) 6 11
  let heatF := if heat then ill (bits w 23 16 = 0) 6 16 else rd ++ rsv w 23 16
  match bits w 63 58 with
  | 0x00 =>
    let f := tf ++ rc ++ rsv w 31 3
    match bits w 2 0 with
    | 0 => (some (.jadd t d a b), f) | 1 => (some (.jsub t d a b), f) | 2 => (some (.jshl t d a b), f)
    | 3 => (some (.jshr t d a b), f) | 4 => (some (.jand t d a b), f) | 5 => (some (.jor t d a b), f)
    | 6 => (some (.jmul t d a b), f)
    | _ => (none, f ++ ill true 0 0)
  | 0x01 => (some (.jaddi t d a i), tf ++ rc ++ rb)
  | 0x02 => (some (.jli t d i), tf ++ rc ++ ra ++ rb)
  | 0x03 => (some (.jlih t d i), tf ++ rc ++ ra ++ rb)
  | 0x04 => (some (.lloop t (fld 2 w 40) a (fld 12 w 0)),
      tf ++ rc ++ rsv w 43 42 ++ rb ++ rsv w 31 12 ++ ill (bits w 11 0 = 0) 6 0)
  | 0x05 => (some (.lbr t (fld 3 w 40) a b i), tf ++ rc ++ rsv w 43 43 ++ ill (bits w 42 40 ≥ 6) 0 40)
  | 0x06 => (some (.bindi t a b (fld 3 w 0) (w.testBit 3) (w.testBit 4)),
      tf ++ rc ++ rd ++ rsv w 31 5 ++ if w.testBit 4 then rb else [])
  | 0x07 => (some (.istart t c (fld 3 w 0)), tf ++ rd ++ ra ++ rb ++ rsv w 31 3)
  | 0x08 => (some (.copy t c d a b (w.testBit 1) (w.testBit 0)),
      tf ++ rsv w 31 2 ++ if w.testBit 1 then rd else [])
  | 0x0A => (some (.wgath t c d a b (fld 8 w 16) (fld 2 w 14) heat (fld 2 w 11) (fld 11 w 0)),
      tf ++ rsv w 31 24 ++ buf3 ++ heatF)
  | 0x0B => (some (.wtile t c a (fld 16 w 16) (fld 2 w 14) (fld 2 w 11) (fld 11 w 0)),
      tf ++ rd ++ rb ++ rsv w 13 13 ++ buf3)
  | 0x0C =>
    let size := bits w 4 0; let slot := bits w 27 16
    (some (.aircfg t (fld 12 w 16) (fld 8 w 8) (fld 5 w 0)),
      tf ++ rc ++ rd ++ ra ++ rb ++ rsv w 31 28 ++ rsv w 7 5 ++ ill (size > 16) 6 0
      ++ ill (size > 0 && slot = 0) 6 16 ++ ill (size > 0 && slot * 64 > size * 32768) 6 0)
  | 0x0D => (some (.airq t d a b), tf ++ rc ++ ri)
  | 0x0E => (some (.lnopen t a i), tf ++ rc ++ rd ++ rb)
  | 0x0F => (some (.lnpeg t d a i), tf ++ rc ++ rb)
  | 0x10 => (some (.lnfree t d a i), tf ++ rc ++ rb)
  | 0x11 => (some (.lnqry t d a i), tf ++ rc ++ rb)
  | 0x12 => (some (.pred t c a b (w.testBit 0)), tf ++ rd ++ rsv w 31 1)
  | 0x13 => (some (.darn t c d a (w.testBit 24) (fld 8 w 16) (fld 2 w 14) heat (fld 2 w 11) (fld 11 w 0)),
      tf ++ rb ++ rsv w 31 25 ++ buf3 ++ heatF)
  | 0x14 => (some (.pfch t c a b), tf ++ rd ++ ri)
  | 0x15 => (some (.ltk t d (w.testBit 4) (fld 4 w 0)),
      tf ++ rc ++ ra ++ rb ++ rsv w 31 5 ++ if w.testBit 4 then [] else rd ++ rsv w 3 0)
  | 0x16 => (some (.lend t), tf ++ rc ++ rd ++ ra ++ rb ++ ri)
  | _ => (none, tf ++ ill true 0 58)

/-! ## The S stream -/

/-- An S word (R35, Table 2.9). -/
def decodeS (w : Nat) : Read :=
  let t : Tok := ⟨fld 5 w 22, fld 5 w 17⟩
  let tf := tokFail w 22 ++ tokFail w 17
  let o := fld 2 w 15; let d := fld 3 w 14; let n := fld 9 w 0
  let n0 := ill (bits w 8 0 = 0) 6 0
  match bits w 31 27 with
  | 0x00 => (some (.bindo t o (fld 3 w 12)), tf ++ rsv w 11 0)
  | 0x01 => (some (.drain t o n), tf ++ rsv w 14 9 ++ n0)
  | 0x02 => (some (.drainx t o (fld 3 w 9) n), tf ++ rsv w 14 12 ++ n0)
  | 0x03 => (some (.sloop t o (fld 3 w 12) (fld 12 w 0)), tf ++ ill (bits w 11 0 = 0) 6 0)
  | 0x04 => (some (.saddi t d (fld 3 w 11) (fld 11 w 0)), tf)
  | 0x05 => (some (.sli t d (fld 14 w 0)), tf)
  | 0x06 => (some (.rgapnd t d (fld 3 w 11) (fld 3 w 8)), tf ++ rsv w 7 0)
  | 0x07 => (some (.rgcmt t d (fld 3 w 11) (fld 3 w 8)), tf ++ rsv w 7 0)
  | 0x08 => (some (.rgupk t d (fld 3 w 11) (fld 3 w 8)), tf ++ rsv w 7 0)
  | 0x09 => (some (.stk t d (fld 4 w 0)), tf ++ rsv w 13 4)
  | 0x0A => (some (.send t), tf ++ rsv w 16 0)
  | 0x0B => (some (.sld t d (fld 3 w 11) (fld 11 w 0)), tf)
  | _ => (none, tf ++ ill true 0 27)

/-! ## The X stream -/

/-- How an op uses a 5-bit operand field (Tables 9.2, 10.2, 12.3): reserved, any source, a source that may be the
immediate, a destination, v only, v or 28, a stream only, a v, a stream or 28, a predicate or e-flag number, or a raw
field of `n` low bits. -/
inductive Use where
  | no | src | srcImm | dst | vOnly | vOr28 | iOnly | vi28 | pd | pr | ed | raw (n : Nat)
  deriving DecidableEq, Repr

/-- How an op uses rnd3, sat, FI and FO: not at all, by f32 only, on s32 sat alone, on every type. -/
inductive Num3 where
  | none | arith | satS | both | f32 | fiOnly
  deriving DecidableEq, Repr

/-- The field use of an op: operand fields, bits of imm14[12:0] used, allowed types (none: reserved), rnd3 and sat,
FI and FO, whether pred3 is used, slot B only, whether imm14[13] is the op's own bit. -/
structure OpUse where
  d   : Use
  a   : Use
  b   : Use := .no
  c   : Use := .no
  imm : Nat := 0
  ty  : Option (List Nat) := none
  rs  : Num3 := .none
  ff  : Num3 := .none
  pr  : Bool := true
  bOnly : Bool := false

/-- The field use of every op8 (Table 2.8 with Tables 9.2, 10.2, 12.3 and R109, R110, R243 to R245, R257). -/
def opUse (op : Nat) : Option OpUse :=
  let ts := some [0, 13]
  let vcvt : List Nat := [0, 1, 2, 3, 4, 5, 6, 7, 8, 9, 10, 11, 13]
  match op with
  | 0x01 | 0x02 | 0x03 => some { d := .dst, a := .srcImm, b := .srcImm, ty := ts, rs := .arith, ff := .f32 }
  | 0x04 | 0x05 => some { d := .dst, a := .srcImm, b := .srcImm, c := .srcImm, ty := ts, rs := .arith, ff := .f32 }
  | 0x06 | 0x07 => some { d := .dst, a := .srcImm, b := .srcImm, ty := ts, ff := .f32 }
  | 0x08 | 0x09 => some { d := .dst, a := .src, ty := ts, rs := .satS, ff := .f32 }
  | 0x0A | 0x0B | 0x0C => some { d := .dst, a := .srcImm, b := .srcImm }
  | 0x0D | 0x0E | 0x0F => some { d := .dst, a := .src, b := .srcImm }
  | 0x10 => some { d := .dst, a := .srcImm, b := .srcImm }
  | 0x11 => some { d := .pd, a := .src, b := .src, imm := 0xF, ty := ts, ff := .fiOnly }
  | 0x12 => some { d := .dst, a := .srcImm }
  | 0x13 => some { d := .dst, a := .no, b := .raw 2, imm := 0x1FFF, ty := ts }
  | 0x14 => some { d := .dst, a := .src, b := .srcImm, c := .srcImm, ty := ts, ff := .f32 }
  | 0x40 | 0x42 => some { d := .dst, a := .src, imm := 0x3F }
  | 0x41 | 0x43 => some { d := .dst, a := .src, imm := 0xF }
  | 0x44 | 0x45 => some { d := .dst, a := .src, imm := 0xF, ty := ts, rs := .arith, ff := .f32 }
  | 0x46 | 0x47 => some { d := .dst, a := .src, imm := 0x1F, ty := ts, rs := .arith, ff := .f32 }
  | 0x48 => some { d := .dst, a := .src }
  | 0x60 | 0x61 | 0x62 => some { d := .pd, a := .pr, b := .pr, pr := false }
  | 0x63 => some { d := .pd, a := .pr, pr := false }
  | 0x64 => some { d := .pd, a := .iOnly, imm := 0x1FFF, pr := false }
  | 0x65 => some { d := .dst, a := .pr, imm := 1 }
  | 0x66 | 0x67 => some { d := .ed, a := .pr }
  | 0x70 => some { d := .dst, a := .src, imm := 0x1F, ty := some vcvt, rs := .both, ff := .both }
  | 0x71 | 0x72 => some { d := .dst, a := .src, ty := some [0, 1, 2] }
  | 0x73 | 0x74 | 0x75 | 0x76 | 0x77 | 0x78 | 0x79 =>
    some { d := .dst, a := .src, ty := some [0], rs := .both, ff := .both }
  | 0x80 => some { d := .vOnly, a := .src, b := .src, c := .vOr28, imm := 0x7FF, ty := ts }
  | 0x81 => some { d := .dst, a := .src, b := .src, c := .src, imm := 7 }
  | 0x82 | 0x83 => some { d := .dst, a := .src, b := .srcImm }
  | 0x84 => some { d := .dst, a := .src, b := .src, imm := 1, ty := some [0] }
  | 0x85 => some { d := .dst, a := .src, b := .raw 1, imm := 0x1FFF, ty := ts, pr := false }
  | 0x86 => some { d := .dst, a := .vOr28, ty := ts }
  | 0x87 => some { d := .dst, a := .vOnly, b := .srcImm, c := .src, ty := some [0], pr := false }
  | 0x88 => some { d := .dst, a := .src, b := .src, c := .src, imm := 0xFF, ty := some [0], pr := false }
  | 0x90 => some { d := .dst, a := .no, imm := 0x1FF, bOnly := true }
  | 0x91 => some { d := .no, a := .vi28, imm := 0x1F, bOnly := true }
  | 0x92 => some { d := .no, a := .no, imm := 7, pr := false, bOnly := true }
  | 0x93 => some { d := .no, a := .no, imm := 0x1FFF, pr := false, bOnly := true }
  | 0x95 => some { d := .no, a := .no, pr := false, bOnly := true }
  | 0x96 => some { d := .dst, a := .no, bOnly := true }
  | 0xA0 => some { d := .raw 2, a := .raw 5, b := .raw 5, c := .raw 5, imm := 0x1FFF, pr := false, bOnly := true }
  | 0xA1 | 0xA2 => some { d := .raw 3, a := .no, imm := 0x1FFF, pr := false, bOnly := true }
  | 0xA3 => some { d := .dst, a := .no, imm := 0xF, pr := false, bOnly := true }
  | 0xA4 => some { d := .no, a := .no, pr := false, bOnly := true }
  | _ => none

/-- The op8 and slot of an X slot instruction (Table 2.8); `none` for the others. -/
def xParts : Instr → Option (Nat × Slot)
  | .vadd x => some (0x01, x) | .vsub x => some (0x02, x) | .vmul x => some (0x03, x) | .vfma x => some (0x04, x)
  | .vfms x => some (0x05, x) | .vmin x => some (0x06, x) | .vmax x => some (0x07, x) | .vabs x => some (0x08, x)
  | .vneg x => some (0x09, x) | .vand x => some (0x0A, x) | .vor x => some (0x0B, x) | .vxor x => some (0x0C, x)
  | .vshl x => some (0x0D, x) | .vshr x => some (0x0E, x) | .vsra x => some (0x0F, x) | .vsel x => some (0x10, x)
  | .vcmp x => some (0x11, x) | .vmov x => some (0x12, x) | .vldi x => some (0x13, x) | .vclamp x => some (0x14, x)
  | .vrotr x => some (0x40, x) | .vrotc x => some (0x41, x) | .vbcr x => some (0x42, x) | .vbcc x => some (0x43, x)
  | .vredr x => some (0x44, x) | .vredc x => some (0x45, x) | .vscnr x => some (0x46, x) | .vscnc x => some (0x47, x)
  | .vxpq x => some (0x48, x) | .pand x => some (0x60, x) | .por x => some (0x61, x) | .pxor x => some (0x62, x)
  | .pnot x => some (0x63, x) | .pset x => some (0x64, x) | .pcnt x => some (0x65, x) | .voteAny x => some (0x66, x)
  | .voteAll x => some (0x67, x) | .vcvt x => some (0x70, x) | .vflip x => some (0x71, x) | .vunflip x => some (0x72, x)
  | .vexp2 x => some (0x73, x) | .vlog2 x => some (0x74, x) | .vrcp x => some (0x75, x) | .vrsq x => some (0x76, x)
  | .vsqrt x => some (0x77, x) | .vtanh x => some (0x78, x) | .vsig x => some (0x79, x) | .vtopk x => some (0x80, x)
  | .vhist x => some (0x81, x) | .vcompr x => some (0x82, x) | .vexpnd x => some (0x83, x) | .vnrm x => some (0x84, x)
  | .vcheck x => some (0x85, x) | .vrng x => some (0x86, x) | .vsample x => some (0x87, x) | .vspchk x => some (0x88, x)
  | .vrdacc x => some (0x90, x) | .vrdaccPeek x => some (0x90, x) | .vwracc x => some (0x91, x) | .mclr x => some (0x92, x)
  | .mldc x => some (0x93, x) | .mgo x => some (0x95, x) | .mqry x => some (0x96, x) | .xloop x => some (0xA0, x)
  | .xbt x => some (0xA1, x) | .xbn x => some (0xA2, x) | .xtk x => some (0xA3, x) | .xend x => some (0xA4, x)
  | _ => none

/-- The X slot instruction of an op8; imm14[5] tells `VRDACC.peek` from `VRDACC` (Table 10.2). -/
def xOf (op : Nat) (x : Slot) : Option Instr :=
  match op with
  | 0x01 => some (.vadd x) | 0x02 => some (.vsub x) | 0x03 => some (.vmul x) | 0x04 => some (.vfma x)
  | 0x05 => some (.vfms x) | 0x06 => some (.vmin x) | 0x07 => some (.vmax x) | 0x08 => some (.vabs x)
  | 0x09 => some (.vneg x) | 0x0A => some (.vand x) | 0x0B => some (.vor x) | 0x0C => some (.vxor x)
  | 0x0D => some (.vshl x) | 0x0E => some (.vshr x) | 0x0F => some (.vsra x) | 0x10 => some (.vsel x)
  | 0x11 => some (.vcmp x) | 0x12 => some (.vmov x) | 0x13 => some (.vldi x) | 0x14 => some (.vclamp x)
  | 0x40 => some (.vrotr x) | 0x41 => some (.vrotc x) | 0x42 => some (.vbcr x) | 0x43 => some (.vbcc x)
  | 0x44 => some (.vredr x) | 0x45 => some (.vredc x) | 0x46 => some (.vscnr x) | 0x47 => some (.vscnc x)
  | 0x48 => some (.vxpq x) | 0x60 => some (.pand x) | 0x61 => some (.por x) | 0x62 => some (.pxor x)
  | 0x63 => some (.pnot x) | 0x64 => some (.pset x) | 0x65 => some (.pcnt x) | 0x66 => some (.voteAny x)
  | 0x67 => some (.voteAll x) | 0x70 => some (.vcvt x) | 0x71 => some (.vflip x) | 0x72 => some (.vunflip x)
  | 0x73 => some (.vexp2 x) | 0x74 => some (.vlog2 x) | 0x75 => some (.vrcp x) | 0x76 => some (.vrsq x)
  | 0x77 => some (.vsqrt x) | 0x78 => some (.vtanh x) | 0x79 => some (.vsig x) | 0x80 => some (.vtopk x)
  | 0x81 => some (.vhist x) | 0x82 => some (.vcompr x) | 0x83 => some (.vexpnd x) | 0x84 => some (.vnrm x)
  | 0x85 => some (.vcheck x) | 0x86 => some (.vrng x) | 0x87 => some (.vsample x) | 0x88 => some (.vspchk x)
  | 0x90 => some (if x.imm.getLsbD 5 then .vrdaccPeek x else .vrdacc x)
  | 0x91 => some (.vwracc x) | 0x92 => some (.mclr x)
  | 0x93 => some (.mldc x) | 0x95 => some (.mgo x) | 0x96 => some (.mqry x) | 0xA0 => some (.xloop x)
  | 0xA1 => some (.xbt x) | 0xA2 => some (.xbn x) | 0xA3 => some (.xtk x) | 0xA4 => some (.xend x)
  | _ => none

/-- The fields of a slot (Table 2.6). -/
def slotOf (w : Nat) : Slot :=
  { dst := fld 5 w 43, srcA := fld 5 w 38, srcB := fld 5 w 33, srcC := fld 5 w 28, pred := fld 3 w 25,
    fi := w.testBit 24, fo := w.testBit 23, rnd := fld 3 w 20, sat := w.testBit 19, type := fld 5 w 14,
    imm := fld 14 w 0 }

/-- The failures of one operand field at `[l+4:l]` under its use (R29, R157, R159); where only v, or v and 28, may stand,
any other code is cause 0x01 (R181, R222). -/
def useFail (w l : Nat) (u : Use) : List Fail :=
  let v := bits w (l + 4) l
  let r30 : List Fail := rsvValue (v ≥ 30) l
  match u with
  | .no => rsv w (l + 4) l
  | .src => r30 ++ ill ((24 ≤ v && v ≤ 27) || v = 29) 2 l
  | .srcImm => r30 ++ ill (24 ≤ v && v ≤ 27) 2 l
  | .dst => r30 ++ ill ((16 ≤ v && v ≤ 23) || v = 29) 2 l
  | .vOnly => ill (16 ≤ v) 2 l
  | .vOr28 => ill (16 ≤ v && v ≠ 28) 2 l
  | .iOnly => []
  | .vi28 => r30 ++ ill ((24 ≤ v && v ≤ 27) || v = 29) 2 l
  | .pd => rsv w (l + 4) (l + 3) ++ ill (v % 8 = 0) 2 l
  | .pr => rsv w (l + 4) (l + 3)
  | .ed => rsv w (l + 4) (l + 2)
  | .raw n => if n = 5 then [] else rsv w (l + 4) (l + n)

/-- Is the code of a source a stream (R29)? -/
def isStream (v : Nat) : Bool := 16 ≤ v && v ≤ 23

/-- Can a stream source stand in a field of this use? -/
def takesStream (u : Use) : Bool :=
  match u with
  | .src | .srcImm | .iOnly | .vi28 => true
  | _ => false

/-- The failures of imm14 reserved bits, given the bits an op uses (R163). -/
def immFail (w mask : Nat) : List Fail :=
  (List.range 13).filterMap fun k =>
    if w.testBit k && !mask.testBit k then some ⟨2, 7, k, false⟩ else none

/-- The failures of an op's own value rules: R110, R167, R168, R170, R174, R175, R181, R222, R243, R245. Of a `VLDI` whose mode does not
go with type5 0 the mode's field is at fault (DESIGN CHOICE, log 67). -/
def ownFail (op w : Nat) (x : Slot) : List Fail :=
  let ty := x.type.toNat; let i := x.imm.toNat; let a := x.srcA.toNat
  match op with
  | 0x11 => ill (bits i 3 0 ≥ 12) 0 0 ++ ill (ty = 0 && 6 ≤ bits i 3 0 && bits i 3 0 ≤ 9) 6 0
      ++ ill (ty = 13 && (bits i 3 0 = 10 || bits i 3 0 = 11)) 6 0
  | 0x13 => ill (ty = 0 && x.srcB.toNat ≠ 0 && x.srcB.toNat < 4) 6 33
  | 0x44 | 0x45 => ill (bits i 2 0 ≥ 5) 0 0 ++ ill (ty = 0 && (bits i 2 0 = 3 || bits i 2 0 = 4)) 6 0
      ++ ill (i.testBit 3 && !isStream a) 2 38
  | 0x46 | 0x47 => ill (bits i 2 0 ≥ 3) 0 0 ++ ill (i.testBit 3 && !isStream a) 2 38
  | 0x64 => if bits i 1 0 = 2 then ill (!isStream a) 2 38 ++ rsv w 12 2
      else rsv w 42 38 ++ if bits i 1 0 = 3 then [] else rsv w 12 2
  | 0x70 => ill (!((bits i 4 0 ≤ 11) || bits i 4 0 = 13 || bits i 4 0 = 15)) 6 0
  | 0x80 => ill (bits i 10 4 = 0 || bits i 10 4 > 64) 6 4
  | 0x85 =>
    let spos := bits i 12 7 + 64 * (x.srcB.toNat % 2)
    if i.testBit 6 then ill (spos > 64) 6 7 else rsv w 12 7 ++ rsv w 33 33
      ++ ill (bits i 2 0 ≠ 0 && bits i 2 0 = bits i 5 3) 3 0
  | 0x88 => ill (bits i 6 0 = 0 || bits i 6 0 > 64) 6 0
  | 0x90 => if i.testBit 5 then [] else rsv w 8 6
  | 0xA0 => ill (bits i 12 0 = 0) 6 0 ++
      (if i.testBit 13 then ill (16 ≤ a && a ≤ 29) 2 38 ++ rsvValue (a ≥ 30) 38 ++ rsv w 37 28 else [])
  | 0xA1 | 0xA2 => ill (x.dst.toNat % 8 ≥ 5) 6 43 ++ rsv w 13 13
  | _ => []

/-- `VCHECK` with STG also checks that pa and pm differ (R110). -/
def stgFail (op : Nat) (x : Slot) : List Fail :=
  let i := x.imm.toNat
  if op = 0x85 && i.testBit 6 then ill (bits i 2 0 ≠ 0 && bits i 2 0 = bits i 5 3) 3 0 else []

/-- The failures of rnd3, sat, FI and FO (R28, R159, R174). -/
def numFail (op w : Nat) (u : OpUse) (x : Slot) : List Fail :=
  let f32 := x.type = 0
  let rndF := rsv w 22 20; let satF := rsv w 19 19; let ff := rsv w 24 23
  let sums := !(0x44 ≤ op && op ≤ 0x47) || bits x.imm.toNat 2 0 = 0
  let rndV := rsvValue (x.rnd.toNat ≥ 5) 20
  (match u.rs with
    | .arith => if sums then (if f32 then rndV else rndF) else rndF ++ satF
    | .satS => rndF ++ if f32 then satF else []
    | .both => rndV
    | _ => rndF ++ satF) ++
  (match u.ff with
    | .f32 => if f32 then [] else ff
    | .fiOnly => if f32 then rsv w 23 23 else ff
    | .both => []
    | _ => ff)

/-- Every failure of a slot that its bits alone decide, at positions within the slot. A type code of 16 to 31 is reserved
(R28), but for `VCHECK`, where any type but 0 and 13 is cause 0x01 (R110). -/
def slotFails (op w : Nat) (inB : Bool) : List Fail :=
  if op = 0 then rsv w 47 0 else
  match opUse op with
  | none => ill true (if op = 0x94 then 3 else 0) 48
  | some u =>
    let x := slotOf w
    let srcs := [(u.a, x.srcA.toNat), (u.b, x.srcB.toNat), (u.c, x.srcC.toNat)]
    let streams := srcs.any (fun s => takesStream s.1 && isStream s.2) && !(op = 0x64 && bits x.imm.toNat 1 0 ≠ 2)
    let imm29 := srcs.any fun s => s.1 == .srcImm && s.2 == 29
    let ownPk := op = 0xA0 || op = 0xA1 || op = 0xA2
    ill (u.bOnly && !inB) 3 48
      ++ useFail w 43 u.d ++ useFail w 38 u.a ++ useFail w 33 u.b ++ useFail w 28 u.c
      ++ (if u.pr then [] else rsv w 27 25)
      ++ (match u.ty with
          | none => rsv w 18 14
          | some ts => if x.type.toNat ≥ 16 && op ≠ 0x85 then rsvValue true 14 else ill (!ts.contains x.type.toNat) 6 14)
      ++ numFail op w u x
      ++ (if imm29 then [] else immFail w u.imm)
      ++ (if ownPk || streams then [] else rsv w 13 13)
      ++ ownFail op w x ++ stgFail op x

/-- A failure of a slot placed in its word. -/
def Fail.inWord (f : Fail) (inB : Bool) : Fail :=
  { f with at_ := f.at_ + (if inB then 0 else 56), slotB := inB }

/-- An X word: its gap, wait and signal fields and its one or two instructions (R27, R33). -/
structure XWord where
  gap  : Nat
  tok  : Tok
  long : Bool
  a    : Instr
  b    : Instr
  deriving DecidableEq, Repr

/-- The selectors of `MSETF` and the width of the value bits each uses (Table 10.3). -/
def msetfWidth (sel : Nat) : Option Nat :=
  if sel ≤ 0x0F then some 64
  else match sel with
    | 0x10 | 0x11 | 0x12 => some 16
    | 0x13 => some 4
    | 0x14 => some 16
    | 0x15 => some 11
    | _ => none

/-- The vector register, predicates and e-flag an instruction's slot names as destinations, each with the position of the
field that names it (R32, R110, R160). -/
def slotDests (i : Instr) : List ((Nat × Nat) × Nat) :=
  match xParts i with
  | none => []
  | some (op, x) =>
    let im := x.imm.toNat
    match opUse op with
    | none => []
    | some u =>
      (match u.d with
        | .dst | .vOnly => if x.dst.toNat < 16 then [((0, x.dst.toNat), 43)] else []
        | .pd => [((1, x.dst.toNat % 8), 43)]
        | .ed => [((2, x.dst.toNat % 4), 43)]
        | _ => [])
      ++ (if op = 0x85 then [((1, bits im 2 0), 0), ((1, bits im 5 3), 3)] else [])
      ++ (if op = 0x90 && im.testBit 5 then [((1, bits im 8 6), 6)] else [])

/-- The failures of slots that share a destination (R32, R110, R160), at the fields of slot B, which stand lowest in the
word (R36). Predicate 0 in a field of `VCHECK` or of a peek names none. -/
def sharedDest (a b : Instr) : List Fail :=
  (slotDests b).filterMap fun d =>
    if (d.1.1 ≠ 1 || d.1.2 ≠ 0) && ((slotDests a).map (·.1)).contains d.1 then some ⟨1, 3, d.2, true⟩ else none

/-- Do the slots of a word share a destination (R32, R160)? -/
def sameDest (a b : Instr) : Bool := !(sharedDest a b).isEmpty

/-- An X word (R27 to R33). -/
def decodeX (w : Nat) : Option XWord × List Fail :=
  let t : Tok := ⟨fld 5 w 120, fld 5 w 115⟩
  let gap := bits w 127 125
  let hf := tokFail w 120 ++ tokFail w 115 ++ rsv w 114 113
  if w.testBit 112 then
    let op := bits w 111 104; let sel := fld 8 w 96; let v := fld 64 w 0
    let opF := ill (op ≠ 0x94) 3 104 ++ rsv w 95 64
    match msetfWidth sel.toNat with
    | none => (none, hf ++ opF ++ ill true 0 96)
    | some n => (some ⟨gap, t, true, .nop, .msetf sel v⟩,
        hf ++ opF ++ if n < 64 then rsv w 63 n else [])
  else
    let wa := bits w 111 56; let wb := bits w 55 0
    let opA := bits wa 55 48; let opB := bits wb 55 48
    let fs := hf ++ (slotFails opA wa false).map (·.inWord false) ++ (slotFails opB wb true).map (·.inWord true)
    let ia := if opA = 0 then some Instr.nop else xOf opA (slotOf wa)
    let ib := if opB = 0 then some Instr.nop else xOf opB (slotOf wb)
    match ia, ib with
    | some a, some b =>
      (some ⟨gap, t, false, a, b⟩, fs ++ sharedDest a b)
    | _, _ => (none, fs)

/-! ## Decode checks that depend on the context (R21, R36) -/

/-- The context a word issues in: handler or task, the task's allotment, and how many words of the section follow the
word. `air` is the airing-store allowance of the task type (R100). -/
structure Ctx where
  left : Nat
  handler : Bool
  nv : Nat
  nz : Nat
  ni : Nat
  no : Nat
  nt : Nat
  air : Nat

/-- Register fields of a C instruction, with their bit positions. -/
def cRegs : Instr → List (Nat × Nat)
  | .add d a b | .sub d a b | .and d a b | .or d a b | .xor d a b | .shl d a b | .shr d a b | .sra d a b
  | .min d a b | .max d a b | .minu d a b | .maxu d a b | .mul d a b | .mulh d a b | .mulhu d a b | .divu d a b
  | .remu d a b | .sel d a b _ | .atomCas d a b _ _ _ | .atomXadd d a b _ _ _ | .atomXchg d a b _ _ _
  | .atomAnd d a b _ _ _ | .atomOr d a b _ _ _ | .atomMin d a b _ _ _ | .atomMax d a b _ _ _
  | .remq d a b | .tndr d a b => [(d.toNat, 21), (a.toNat, 16), (b.toNat, 11)]
  | .clz d a | .popc d a | .addi d a _ | .andi d a _ | .ori d a _ | .xori d a _ | .shli d a _ | .shri d a _
  | .srai d a _ | .ext d a _ _ | .ins d a _ _ | .ldb d a _ _ | .ldh d a _ _ | .ldw d a _ _ | .ldd d a _ _
  | .ldbu d a _ _ | .ldhu d a _ _ | .ldwu d a _ _ | .stb d a _ _ | .sth d a _ _ | .stw d a _ _ | .std d a _ _
  | .lda d a _ _ _ _ | .stl d a _ _ _ _ | .llk d a _ _ _ | .sul d a _ _ _ | .launch d a | .spawn d a
  | .wdraw d a => [(d.toNat, 21), (a.toNat, 16)]
  | .lui d _ | .liw d _ | .tkcnt d _ | .mfs d _ | .qdrop d _ | .qdepth d _ => [(d.toNat, 21)]
  | .cmp _ _ a b => [(a.toNat, 15), (b.toNat, 10)]
  | .cmpi _ _ a _ => [(a.toNat, 15)]
  | .mtb _ a | .tksigRemote a _ | .mts a _ => [(a.toNat, 16)]
  | .bidf a b => [(a.toNat, 16), (b.toNat, 11)]
  | _ => []

/-- A queue number outside the allotment (R255). -/
def queueFail (c : Ctx) (q at_ : Nat) : List Fail := ill (q ≥ c.nt) 1 at_

/-- A wait or signal field that names a queue outside the allotment. -/
def tokAllot (c : Ctx) (f : BitVec 5) (l : Nat) : List Fail :=
  if f.getLsbD 4 then queueFail c (f.toNat % 16) l else []

/-- System-register numbers that both contexts may name (Table 13.7). -/
def isTaskReg (n : Nat) : Bool :=
  [0x001, 0x002, 0x003, 0x020, 0x021, 0x030, 0x031, 0x032, 0x033, 0x034, 0x035, 0x041, 0x050, 0x051, 0x06B, 0x080,
    0x081, 0x082, 0x0A0, 0x0A1, 0x0A2, 0x0A3, 0x0A4].contains n

/-- System-register numbers of the handler context alone (R278, R279, R283). -/
def isHandlerReg (n : Nat) : Bool := 0x060 ≤ n && n ≤ 0x06E && n ≠ 0x06B

/-- System registers that an `MTS` in this context may not name: reason 0 where no register is, reason 6 where the
context may not (R240, R252, R278, R326). -/
def sysFail (handler write : Bool) (n : Nat) : List Fail :=
  if isTaskReg n then
    ill (write && n = 0x0A4) 0 0 ++ ill (write && n = 0x003 && !handler) 6 0
  else if isHandlerReg n then ill (!handler) 6 0
  else ill true 0 0

/-- The context checks of a C instruction (R21, R44, R255, R276, R285, R307). -/
def cFails (c : Ctx) (i : Instr) : List Fail :=
  (if c.handler then (cRegs i).flatMap fun r => ill (r.1 ≥ 16) 5 r.2 else []) ++
  match i with
  | .tksig q | .tksigRemote _ q | .tkwait q | .tkcnt _ q | .tkinit _ q => queueFail c q.toNat 0
  | .trap _ | .node | .endC => ill c.handler 6 12
  | .launch _ _ | .spawn _ _ | .remq _ _ _ | .tndr _ _ _ | .wdraw _ _ | .bidf _ _ => ill c.handler 6 4
  | .eret => ill (!c.handler) 6 12
  | .mfs _ n => sysFail c.handler false n.toNat
  | .mts _ n => sysFail c.handler true n.toNat
  | _ => []

/-- The wait and signal fields of an L or S instruction. -/
def lsTok : Instr → Option Tok
  | .jadd t _ _ _ | .jsub t _ _ _ | .jshl t _ _ _ | .jshr t _ _ _ | .jand t _ _ _ | .jor t _ _ _ | .jmul t _ _ _
  | .jaddi t _ _ _ | .jli t _ _ | .jlih t _ _ | .lloop t _ _ _ | .lbr t _ _ _ _ | .bindi t _ _ _ _ _
  | .istart t _ _ | .copy t _ _ _ _ _ _ | .wgath t _ _ _ _ _ _ _ _ _ | .wtile t _ _ _ _ _ _ | .aircfg t _ _ _
  | .airq t _ _ _ | .lnopen t _ _ | .lnpeg t _ _ _ | .lnfree t _ _ _ | .lnqry t _ _ _ | .pred t _ _ _ _
  | .darn t _ _ _ _ _ _ _ _ _ | .pfch t _ _ _ | .ltk t _ _ _ | .lend t
  | .bindo t _ _ | .drain t _ _ | .drainx t _ _ _ | .sloop t _ _ _ | .saddi t _ _ _ | .sli t _ _ | .rgapnd t _ _ _
  | .rgcmt t _ _ _ | .rgupk t _ _ _ | .stk t _ _ | .send t | .sld t _ _ _ => some t
  | _ => none

/-- The queues a word's wait and signal fields name, at these positions, outside the allotment (R255). -/
def tokFails (c : Ctx) (w wait sig : Nat) : List Fail := tokAllot c (fld 5 w wait) wait ++ tokAllot c (fld 5 w sig) sig

/-- The context checks of an L instruction (R12, R100, R151, R255). -/
def lFails (c : Ctx) (i : Instr) : List Fail :=
  (match lsTok i with
    | some t => tokAllot c t.wait 49 ++ tokAllot c t.sig 44
    | none => []) ++
  match i with
  | .lloop _ _ _ e => ill (e.toNat > c.left) 6 0
  | .bindi _ _ _ n _ _ | .istart _ _ n => ill (n.toNat ≥ c.ni) 1 0
  | .ltk _ _ true q => queueFail c q.toNat 0
  | .aircfg _ _ _ size => ill (size.toNat > c.air) 6 0
  | _ => []

/-- The context checks of an S instruction (R12, R206, R255). -/
def sFails (c : Ctx) (i : Instr) : List Fail :=
  (match lsTok i with
    | some t => tokAllot c t.wait 22 ++ tokAllot c t.sig 17
    | none => []) ++
  match i with
  | .sloop _ _ _ e => ill (e.toNat > c.left) 6 0
  | .bindo _ o _ | .drain _ o _ | .drainx _ o _ _ => ill (o.toNat ≥ c.no) 1 15
  | .stk _ _ q => queueFail c q.toNat 0
  | _ => []

/-- An operand code outside the allotment (R29). -/
def codeAllot (c : Ctx) (u : Use) (v l : Nat) : List Fail :=
  match u with
  | .src | .srcImm | .dst | .vOnly | .vOr28 | .iOnly | .vi28 =>
    ill (v < 16 && v ≥ c.nv && u != .iOnly) 1 l ++ ill (16 ≤ v && v < 24 && v - 16 ≥ c.ni && takesStream u) 1 l
      ++ ill (24 ≤ v && v < 28 && v - 24 ≥ c.no && u == .dst) 1 l
  | _ => []

/-- The context checks of an X slot instruction (R29, R192, R243, R255). -/
def slotCtxFails (c : Ctx) (i : Instr) : List Fail :=
  match xParts i with
  | none => []
  | some (op, x) =>
    match opUse op with
    | none => []
    | some u =>
      let a := if op = 0x64 && bits x.imm.toNat 1 0 ≠ 2 then Use.no else u.a
      codeAllot c u.d x.dst.toNat 43 ++ codeAllot c a x.srcA.toNat 38 ++ codeAllot c u.b x.srcB.toNat 33
        ++ codeAllot c u.c x.srcC.toNat 28
        ++ ill ((op = 0x90 || op = 0x91 || op = 0x92) && x.imm.toNat % 8 ≥ c.nz) 1 0
        ++ ill (op = 0xA0 && x.imm.getLsbD 13 && x.srcA.toNat < 16 && x.srcA.toNat ≥ c.nv) 1 38
        ++ ill (op = 0xA0 && x.imm.toNat % 2 ^ 13 > c.left) 6 0
        ++ (if op = 0xA3 then queueFail c (x.imm.toNat % 16) 0 else [])

/-- The context checks of an X word. -/
def xFails (c : Ctx) (w : XWord) : List Fail :=
  tokAllot c w.tok.wait 120 ++ tokAllot c w.tok.sig 115
    ++ (slotCtxFails c w.a).map (·.inWord false) ++ (slotCtxFails c w.b).map (·.inWord true)

/-- The context checks of an X word whose instruction no table gives: its token fields and the slots that are one (R36). -/
def xRawFails (c : Ctx) (w : Nat) : List Fail :=
  let slot (v : Nat) (inB : Bool) : List Fail :=
    (((xOf (bits v 55 48) (slotOf v)).map (slotCtxFails c)).getD []).map (·.inWord inB)
  tokFails c w 120 115 ++ if w.testBit 112 then [] else slot (bits w 111 56) false ++ slot (bits w 55 0) true

/-! ## Total decoders and the table's words -/

/-- The instruction of a C word, or the failure reported. -/
def readC (w : Nat) : Except Fail Instr :=
  match decodeC w with
  | (some i, []) => .ok i
  | (_, fs) => .error ((pickFail fs).getD ⟨1, 0, 26, false⟩)

/-- The instruction of an L word, or the failure reported. -/
def readL (w : Nat) : Except Fail Instr :=
  match decodeL w with
  | (some i, []) => .ok i
  | (_, fs) => .error ((pickFail fs).getD ⟨1, 0, 58, false⟩)

/-- The instruction of an S word, or the failure reported. -/
def readS (w : Nat) : Except Fail Instr :=
  match decodeS w with
  | (some i, []) => .ok i
  | (_, fs) => .error ((pickFail fs).getD ⟨1, 0, 27, false⟩)

/-- The X word of 128 bits, or the failure reported. -/
def readX (w : Nat) : Except Fail XWord :=
  match decodeX w with
  | (some i, []) => .ok i
  | (_, fs) => .error ((pickFail fs).getD ⟨1, 0, 48, true⟩)

/-- The instruction of a word of `nbits` bits as the opcode table numbers them. A 32-bit word may stand in C or in S:
C is read first, and S where C refuses (log 11). A 128-bit word gives its slot B, or its slot A where B is NOP. -/
def decodeTableWord (nbits w : Nat) : Option Instr :=
  if nbits = 32 then
    match readC w with
    | .ok i => some i
    | .error _ => (readS w).toOption
  else if nbits = 64 then (readL w).toOption
  else if nbits = 128 then
    match readX w with
    | .ok x => some (if x.b = .nop then x.a else x.b)
    | .error _ => none
  else none

/-! ## Encoders -/

/-- A C word from its major opcode, rd, ra and imm16. -/
def encCI (op d a i : Nat) : Nat := op * 2 ^ 26 + d * 2 ^ 21 + a * 2 ^ 16 + i
/-- A CR word. -/
def encCR (op d a b fn cls : Nat) : Nat := encCI op d a (b * 2 ^ 11 + fn * 2 ^ 4 + cls)
/-- A CM word. -/
def encCM (op d a c o : Nat) : Nat := encCI op d a (c * 2 ^ 12 + o)
/-- A CB word. -/
def encCB (op b f o : Nat) : Nat := op * 2 ^ 26 + b * 2 ^ 24 + f * 2 ^ 21 + o
/-- An L word without its token fields. -/
def encL (t : Tok) (op c d a b i : Nat) : Nat :=
  op * 2 ^ 58 + c * 2 ^ 54 + t.wait.toNat * 2 ^ 49 + t.sig.toNat * 2 ^ 44 + d * 2 ^ 40 + a * 2 ^ 36 + b * 2 ^ 32 + i
/-- An S word. -/
def encS (t : Tok) (op operands : Nat) : Nat :=
  op * 2 ^ 27 + t.wait.toNat * 2 ^ 22 + t.sig.toNat * 2 ^ 17 + operands

/-- The 56 bits of a slot (Table 2.6). -/
def encSlot (op : Nat) (x : Slot) : Nat :=
  op * 2 ^ 48 + x.dst.toNat * 2 ^ 43 + x.srcA.toNat * 2 ^ 38 + x.srcB.toNat * 2 ^ 33 + x.srcC.toNat * 2 ^ 28
    + x.pred.toNat * 2 ^ 25 + x.fi.toNat * 2 ^ 24 + x.fo.toNat * 2 ^ 23 + x.rnd.toNat * 2 ^ 20 + x.sat.toNat * 2 ^ 19
    + x.type.toNat * 2 ^ 14 + x.imm.toNat

/-- The word of a C instruction (Tables 2.1 to 2.4). -/
def encodeC : Instr → Option Nat
  | .add d a b => some (encCR 0 d.toNat a.toNat b.toNat 0x00 0)
  | .sub d a b => some (encCR 0 d.toNat a.toNat b.toNat 0x01 0)
  | .and d a b => some (encCR 0 d.toNat a.toNat b.toNat 0x02 0)
  | .or d a b => some (encCR 0 d.toNat a.toNat b.toNat 0x03 0)
  | .xor d a b => some (encCR 0 d.toNat a.toNat b.toNat 0x04 0)
  | .shl d a b => some (encCR 0 d.toNat a.toNat b.toNat 0x05 0)
  | .shr d a b => some (encCR 0 d.toNat a.toNat b.toNat 0x06 0)
  | .sra d a b => some (encCR 0 d.toNat a.toNat b.toNat 0x07 0)
  | .min d a b => some (encCR 0 d.toNat a.toNat b.toNat 0x08 0)
  | .max d a b => some (encCR 0 d.toNat a.toNat b.toNat 0x09 0)
  | .minu d a b => some (encCR 0 d.toNat a.toNat b.toNat 0x0A 0)
  | .maxu d a b => some (encCR 0 d.toNat a.toNat b.toNat 0x0B 0)
  | .mul d a b => some (encCR 0 d.toNat a.toNat b.toNat 0x0C 0)
  | .mulh d a b => some (encCR 0 d.toNat a.toNat b.toNat 0x0D 0)
  | .mulhu d a b => some (encCR 0 d.toNat a.toNat b.toNat 0x0E 0)
  | .divu d a b => some (encCR 0 d.toNat a.toNat b.toNat 0x0F 0)
  | .remu d a b => some (encCR 0 d.toNat a.toNat b.toNat 0x10 0)
  | .clz d a => some (encCR 0 d.toNat a.toNat 0 0x11 0)
  | .popc d a => some (encCR 0 d.toNat a.toNat 0 0x12 0)
  | .sel d a b f => some (encCR 0 d.toNat a.toNat b.toNat 0x13 f.toNat)
  | .addi d a i => some (encCI 0x01 d.toNat a.toNat i.toNat)
  | .andi d a i => some (encCI 0x02 d.toNat a.toNat i.toNat)
  | .ori d a i => some (encCI 0x03 d.toNat a.toNat i.toNat)
  | .xori d a i => some (encCI 0x04 d.toNat a.toNat i.toNat)
  | .shli d a n => some (encCI 0x05 d.toNat a.toNat n.toNat)
  | .shri d a n => some (encCI 0x05 d.toNat a.toNat (1 * 2 ^ 14 + n.toNat))
  | .srai d a n => some (encCI 0x05 d.toNat a.toNat (2 * 2 ^ 14 + n.toNat))
  | .lui d i => some (0x06 * 2 ^ 26 + d.toNat * 2 ^ 21 + i.toNat)
  | .liw d i => some (0x07 * 2 ^ 26 + d.toNat * 2 ^ 21 + i.toNat)
  | .ext d a p l => some (encCI 0x08 d.toNat a.toNat (p.toNat * 2 ^ 6 + l.toNat))
  | .ins d a p l => some (encCI 0x09 d.toNat a.toNat (p.toNat * 2 ^ 6 + l.toNat))
  | .cmp c f a b => some (0x0A * 2 ^ 26 + c.toNat * 2 ^ 23 + f.toNat * 2 ^ 20 + a.toNat * 2 ^ 15 + b.toNat * 2 ^ 10)
  | .cmpi c f a i => some (0x0B * 2 ^ 26 + c.toNat * 2 ^ 23 + f.toNat * 2 ^ 20 + a.toNat * 2 ^ 15 + i.toNat)
  | .pbt b o => some (encCB 0x0C b.toNat 0 o.toNat)
  | .bt b f => some (encCB 0x0D b.toNat f.toNat 0)
  | .btn b f => some (encCB 0x0E b.toNat f.toNat 0)
  | .ba b => some (encCB 0x0F b.toNat 0 0)
  | .call b => some (encCB 0x10 b.toNat 0 0)
  | .mtb b a => some (encCI 0x11 b.toNat a.toNat 0)
  | .ldb d a c o => some (encCM 0x12 d.toNat a.toNat c.toNat o.toNat)
  | .ldh d a c o => some (encCM 0x13 d.toNat a.toNat c.toNat o.toNat)
  | .ldw d a c o => some (encCM 0x14 d.toNat a.toNat c.toNat o.toNat)
  | .ldd d a c o => some (encCM 0x15 d.toNat a.toNat c.toNat o.toNat)
  | .ldbu d a c o => some (encCM 0x16 d.toNat a.toNat c.toNat o.toNat)
  | .ldhu d a c o => some (encCM 0x17 d.toNat a.toNat c.toNat o.toNat)
  | .ldwu d a c o => some (encCM 0x18 d.toNat a.toNat c.toNat o.toNat)
  | .stb d a c o => some (encCM 0x19 d.toNat a.toNat c.toNat o.toNat)
  | .sth d a c o => some (encCM 0x1A d.toNat a.toNat c.toNat o.toNat)
  | .stw d a c o => some (encCM 0x1B d.toNat a.toNat c.toNat o.toNat)
  | .std d a c o => some (encCM 0x1C d.toNat a.toNat c.toNat o.toNat)
  | .lda d a c z s o => some (encCM 0x1D d.toNat a.toNat c.toNat (z.toNat * 2 ^ 10 + s.toNat * 2 ^ 7 + o.toNat))
  | .stl d a c z s o => some (encCM 0x1E d.toNat a.toNat c.toNat (z.toNat * 2 ^ 10 + s.toNat * 2 ^ 7 + o.toNat))
  | .atomCas d a b z s c => some (encCR 0x1F d.toNat a.toNat b.toNat (0 * 2 ^ 4 + z.toNat * 2 ^ 3 + s.toNat) c.toNat)
  | .atomXadd d a b z s c => some (encCR 0x1F d.toNat a.toNat b.toNat (1 * 2 ^ 4 + z.toNat * 2 ^ 3 + s.toNat) c.toNat)
  | .atomXchg d a b z s c => some (encCR 0x1F d.toNat a.toNat b.toNat (2 * 2 ^ 4 + z.toNat * 2 ^ 3 + s.toNat) c.toNat)
  | .atomAnd d a b z s c => some (encCR 0x1F d.toNat a.toNat b.toNat (3 * 2 ^ 4 + z.toNat * 2 ^ 3 + s.toNat) c.toNat)
  | .atomOr d a b z s c => some (encCR 0x1F d.toNat a.toNat b.toNat (4 * 2 ^ 4 + z.toNat * 2 ^ 3 + s.toNat) c.toNat)
  | .atomMin d a b z s c => some (encCR 0x1F d.toNat a.toNat b.toNat (5 * 2 ^ 4 + z.toNat * 2 ^ 3 + s.toNat) c.toNat)
  | .atomMax d a b z s c => some (encCR 0x1F d.toNat a.toNat b.toNat (6 * 2 ^ 4 + z.toNat * 2 ^ 3 + s.toNat) c.toNat)
  | .llk d a c z o => some (encCM 0x20 d.toNat a.toNat c.toNat (z.toNat * 2 ^ 11 + o.toNat))
  | .sul d a c z o => some (encCM 0x21 d.toNat a.toNat c.toNat (z.toNat * 2 ^ 11 + o.toNat))
  | .fence s m => some (encCI 0x22 0 s.toNat m.toNat)
  | .tksig q => some (encCI 0x23 0 0 q.toNat)
  | .tksigRemote a q => some (encCI 0x23 0 a.toNat (1 * 2 ^ 13 + q.toNat))
  | .tkwait q => some (encCI 0x23 0 0 (1 * 2 ^ 14 + q.toNat))
  | .tkcnt d q => some (encCI 0x23 d.toNat 0 (2 * 2 ^ 14 + q.toNat))
  | .tkinit v q => some (encCI 0x23 0 0 (3 * 2 ^ 14 + v.toNat * 2 ^ 4 + q.toNat))
  | .trap c => some (encCI 0x24 0 0 c.toNat)
  | .eret => some (encCI 0x24 0 0 (1 * 2 ^ 12))
  | .mfs d n => some (encCI 0x24 d.toNat 0 (2 * 2 ^ 12 + n.toNat))
  | .mts a n => some (encCI 0x24 0 a.toNat (3 * 2 ^ 12 + n.toNat))
  | .node => some (encCI 0x24 0 0 (4 * 2 ^ 12))
  | .endC => some (encCI 0x24 0 0 (5 * 2 ^ 12))
  | .launch d a => some (encCR 0x25 d.toNat a.toNat 0 0 0)
  | .spawn d a => some (encCR 0x25 d.toNat a.toNat 0 1 0)
  | .remq d a b => some (encCR 0x25 d.toNat a.toNat b.toNat 2 0)
  | .tndr d a b => some (encCR 0x25 d.toNat a.toNat b.toNat 3 0)
  | .wdraw d a => some (encCR 0x25 d.toNat a.toNat 0 4 0)
  | .bidf a b => some (encCR 0x25 0 a.toNat b.toNat 5 0)
  | .qdrop d q => some (encCI 0x26 d.toNat 0 q.toNat)
  | .qdepth d q => some (encCI 0x26 d.toNat 0 (1 * 2 ^ 12 + q.toNat))
  | _ => none

/-- The word of an L instruction (R25, Table 2.5). -/
def encodeL : Instr → Option Nat
  | .jadd t d a b => some (encL t 0 0 d.toNat a.toNat b.toNat 0)
  | .jsub t d a b => some (encL t 0 0 d.toNat a.toNat b.toNat 1)
  | .jshl t d a b => some (encL t 0 0 d.toNat a.toNat b.toNat 2)
  | .jshr t d a b => some (encL t 0 0 d.toNat a.toNat b.toNat 3)
  | .jand t d a b => some (encL t 0 0 d.toNat a.toNat b.toNat 4)
  | .jor t d a b => some (encL t 0 0 d.toNat a.toNat b.toNat 5)
  | .jmul t d a b => some (encL t 0 0 d.toNat a.toNat b.toNat 6)
  | .jaddi t d a i => some (encL t 0x01 0 d.toNat a.toNat 0 i.toNat)
  | .jli t d i => some (encL t 0x02 0 d.toNat 0 0 i.toNat)
  | .jlih t d i => some (encL t 0x03 0 d.toNat 0 0 i.toNat)
  | .lloop t n a e => some (encL t 0x04 0 n.toNat a.toNat 0 e.toNat)
  | .lbr t c a b i => some (encL t 0x05 0 c.toNat a.toNat b.toNat i.toNat)
  | .bindi t a b n xp z => some (encL t 0x06 0 0 a.toNat b.toNat (z.toNat * 2 ^ 4 + xp.toNat * 2 ^ 3 + n.toNat))
  | .istart t c n => some (encL t 0x07 c.toNat 0 0 0 n.toNat)
  | .copy t c d a b z xp => some (encL t 0x08 c.toNat d.toNat a.toNat b.toNat (z.toNat * 2 + xp.toNat))
  | .wgath t c d a b hst nm h buf bo => some (encL t 0x0A c.toNat d.toNat a.toNat b.toNat
      (hst.toNat * 2 ^ 16 + nm.toNat * 2 ^ 14 + h.toNat * 2 ^ 13 + buf.toNat * 2 ^ 11 + bo.toNat))
  | .wtile t c a r0 nm buf bo => some (encL t 0x0B c.toNat 0 a.toNat 0
      (r0.toNat * 2 ^ 16 + nm.toNat * 2 ^ 14 + buf.toNat * 2 ^ 11 + bo.toNat))
  | .aircfg t sl pm sz => some (encL t 0x0C 0 0 0 0 (sl.toNat * 2 ^ 16 + pm.toNat * 2 ^ 8 + sz.toNat))
  | .airq t d a b => some (encL t 0x0D 0 d.toNat a.toNat b.toNat 0)
  | .lnopen t a i => some (encL t 0x0E 0 0 a.toNat 0 i.toNat)
  | .lnpeg t d a i => some (encL t 0x0F 0 d.toNat a.toNat 0 i.toNat)
  | .lnfree t d a i => some (encL t 0x10 0 d.toNat a.toNat 0 i.toNat)
  | .lnqry t d a i => some (encL t 0x11 0 d.toNat a.toNat 0 i.toNat)
  | .pred t c a b v => some (encL t 0x12 c.toNat 0 a.toNat b.toNat v.toNat)
  | .darn t c d a sel hst nm h buf bo => some (encL t 0x13 c.toNat d.toNat a.toNat 0
      (sel.toNat * 2 ^ 24 + hst.toNat * 2 ^ 16 + nm.toNat * 2 ^ 14 + h.toNat * 2 ^ 13 + buf.toNat * 2 ^ 11 + bo.toNat))
  | .pfch t c a b => some (encL t 0x14 c.toNat 0 a.toNat b.toNat 0)
  | .ltk t d cnt q => some (encL t 0x15 0 d.toNat 0 0 (cnt.toNat * 2 ^ 4 + q.toNat))
  | .lend t => some (encL t 0x16 0 0 0 0 0)
  | _ => none

/-- The word of an S instruction (Table 2.9). -/
def encodeS : Instr → Option Nat
  | .bindo t o a => some (encS t 0x00 (o.toNat * 2 ^ 15 + a.toNat * 2 ^ 12))
  | .drain t o n => some (encS t 0x01 (o.toNat * 2 ^ 15 + n.toNat))
  | .drainx t o b n => some (encS t 0x02 (o.toNat * 2 ^ 15 + b.toNat * 2 ^ 9 + n.toNat))
  | .sloop t c a e => some (encS t 0x03 (c.toNat * 2 ^ 15 + a.toNat * 2 ^ 12 + e.toNat))
  | .saddi t d a i => some (encS t 0x04 (d.toNat * 2 ^ 14 + a.toNat * 2 ^ 11 + i.toNat))
  | .sli t d i => some (encS t 0x05 (d.toNat * 2 ^ 14 + i.toNat))
  | .rgapnd t a b c => some (encS t 0x06 (a.toNat * 2 ^ 14 + b.toNat * 2 ^ 11 + c.toNat * 2 ^ 8))
  | .rgcmt t a b c => some (encS t 0x07 (a.toNat * 2 ^ 14 + b.toNat * 2 ^ 11 + c.toNat * 2 ^ 8))
  | .rgupk t a b c => some (encS t 0x08 (a.toNat * 2 ^ 14 + b.toNat * 2 ^ 11 + c.toNat * 2 ^ 8))
  | .stk t d q => some (encS t 0x09 (d.toNat * 2 ^ 14 + q.toNat))
  | .send t => some (encS t 0x0A 0)
  | .sld t d a i => some (encS t 0x0B (d.toNat * 2 ^ 14 + a.toNat * 2 ^ 11 + i.toNat))
  | _ => none

/-- The 128-bit word that holds an X instruction alone: in slot B, slot A being NOP, or in long form. -/
def encodeX : Instr → Option Nat
  | .nop => some 0
  | .msetf sel v => some (2 ^ 112 + 0x94 * 2 ^ 104 + sel.toNat * 2 ^ 96 + v.toNat)
  | i => (xParts i).map fun p => encSlot p.1 p.2

/-- The word of an X word of two slots (R27). -/
def encodeXWord (gap : Nat) (t : Tok) (a b : Instr) : Option Nat :=
  match a, b with
  | .nop, .msetf sel v =>
    some (gap * 2 ^ 125 + t.wait.toNat * 2 ^ 120 + t.sig.toNat * 2 ^ 115 + 2 ^ 112 + 0x94 * 2 ^ 104
      + sel.toNat * 2 ^ 96 + v.toNat)
  | a, b =>
    match encodeX a, encodeX b with
    | some wa, some wb =>
      some (gap * 2 ^ 125 + t.wait.toNat * 2 ^ 120 + t.sig.toNat * 2 ^ 115 + wa * 2 ^ 56 + wb)
    | _, _ => none

/-- The words of an instruction: how many bits, and the number they form. Events have none. -/
def encode (i : Instr) : Option (Nat × Nat) :=
  match encodeC i, encodeL i, encodeS i, encodeX i with
  | some w, _, _, _ => some (32, w)
  | _, some w, _, _ => some (64, w)
  | _, _, some w, _ => some (32, w)
  | _, _, _, some w => some (128, w)
  | _, _, _, _ => none

end Sys2Proof
end

