-- ==== Sys2Proof/Config.lean ====
section
/-!
DEFINITION. What the manual leaves open: free values, constants with no body (nothing in Lean can evaluate
them), and the few fixed choices of the model, each named in the assumption log.
-/
namespace Sys2Proof.Config

/-- R7: the undefined bits of a lane, by a fresh number and the lane (log 2). -/
opaque freeLane : Nat → Nat → W32
/-- R7: the undefined bits of a byte, by a fresh number and a position (log 2). -/
opaque freeByte : Nat → Nat → Byte
/-- A choice the manual leaves open between two outcomes (R130, R160, R197, R245), by a fresh number and a
position (log 2). -/
opaque freeBit : Nat → Nat → Bool
/-- A count the manual leaves open, such as the K-block a peek sees (R197) or which agent moves next when the
agenda is empty (log 1, log 2). -/
opaque freeNat : Nat → Nat → Nat
/-- The rounding of a special function at an operand where the model's 256-bit enclosure does not decide it
(R172, log 10): by function number and operand. -/
opaque hardRound : Nat → W32 → W32
/-- The 256-bit save key drawn from the on-die random source (R341), by the number of the draw (log 7). -/
opaque saveKey : Nat → BitVec 256
/-- Whether an ML-DSA-65 signature verifies under the root key whose digest is fused, or under a key that it has certified
(R340): by that digest, the digest signed and the signature's own number (log 7). -/
opaque signatureValid : Nat → Nat → Nat → Bool
/-- Whether an ML-DSA-65 signature verifies under the root key itself (R340, log 7). -/
opaque rootSigned : Nat → Nat → Nat → Bool
/-- The ML-DSA-65 signature of the identity key over a digest (R341, log 7). -/
opaque identitySign : Nat → Nat
/-- The response that the debug unlock secret gives to a challenge (R342, log 7). -/
opaque unlockResponse : Nat → Nat

/-- Who moves in a step: a sequencer of a task, a handler context, an event, one cycle of the core clock, one tick of
TIME, an error in an SRAM word of a core, which ECC corrects or cannot correct (R344), errors that an ordinary read of an
open row or its reopening finds (R83, R85), a read of the control space by a master (R333), a read of the alarm log (R343), the
host port, which goes on with accesses that waited (R332), a unit that the next tests find broken, a byte of the unit map that
the side band writes back in the next bring-up (R338, R339), the C of a task or of a handler context whose plain store reaches the
other agents later, such a store that now reaches all of them, or one of them (R261, R264, log 9). -/
inductive Agent where
  | seq (core slot : Nat) (q : Seq)
  | handler (core : Nat)
  | ev (i : Instr)
  | clock
  | tick
  | sram (core array word : Nat) (corrected : Bool)
  | dram (bank row : Nat) (f : ScrubFind)
  | read (m : Master) (off : Nat)
  | alarmLog (m : Master)
  | hostPort
  | broken (u : FaultUnit)
  | unitBack (off v : Nat)
  | late (core slot : Nat) (handler : Bool)
  | perform (k : Nat)
  | showTo (k : Nat) (w : Viewer)
  deriving DecidableEq, Repr

/-- Which agent moves when the agenda is empty, by a fresh number; none lets the step pass (log 1). -/
opaque freeAgent : Nat → Option Agent

end Sys2Proof.Config
end

