-- ==== Sys2Proof/Machine/Memory.lean ====
section
/-!
DEFINITION. Byte memory as a list of cells in one canonical form: addresses strictly rising, no cell equal to
what an unlisted address reads as (log 3).
-/
namespace Sys2Proof.Machine

/-- A memory: the listed bytes. -/
abbrev Memory := List Host.Cell

/-- What an unlisted address reads as (log 3). -/
def unlistedByte : Byte := 0

/-- The canonical form: addresses strictly rising above `lo`, no cell equal to `unlistedByte`. -/
def memWfFrom : Nat → Memory → Bool
  | _, [] => true
  | lo, (a, b) :: r => lo ≤ a && b != unlistedByte && memWfFrom (a + 1) r

/-- The canonical form of a memory. -/
def Memory.wf (m : Memory) : Bool := memWfFrom 0 m

/-- The byte at an address. -/
def memByte (m : Memory) (a : Nat) : Byte := tabGet unlistedByte m a

/-- The memory with no cell at `a`. -/
def memErase (m : Memory) (a : Nat) : Memory := m.filter fun c => c.1 ≠ a

/-- A cell put in its place. -/
def memInsert : Memory → Nat → Byte → Memory
  | [], a, b => [(a, b)]
  | (i, x) :: r, a, b => if a < i then (a, b) :: (i, x) :: r else (i, x) :: memInsert r a b

/-- One byte written. -/
def memPut (m : Memory) (a : Nat) (b : Byte) : Memory :=
  if b = unlistedByte then memErase m a else memInsert (memErase m a) a b

/-- The bytes written from `a` upward. -/
def memWrite : Memory → Nat → List Byte → Memory
  | m, _, [] => m
  | m, a, b :: bs => memWrite (memPut m a b) (a + 1) bs

/-- `n` bytes from `a` upward. -/
def memRead (m : Memory) (a : Nat) : Nat → List Byte
  | 0 => []
  | n + 1 => memByte m a :: memRead m (a + 1) n

/-- The little-endian value of `n` bytes. -/
def memNat (m : Memory) (a n : Nat) : Nat := ofLe (memRead m a n)

end Sys2Proof.Machine
end

