-- ==== Sys2Proof/Machine/State.lean ====
section
/-!
DEFINITION. The state of the module as plain data, and the state right after a module reset. INVENTORY.md lists every
piece with the rule that names it.
-/
namespace Sys2Proof.Machine

/-- 1,024 lanes of a vector register, lane `64·ρ + κ` at that index (R156). -/
abbrev Lanes := List W32

/-- The waits of Table 16.6, then the holds that HOLDTO never counts (R284). -/
inductive HoldKind where
  | token | push | queueFull | inEmpty | outFull | lock | peg | waitm | nodeDrain
  | refill | pinned | remote | tender | tile | runFull | line | drainWork | swap | kept
  deriving DecidableEq, Repr

/-- What a sequencer is doing. `busy` is a word that has issued and holds inside its effect (R271 step 2). -/
inductive Status where
  | run | busy (k : HoldKind) (num : Nat) | faulted | ending | ended
  deriving DecidableEq, Repr

/-- A transfer whose delay words have not all issued (R240). -/
structure Delay where
  left : Nat
  tgt  : Nat
  deriving DecidableEq, Repr

/-- An active hardware loop: counter, first word and last word of the body as byte offsets (R244). -/
structure Loop where
  n     : Nat
  first : Nat
  last  : Nat
  deriving DecidableEq, Repr

/-- The control part every sequencer has: program counter, status, the wait it holds on and for how many cycles,
loop counters and active loops (innermost first), pending transfer and the one that follows it once it is done (R240), the signal its
busy word still owes. -/
structure Ctl where
  pc    : Nat := 0
  st    : Status := .run
  hold  : Option (HoldKind × Nat) := none
  held  : Nat := 0
  cnt   : List Nat := [0, 0, 0, 0]
  loops : List Loop := []
  delay : Option Delay := none
  more  : Option Delay := none
  owes  : Option Nat := none
  popped : Bool := false
  deriving DecidableEq, Repr

/-- A scratchpad lock bit (R145). -/
structure LockRef where
  core : Nat
  bank : Nat
  line : Nat
  deriving DecidableEq, Repr

/-- A C context: the registers of C in a task, or of the handler context (R21), and its results under way, by register, with the
cycles left (R232). -/
structure CCtx where
  r    : List W64
  f    : List Bool := List.replicate 8 false
  b    : List Nat := [0, 0, 0, 0]
  ctl  : Ctl := {}
  lock : Option LockRef := none
  late : Tab Nat := []
  deriving DecidableEq, Repr

/-- What an X operation writes (R160). -/
inductive XItem where
  | v (n : Nat) | p (n : Nat) | e (n : Nat) | z (n : Nat)
  deriving DecidableEq, Repr

/-- An X operation in flight (R34, R246): `val` lists what each lane becomes, `none` where it keeps its value;
`passed` is counted against `at + bound`; `marked` after R248 or R249; `clash` where another write overlaps (R160). -/
structure XOp where
  item   : XItem
  issued : Nat
  bound  : Nat
  val    : List (Option W32)
  landed : Bool := false
  marked : Bool := false
  pre    : Bool := false
  clash  : Bool := false
  deriving DecidableEq, Repr

/-- X state of a task: registers, predicates, e-flags, tiles, by tile the elements that a drain has left and nothing has written since
(log 65), configuration registers, the X-issue count that comes next,
the count after the last word's, operations in flight, signals not yet pushed, whether it runs interlocked, whether a
pending transfer is taken, and the core cycle before which the present X-issue cycle does not end (R162). -/
structure XCtx where
  v     : List Lanes := []
  p     : List (List Bool) := []
  e     : List Bool := [false, false, false, false]
  z     : List Lanes := []
  zd    : Tab (List Nat) := []
  cfg   : List W64 := List.replicate 16 0
  count : Nat := 0
  next  : Nat := 0
  ops   : List XOp := []
  sigs  : List Nat := []
  inter : Bool := false
  taken : Bool := false
  until_ : Nat := 0
  ctl   : Ctl := {}
  deriving DecidableEq, Repr

/-- A block of a stream: lanes, valid bits, segment indices, and the granule of a poisoned read (R153, R155, R205). -/
structure Block where
  lanes  : Lanes
  valid  : List Bool
  seg    : List Nat := []
  poison : Option Nat := none
  deriving DecidableEq, Repr

/-- A segment entry of a boundary table (Table 7.5). -/
structure SegEnt where
  start : Nat
  cap   : Nat
  tlen  : Nat
  clen  : Nat
  deriving DecidableEq, Repr

/-- A snapshot of a boundary table (R129). -/
structure Snap where
  entries : Tab SegEnt := []
  deriving DecidableEq, Repr

/-- A binding of an in-stream (R150). -/
structure InBind where
  addr : Nat
  lrec : List W64
  org : List Nat
  xp  : Bool
  deriving DecidableEq, Repr

/-- A run of an in-stream (R152): captured binding, flush value, snapshot, pinned pages, next block. -/
structure Run where
  bind   : InBind
  cls    : Nat
  flm    : W64
  snap   : Snap
  pins   : List Nat
  active : Bool := false
  next   : Nat := 0
  no     : Nat := 0
  deriving DecidableEq, Repr

/-- An in-stream: binding, run queue, block queue (R150), and how many runs it has been given. -/
structure InStream where
  bind   : Option InBind := none
  runs   : List Run := []
  made   : Nat := 0
  blocks : List Block := []
  deriving DecidableEq, Repr

/-- A binding of an out-stream (R205, R206). -/
structure OutBind where
  addr   : Nat
  lrec   : List W64
  app    : Bool
  cursor : Nat
  flm    : W64
  deriving DecidableEq, Repr

/-- An out-stream: binding and block queue (R205). -/
structure OutStream where
  bind   : Option OutBind := none
  blocks : List Block := []
  deriving DecidableEq, Repr

/-- A drain that has issued: its stream, blocks left and done, the count and rows of DRAINX's list and the snapshot
(R208, R209). -/
structure Drain where
  o    : Nat
  left : Nat
  done : Nat := 0
  list : Option (List Nat) := none
  snap : Snap := {}
  pins : List Nat := []
  deriving DecidableEq, Repr

/-- Where an address leads: an offset in the allotment of a task slot, a physical address, another module's memory. -/
inductive Place where
  | spm (core slot off : Nat)
  | mem (pa : Nat)
  | far (m pa : Nat)
  deriving DecidableEq, Repr

/-- The writes that a ragged instruction has still to make after that of its entry word (R215): the record's address, the
table and the generation it had, the header's and the record word's places, and the generation that the header got. -/
structure Ragging where
  ad   : Nat
  btab : Nat
  gen  : Nat
  head : Place
  last : Place
  done : Option Nat := none
  deriving DecidableEq, Repr

/-- A slot of the airing store: tag, heat address and the row's bytes (R97). -/
structure AirSlot where
  base  : Nat
  row   : Nat
  haddr : Nat
  bytes : List Byte
  deriving DecidableEq, Repr

/-- The airing store's configuration and slots (R97, R100). -/
structure Airing where
  size  : Nat := 0
  slot  : Nat := 0
  pmin  : Nat := 0
  slots : Tab AirSlot := []
  deriving DecidableEq, Repr

/-- The check context (R108); `u` lists the rows of U, each with whether its class is Q, and `acnt` counts the entries of
the active list. -/
structure CheckCtx where
  valid : Bool := false
  vfy   : Bool := false
  aen   : Bool := false
  u     : List (Nat × Bool) := []
  hbase : Nat := 0
  hst   : Nat := 0
  mlist : Nat := 0
  alist : Nat := 0
  vbase : Nat := 0
  tau   : W32 := 0
  limit : Nat := 0
  pos   : Nat := 0
  mcnt  : Nat := 0
  acnt  : Nat := 0
  mldis : Bool := false
  deriving DecidableEq, Repr

/-- The states of a pegged row for its task (Table 4.7); a free row is not listed. -/
inductive PegSt where
  | held | suspended | lost
  deriving DecidableEq, Repr

/-- A row a task pegs (R77), by bank, row and the virtual address that pegged it. Bank 8192, which no stack has, stands for a
restored row whose address has no translation yet (R289). -/
structure Peg where
  bank : Nat
  row  : Nat
  va   : Nat
  st   : PegSt
  deriving DecidableEq, Repr

/-- The system registers a task has of its own (Table 13.7). -/
structure SysRegs where
  flm     : W64 := 0
  numfl   : W64 := 0
  prth    : W64 := 0x7F800000
  prbeta  : W64 := 0
  tau     : W64 := 0
  misslim : W64 := 0xFFFF
  prviol  : W64 := 0x0000FFFF00000000
  mxcfg   : W64 := 0
  rngk    : W64 := 0
  hstg    : W64 := 0
  holdto  : W64 := 0x100000
  bidw    : W64 := 0x30
  tstat   : W64 := 0
  akey    : W64 := 0
  pacem   : W64 := 0
  pacec   : W64 := 0
  pacew   : W64 := 0
  pacep   : W64 := 0
  deriving DecidableEq, Repr

/-- The budget of a region's control block: issue cycles and granules a period, the period, the overrun action (R298,
R299). -/
structure Budget where
  rcb    : Nat
  icyc   : Nat
  dgran  : Nat
  period : Nat
  bpol   : Bool
  own    : Bool := true
  deriving DecidableEq, Repr

/-- The effective values of a region (R297, Table 19.1), with the budgets that a charge of it counts against: its own first
(R298). -/
structure Eff where
  prio    : Nat := 0
  icyc    : Nat := 0
  dgran   : Nat := 0
  period  : Nat := 0
  bpol    : Bool := false
  fdom    : Nat := 0
  pegpol  : Bool := false
  preempt : Bool := false
  cmask   : Nat := 0
  troot   : Nat := 0
  tctl    : Bool := false
  sctl    : Bool := false
  rerun   : Bool := false
  savep   : Nat := 0
  buds    : List Budget := []
  deriving DecidableEq, Repr

/-- A task-type entry (Table 19.2). -/
structure TType where
  air    : Nat := 0
  res    : Nat := 0
  spm    : Nat := 1
  nt     : Nat := 16
  no     : Nat := 0
  ni     : Nat := 0
  nz     : Nat := 0
  nv     : Nat := 0
  note   : Option Nat := none
  refill : Option Nat := none
  trap   : Option Nat := none
  pimg   : Nat := 0
  plen   : Nat := 0
  deriving DecidableEq, Repr

/-- A patch entry (Table 2.14). -/
structure Patch where
  ioff : Nat
  poff : Nat
  kind : Nat
  strm : Nat
  deriving DecidableEq, Repr

/-- The code of a task: the sections as the kernel image holds them, the patch table and the parameter block (R45). -/
structure Code where
  c       : List Byte := []
  l       : List Byte := []
  x       : List Byte := []
  s       : List Byte := []
  patches : List Patch := []
  param   : List Byte := []
  deriving DecidableEq, Repr

/-- The ranges allotted to a task: the first unit of each pool of Table 19.3. -/
structure Allot where
  v   : Nat := 0
  z   : Nat := 0
  i   : Nat := 0
  o   : Nat := 0
  t   : Nat := 0
  spm : Nat := 0
  imC : Nat := 0
  imL : Nat := 0
  imX : Nat := 0
  imS : Nat := 0
  deriving DecidableEq, Repr

/-- A fault that has arisen and waits for delivery (R271, R272). -/
structure PFault where
  cause  : Nat
  detail : W64
  seq    : Nat
  eng    : Nat := 0
  idx    : Nat := 0
  prog   : Nat := 0
  op     : Nat := 0
  cycle  : Nat := 0
  deriving DecidableEq, Repr

/-- A kept bid of a tender (R312). -/
structure Bid where
  core : Nat
  cost : Int
  hop  : Nat
  deriving DecidableEq, Repr

/-- A tender in flight (R312). -/
structure Tender where
  lrec    : List W64
  tt     : TType
  rcb    : Nat
  cls    : Nat
  key    : Nat
  must   : Bool
  start  : Nat
  win    : Nat
  rd     : Nat
  cores  : List Nat
  bids   : List Bid := []
  kept   : Nat := 0
  wdrawn : Nat := 0
  closed : Bool := false
  deriving DecidableEq, Repr

/-- A translation the task waits for (R281): sequencer, address, access, the cycle it arose in, whether no mapping was
found, and whether a refill event has served it. -/
structure Miss where
  q      : Nat
  va     : Nat
  acc    : Nat
  cycle  : Nat := 0
  noMap  : Bool := false
  served : Bool := false
  deriving DecidableEq, Repr

/-- An engine command in a queue: its task, its index, the core, slot and sequencer that pushed it, what it captured when it entered (R60, R118, R186, R201, R320), and the cycle it entered in (R250). -/
structure Cmd where
  slot  : Nat
  tag   : Nat
  idx   : Nat
  from_ : Nat × Nat × Nat
  words : List W64
  flm   : W64
  gap   : Nat
  twin  : Bool := false
  lrec   : List W64 := []
  lrec2  : List W64 := []
  snap  : Snap := {}
  snap2 : Snap := {}
  vregs : List Lanes := []
  pins  : List Nat := []
  akey  : Nat := 0
  entered : Nat := 0
  deriving DecidableEq, Repr

/-- An `MTS` as the cycle it retires in sees it: the register it writes, and the system registers and MLDIS before it, which the
other agents of the cycle still sample (R60, R252). -/
structure OldSys where
  cycle : Nat
  num   : Nat
  sys   : SysRegs
  mldis : Bool
  deriving DecidableEq, Repr

/-- A resident task. `tok` holds the counts at the start of the cycle, `tpop`, `tpush` and `tset` what the cycle has
granted (R19, R256); `sysOld` what the cycle of the last `MTS` still samples (R60), `rngAt` the
cycle in which a push last set NUMFL.RNG (R66); `jlate` L's results under way, by register, with the cycles left (R241, R242);
`pend` a checked command that waits for room in its queue (R95 step 6); `overrun` the regions whose overrun it was told of,
each with the start of that period (R299); `uid` the number that tells this task from every other (R313). -/
structure Task where
  tag     : Nat := 0
  rcb     : Nat := 0
  typeNo  : Nat := 0
  tt      : TType := {}
  eff     : Eff := {}
  lrec     : List W64 := List.replicate 8 0
  al      : Allot := {}
  code    : Code := {}
  started : Bool := false
  since   : Nat := 0
  c       : CCtx := { r := List.replicate 32 0 }
  j       : List W64 := List.replicate 16 0
  jlate   : Tab Nat := []
  lc      : Ctl := {}
  x       : XCtx := {}
  y       : List W64 := List.replicate 8 0
  sc      : Ctl := {}
  tok     : List Nat := List.replicate 16 0
  tpop    : List Nat := List.replicate 16 0
  tpush   : List Nat := List.replicate 16 0
  tset    : Tab Nat := []
  ins     : List InStream := []
  outs    : List OutStream := []
  drain   : Option Drain := none
  rag     : Option Ragging := none
  sys     : SysRegs := {}
  sysOld  : Option OldSys := none
  rngAt   : Option Nat := none
  cfst    : W64 := 0
  chk     : CheckCtx := {}
  air     : Airing := {}
  pegs    : List Peg := []
  cmdIdx  : List Nat := [0, 0, 0, 0]
  lastIdx : Nat := 0xFFFFFFFF
  lastEng : Nat := 0
  faults  : List PFault := []
  stopped : Bool := false
  faulted : Bool := false
  record  : List W64 := []
  drainPt : Option Nat := none
  tender  : Option Tender := none
  miss    : List Miss := []
  needTwo : Bool := false
  pend    : Option (Queue × Cmd) := none
  overrun : Tab Nat := []
  uid     : Nat := 0
  deriving DecidableEq, Repr

/-- A task in a dispatcher queue (R303): its record, region, type copy, its save pool and area if it was pre-empted, the core,
task number and MUST of a tender that placed it, when it entered the queue, the code a pre-empted task runs and whether it
has pushed a command that needs two engines (R290), whether it is held because its predecessor retired as faulted, and its
own task number; of one pre-empted, the rows it lost under the drop policy (Table 4.7) and the periods in which it has taken cause
0x0E (R299). -/
structure QTask where
  tag    : Nat
  rcb    : Nat
  lrec    : List W64
  typeNo : Nat
  tt     : TType
  prio   : Nat
  save   : Option (Nat × Nat) := none
  placed : Option (Nat × Nat × Bool) := none
  since  : Nat := 0
  code   : Option Code := none
  two    : Bool := false
  held   : Bool := false
  uid    : Nat := 0
  lost   : List Peg := []
  overrun : Tab Nat := []
  deriving DecidableEq, Repr

/-- How far a matrix command has come (R185): passes done, blocks of the pass under way taken from an in-stream, the
tile's bits at its start and after each K-block (latest first), engine 1's hidden copy (R202), the elements reached, the tile
rows that some pass found valid (R188), the header words it read from each engine's buffer at its start (R91), whether the nest is
over, the tile as its drain leaves it (R197), and the elements that held drained values at its start (log 65). -/
structure MxRun where
  pass  : Nat := 0
  part  : Nat := 0
  start : Lanes := []
  hist  : List Lanes := []
  hid   : Lanes := []
  seen  : List Bool := []
  okr   : List Bool := []
  heads : List (Nat × Nat) := []
  ended : Bool := false
  drained : Lanes := []
  fresh : List Nat := []
  deriving DecidableEq, Repr

/-- A started command, with the engine that runs it (2 for redundant), the first cycle it works in, its steady cycles and
the fixed cycles after them, each engine's work in 32nds of a steady cycle, and its last steady cycle (R199, R321); of a copy,
whether it is still to be made, the bytes it wrote, and those that a later copy wrote before it stopped (R136). -/
structure Running where
  cmd    : Cmd
  eng    : Nat := 0
  start  : Nat := 0
  steady : Nat := 0
  fixed  : Nat := 0
  work   : List Nat := [0, 0]
  last   : Option Nat := none
  hits   : Nat := 0
  misses : Nat := 0
  chk    : Option CheckCtx := none
  mx     : Option MxRun := none
  todo   : Bool := false
  wrote  : List Nat := []
  spare  : List Nat := []
  deriving DecidableEq, Repr

/-- An engine queue: waiting commands, the command dequeued and when it began to wait for WAITM, started commands,
the cycle of the last dequeue (R40, R320). -/
structure EngQ where
  q       : List Cmd := []
  deq     : Option Cmd := none
  waitAt  : Nat := 0
  running : List Running := []
  lastDeq : Option Nat := none
  deriving DecidableEq, Repr

/-- Where a matrix engine stands in the pour table (R321, R322): `request c` awaits a grant since cycle `c`; `up b r`
rises from `r` rows since boundary `b` (32 of them are full rows); `low r c` runs at `r` rows awaiting a climb requested
in cycle `c`; `warm` and `filler` count from the last steady cycle. -/
inductive EngSt where
  | idle | request (c : Nat) | up (b r : Nat) | low (r c : Nat) | warm (l : Nat) | filler (l : Nat)
  deriving DecidableEq, Repr

/-- A translation-cache entry: the model's own number, region, first 2 MiB virtual page, TFILL value, whether it is
still valid, in-flight counter (R279, R280, R283). -/
structure TEntry where
  id   : Nat
  valid : Bool := true
  rcb  : Nat
  vpn  : Nat
  e    : W64
  pins : Nat := 0
  deriving DecidableEq, Repr

/-- An entry of the boundary-table cache, by task slot, table, generation and word offset (R130), with the place of the table's
header. -/
structure BtEntry where
  slot : Nat
  btab : Nat
  gen  : Nat
  off  : Nat
  val  : W64
  head : Place := .mem 0
  deriving DecidableEq, Repr

/-- The kinds of a C memory access (R142, R146, R148). -/
inductive AccOp where
  | load (signed : Bool) | store | llk | sul
  | cas | xadd | xchg | and | or | min | max
  deriving DecidableEq, Repr

/-- A C memory access: destination register, size, store or operand value, expected value, and the size, as a power of two, of the
page whose cache entry it was translated by (0 for none). -/
structure Acc where
  op   : AccOp
  d    : Nat
  size : Nat
  addr : W64
  val  : W64
  cmpv : W64 := 0
  page : Nat := 0
  deriving DecidableEq, Repr

/-- Who waits for a lock bit, in order of arrival (R146), with the slot whose allotment the access names. -/
structure LockWait where
  bank    : Nat
  line    : Nat
  core    : Nat
  slot    : Nat
  handler : Bool
  tslot   : Nat
  off     : Nat
  acc     : Acc
  since   : Nat
  deriving DecidableEq, Repr

/-- A held lock bit and its owner context. -/
structure LockHeld where
  bank    : Nat
  line    : Nat
  core    : Nat
  slot    : Nat
  handler : Bool
  deriving DecidableEq, Repr

/-- An event waiting for the handler context (R270). -/
structure HEvent where
  slot  : Nat
  kind  : Nat
  cycle : Nat
  deriving DecidableEq, Repr

/-- The handler context of a core (R270, R273, R278). -/
structure Handler where
  ctx     : CCtx := { r := List.replicate 16 0, ctl := { st := .ended } }
  serving : Option (Nat × Nat) := none
  waiting : List HEvent := []
  trec    : List W64 := List.replicate 8 0
  retire  : Bool := false
  kind    : Nat := 0
  trsel   : W64 := 0
  tmiss   : W64 := 0
  deriving DecidableEq, Repr

/-- A task staged in the shadow plane (R304): new or restored, with its image already in the reserved allotment. -/
structure Staged where
  qt   : QTask
  task : Task
  deriving DecidableEq, Repr

/-- The shadow plane: victims by slot, save pool and save area, the staged tasks, the swap token, and whether its flip only
takes the victims out (R304, R305). -/
structure Shadow where
  victims : List (Nat × Nat × Nat)
  staged  : List Staged
  token   : Bool := false
  only    : Bool := false
  deriving DecidableEq, Repr

/-- One core (R11). `sramBad` lists array and word of the SRAM words with an uncorrectable error (R344): scratchpad and
weight-buffer words by eighths of their byte address, tiles and vector registers by their number, instruction memory by
sequencer, plane and word. `flushAt` is the microsecond of the last flush of its charges (R298). -/
structure Core where
  spm      : Memory := []
  sramBad  : List (Nat × Nat) := []
  wb0      : Memory := []
  wb1      : Memory := []
  cyc      : W64 := 0
  slots    : Tab Task := []
  h        : Handler := {}
  qm       : EngQ := {}
  qc       : EngQ := {}
  qw       : EngQ := {}
  qp       : EngQ := {}
  active   : Nat := 0
  altdt    : W64 := 0x18
  e0       : EngSt := .idle
  e1       : EngSt := .idle
  tcache   : List TEntry := []
  btcache  : List BtEntry := []
  locks    : List LockHeld := []
  waits    : List LockWait := []
  dq       : List QTask := []
  shadow   : Option Shadow := none
  plane    : Nat := 0
  keys     : List (Nat × Nat) := []
  forms    : Tab (List W64) := []
  temps    : List Int := [0, 0, 0]
  lastSlot : List Nat := [3, 3, 3, 3]
  issued   : List Bool := [false, false, false, false, false]
  freeze   : Nat := 0
  vecUntil : Nat := 0
  charges  : Tab (Nat × Nat) := []
  flushAt  : Nat := 0
  deriving DecidableEq, Repr

/-- A line of a bank: the row it holds, whether it is open, when it was last accessed (R74). -/
structure Line where
  row  : Option Nat := none
  isOpen : Bool := false
  last : Nat := 0
  deriving DecidableEq, Repr

/-- A bank of a stack (R67): its lines, whether refresh or a back-off is in progress, rows with a pending alert, activation
counts (R82), spare rows used, rows moved to spares, rows that cannot be reopened (R85, R86), rows that an `LNOPEN` asked for
meanwhile (R78). -/
structure Bank where
  lines  : List Line := List.replicate 4 {}
  busy   : Bool := false
  alerts : List Nat := []
  acts   : Tab Nat := []
  spares : Nat := 0
  moved  : List Nat := []
  stuck  : List Nat := []
  wanted : List Nat := []
  deriving DecidableEq, Repr

/-- Counted errors of a row in the window (R84, R86), since when it is on the hot list, when an error of it was last
corrected (R83), and whether R86 has acted on it in the window. -/
structure RowErr where
  bank  : Nat
  row   : Nat
  n     : Nat := 0
  bad   : Nat := 0
  bits  : List Nat := []
  last  : Bool := false
  prev  : Bool := false
  hot   : Option Nat := none
  corr  : Nat := 0
  acted : Bool := false
  deriving DecidableEq, Repr

/-- The memory-control registers of one stack (Table 4.2). -/
structure MemCtl where
  remapc : W64 := 0x000000080007D001
  hamctl : W64 := 0x1000
  scrubc : W64 := 0x0000004000001801
  deriving DecidableEq, Repr

/-- A peg request that waits at the controller (R72, R74, R77): an address in its row, when it arrived, and for whom. -/
structure PegReq where
  pa     : Nat
  cycle  : Nat
  core   : Nat
  slot   : Nat
  deriving DecidableEq, Repr

/-- What the memory controller logs: a poisoned granule (R85), a retired row, a bank with no free spare (R86). -/
inductive MemLog where
  | poisoned (pa : Nat) | retired (bank row : Nat) | exhausted (bank : Nat)
  deriving DecidableEq, Repr

/-- A swap in its copy phase: its regions and the granules written meanwhile (R71). -/
structure Swap where
  a       : Nat
  b       : Nat
  touched : List Nat := []
  deriving DecidableEq, Repr

/-- A column of a die (R318, R319, R321): its registers, replays of the window that runs and the cycle it began in,
consecutive windows at VMAX over the bound, the level the replay rule asks for, the boundary before which no grant falls. -/
structure Column where
  vmax   : Nat := 0x46
  vmin   : Nat := 0x28
  vcur   : Nat := 0x46
  rtgt   : Nat := 0x14
  thyst  : Nat := 0x10
  tlim   : Nat := 0x168
  force  : Nat := 0
  level  : Nat := 0
  rplcnt : Nat := 0
  window : Nat := 0
  since  : Nat := 0
  streak : Nat := 0
  rlevel : Nat := 0
  noGrant : Nat := 0
  deriving DecidableEq, Repr

/-- A flit that a port has sent (R217, R219): its number and module, what it carries, and the access that it serves, as core,
task slot, task number and sequencer of the trap record, with its address and, of a command, the index. -/
structure Flit where
  seq  : Nat
  m    : Nat
  body : FlitBody
  by_  : Option (Nat × Nat × Nat × Nat) := none
  va   : Nat := 0
  idx  : Nat := 0
  deriving DecidableEq, Repr

/-- A port's link (R217 to R219): next sequence number sent and expected, unacknowledged flits, consecutive failed replays of one
flit, and whether a retraining is due. -/
structure Link where
  tx      : Nat := 0
  rx      : Nat := 0
  unacked : List Flit := []
  fails   : Nat := 0
  retrain : Bool := false
  deriving DecidableEq, Repr

/-- A remote access, token push or command on its way to its target (R138, R256, R309), or an access of C to another module that
waits for the acknowledgement of its flit: the port and the flit's number, what the access puts into its register, and whether
the port went down (R219). -/
inductive Remote where
  | access (core slot : Nat) (handler : Bool) (tcore tslot off : Nat) (acc : Acc)
  | token (core slot : Nat) (handler : Bool) (tcore tslot q : Nat)
  | cmd (core slot : Nat) (tcore tslot : Nat) (q : Queue) (rd addr : Nat) (words : List W64)
  | link (core slot : Nat) (handler : Bool) (port seq : Nat) (acc : Acc) (res : Option W64) (lost : Bool)
  deriving DecidableEq, Repr

/-- A withdrawal on its way to the tendering task, by core and task number (R313). -/
structure Notice where
  core  : Nat
  uid   : Nat
  must  : Bool
  wtag  : Nat
  wcore : Nat
  deriving DecidableEq, Repr

/-- An event of the scheduler control block (Table 19.11). -/
structure SchedEv where
  erec  : W64 := 0
  ctl   : W64 := 0
  armed : Bool := true
  below : Bool := true
  due   : Nat := 0
  deriving DecidableEq, Repr

/-- A firmware image with its signature's number (R340). -/
structure Image where
  kind : Nat
  svn  : Nat
  img  : List Byte
  sig  : Nat := 0
  deriving DecidableEq, Repr

/-- The key store (R341): whether its keys are still there, the certificate chain, the number of the save key's draw. -/
structure Keys where
  present : Bool := true
  chain   : List Byte := []
  saveNo  : Nat := 0
  deriving DecidableEq, Repr

/-- An entry of the alarm log (R343), with the cycle since the last module reset it was logged in (R342). -/
structure AlarmEnt where
  time : W64
  src  : Nat
  cls  : Nat
  at_  : Option Nat := none
  deriving DecidableEq, Repr

/-- A BAR2 access of the host (R332). -/
inductive HostReq where
  | read (a n : Nat) | write (a : Nat) (bs : List Byte)
  deriving DecidableEq, Repr

/-- What step 5 of the bring-up loads (R338): the supervisor region's control block and the task types, with their places. -/
structure Supervisor where
  rcb   : Nat := 0
  block : List Byte := []
  types : Nat := 0
  table : List Byte := []
  deriving DecidableEq, Repr

/-- What the module sends out over the host port, the side band and its ports (R217, R219, R332, R333, R335, R341 to R343). -/
inductive Output where
  | completion (a : Nat) (bytes : List Byte) (ep : Bool)
  | abort
  | control (m : Master) (off : Nat) (v : W64)
  | alarmLog (ws : List W64)
  | flit (port seq : Nat) (body : FlitBody)
  | replayFrom (port seq : Nat)
  | msix (n : Nat)
  | version (vs : List Nat)
  | capabilities (sessions : Bool)
  | algorithms (sig hash : String)
  | digests (d : List Byte)
  | certificate (c : List Byte)
  | challengeAuth (d : List Byte) (sig : Nat)
  | measurements (ms : List (List Byte)) (sig : Nat)
  | spdmError
  | unlock (ok : Bool)
  | firmware (accepted : Bool)
  | svn (accepted : Bool)
  | platform (boot alarms link : Nat)
  deriving DecidableEq, Repr

/-- A plain store or `STL` of C that has issued and has not reached every agent (R261, R264): its agent, class, place and bytes, the
scope of an `STL`, the address, region and page by which it was translated (R283), the agents that see it already, and the widest
scope, from its agent, in which all see it (R259, R262, R263). -/
structure Held where
  who   : Viewer
  cls   : Nat
  place : Place
  bytes : List Byte
  rel   : Option Nat := none
  addr  : Nat := 0
  page  : Nat := 0
  rcb   : Nat := 0
  seen  : List Viewer := []
  upTo  : Option Nat := none
  deriving DecidableEq, Repr

/-- Whose instruction `exec` runs: the core, the task slot, whether in the handler context, and the slot of the X
word (true for slot B). -/
structure Cursor where
  core    : Nat := 0
  slot    : Nat := 0
  handler : Bool := false
  slotB   : Bool := false
  deriving DecidableEq, Repr

/-- The module. -/
structure State where
  agenda   : List Config.Agent := []
  cur      : Cursor := {}
  fresh    : Nat := 0
  mem      : Memory := []
  poison   : List Nat := []
  farMem   : Memory := []
  held     : List Held := []
  cores    : Tab Core := []
  cycle    : Nat := 0
  time     : W64 := 0
  itab     : Tab Nat := []
  memctl   : Tab MemCtl := []
  swaps    : Nat := 0
  swap     : Option Swap := none
  traffic  : Tab Nat := []
  topRegs  : Tab (List (Nat × Nat)) := []
  banks    : Tab Bank := []
  rowErrs  : List RowErr := []
  bankErrs : Tab (Nat × Nat) := []
  stackErrs : Tab (Nat × Nat) := []
  memLog   : List MemLog := []
  rowsNv   : List (Nat × Nat) := []
  pegReqs  : List PegReq := []
  epochAt  : Nat := 0
  epochLen : Nat := 2000
  winAt    : Nat := 0
  tadj     : Nat := 0
  domid    : Nat := 0
  hlock    : Nat := 0
  rsthold  : Bool := false
  bootst   : Nat := 0
  alcnt    : Nat := 0
  link     : Bool := false
  ien      : Nat := 0
  ist      : Nat := 0
  istAt    : Tab Nat := []
  sbAt     : Tab Nat := []
  hostq    : List HostReq := []
  pcie     : Bool := false
  hrstDue  : Bool := false
  ttbase   : W64 := 0
  lqbase   : W64 := 0
  effs     : Tab Eff := []
  root     : Option Nat := none
  taskNo   : Nat := 0
  events   : Tab SchedEv := []
  cols     : Tab Column := []
  units    : Tab Nat := []
  ports    : Nat := 0xFFFF
  d2d      : Bool := true
  routes   : Tab W64 := []
  rchange  : Tab W64 := []
  links    : Tab Link := []
  svn      : Nat := 0
  rootKey  : Nat := 0
  superv   : Supervisor := {}
  images   : List Image := []
  stored   : List Image := []
  keys     : Keys := {}
  alarms   : List AlarmEnt := []
  unlockFails : Nat := 0
  debug    : Bool := false
  fltcfg   : W64 := 0x0402014000000018
  errCnt   : List (FaultUnit × Nat) := []
  lasting  : List FaultUnit := []
  lastingNv : List FaultUnit := []
  broken   : List FaultUnit := []
  coresOff : List Nat := []
  unitBack : Tab Nat := []
  bootMap  : List Nat := List.replicate 512 7
  bootPorts : Nat := 0x1FFFF
  remote   : List Remote := []
  notices  : List Notice := []
  out      : List Output := []
  deriving DecidableEq, Repr

/-- Why a step stops the machine. -/
inductive Fault where
  /-- The agenda names a core or a task slot that does not exist (R8, R11). Raised by `step`. Safe: no such part
  of the hardware can move. -/
  | noSuchUnit
  deriving DecidableEq, Repr

/-- Why the model gives no meaning. -/
inductive Refusal where
  /-- The instruction of that mnemonic is not modelled. Raised by no arm of this model. Safe. -/
  | notModelled (mnemonic : String)
  /-- The agenda names an instruction where an event must stand. Raised by `step`. Safe: a sequencer runs an
  instruction only from its code section. -/
  | notAnEvent
  deriving DecidableEq, Repr

/-- The module right after a module reset (R337, R338): BOOTST is 0 (booting) as Table 22.4 gives, no task is
resident, and every register has the value INVENTORY.md lists. -/
def State.reset : State := {}

end Sys2Proof.Machine
end

