-- ==== Sys2Proof/Machine/Ops.lean ====
section
/-!
DEFINITION. The shared operations: whose instruction runs, its registers, the program counters with their loops and
delay words, token counts, holds, faults, taking a trap and the return from one, and the frame every instruction of
C, L, X and S runs in.
-/
namespace Sys2Proof.Machine

/-- An outcome of a meaning. -/
abbrev Out := Host.Outcome State Fault Refusal

/-- Why a word does not complete now: a trap with its detail word, a wait that is tried again, one before its issue, one
that keeps what the word has done so far, a translation that misses (R281). -/
inductive Stop where
  | trap (cause : Nat) (detail : Nat)
  | trapIn (s : State) (cause : Nat) (detail : Nat)
  | hold (k : HoldKind) (num : Nat)
  | early (k : HoldKind) (num : Nat)
  | holdIn (s : State) (k : HoldKind) (num : Nat)
  | miss (va acc : Nat)
  deriving DecidableEq, Repr

/-- The effect of a word: a value, or a stop that leaves the state as it was. -/
abbrev M := Except Stop

/-- The detail word of causes 0x01 and 0x02 (Table 2.10). -/
def illDetail (f : Fail) : Nat := f.reason + (if f.slotB then 256 else 0) + f.at_ * 512

/-- Cause 0x01 with a reason, at a bit position. -/
def illegal {α : Type} (reason at_ : Nat) (slotB : Bool := false) : M α :=
  .error (.trap 1 (illDetail ⟨1, reason, at_, slotB⟩))

/-- A trap. -/
def trap {α : Type} (cause detail : Nat) : M α := .error (.trap cause detail)

/-- What comes after an effect that a later trap does not undo: its trap is taken in the state that has the effect. -/
def failIn {α : Type} (s : State) (m : M α) : M α :=
  match m with
  | .error (.trap c d) => .error (.trapIn s c d)
  | r => r

/-- A hold. -/
def hold {α : Type} (k : HoldKind) (num : Nat := 0) : M α := .error (.hold k num)

/-- A hold of a word that has not issued: its wait pops nothing. -/
def holdEarly {α : Type} (k : HoldKind) (num : Nat := 0) : M α := .error (.early k num)

/-- A trap unless `b` holds. -/
def need (b : Bool) (cause detail : Nat) : M Unit := if b then .ok () else trap cause detail

/-! ## Cores, tasks and the context that runs -/

/-- A core. One that nothing has happened to is as at reset, but that its clock runs as that of every core (R10, R254). -/
def getCore (s : State) (c : Nat) : Core := tabGet { cyc := BitVec.ofNat 64 s.cycle } s.cores c
/-- A core changed. -/
def modCore (s : State) (c : Nat) (f : Core → Core) : State :=
  { s with cores := tabSet s.cores c (f (getCore s c)) }
/-- The task in a slot; a slot that holds none reads as an unstarted task. -/
def getTask (s : State) (c n : Nat) : Task := tabGet {} (getCore s c).slots n
/-- Is a task resident in the slot? -/
def resident (s : State) (c n : Nat) : Bool := (tabFind (getCore s c).slots n).isSome
/-- A task placed in a slot. -/
def putTask (s : State) (c n : Nat) (t : Task) : State := modCore s c fun k => { k with slots := tabSet k.slots n t }
/-- A task changed. -/
def modTask (s : State) (c n : Nat) (f : Task → Task) : State := putTask s c n (f (getTask s c n))
/-- The task whose instruction runs; in the handler context, the trapped task (R273). -/
def me (s : State) : Task := getTask s s.cur.core s.cur.slot
/-- That task changed. -/
def modMe (s : State) (f : Task → Task) : State := modTask s s.cur.core s.cur.slot f
/-- The core it runs on. -/
def myCore (s : State) : Core := getCore s s.cur.core
/-- That core changed. -/
def modMyCore (s : State) (f : Core → Core) : State := modCore s s.cur.core f
/-- The system registers that a sample in this cycle sees: an `MTS` counts from the end of its cycle (R60). -/
def sampled (s : State) (t : Task) : SysRegs :=
  match t.sysOld with
  | some o => if o.cycle = s.cycle then o.sys else t.sys
  | none => t.sys
/-- MLDIS as a sample in this cycle sees it (R60, R252). -/
def sampledMldis (s : State) (t : Task) : Bool :=
  match t.sysOld with
  | some o => if o.cycle = s.cycle then o.mldis else t.chk.mldis
  | none => t.chk.mldis
/-- The hardware changes system register `n` of a task: where an `MTS` of this cycle writes that register, what it wrote stands at
the end of the cycle (R252). -/
def hwSys (cycle n : Nat) (f : SysRegs → SysRegs) (t : Task) : Task :=
  match t.sysOld with
  | some o =>
    if o.cycle = cycle then { t with sysOld := some { o with sys := f o.sys }, sys := if o.num = n then t.sys else f t.sys }
    else { t with sys := f t.sys }
  | none => { t with sys := f t.sys }
/-- The error windows that have ended by now: every count returns to 0. The boundaries stand at whole windows from the module
reset, and an event of the boundary's tick counts in the new window (R345). -/
def rollWindow (s : State) : State :=
  let w := max 1 (bits s.fltcfg.toNat 15 0) * 3600 * 10 ^ 9
  let n := (s.time.toNat - s.winAt) / w
  if n = 0 then s
  else { s with
    errCnt := [], lasting := [], bankErrs := [], stackErrs := [], winAt := s.winAt + n * w
    rowErrs := s.rowErrs.map fun e => { e with n := 0, bad := 0, bits := [], acted := false } }
/-- An error counted for a unit in the window that runs (R345). -/
def countErr (s : State) (u : FaultUnit) : State :=
  let s := rollWindow s
  { s with errCnt :=
      if s.errCnt.any (fun e => e.1 = u) then s.errCnt.map fun e => if e.1 = u then (u, e.2 + 1) else e
      else s.errCnt ++ [(u, 1)] }
/-- Does an SRAM array of a core hold a word, of those that `p` names, with an uncorrectable error (R344)? -/
def sramHit (s : State) (c array : Nat) (p : Nat → Bool) : Bool := (getCore s c).sramBad.any fun w => w.1 = array && p w.2
/-- Words of an SRAM array written whole: their errors are gone. -/
def sramClear (s : State) (c array : Nat) (p : Nat → Bool) : State :=
  modCore s c fun k => { k with sramBad := k.sramBad.filter fun w => !(w.1 = array && p w.2) }
/-- A fresh number for free values (log 2). -/
def bump (s : State) : State := { s with fresh := s.fresh + 1 }

/-- The C context that runs (R21). -/
def ctx (s : State) : CCtx := if s.cur.handler then (myCore s).h.ctx else (me s).c
/-- That context changed. -/
def modCtx (s : State) (f : CCtx → CCtx) : State :=
  if s.cur.handler then modMyCore s fun k => { k with h := { k.h with ctx := f k.h.ctx } }
  else modMe s fun t => { t with c := f t.c }

/-- A register of C: g0 reads as zero, h0 is an ordinary register (R21). -/
def reg (s : State) (n : BitVec 5) : W64 := if n = 0 ∧ s.cur.handler = false then 0 else nth (ctx s).r n.toNat 0
/-- A write of a register of C: a write to g0 is discarded (R21). -/
def setReg (s : State) (n : BitVec 5) (v : W64) : State :=
  if n = 0 ∧ s.cur.handler = false then s else modCtx s fun c => { c with r := setNth 0 c.r n.toNat v }
/-- A branch-target register (R237). -/
def getB (s : State) (n : BitVec 2) : Nat := nth (ctx s).b n.toNat 0
/-- A write of a branch-target register. -/
def setB (s : State) (n : BitVec 2) (v : Nat) : State := modCtx s fun c => { c with b := setNth 0 c.b n.toNat v }
/-- A register of L. -/
def getJ (s : State) (n : BitVec 4) : W64 := nth (me s).j n.toNat 0
/-- A write of a register of L; j0 is an ordinary register (R241). -/
def setJ (s : State) (n : BitVec 4) (v : W64) : State := modMe s fun t => { t with j := setNth 0 t.j n.toNat v }
/-- A register of S. -/
def getY (s : State) (n : BitVec 3) : W64 := nth (me s).y n.toNat 0
/-- A write of a register of S. -/
def setY (s : State) (n : BitVec 3) (v : W64) : State := modMe s fun t => { t with y := setNth 0 t.y n.toNat v }

/-! ## Program counters, loops and delay words -/

/-- The control part of a task's sequencer. -/
def taskCtl (t : Task) : Seq → Ctl
  | .c => t.c.ctl | .l => t.lc | .x => t.x.ctl | .s => t.sc
/-- That part changed. -/
def modTaskCtl (t : Task) (q : Seq) (f : Ctl → Ctl) : Task :=
  match q with
  | .c => { t with c := { t.c with ctl := f t.c.ctl } }
  | .l => { t with lc := f t.lc }
  | .x => { t with x := { t.x with ctl := f t.x.ctl } }
  | .s => { t with sc := f t.sc }
/-- The control part of the sequencer that runs. -/
def ctl (s : State) : Seq → Ctl
  | .c => (ctx s).ctl
  | q => taskCtl (me s) q
/-- That part changed. -/
def modCtl (s : State) (q : Seq) (f : Ctl → Ctl) : State :=
  match q with
  | .c => modCtx s fun c => { c with ctl := f c.ctl }
  | q => modMe s fun t => modTaskCtl t q f

/-- The word size of a stream in bytes (R15). -/
def wordSize : Seq → Nat
  | .c => 4 | .l => 8 | .x => 16 | .s => 4
/-- The code section of a stream. -/
def sectionOf (t : Task) : Seq → List Byte
  | .c => t.code.c | .l => t.code.l | .x => t.code.x | .s => t.code.s

/-- Active loops after the word at `pc` has issued, with the counters and where control steps back to (R244 item 2):
each loop whose last word this is counts down, innermost first, until one steps back. -/
def loopEnd (pc : Nat) : List Loop → List Nat → List Loop × List Nat × Option Nat
  | [], cnt => ([], cnt, none)
  | l :: ls, cnt =>
    if l.last = pc then
      let k := nth cnt l.n 0 - 1
      let cnt := setNth 0 cnt l.n k
      if k > 0 then (l :: ls, cnt, some l.first) else loopEnd pc ls cnt
    else
      let (ls, cnt, back) := loopEnd pc ls cnt
      (l :: ls, cnt, back)

/-- The control part after its word has issued: the next delay word, the target after the last of them (R238, R240),
the first word of a loop, or the next word. A transfer sets three words left, itself among them. -/
def advance (w : Nat) (c : Ctl) : Ctl :=
  match c.delay with
  | some d =>
    if d.left ≤ 1 then { c with pc := d.tgt, delay := c.more, more := none }
    else { c with pc := c.pc + w, delay := some { d with left := d.left - 1 } }
  | none =>
    let (ls, cnt, back) := loopEnd c.pc c.loops c.cnt
    { c with pc := back.getD (c.pc + w), loops := ls, cnt := cnt }

/-- A control part at rest: no hold, no owed signal, its word not begun. -/
def Ctl.clear (c : Ctl) : Ctl := { c with st := .run, hold := none, held := 0, owes := none, popped := false }

/-! ## Token queues (R17 to R19, R255) -/

/-- The count of a queue at the end of the previous cycle. -/
def tokCount (t : Task) (q : Nat) : Nat := nth t.tok q 0
/-- Can a pop be granted in this cycle? -/
def tokAvail (t : Task) (q : Nat) : Bool := nth t.tpop q 0 < nth t.tok q 0
/-- Can a push be granted in this cycle (R19 items 3 and 4)? -/
def tokRoom (t : Task) (q : Nat) : Bool := nth t.tok q 0 + nth t.tpush q 0 < 255
/-- A pop granted. -/
def tokPop (t : Task) (q : Nat) : Task := { t with tpop := setNth 0 t.tpop q (nth t.tpop q 0 + 1) }
/-- A push granted. -/
def tokPush (t : Task) (q : Nat) : Task := { t with tpush := setNth 0 t.tpush q (nth t.tpush q 0 + 1) }
/-- The counts at the end of the cycle: a `TKINIT` loses the pushes and pops of its cycle (R256). -/
def tokEnd (t : Task) : Task :=
  { t with
    tok := (List.range 16).map fun q =>
      (tabFind t.tset q).getD (nth t.tok q 0 - nth t.tpop q 0 + nth t.tpush q 0)
    tpop := List.replicate 16 0, tpush := List.replicate 16 0, tset := [] }

/-- The place of an agent in the fixed order of R19: C, L, X, S. -/
def seqCode : Seq → Nat
  | .c => 0 | .l => 1 | .x => 2 | .s => 3

/-! ## Holds and faults -/

/-- A hold of a sequencer's word: the count of its cycles goes on where the wait is the same (R284). -/
def noteHold (s : State) (q : Seq) (k : HoldKind) (n : Nat) : State :=
  modCtl s q fun c => if c.hold = some (k, n) then c else { c with hold := some (k, n), held := 0 }

/-- Has a fault of an earlier cycle stopped a task, delivered or not (R271, R272)? No word of it issues then, and words that
hold inside their effect stay as they are (R247, R271 step 2). -/
def halted (t : Task) (cycle : Nat) : Bool := t.stopped || t.faulted || t.faults.any fun f => f.cycle ≠ cycle

/-- A pending fault added to a task (R272); a miss-limit fault sets MLDIS (R112), a residue-range fault RNG (R66). -/
def addFault (t : Task) (f : PFault) : Task :=
  { t with
    faults := t.faults ++ [f]
    chk := if f.cause = 9 then { t.chk with mldis := true } else t.chk
    sys := if f.cause = 0x13 ∧ f.seq = 2 then { t.sys with numfl := 1 } else t.sys
    rngAt := if f.cause = 0x13 ∧ f.seq = 2 then some f.cycle else t.rngAt }

/-- Does a word that has issued hold inside its effect, where a trap of the task leaves it and `ERET` goes on with it (R271,
R277): a busy word, a `NODE` that waits, a word of L or S whose token has been popped? -/
def holdsInside (c : Ctl) : Bool :=
  match c.st, c.hold with
  | .busy _ _, _ => true
  | _, some (.nodeDrain, _) | _, some (.kept, _) => true
  | _, _ => c.popped

/-- The delay words of a pending transfer that have not issued (R240): a word that holds inside its effect has. -/
def delayLeft (c : Ctl) : Option Delay :=
  c.delay.bind fun d =>
    if !holdsInside c then some d else if d.left ≤ 1 then c.more else some { d with left := d.left - 1 }

/-- Where control goes after a word that holds inside its effect: the next word, or the target after the last delay word. -/
def onwardPc (q : Seq) (c : Ctl) : Nat :=
  match c.delay with
  | some d => if d.left ≤ 1 then d.tgt else c.pc + wordSize q
  | none => c.pc + wordSize q

/-- The program counter of a sequencer as the trap record shows it: the word that faulted, that holds inside its
effect, or that would issue next (R271, R277); with a transfer pending, the first delay word that has not issued (R240). -/
def recordPc (t : Task) (q : Seq) : W64 :=
  let c := taskCtl t q
  BitVec.ofNat 64 (if holdsInside c && (delayLeft c).isSome then onwardPc q c else c.pc)

/-- The trap record of a fault (Table 16.1). -/
def trapRecord (t : Task) (slot : Nat) (f : PFault) : List W64 :=
  [BitVec.ofNat 64 (t.tag * 2 ^ 32 + slot * 2 ^ 18 + f.eng * 2 ^ 16 + f.seq * 2 ^ 8 + f.cause),
   BitVec.ofNat 64 f.idx, BitVec.ofNat 64 (f.prog * 256 + f.op),
   recordPc t .c, recordPc t .l, recordPc t .x, recordPc t .s, f.detail]

/-- A task that is to retire as faulted, with its record (R291); an empty one is no record. -/
def markFaulted (t : Task) (r : List W64) : Task := { t with faulted := true, stopped := true, record := r }

/-- The handler context at rest. -/
def Handler.free (h : Handler) : Handler :=
  { h with serving := none, ctx := { h.ctx with ctl := { h.ctx.ctl.clear with st := .ended } } }

/-- The handler context faults: the task it serves retires as faulted with SEQ 5 (R273), and the context is free. The
record keeps the program counters of a trap's record. -/
def handlerFault (s : State) (cause detail : Nat) : State :=
  let h := (myCore s).h
  let r := trapRecord (me s) s.cur.slot { cause := cause, detail := BitVec.ofNat 64 detail, seq := 5 }
  let r := if h.kind = 0 then r.take 3 ++ (h.trec.drop 3).take 4 ++ r.drop 7 else r
  let s := modMe s fun t => markFaulted t r
  modMyCore s fun k => { k with h := { k.h with trec := r }.free }

/-- A sequencer stops at a word with a fault, which becomes pending (R271 item 1, R272). `TRAP` alone leaves the
program counter after its word (R276). -/
def raise (s : State) (q : Seq) (cause detail : Nat) : State :=
  if s.cur.handler then handlerFault s cause detail
  else
    let s := modCtl s q fun c =>
      { (if cause = 0x12 then advance (wordSize q) c else c) with
        st := .faulted, hold := none, held := 0, owes := none, popped := false }
    modMe s fun t => addFault { t with miss := t.miss.filter fun m => m.q ≠ seqCode q }
      { cause := cause, detail := BitVec.ofNat 64 detail, seq := seqCode q, cycle := s.cycle }

/-- A miss noted for the task (R281). -/
def noteMiss (s : State) (q : Seq) (va acc : Nat) : State :=
  let m : Miss := { q := seqCode q, va := va, acc := acc, cycle := s.cycle }
  let s := noteHold s q .refill 0
  if s.cur.handler then s
  else modMe s fun t => if t.miss.any (fun x => x.q = m.q) then t else { t with miss := t.miss ++ [m] }

/-- A word that does not complete. -/
def stopWord (s : State) (q : Seq) : Stop → State
  | .trap c d => raise s q c d
  | .trapIn s' c d => raise s' q c d
  | .hold k n | .early k n => noteHold s q k n
  | .holdIn s' k n => noteHold s' q k n
  | .miss va acc => noteMiss s q va acc

/-! ## Taking a trap and returning from it -/

/-- The fault delivered next: the one that arose first, and within a cycle in the order of R272. -/
def nextFault (t : Task) : Option PFault :=
  let key (f : PFault) := f.cycle * 64 + f.seq * 8 + f.eng
  t.faults.foldl (fun b f => match b with
    | none => some f
    | some g => if key f < key g then some f else some g) none

/-- CFST as a delivery leaves it (R240, Table 13.5). -/
def cfstAt (t : Task) : W64 :=
  let part (v : Nat) (d : Option Delay) (pend left tgt w : Nat) : Nat :=
    match d with
    | none => putBits v pend pend 0
    | some d => putBits (putBits (putBits v pend pend 1) (left + 1) left d.left) (tgt + (if w = 4 then 12 else 11)) tgt (d.tgt / w)
  BitVec.ofNat 64 (part (part t.cfst.toNat (delayLeft t.c.ctl) 48 44 0 4) (delayLeft t.x.ctl) 49 46 16 16)

/-- The handler context starts at an entry for an event of a task, with HCTL.KIND set and RETIRE clear (R270, R278). -/
def startHandler (s : State) (c n kind entry : Nat) : State :=
  modCore s c fun k =>
    { k with h := { k.h with
        serving := some (n, kind), kind := kind, retire := false,
        ctx := { k.h.ctx with ctl := { pc := 4 * entry } } } }

/-- TAKING A TRAP (R271): the task stops, CFST and the trap record are filled, and the handler context starts at the
trap entry with HCTL.KIND 0. A task whose type names no trap entry is to retire as faulted with that record (R291). -/
def takeTrap (s : State) (c n : Nat) (f : PFault) : State :=
  let t := getTask s c n
  let r := trapRecord t n f
  let s := modTask s c n fun t => { t with stopped := true, cfst := cfstAt t, faults := t.faults.erase f }
  match t.tt.trap with
  | none => modTask s c n fun t => markFaulted t r
  | some e => startHandler (modCore s c fun k => { k with h := { k.h with trec := r } }) c n 0 e

/-- A word that holds inside its effect goes on where it was (R277). With PEND 1, control comes from it to the sequencer's program
counter, issues LEFT words and continues at TGT; with PEND 0, what it has left pending is cancelled (R240). A program counter that the
handler leaves as the record shows it stands for the words that follow. -/
def resumeInside (q : Seq) (pc : Nat) (shown : Nat) (d : Option Delay) (c : Ctl) : Ctl :=
  match d with
  | none => if (delayLeft c).isSome then { c with delay := none, more := none } else c
  | some d =>
    let dest := if pc = shown then onwardPc q c else pc
    if dest = c.pc + wordSize q then { c with delay := some { d with left := d.left + 1 }, more := none }
    else if d.left = 0 then { c with delay := some ⟨1, d.tgt⟩, more := none }
    else { c with delay := some ⟨1, dest⟩, more := some d }

/-- A sequencer after `ERET` (R277): a word that holds inside its effect goes on where it was, with what CFST
leaves pending behind it, an ended sequencer stays ended, one whose fault is pending stays stopped, the others issue next the word
at the record's pc, with the transfer that CFST leaves pending (R240). -/
def resume (t : Task) (q : Seq) (pc : Nat) (d : Option Delay) : Task :=
  modTaskCtl t q fun c =>
    match c.st with
    | .ending | .ended => c
    | _ =>
      if holdsInside c then resumeInside q pc (recordPc t q).toNat d c
      else
        let pc := match d with
          | some ⟨0, tgt⟩ => tgt
          | _ => pc
        { c with
          pc := pc, delay := (d.bind fun d => if d.left = 0 then none else some d), more := none,
          st := if t.faults.any (fun f => f.seq = seqCode q) then .faulted else .run, hold := none, held := 0 }

/-- The task resumes from the record's program counters and from CFST, whose PEND bits return to 0; its X runs
interlocked (R249, R277). -/
def resumeTask (t : Task) (trec : List W64) : Task :=
  let v := t.cfst.toNat
  let pc (k : Nat) := (trec.getD k 0).toNat
  let dc := if bit v 48 then some ⟨bits v 45 44, bits v 12 0 * 4⟩ else none
  let dx := if bit v 49 then some ⟨bits v 47 46, bits v 27 16 * 16⟩ else none
  let t := resume (resume (resume (resume t .c (pc 3) dc) .l (pc 4) none) .x (pc 5) dx) .s (pc 6) none
  { t with
    stopped := false, cfst := BitVec.ofNat 64 (putBits (putBits v 48 48 0) 49 49 0),
    x := { t.x with inter := t.x.ops.any (fun o => !o.landed), ops := t.x.ops.map fun o => { o with pre := true } } }

/-- RETURN FROM THE HANDLER (R277): after a trap the task resumes; a refill or a notification stopped no sequencer, so
only the event ends (R281, R327). The handler context is free. -/
def leaveHandler (s : State) : State :=
  let h := (myCore s).h
  let s := match h.kind with
    | 0 => modMe s fun t => resumeTask t h.trec
    | 1 => modMe s fun t => { t with miss := t.miss.filter fun m => m.noMap || !m.served }
    | _ => s
  modMyCore s fun k => { k with h := k.h.free }

/-! ## The frame of an instruction -/

/-- A local charge to the task's region (R298): issue cycles and granules. -/
def charge (s : State) (c rcb ic dg : Nat) : State :=
  modCore s c fun k =>
    let v := tabGet (0, 0) k.charges rcb
    { k with charges := tabSet k.charges rcb (v.1 + ic, v.2 + dg) }

/-- A word issues: one issue cycle is charged, the sequencer kind has issued in this cycle and, for a task, its slot
is the last that did (R12, R298). A word that has issued and holds inside its effect does not issue again. -/
def markIssue (s : State) (q : Seq) : State :=
  if holdsInside (ctl s q) then s else
  let s := charge s s.cur.core (me s).rcb 1 0
  modMyCore s fun k =>
    { k with
      issued := setNth false k.issued (seqCode q) true,
      lastSlot := if s.cur.handler then k.lastSlot else setNth 3 k.lastSlot (seqCode q) s.cur.slot }

/-- The translations that a sequencer's word waited for are done with (R281). -/
def dropMiss (s : State) (q : Seq) : State :=
  if s.cur.handler then s else modMe s fun t => { t with miss := t.miss.filter fun m => m.q ≠ seqCode q }

/-- A word of C, L or S retires: an owed signal is pushed, or the retirement holds while it does not fit (R18); then
control goes on to the next word. -/
def retire (q : Seq) (s : State) : State :=
  let s := dropMiss s q
  match (ctl s q).owes with
  | none => modCtl s q fun c => (advance (wordSize q) c).clear
  | some n =>
    if tokRoom (me s) n then
      modCtl (modMe s fun t => tokPush t n) q fun c => (advance (wordSize q) c).clear
    else noteHold (modCtl s q fun c => { c with st := .busy .push n }) q .push n

/-- A word whose effect is complete retires; one that is still busy or ends its stream does not yet. -/
def finish (q : Seq) (s : State) : State :=
  match (ctl s q).st with
  | .run => retire q s
  | _ => s

/-- The context of the task for the checks of a word of a sequencer (R12, R21, R36). -/
def ctxOf (s : State) (q : Seq) : Ctx :=
  let t := (me s).tt
  { left := (sectionOf (me s) q).length / wordSize q - (ctl s q).pc / wordSize q - 1, handler := s.cur.handler, nv := t.nv, nz := t.nz, ni := t.ni, no := t.no, nt := t.nt, air := t.air }

/-- Does the instruction transfer control or stand in SYS (R239)? -/
def notInDelay : Instr → Bool
  | .bt _ _ | .btn _ _ | .ba _ | .call _ | .trap _ | .eret | .mfs _ _ | .mts _ _ | .node | .endC => true
  | _ => false

/-- Every decode check an instruction of C fails in the context it issues in (R36), then the rule of delay words, whose
offending field is the opcode (R239); a word that has issued and holds inside its effect has passed it. -/
def legalC (s : State) (i : Instr) : Option Fail :=
  match pickFail ((decodeC ((encodeC i).getD 0)).2 ++ cFails (ctxOf s .c) i) with
  | some f => some f
  | none => if (ctl s .c).delay.isSome && !holdsInside (ctl s .c) && notInDelay i then some ⟨1, 6, 26, false⟩ else none

/-- The state in which a word stops: one that traps after its decode checks has issued (R12, R17). -/
def issuedAt (s : State) (q : Seq) : Stop → State
  | .trap _ _ | .trapIn _ _ _ => markIssue s q
  | _ => s

/-- An instruction of C: checks, effect, retirement. -/
def execC (i : Instr) (body : State → M State) (s : State) : Out :=
  match legalC s i with
  | some f => .next (raise s .c f.cause (illDetail f))
  | none =>
    match body (markIssue s .c) with
    | .ok t => .next (finish .c (modCtl t .c fun c => { c with owes := none }))
    | .error e => .next (stopWord (issuedAt s .c e) .c e)

/-- The queue a wait or signal field names. -/
def tokQueue (f : BitVec 5) : Option Nat := if f.getLsbD 4 then some (f.toNat % 16) else none

/-- The wait of an L or S word (R17): none to wait for, or the token popped. -/
def takeWait (s : State) (q : Seq) (w : BitVec 5) : M State :=
  match tokQueue w with
  | none => .ok s
  | some n =>
    if (ctl s q).popped then .ok s
    else if tokAvail (me s) n then .ok (modMe s fun t => tokPop t n)
    else hold .token n

/-- A word that has issued and holds inside its effect keeps the token it popped (R271). -/
def keepPopped (s : State) (q : Seq) (e : Stop) : State :=
  match e with
  | .trap _ _ | .trapIn _ _ _ => s
  | _ => modCtl s q fun c => { c with popped := true }

/-- An instruction of L or S: checks, wait, effect, retirement with its signal. `cmd` marks one whose signal its
command carries (R18). -/
def execLS (q : Seq) (fails : List Fail) (t : Tok) (cmd : Bool) (body : State → M State) (s : State) : Out :=
  match pickFail fails with
  | some f => .next (raise s q f.cause (illDetail f))
  | none =>
    match takeWait s q t.wait with
    | .error e => .next (stopWord s q e)
    | .ok s1 =>
      match body (markIssue s1 q) with
      | .ok s2 => .next (finish q (modCtl s2 q fun c => { c with owes := if cmd then none else tokQueue t.sig }))
      | .error (.early k n) => .next (noteHold s q k n)
      | .error (.holdIn s2 k n) => .next (noteHold (modCtl s2 q fun c => { c with popped := true }) q k n)
      | .error e => .next (stopWord (keepPopped (markIssue s1 q) q e) q e)

/-- An instruction of L. -/
def execL (i : Instr) (t : Tok) (cmd : Bool) (body : State → M State) (s : State) : Out :=
  execLS .l ((decodeL ((encodeL i).getD 0)).2 ++ lFails (ctxOf s .l) i) t cmd body s

/-- An instruction of S. -/
def execS (i : Instr) (t : Tok) (body : State → M State) (s : State) : Out :=
  execLS .s ((decodeS ((encodeS i).getD 0)).2 ++ sFails (ctxOf s .s) i) t false body s

end Sys2Proof.Machine
end

