-- ==== Sys2Proof/Machine/Flags.lean ====
section
/-!
DEFINITION. The flags f0 to f7 of C and the conditions of compares and L branches (R21, R236, R242).
-/
namespace Sys2Proof.Machine

/-- A flag of C: f0 reads as true (R21). -/
def flag (s : State) (n : BitVec 3) : Bool := n = 0 || nth (ctx s).f n.toNat false

/-- A write of a flag; a decode check keeps f0 from being named (R21, R236). -/
def setFlag (s : State) (n : BitVec 3) (v : Bool) : State := modCtx s fun c => { c with f := setNth false c.f n.toNat v }

/-- The truth of `a cc b` (R236): EQ, NE, LT and GE signed, LTU and GEU unsigned. -/
def cond (cc : BitVec 3) (a b : W64) : Bool :=
  match cc.toNat with
  | 0 => a == b
  | 1 => a != b
  | 2 => a.toInt < b.toInt
  | 3 => a.toInt ≥ b.toInt
  | 4 => a.toNat < b.toNat
  | _ => a.toNat ≥ b.toNat

end Sys2Proof.Machine
end

