-- ==== Sys2Proof/Machine/CAlu.lean ====
section
/-!
DEFINITION. C arithmetic: ALU-R (R233), immediate forms (R234), bit fields (R235), compares (R236).
-/
namespace Sys2Proof.Machine

/-- `g[rd] ← f(g[ra], g[rb])`. -/
def aluR (f : W64 → W64 → W64) (d a b : BitVec 5) (s : State) : M State :=
  .ok (setReg s d (f (reg s a) (reg s b)))

/-- `g[rd] ← f(g[ra])`. -/
def aluI (f : W64 → W64) (d a : BitVec 5) (s : State) : M State := .ok (setReg s d (f (reg s a)))

/-- The shift amount `Bits(b, 5, 0)` (R233). -/
def shamt (b : W64) : Nat := b.toNat % 64

/-- Number of leading zero bits. -/
def leadingZeros (a : W64) : Nat := 64 - (if a.toNat = 0 then 0 else a.toNat.log2 + 1)

/-- Number of set bits. -/
def popCount (a : W64) : Nat := ((List.range 64).filter fun k => a.getLsbD k).length

/-- The lesser, signed. -/
def minS (a b : W64) : W64 := if a.toInt ≤ b.toInt then a else b
/-- The greater, signed. -/
def maxS (a b : W64) : W64 := if a.toInt ≥ b.toInt then a else b
/-- The lesser, unsigned. -/
def minU (a b : W64) : W64 := if a.toNat ≤ b.toNat then a else b
/-- The greater, unsigned. -/
def maxU (a b : W64) : W64 := if a.toNat ≥ b.toNat then a else b

/-- ADD (Table 13.2). -/
def execAdd (d a b : BitVec 5) (s : State) : Out := execC (.add d a b) (aluR (· + ·) d a b) s
/-- SUB. -/
def execSub (d a b : BitVec 5) (s : State) : Out := execC (.sub d a b) (aluR (· - ·) d a b) s
/-- AND. -/
def execAnd (d a b : BitVec 5) (s : State) : Out := execC (.and d a b) (aluR (· &&& ·) d a b) s
/-- OR. -/
def execOr (d a b : BitVec 5) (s : State) : Out := execC (.or d a b) (aluR (· ||| ·) d a b) s
/-- XOR. -/
def execXor (d a b : BitVec 5) (s : State) : Out := execC (.xor d a b) (aluR (· ^^^ ·) d a b) s
/-- SHL: `a·2^s mod 2^64`. -/
def execShl (d a b : BitVec 5) (s : State) : Out := execC (.shl d a b) (aluR (fun x y => x <<< shamt y) d a b) s
/-- SHR: unsigned. -/
def execShr (d a b : BitVec 5) (s : State) : Out := execC (.shr d a b) (aluR (fun x y => x >>> shamt y) d a b) s
/-- SRA: signed. -/
def execSra (d a b : BitVec 5) (s : State) : Out := execC (.sra d a b) (aluR (fun x y => x.sshiftRight (shamt y)) d a b) s
/-- MIN, signed. -/
def execMin (d a b : BitVec 5) (s : State) : Out := execC (.min d a b) (aluR minS d a b) s
/-- MAX, signed. -/
def execMax (d a b : BitVec 5) (s : State) : Out := execC (.max d a b) (aluR maxS d a b) s
/-- MINU, unsigned. -/
def execMinu (d a b : BitVec 5) (s : State) : Out := execC (.minu d a b) (aluR minU d a b) s
/-- MAXU, unsigned. -/
def execMaxu (d a b : BitVec 5) (s : State) : Out := execC (.maxu d a b) (aluR maxU d a b) s
/-- MUL: the low half of the product. -/
def execMul (d a b : BitVec 5) (s : State) : Out := execC (.mul d a b) (aluR (· * ·) d a b) s
/-- MULH: the high half of the signed product. -/
def execMulh (d a b : BitVec 5) (s : State) : Out :=
  execC (.mulh d a b) (aluR (fun x y => w64 (x.toInt * y.toInt / 2 ^ 64)) d a b) s
/-- MULHU: the high half of the unsigned product. -/
def execMulhu (d a b : BitVec 5) (s : State) : Out :=
  execC (.mulhu d a b) (aluR (fun x y => BitVec.ofNat 64 (x.toNat * y.toNat / 2 ^ 64)) d a b) s

/-- A division: cause 0x0F with the dividend where the divisor is 0, `g[rd]` unchanged (Table 13.2). -/
def divide (f : W64 → W64 → W64) (d a b : BitVec 5) (s : State) : M State :=
  if reg s b = 0 then trap 0x0F (reg s a).toNat else aluR f d a b s

/-- DIVU. -/
def execDivu (d a b : BitVec 5) (s : State) : Out := execC (.divu d a b) (divide (· / ·) d a b) s
/-- REMU. -/
def execRemu (d a b : BitVec 5) (s : State) : Out := execC (.remu d a b) (divide (· % ·) d a b) s
/-- CLZ: leading zero bits, 0 to 64. -/
def execClz (d a : BitVec 5) (s : State) : Out :=
  execC (.clz d a) (aluI (fun x => BitVec.ofNat 64 (leadingZeros x)) d a) s
/-- POPC: set bits, 0 to 64. -/
def execPopc (d a : BitVec 5) (s : State) : Out :=
  execC (.popc d a) (aluI (fun x => BitVec.ofNat 64 (popCount x)) d a) s
/-- SEL: `f ? a : b`. -/
def execSel (d a b : BitVec 5) (f : BitVec 3) (s : State) : Out :=
  execC (.sel d a b f) (fun s => .ok (setReg s d (if flag s f then reg s a else reg s b))) s

/-- ADDI (Table 13.3). -/
def execAddi (d a : BitVec 5) (i : BitVec 16) (s : State) : Out :=
  execC (.addi d a i) (aluI (fun x => x + i.signExtend 64) d a) s
/-- ANDI: zero-extended. -/
def execAndi (d a : BitVec 5) (i : BitVec 16) (s : State) : Out :=
  execC (.andi d a i) (aluI (fun x => x &&& i.zeroExtend 64) d a) s
/-- ORI: zero-extended. -/
def execOri (d a : BitVec 5) (i : BitVec 16) (s : State) : Out :=
  execC (.ori d a i) (aluI (fun x => x ||| i.zeroExtend 64) d a) s
/-- XORI: zero-extended. -/
def execXori (d a : BitVec 5) (i : BitVec 16) (s : State) : Out :=
  execC (.xori d a i) (aluI (fun x => x ^^^ i.zeroExtend 64) d a) s
/-- SHLI. -/
def execShli (d a : BitVec 5) (n : BitVec 6) (s : State) : Out := execC (.shli d a n) (aluI (fun x => x <<< n.toNat) d a) s
/-- SHRI. -/
def execShri (d a : BitVec 5) (n : BitVec 6) (s : State) : Out := execC (.shri d a n) (aluI (fun x => x >>> n.toNat) d a) s
/-- SRAI. -/
def execSrai (d a : BitVec 5) (n : BitVec 6) (s : State) : Out :=
  execC (.srai d a n) (aluI (fun x => x.sshiftRight n.toNat) d a) s
/-- LUI: the sign-extended immediate times 2^16. -/
def execLui (d : BitVec 5) (i : BitVec 21) (s : State) : Out :=
  execC (.lui d i) (fun s => .ok (setReg s d (i.signExtend 64 <<< 16))) s
/-- LIW: bits [63:43] from the immediate, the others kept. -/
def execLiw (d : BitVec 5) (i : BitVec 21) (s : State) : Out :=
  execC (.liw d i) (fun s => .ok (setReg s d (BitVec.ofNat 64 (putBits (reg s d).toNat 63 43 i.toNat)))) s
/-- EXT: `len` bits from `pos`, zero-extended (R235); the field holds `len − 1`. -/
def execExt (d a : BitVec 5) (p l : BitVec 6) (s : State) : Out :=
  execC (.ext d a p l) (aluI (fun x => BitVec.ofNat 64 (bits x.toNat (p.toNat + l.toNat) p.toNat)) d a) s
/-- INS: the low `len` bits of the source into `g[rd]` at `pos`, its other bits kept. -/
def execIns (d a : BitVec 5) (p l : BitVec 6) (s : State) : Out :=
  execC (.ins d a p l) (fun s => .ok (setReg s d
    (BitVec.ofNat 64 (putBits (reg s d).toNat (p.toNat + l.toNat) p.toNat (reg s a).toNat)))) s

/-- CMP (R236). -/
def execCmp (c f : BitVec 3) (a b : BitVec 5) (s : State) : Out :=
  execC (.cmp c f a b) (fun s => .ok (setFlag s f (cond c (reg s a) (reg s b)))) s
/-- CMPI: the immediate sign-extended to 64 bits. -/
def execCmpi (c f : BitVec 3) (a : BitVec 5) (i : BitVec 15) (s : State) : Out :=
  execC (.cmpi c f a i) (fun s => .ok (setFlag s f (cond c (reg s a) (i.signExtend 64)))) s

end Sys2Proof.Machine
end

