-- ==== Sys2Proof/Machine/CFlow.lean ====
section
/-!
DEFINITION. Split branches of C (R237 to R239).
-/
namespace Sys2Proof.Machine

/-- A transfer: two delay words issue, then control goes to the target, or falls through where it is not taken
(R238). -/
def transfer (q : Seq) (taken : Bool) (tgt : Nat) (s : State) : State :=
  modCtl s q fun c => { c with delay := some ⟨3, if taken then tgt else c.pc + 3 * wordSize q⟩ }

/-- PBT: a target relative to its own pc (R237). -/
def execPbt (b : BitVec 2) (o : BitVec 21) (s : State) : Out :=
  execC (.pbt b o) (fun s =>
    let v := ((ctl s .c).pc : Int) + 4 * o.toInt
    if v < 0 || v ≥ 32768 then illegal 6 0 else .ok (setB s b v.toNat)) s
/-- MTB: a target from a register (R237). -/
def execMtb (b : BitVec 2) (a : BitVec 5) (s : State) : Out :=
  execC (.mtb b a) (fun s =>
    let v := (reg s a).toNat
    if v % 4 ≠ 0 then trap 7 v else if v ≥ 32768 then illegal 6 16 else .ok (setB s b v)) s
/-- BT: taken when the flag is true. -/
def execBt (b : BitVec 2) (f : BitVec 3) (s : State) : Out :=
  execC (.bt b f) (fun s => .ok (transfer .c (flag s f) (getB s b) s)) s
/-- BTN: taken when the flag is false. -/
def execBtn (b : BitVec 2) (f : BitVec 3) (s : State) : Out :=
  execC (.btn b f) (fun s => .ok (transfer .c (!flag s f) (getB s b) s)) s
/-- BA: always taken. -/
def execBa (b : BitVec 2) (s : State) : Out :=
  execC (.ba b) (fun s => .ok (transfer .c true (getB s b) s)) s
/-- CALL: always taken; g31, or h15 in the handler context, gets the return address `PC + 12` at issue. -/
def execCall (b : BitVec 2) (s : State) : Out :=
  execC (.call b) (fun s =>
    let tgt := getB s b
    let s := setReg s (if s.cur.handler then 15 else 31) (BitVec.ofNat 64 ((ctl s .c).pc + 12))
    .ok (transfer .c true tgt s)) s

end Sys2Proof.Machine
end

