-- ==== Sys2Proof/Machine/Dram.lean ====
section
/-!
DEFINITION. Stack memory: placement (R67 to R69), rows, lines and pegs (R74 to R77), traffic counts and swaps (R70,
R71), poison (R85), and the one access that every agent makes to a granule.
-/
namespace Sys2Proof.Machine

/-- Where a byte lies in the stacks (R68). -/
structure Loc where
  stack   : Nat
  channel : Nat
  pch     : Nat
  bgroup  : Nat
  bank    : Nat
  row     : Nat
  column  : Nat
  byte    : Nat
  deriving DecidableEq, Repr

/-- The machine region of a physical region (R69). -/
def machineRegion (s : State) (r : Nat) : Nat := tabGet r s.itab r

/-- `MapAddress` (R68). -/
def mapAddress (s : State) (pa : Nat) : Loc :=
  let ma := machineRegion s (bits pa 38 21) * 2 ^ 21 + bits pa 20 0
  let row := bits ma 38 26 * 8 + bits ma 20 18
  { row := row
    stack := bits ma 23 21 ^^^ bits row 9 7
    channel := (bits ma 25 24 ^^^ bits row 11 10) * 8 + (bits ma 13 11 ^^^ bits row 2 0)
    pch := bits ma 10 10
    bgroup := bits ma 15 14 ^^^ bits row 4 3
    bank := bits ma 17 16 ^^^ bits row 6 5
    column := bits ma 9 6
    byte := bits ma 5 0 }

/-- A bank's number among the 8,192 of the module. -/
def Loc.bankNo (l : Loc) : Nat := l.stack * 1024 + l.channel * 32 + l.pch * 16 + l.bgroup * 4 + l.bank
/-- A channel group's index, 4 × stack + group (R70). -/
def Loc.groupNo (l : Loc) : Nat := l.stack * 4 + l.channel / 8

/-- The physical address of a column of a row of a bank: R68 read backward, then the region that ITAB maps there. -/
def unmapAddress (s : State) (bankNo row column : Nat) : Nat :=
  let channel := bits bankNo 9 5
  let low := (row % 8) * 2 ^ 18 + (bits bankNo 1 0 ^^^ bits row 6 5) * 2 ^ 16
    + (bits bankNo 3 2 ^^^ bits row 4 3) * 2 ^ 14 + (channel % 8 ^^^ bits row 2 0) * 2 ^ 11
    + bits bankNo 4 4 * 2 ^ 10 + column * 2 ^ 6
  let mr := (row / 8) * 32 + (channel / 8 ^^^ bits row 11 10) * 8 + (bits bankNo 12 10 ^^^ bits row 9 7)
  let r := match s.itab.find? (fun e => e.2 = mr) with
    | some e => e.1
    | none => mr
  r * 2 ^ 21 + low

/-- A bank. -/
def getBank (s : State) (b : Nat) : Bank := tabGet {} s.banks b
/-- A bank changed. -/
def modBank (s : State) (b : Nat) (f : Bank → Bank) : State := { s with banks := tabSet s.banks b (f (getBank s b)) }

/-- Every resident task, with its core and slot. -/
def allTasks (s : State) : List (Nat × Nat × Task) :=
  s.cores.flatMap fun c => c.2.slots.map fun t => (c.1, t.1, t.2)

/-- The state of a row for a task (Table 4.7); `none` is free. -/
def pegOf (t : Task) (bank row : Nat) : Option PegSt :=
  (t.pegs.find? fun p => p.bank = bank ∧ p.row = row).map (·.st)

/-- Does some task hold the row in a line, or await it there (held or suspended)? -/
def rowHeld (s : State) (bank row : Nat) : Bool :=
  (allTasks s).any fun t => match pegOf t.2.2 bank row with
    | some .held => true
    | some .suspended => true
    | _ => false

/-- Is the row suspended (R76)? -/
def rowSuspended (s : State) (bank row : Nat) : Bool :=
  (allTasks s).any fun t => pegOf t.2.2 bank row == some .suspended

/-- The rows of a bank that are held or suspended, each once (R77). -/
def heldRows (s : State) (bank : Nat) : List Nat :=
  ((allTasks s).flatMap fun t => (t.2.2.pegs.filter fun p => p.bank = bank ∧ p.st ≠ .lost).map (·.row)).eraseDups

/-- The activation threshold of a stack (Table 4.5). -/
def actTh (s : State) (stack : Nat) : Nat :=
  max 0x200 (bits (tabGet {} s.memctl stack).hamctl.toNat 15 0)

/-- A row closes: its activation count rises, and at the threshold it raises an alert (R82). -/
def countClose (th : Nat) (b : Bank) (row : Nat) : Bank :=
  let n := tabGet 0 b.acts row + 1
  { b with acts := tabSet b.acts row n, alerts := if n ≥ th && !b.alerts.contains row then b.alerts ++ [row] else b.alerts }

/-- The line that holds a row open. -/
def lineOf (b : Bank) (row : Nat) : Option Nat := findIx (fun l => l.row == some row && l.isOpen) b.lines

/-- The line R74 takes for a row: the lowest-numbered that holds none, else the unheld one least recently accessed. -/
def takeLine (held : Nat → Bool) (b : Bank) : Option Nat :=
  match findIx (fun l => l.row.isNone) b.lines with
  | some i => some i
  | none =>
    let free := (b.lines.zipIdx.filter fun l => match l.1.row with
      | some r => !held r
      | none => false)
    (free.foldl (fun best l => match best with
      | none => some l
      | some m => if l.1.last < m.1.last then some l else some m) none).map (·.2)

/-- A row opened in its bank, or accessed where it is open (R74); `none` where no line can be taken. -/
def openRow (s : State) (bank row : Nat) : Option State :=
  let b := getBank s bank
  let now := s.fresh
  let s' := bump s
  match lineOf b row with
  | some i => some (modBank s' bank fun b => { b with lines := b.lines.set i { row := some row, isOpen := true, last := now } })
  | none =>
    match takeLine (fun r => rowHeld s bank r) b with
    | none => none
    | some i =>
      let b := match (nth b.lines i {}).row with
        | some old => countClose (actTh s (bank / 1024)) b old
        | none => b
      some (modBank s' bank fun _ => { b with lines := b.lines.set i { row := some row, isOpen := true, last := now } })

/-- A row closed and written back, if it is open. -/
def closeRow (s : State) (bank row : Nat) : State :=
  match findIx (fun l => l.row == some row) (getBank s bank).lines with
  | none => s
  | some i => modBank s bank fun b => countClose (actTh s (bank / 1024)) { b with lines := b.lines.set i {} } row

/-- May the task peg the row (R77)? The failing reason of R78, or 0. -/
def pegReason (s : State) (t : Task) (bank row : Nat) : Nat :=
  if t.pegs.length ≥ 8 then 1
  else if (heldRows s bank).length ≥ 2 && !(heldRows s bank).contains row then 2
  else if (getBank s bank).stuck.contains row then 4
  else 0

/-- A lost row re-pegged by its task's next access within the limits of R77; otherwise it stays lost (R75). -/
def repeg (s : State) (c n bank row : Nat) : State :=
  let t := getTask s c n
  match pegOf t bank row with
  | some .lost =>
    if pegReason s { t with pegs := t.pegs.filter fun p => ¬ (p.bank = bank ∧ p.row = row) } bank row = 0 then
      modTask s c n fun t => { t with pegs := t.pegs.map fun p => if p.bank = bank ∧ p.row = row then { p with st := .held } else p }
    else s
  | _ => s

/-- The count of a region in a group's list of 16, replacing the lowest entry when the list is full (R70); the new entry starts
at one more than the count it replaces (DESIGN CHOICE, log 57). -/
def countRegion (l : List (Nat × Nat)) (r : Nat) : List (Nat × Nat) :=
  if l.any (fun e => e.1 = r) then l.map fun e => if e.1 = r then (e.1, e.2 + 1) else e
  else if l.length < 16 then l ++ [(r, 1)]
  else
    let least := l.foldl (fun m e => min m e.2) ((l.headD (0, 0)).2)
    match findIx (fun e => e.2 = least) l with
    | some i => l.set i (r, least + 1)
    | none => l

/-- Is a region in the swap that runs? -/
def inSwap (s : State) (r : Nat) : Bool :=
  match s.swap with
  | some w => w.a = r || w.b = r
  | none => false

/-- A granule of a region in a swap that is written is recorded (R71). -/
def recordWrite (s : State) (pa : Nat) : State :=
  let r := bits pa 38 21
  { s with swap := s.swap.map fun w =>
      if (w.a = r || w.b = r) && !w.touched.contains (pa / 64) then { w with touched := w.touched ++ [pa / 64] } else w }

/-- The controller counts a transfer (R70) and records a granule of a region in a swap that is written (R71). It counts the
transfers of accesses; those of a swap's own copy and of scrub reads count in no epoch (DESIGN CHOICE, log 57). -/
def countTransfer (s : State) (pa : Nat) (wr : Bool) : State :=
  let g := (mapAddress s pa).groupNo
  let s := { s with
    traffic := tabSet s.traffic g (tabGet 0 s.traffic g + 1)
    topRegs := tabSet s.topRegs g (countRegion (tabGet [] s.topRegs g) (bits pa 38 21)) }
  if wr then recordWrite s pa else s

/-! ## Peg requests (R72, R77) -/

/-- Where a request stands in the order in which a bank serves them: by arrival, then core index, then slot (R77). -/
def PegReq.key (r : PegReq) : Nat := (r.cycle * 512 + r.core) * 4 + r.slot

/-- The requests of a bank that wait, but those of tasks that a trap has stopped. A request names an address, whose bank a flip
may change (R71). -/
def pegWaits (s : State) (bank : Nat) : List PegReq :=
  s.pegReqs.filter fun r => (mapAddress s r.pa).bankNo = bank && !halted (getTask s r.core r.slot) s.cycle

/-- Is it a task's turn to peg a row of the bank: no request of another task arrived earlier (R77)? -/
def pegTurn (s : State) (c n bank : Nat) : Bool :=
  match s.pegReqs.find? fun r => r.core = c && r.slot = n with
  | some m => (pegWaits s bank).all fun r => m.key ≤ r.key
  | none => (pegWaits s bank).isEmpty

/-- A task's request put down at the controller, once. -/
def askPeg (s : State) (r : PegReq) : State :=
  if s.pegReqs.any fun x => x.core = r.core && x.slot = r.slot then s else { s with pegReqs := s.pegReqs ++ [r] }

/-- A task's request withdrawn. -/
def dropPegReq (s : State) (c n : Nat) : State := { s with pegReqs := s.pegReqs.filter fun r => !(r.core = c && r.slot = n) }

/-- A row of a bank has been pegged: the counts of those that wait for the bank's lines start again (R284). -/
def pegGranted (s : State) (bank : Nat) : State :=
  (pegWaits s bank).foldl (fun s r => modTask s r.core r.slot fun t =>
    modTaskCtl t .l fun x => if x.hold = some (.peg, 0) then { x with held := 0 } else x) s

/-! ## Accesses -/

/-- One access of an agent to one granule: it waits while its row is suspended or its bank is stopped (R76, R81, R82),
and a re-peg waits for a swap (R72) and for the bank's earlier requests (R77); its row is open after it (R74); the controller counts it (R70, R71) and the task's region is charged (R298). -/
def touch (s : State) (who : Option (Nat × Nat)) (pa : Nat) (wr : Bool) : M State :=
  let l := mapAddress s pa
  let b := l.bankNo
  let lost := match who with
    | some (c, n) => pegOf (getTask s c n) b l.row == some .lost
    | none => false
  if (getBank s b).busy || rowSuspended s b l.row then hold .line
  else if lost && inSwap s (bits pa 38 21) then hold .swap
  else if lost && !(pegWaits s b).isEmpty then hold .line
  else
    let s := match who with
      | some (c, n) => charge (repeg s c n b l.row) c (getTask s c n).rcb 0 1
      | none => s
    match openRow s b l.row with
    | none => hold .line
    | some s =>
      .ok (countTransfer s pa wr)

/-- Every granule of a range accessed. -/
def touchRange (s : State) (who : Option (Nat × Nat)) (pa n : Nat) (wr : Bool) : M State :=
  if n = 0 then .ok s
  else (upto (pa / 64) ((pa + n - 1) / 64 + 1 - pa / 64)).foldlM (fun s g => touch s who (g * 64) wr) s

/-- The first poisoned granule of a range, as its physical address (R85). -/
def poisonIn (s : State) (pa n : Nat) : Option Nat :=
  ((upto (pa / 64) ((pa + n + 63) / 64 - pa / 64)).find? fun g => s.poison.contains g).map (· * 64)

/-- Bytes stored to stack memory: a write of a whole granule clears its poison (R85). -/
def storeMem (s : State) (pa : Nat) (bs : List Byte) : State :=
  { s with mem := memWrite s.mem pa bs
           poison := s.poison.filter fun g => !(pa ≤ g * 64 && g * 64 + 64 ≤ pa + bs.length) }

/-- A row asked for: it opens now, or, where its bank is stopped, when the bank resumes (R78, R81, R82). -/
def askRow (s : State) (bank row : Nat) : State :=
  if (getBank s bank).busy then modBank s bank fun b => { b with wanted := b.wanted ++ [row] } else (openRow s bank row).getD s

/-- The granules of a range, as their addresses. -/
def granules (pa n : Nat) : List Nat := (upto (pa / 64) ((pa + n + 63) / 64 - pa / 64)).map (· * 64)

/-- An access of a unit of the hardware to one granule that its step does not wait for (R70, R71, R74): where the row is suspended
or its bank is stopped it waits in the controller, and so does every later access to that row (R76), so that it stands here at
once (DEDUCED, log 61). -/
def touchHw (wr : Bool) (s : State) (pa : Nat) : State :=
  match touch s none pa wr with
  | .ok t => t
  | .error _ => let l := mapAddress s pa; countTransfer (askRow s l.bankNo l.row) pa wr

/-- Bytes that a unit of the hardware itself stores (launches, pre-emption, budgets, logs), by accesses like any other. -/
def storeHw (s : State) (pa : Nat) (bs : List Byte) : State := storeMem ((granules pa bs.length).foldl (touchHw true) s) pa bs

/-- What a unit of the hardware reads in a step that does not wait for it, as address and length: accesses like any other. -/
def readHw (s : State) (l : List (Nat × Nat)) : State :=
  (l.filter fun r => r.1 + r.2 ≤ 2 ^ 39).foldl (fun s r => (granules r.1 r.2).foldl (touchHw false) s) s

/-- Would an access to one of some ranges wait for its row or its bank (R76, R81, R82)? -/
def rowsWait (s : State) (l : List (Nat × Nat)) : Bool :=
  (l.filter fun r => r.1 + r.2 ≤ 2 ^ 39).any fun r => (granules r.1 r.2).any fun a =>
    let x := mapAddress s a
    (getBank s x.bankNo).busy || rowSuspended s x.bankNo x.row

/-- What a unit of the hardware itself reads, as address and length: accesses like any other, which wait as they do (R70, R74,
R76; each granule of a range once, log 61). An address that is not backed is no access. -/
def reach (s : State) (l : List (Nat × Nat)) : M State :=
  (l.filter fun r => r.1 + r.2 ≤ 2 ^ 39).foldlM (fun s r => touchRange s none r.1 r.2 false) s

/-- A granule marked poisoned, and logged (R85). -/
def markPoison (s : State) (g : Nat) : State :=
  if s.poison.contains g then s else { s with poison := s.poison ++ [g], memLog := s.memLog ++ [.poisoned (g * 64)] }

/-! ## Pegs of a task -/

/-- A task's hold of a row released: the last holder writes back and closes the line (R75, R78). -/
def releasePeg (s : State) (c n bank row : Nat) : State :=
  let s := modTask s c n fun t => { t with pegs := t.pegs.filter fun p => ¬ (p.bank = bank ∧ p.row = row) }
  if rowHeld s bank row then s else closeRow s bank row

/-- Every row of a task released (R77). -/
def releasePegs (s : State) (c n : Nat) : State :=
  (getTask s c n).pegs.foldl (fun s p => releasePeg s c n p.bank p.row) s

/-- Held lines of a bank suspended and written back for a refresh or a back-off (R75, R81, R82): unheld rows close. -/
def suspendBank (s : State) (bank : Nat) : State :=
  let held := heldRows s bank
  let s := { s with cores := s.cores.map fun c => (c.1, { c.2 with slots := c.2.slots.map fun t =>
    (t.1, { t.2 with pegs := t.2.pegs.map fun p => if p.bank = bank ∧ p.st = .held then { p with st := .suspended } else p }) }) }
  modBank s bank fun b => { b with busy := true, lines := b.lines.map fun l => match l.row with
    | some r => if held.contains r then { l with isOpen := false } else l
    | none => l }

/-- Every hold of a row becomes lost, and the row leaves its line (R75, R85, R86). -/
def loseRow (s : State) (bank row : Nat) : State :=
  let s := { s with cores := s.cores.map fun c => (c.1, { c.2 with slots := c.2.slots.map fun t =>
    (t.1, { t.2 with pegs := t.2.pegs.map fun p => if p.bank = bank ∧ p.row = row then { p with st := .lost } else p }) }) }
  modBank s bank fun b => { b with lines := b.lines.map fun l => if l.row = some row then {} else l }

end Sys2Proof.Machine
end

