-- ==== Sys2Proof/Machine/Payload.lean ====
section
/-!
DEFINITION. The payloads of the links: how a port's compressor and expander treat them (R218).
-/
namespace Sys2Proof.Machine

/-! ## Compression (R218) -/

/-- The mask of a block: bit `i` is set when byte `i` is non-zero. -/
def zeroMask : List Byte → Nat
  | [] => 0
  | b :: r => (b != 0).toNat + 2 * zeroMask r

/-- A block as a port's compressor sends it: the shorter of mask and non-zero bytes, and the bytes as they are. -/
def compressBlock (bs : List Byte) : LinkBlock :=
  let full := bs.filter (· ≠ 0)
  let n := ceilDiv bs.length 8
  if n + full.length < bs.length then { raw := false, len := bs.length, sent := leBytes n (zeroMask bs) ++ full }
  else { raw := true, len := bs.length, sent := bs }

/-- A payload in blocks of 256 bytes from its first byte. -/
def compressPayload (bs : List Byte) : List LinkBlock :=
  (List.range (ceilDiv bs.length 256)).map fun i => compressBlock ((bs.drop (256 * i)).take 256)

/-- `n` bytes from a mask and the non-zero bytes. -/
def fillMask : Nat → Nat → List Byte → List Byte
  | 0, _, _ => []
  | n + 1, m, bs => if m % 2 = 1 then bs.headD 0 :: fillMask n (m / 2) bs.tail else 0 :: fillMask n (m / 2) bs

/-- The bytes of a block, restored. -/
def expandBlock (b : LinkBlock) : List Byte :=
  if b.raw then b.sent
  else
    let n := ceilDiv b.len 8
    fillMask b.len (ofLe (b.sent.take n)) (b.sent.drop n)

/-- The bytes of a payload, restored. -/
def expandPayload (l : List LinkBlock) : List Byte := l.flatMap expandBlock

end Sys2Proof.Machine
end

