-- ==== Sys2Proof/Machine/Translate.lean ====
section
/-!
DEFINITION. Region control blocks and their effective values (R296, R297), translation and its cache (R279 to R283),
and where an address leads (R120, R137, R138).
-/
namespace Sys2Proof.Machine

/-- A 64-bit word of stack memory. -/
def memW (s : State) (pa : Nat) : Nat := memNat s.mem pa 8

/-! ## Regions -/

/-- Reserved bits of a region control block (Table 19.1): each word with the mask of its assigned bits. -/
def rcbMask : List Nat :=
  [0xFFFFFFFFFFFFFF00, 0xFF03FF, 0xFFFFFFFFFFFF, 0xFFFFFFFFFFFF, 0xFFFFFFFF, 0xFFFFFFFFFFFFFFFF,
   0xFFFFFFFFFFFFFFFF, 0xFFFFFFFFFFFFFFFF]
  ++ List.replicate 8 0xFFFFFFFFFFFFFFFF
  ++ [0xFFFFFFFFFFFF, 0xFFFFFFFFFFFF, 0xFFFFFFFFFFFFFFFF, 0xFFFFFFFF] ++ List.replicate 12 0

/-- Is the block at `a` at a backed stack address with no reserved bit set (R296, R297)? -/
def rcbOk (s : State) (a : Nat) : Bool :=
  a % 256 = 0 && a < 2 ^ 39 && rcbMask.zipIdx.all fun m => memW s (a + 8 * m.2) &&& m.1 = memW s (a + 8 * m.2)

/-- The blocks from a region up to the root, at most `n` of them; `none` where a block or the depth is illegal. -/
def rcbChain (s : State) : Nat → Nat → Option (List Nat)
  | 0, _ => none
  | n + 1, a =>
    if !rcbOk s a then none
    else if memW s a = 0 then some [a]
    else (rcbChain s n (memW s a)).map (a :: ·)

/-- The chain of a region (R296: at most 16 levels). -/
def regionChain (s : State) (a : Nat) : Option (List Nat) := rcbChain s 16 a

/-- The block that gives the field of an OVR bit: the first that sets it, or the root (R297). -/
def ownerOf (s : State) (ovr : Nat) : List Nat → Nat
  | [] => 0
  | [a] => a
  | a :: r => if bit (memW s (a + 8)) ovr then a else ownerOf s ovr r

/-- The budget that a block's own words give (Table 19.1). -/
def budgetAt (s : State) (b src : Nat) : Budget :=
  { rcb := b, icyc := bits (memW s (src + 16)) 47 0, dgran := bits (memW s (src + 24)) 47 0, period := bits (memW s (src + 32)) 31 0
    bpol := bit (memW s (src + 8)) 8, own := bit (memW s (b + 8)) 17 }

/-- The budgets of a region, with its effective values, and of its ancestors (R298). -/
def budgetsOf (s : State) : List Nat → List Budget
  | [] => []
  | a :: up => budgetAt s a (ownerOf s 17 (a :: up)) :: up.map fun b => budgetAt s b b

/-- The effective values of a region whose chain is given (R297). -/
def effOf (s : State) (ch : List Nat) : Eff :=
  let w (ovr i : Nat) := memW s (ownerOf s ovr ch + 8 * i)
  { buds := budgetsOf s ch, prio := bits (w 16 1) 3 0
    icyc := bits (w 17 2) 47 0, dgran := bits (w 17 3) 47 0, period := bits (w 17 4) 31 0, bpol := bit (w 17 1) 8
    fdom := w 18 5
    pegpol := bit (w 19 1) 4, preempt := bit (w 19 1) 5
    cmask := memNat s.mem (ownerOf s 20 ch + 64) 64
    troot := w 21 6, tctl := bit (w 21 1) 6
    sctl := bit (w 22 1) 7
    rerun := bit (w 23 1) 9, savep := w 23 7 }

/-- The effective values of a region, or none where its chain is illegal. -/
def regionEff (s : State) (a : Nat) : Option Eff := (regionChain s a).map (effOf s)

/-- What reading the blocks on the path to the root accesses, as far as they can be followed (R297). -/
def pathReads (s : State) : Nat → Nat → List (Nat × Nat)
  | 0, _ => []
  | n + 1, a =>
    if a % 256 ≠ 0 || a ≥ 2 ^ 39 then []
    else (a, 160) :: if rcbOk s a && memW s a ≠ 0 then pathReads s n (memW s a) else []

/-- What computing a region's effective values reads. -/
def regionReads (s : State) (a : Nat) : List (Nat × Nat) := pathReads s 16 a

/-- What a launch or a dispatch reads of memory: accesses that wait as those of `reach`, and an uncorrectable error that one of
them meets (R85). -/
def reachGood (s : State) (l : List (Nat × Nat)) : M State := do
  let s ← reach s l
  match l.findSome? fun r => poisonIn s r.1 r.2 with
  | some d => trap 0x0B d
  | none => .ok s

/-- A region's effective values computed at one of the three moments of R297 reach its tasks on every core. -/
def setEff (s : State) (a : Nat) (e : Eff) : State :=
  { s with
    effs := tabSet s.effs a e
    cores := s.cores.map fun k => (k.1, { k.2 with slots := k.2.slots.map fun t => (t.1, if t.2.rcb = a then { t.2 with eff := e } else t.2) }) }

/-- The effective values that a region has between those moments. -/
def effNow (s : State) (a : Nat) : Option Eff := tabFind s.effs a

/-- Those values computed anew where no task is there to take an error; blocks that give none leave them as they are (R297). -/
def renewEff (s : State) (a : Nat) : State :=
  let l := regionReads s a
  let s := readHw s l
  match regionEff s a with
  | some e => if l.any fun r => (poisonIn s r.1 r.2).isSome then s else setEff s a e
  | none => s

/-! ## Translation -/

/-- First physical address past the aperture, and its base (R137). -/
def apertureBase : Nat := 2 ^ 40
/-- Is the physical address in the aperture? -/
def inAperture (pa : Nat) : Bool := apertureBase ≤ pa && pa < apertureBase + 2 ^ 29

/-- Does the entry name another module's memory (R216, R334)? -/
def isRemote (s : State) (e : Nat) : Bool := bit e 53 && bits e 59 54 ≠ s.domid

/-- The size of an entry's page as a power of two. -/
def pageBits (e : Nat) : Nat := if bit e 60 then 30 else 21

/-- The failing cause and reason of an entry with V set (R279): reserved bits, then its physical range. -/
def entryBad (s : State) (e : Nat) : Option Nat :=
  if bits e 52 41 ≠ 0 || bits e 20 0 ≠ 0 then some 2
  else
    let base := bits e 40 21 * 2 ^ 21
    let top := base + 2 ^ pageBits e
    if (bit e 60 && bits e 29 21 ≠ 0)
        || (!isRemote s e && !(top ≤ 2 ^ 39 || (apertureBase ≤ base && top ≤ apertureBase + 2 ^ 29))) then some 1
    else none

/-- Does an entry of the region cover the address? -/
def covers (t : TEntry) (rcb va : Nat) : Bool :=
  t.rcb = rcb && t.vpn * 2 ^ 21 ≤ va && va < t.vpn * 2 ^ 21 + 2 ^ pageBits t.e.toNat

/-- The cache entry for an address: a valid one, or (for a command in flight) one still pinned. -/
def cacheFind (k : Core) (rcb va : Nat) (old : Bool := false) : Option TEntry :=
  match k.tcache.find? fun t => t.valid && covers t rcb va with
  | some t => some t
  | none => if old then k.tcache.find? fun t => covers t rcb va else none

/-- Does an entry permit the access: 0 read, 1 write, 2 both, 3 the footprint of an engine that writes (R281)? -/
def permits (e acc : Nat) : Bool := (acc % 2 = 1 || bit e 61) && (acc = 0 || bit e 62)

/-- The port that another module is reached by, if its route is open (R219, R336). -/
def routePort (s : State) (m : Nat) : Option Nat :=
  let e := (tabGet 0 s.routes m).toNat
  if bit e 7 && bit s.ports (bits e 3 0) then some (bits e 3 0) else none

/-- The number of a core in its cluster and its die (R9). -/
def coreNo (c : Nat) : Nat := c % 256
/-- The die of a core. -/
def dieOf (c : Nat) : Nat := c / 256

/-- The peer task of a task on another core: same TAG, same region, lowest slot (R137). -/
def peerSlot (s : State) (t : Task) (core : Nat) : Option Nat :=
  ([0, 1, 2, 3].find? fun n => resident s core n && (getTask s core n).tag = t.tag && (getTask s core n).rcb = t.rcb)

/-- The size of a task's scratchpad allotment in bytes, and of what lies outside its airing store (R97, R138). -/
def spmSize (t : Task) : Nat := t.tt.spm * 32768
/-- The bytes of the allotment below the airing store. -/
def spmUsable (t : Task) : Nat := spmSize t - t.air.size * 32768

/-- `n` bytes at `off` in an allotment; otherwise cause 0x08 with the address as formed (R138). -/
def inAllot (s : State) (c slot off n a : Nat) : M Place :=
  if off + n ≤ spmUsable (getTask s c slot) then .ok (.spm c slot off) else trap 8 a

/-- An offset in the allotment of the peer task on a core (R137, R138). -/
def onPeer (s : State) (c slot core off n a : Nat) : M Place :=
  match peerSlot s (getTask s c slot) core with
  | none => trap 8 a
  | some p => inAllot s core p off n a

/-- A cluster-wide address: that of the peer on a core, or the task's own local address on its own core (R137). -/
def onCore (s : State) (c slot core off n a : Nat) : M Place :=
  if core = c then inAllot s c slot off n a else onPeer s c slot core off n a

/-- A physical address: stack memory, or the aperture, which names the peer on every core, the task's own too (R137); any other
is not backed (cause 0x06). -/
def atPhysical (s : State) (c slot pa n a : Nat) : M Place :=
  if pa + n ≤ 2 ^ 39 then .ok (.mem pa)
  else if apertureBase ≤ pa && pa + n ≤ apertureBase + 2 ^ 29 then
    onPeer s c slot (bits pa 28 28 * 256 + bits pa 27 20) (bits pa 19 0) n a
  else trap 6 a

/-- The physical address that a cache entry gives for an address in its page. -/
def entryPa (e va : Nat) : Nat := bits e 40 21 * 2 ^ 21 + va % 2 ^ pageBits e

/-- An address through a cache entry that permits the access (R216, R336). -/
def through (s : State) (c slot : Nat) (e : Nat) (va n : Nat) : M Place :=
  if isRemote s e then
    if (tabFind s.rchange (bits e 59 54)).isSome then hold .remote
    else match routePort s (bits e 59 54) with
      | some _ => .ok (.far (bits e 59 54) (entryPa e va))
      | none => trap 6 va
  else atPhysical s c slot (entryPa e va) n va

/-- Has a refill or walk found no mapping for the waiting sequencer (R281 item 4)? -/
def noMapping (t : Task) (va : Nat) : Bool := t.miss.any fun m => m.noMap && m.va / 2 ^ 21 = va / 2 ^ 21

/-- The cache entry that translates a global virtual address for a task's access (R281); it misses where no valid entry covers
the address. -/
def entryFor (s : State) (c slot va n acc : Nat) (old : Bool := false) : M Nat :=
  let t := getTask s c slot
  if va < 2 ^ 32 || va + n > 2 ^ 48 then trap 6 va
  else if noMapping t va then trap 5 va
  else match cacheFind (getCore s c) t.rcb va old with
    | some e => if permits e.e.toNat acc then .ok e.e.toNat else trap 6 va
    | none => .error (.miss va (min acc 2))

/-- A global virtual address translated for a task (R281). -/
def translate (s : State) (c slot va n acc : Nat) (old : Bool := false) : M Place := do
  let e ← entryFor s c slot va n acc old
  through s c slot e va n

/-- The place of `n` bytes at an address in any form of R120, for a task. -/
def placeOf (s : State) (c slot a n acc : Nat) (old : Bool := false) : M Place :=
  if a < 2 ^ 20 then inAllot s c slot a n a
  else if 2 ^ 28 ≤ a && a < 2 ^ 29 then onCore s c slot (dieOf c * 256 + bits a 27 20) (bits a 19 0) n a
  else translate s c slot a n acc old

/-- The place of a C access: in the handler context a global address is physical (R273). -/
def resolve (s : State) (a n acc : Nat) : M Place :=
  let c := s.cur.core; let slot := s.cur.slot
  if s.cur.handler && 2 ^ 29 ≤ a then
    if a < 2 ^ 32 || a + n > 2 ^ 48 then trap 6 a else atPhysical s c slot a n a
  else placeOf s c slot a n acc

/-! ## The cache -/

/-- The pegs of a region's tasks on a core whose addresses had no translation, once an entry gives one (R289): a row of stack
memory, or no peg. -/
def settlePegs (s : State) (c rcb : Nat) : State :=
  let k := getCore s c
  let settle (p : Peg) : List Peg :=
    if p.bank ≠ 8192 then [p]
    else match cacheFind k rcb p.va with
      | none => [p]
      | some e =>
        let pa := entryPa e.e.toNat p.va
        if isRemote s e.e.toNat || pa ≥ 2 ^ 39 then [] else [{ p with bank := (mapAddress s pa).bankNo, row := (mapAddress s pa).row }]
  modCore s c fun k => { k with slots := k.slots.map fun t =>
    (t.1, if t.2.rcb = rcb then { t.2 with pegs := t.2.pegs.flatMap settle } else t.2) }

/-- An entry put into the cache of a core in place of the valid ones it covers; where 256 are held, the first
unpinned one leaves; `none` where all are pinned (R280). -/
def cacheInsert (s : State) (c rcb vpn : Nat) (e : W64) : Option State :=
  let k := getCore s c
  let vpn := if bit e.toNat 60 then vpn / 512 * 512 else vpn
  let t : TEntry := { id := s.fresh, rcb := rcb, vpn := vpn, e := e }
  let kept := (k.tcache.map fun x =>
      if x.rcb = rcb && (covers t rcb (x.vpn * 2 ^ 21) || covers x rcb (vpn * 2 ^ 21)) then { x with valid := false } else x).filter
    fun x => x.valid || x.pins > 0
  let room := if kept.length < 256 then some kept
    else (findIx (fun x => x.pins = 0) kept).map fun i => kept.eraseIdx i
  room.map fun l => settlePegs (modCore (bump s) c fun k => { k with tcache := l ++ [t] }) c rcb

/-- The entries of a region that cover a page become invalid on the given cores (R283). -/
def cacheInvalidate (s : State) (cores : Nat → Bool) (rcb va : Nat) : State :=
  { s with cores := s.cores.map fun c =>
    if cores c.1 then
      let l := c.2.tcache.map fun t => if covers t rcb va then { t with valid := false } else t
      (c.1, { c.2 with tcache := l.filter fun t => t.valid || t.pins > 0 })
    else c }

/-- Does an invalid entry of the page stay pinned on one of the cores (R283 step 2)? -/
def stillPinned (s : State) (cores : Nat → Bool) (rcb va : Nat) : Bool :=
  s.cores.any fun c => cores c.1 && c.2.tcache.any fun t => covers t rcb va && t.pins > 0

/-- The pages of a footprint translated at issue, the entries it uses, each once (R280). -/
def pinPages (s : State) (c slot acc : Nat) (vas : List Nat) : M (List Nat) :=
  vas.foldlM (fun ids va => do
    let _ ← translate s c slot va 1 acc
    match cacheFind (getCore s c) (getTask s c slot).rcb va with
    | some e => .ok (if ids.contains e.id then ids else ids ++ [e.id])
    | none => .ok ids) []

/-- In-flight counters raised. -/
def pin (s : State) (c : Nat) (ids : List Nat) : State :=
  modCore s c fun k => { k with tcache := k.tcache.map fun t => if ids.contains t.id then { t with pins := t.pins + 1 } else t }

/-- In-flight counters lowered (R280); an invalid entry that reaches zero leaves. -/
def unpin (s : State) (c : Nat) (ids : List Nat) : State :=
  modCore s c fun k =>
    let l := k.tcache.map fun t => if ids.contains t.id then { t with pins := t.pins - 1 } else t
    { k with tcache := l.filter fun t => t.valid || t.pins > 0 }

/-! ## Bytes at places -/

/-- The first byte of a task's allotment in its core's scratchpad. -/
def spmBase (t : Task) : Nat := t.al.spm * 32768

/-- Bytes read at a place. -/
def bytesAt (s : State) (p : Place) (n : Nat) : List Byte :=
  match p with
  | .spm c slot off => memRead (getCore s c).spm (spmBase (getTask s c slot) + off) n
  | .mem pa => memRead s.mem pa n
  | .far m pa => memRead s.farMem (m * 2 ^ 41 + pa) n

/-- Bytes stored in a core's scratchpad at a physical offset; a whole 64-bit word stored clears an SRAM error of it. -/
def putSpm (s : State) (c a : Nat) (bs : List Byte) : State :=
  modCore s c fun k => { k with
    spm := memWrite k.spm a bs
    sramBad := k.sramBad.filter fun w => !(w.1 = 0 && a ≤ w.2 * 8 && w.2 * 8 + 8 ≤ a + bs.length) }

/-- Bytes stored at a place. -/
def storeAt (s : State) (p : Place) (bs : List Byte) : State :=
  match p with
  | .spm c slot off => putSpm s c (spmBase (getTask s c slot) + off) bs
  | .mem pa => storeMem s pa bs
  | .far m pa => { s with farMem := memWrite s.farMem (m * 2 ^ 41 + pa) bs }

/-- The SRAM locator of Table 16.2's cause 0x0B (R344). -/
def sramLocator (c array : Nat) : Nat := 2 ^ 63 + dieOf c * 2 ^ 16 + coreNo c * 2 ^ 8 + array

/-- The detail of an uncorrectable error that a read of `n` bytes meets (R85, R344). -/
def readError (s : State) (p : Place) (n : Nat) : Option Nat :=
  match p with
  | .mem pa => poisonIn s pa n
  | .spm c slot off =>
    let a := spmBase (getTask s c slot) + off
    if (getCore s c).sramBad.any fun w => w.1 = 0 && overlap (w.2 * 8) 8 a n then some (sramLocator c 0) else none
  | .far _ _ => none

/-- A read by an agent of a task: the rows it touches, an error it meets (cause 0x0B), the bytes. -/
def readAt (s : State) (who : Nat × Nat) (p : Place) (n : Nat) : M (State × List Byte) := do
  let s ← match p with
    | .mem pa => touchRange s (some who) pa n false
    | _ => .ok s
  match readError s p n with
  | some d => trap 0x0B d
  | none => .ok (s, bytesAt s p n)

/-- A flit leaves by a port with the next number, and stays there until it is acknowledged (R217, R219). -/
def sendOn (s : State) (p : Nat) (f : Nat → Flit) : State :=
  let l := tabGet {} s.links p
  { s with
    links := tabSet s.links p { l with tx := l.tx + 1, unacked := l.unacked ++ [f l.tx] }
    out := s.out ++ [.flit p l.tx (f l.tx).body] }

/-- A flit for an access of a task leaves by its module's port. `seq` is the sequencer of the task whose access it serves, `va` the
address of that access, `idx` the index of an engine command. -/
def sendFlit (s : State) (m : Nat) (body : FlitBody) (who : Nat × Nat) (seq va : Nat) (idx : Nat := 0) : State :=
  match routePort s m with
  | none => s
  | some p => sendOn s p fun k =>
      { seq := k, m := m, body := body, by_ := some (who.1, who.2, (getTask s who.1 who.2).uid, seq), va := va, idx := idx }

/-- Does an access of a task to another module, by a sequencer as the trap record numbers it and a command index, await the
acknowledgement of a flit (R208, R219)? -/
def linkWaits (s : State) (c n seq idx : Nat) : Bool :=
  s.links.any fun l => l.2.unacked.any fun f => f.by_ = some (c, n, (getTask s c n).uid, seq) && f.idx = idx

/-- A write by S for a task, at the address `va`. -/
def writeAt (s : State) (who : Nat × Nat) (p : Place) (va : Nat) (bs : List Byte) : M State := do
  let s ← match p with
    | .mem pa => touchRange s (some who) pa bs.length true
    | .far m pa => .ok (sendFlit s m (.write pa (compressPayload bs)) who 3 va)
    | _ => .ok s
  .ok (storeAt s p bs)

end Sys2Proof.Machine
end

