-- ==== Sys2Proof/Machine/Access.lean ====
section
/-!
DEFINITION. One C access to memory: alignment and resolution (R142), its effect at a place (R142, R143, R146, R148),
lock bits (R145 to R149), and the request to another core (R138).
-/
namespace Sys2Proof.Machine

/-- The kind of an access for translation: 0 read, 1 write, 2 both (R281). -/
def accKind : AccOp → Nat
  | .load _ | .llk => 0
  | .store | .sul => 1
  | _ => 2

/-- Is the access an `ATOM`? -/
def isAtom : AccOp → Bool
  | .load _ | .store | .llk | .sul => false
  | _ => true

/-- What an access writes, given the old value of its bytes (R142, R146, R148). -/
def accWrite (a : Acc) (old : Nat) : Option Nat :=
  let w := 8 * a.size
  let v := a.val.toNat % 2 ^ w
  match a.op with
  | .load _ | .llk => none
  | .store | .sul | .xchg => some v
  | .cas => if old = a.cmpv.toNat % 2 ^ w then some v else none
  | .xadd => some ((old + v) % 2 ^ w)
  | .and => some (old &&& v)
  | .or => some (old ||| v)
  | .min => some (if sext old w ≤ sext v w then old else v)
  | .max => some (if sext old w ≥ sext v w then old else v)

/-- What an access puts into its register (Table 8.1, R143, R146, R148). -/
def accResult (a : Acc) (old : Nat) : Option W64 :=
  match a.op with
  | .store | .sul => none
  | .load false | .llk => some (BitVec.ofNat 64 old)
  | _ => some (w64 (sext old (8 * a.size)))

/-- The effect of an access on its bytes and its register, at a place whose lock and rows are settled. -/
def accEffect (s : State) (a : Acc) (p : Place) : State :=
  let old := ofLe (bytesAt s p a.size)
  let s := match accWrite a old with
    | some v => storeAt s p (leBytes a.size v)
    | none => s
  match accResult a old with
  | some v => setReg s (BitVec.ofNat 5 a.d) v
  | none => s

/-! ## Lock bits -/

/-- The bank of a physical offset (R145). -/
def lockBank (off : Nat) : Nat := bits off 10 6
/-- The lock bit `L(A)` of a physical offset (R145). -/
def lockLine (off : Nat) : Nat := bits off 13 11 ^^^ bits off 16 14 ^^^ bits off 19 17

/-- The context that holds a lock bit. -/
def lockHolder (s : State) (c bank line : Nat) : Option LockHeld :=
  (getCore s c).locks.find? fun l => l.bank = bank ∧ l.line = line

/-- Does the running context hold the bit? -/
def iHold (s : State) (c bank line : Nat) : Bool := (ctx s).lock == some ⟨c, bank, line⟩

/-- The bit taken for the running context, which LLK marks in its slot. -/
def takeLock (s : State) (c bank line : Nat) : State :=
  let s := modCore s c fun k => { k with
    locks := k.locks ++ [⟨bank, line, s.cur.core, s.cur.slot, s.cur.handler⟩] }
  modCtx s fun x => { x with lock := some ⟨c, bank, line⟩ }

/-- The bit released by the running context. -/
def dropLock (s : State) (c bank line : Nat) : State :=
  let s := modCore s c fun k => { k with locks := k.locks.filter fun l => ¬ (l.bank = bank ∧ l.line = line) }
  modCtx s fun x => { x with lock := none }

/-- An access at the bank of its byte (R142, R146, R149): LLK and ATOM wait for the lock bit in order of arrival,
unless an ATOM's context holds it, and read only then; SUL needs it in its slot. -/
def accAtBank (s : State) (a : Acc) (c slot off : Nat) (granted : Bool := false) : M State :=
  let p := Place.spm c slot off
  let phys := spmBase (getTask s c slot) + off
  let bank := lockBank phys; let line := lockLine phys
  let mine := iHold s c bank line
  let free := granted || ((lockHolder s c bank line).isNone
    && !(getCore s c).waits.any fun w => w.bank = bank ∧ w.line = line)
  let effect : M State := match (if accKind a.op = 1 then none else readError s p a.size) with
    | some d => trap 0x0B d
    | none => .ok (accEffect s a p)
  match a.op with
  | .load _ | .store => effect
  | .sul => if mine then effect.map fun t => dropLock t c bank line else illegal 6 0
  | _ =>
    if isAtom a.op && mine then effect
    else if free then effect.map fun t => if a.op = .llk then takeLock t c bank line else t
    else
      let w : LockWait := ⟨bank, line, s.cur.core, s.cur.slot, s.cur.handler, slot, off, a, s.cycle⟩
      let s := modCore s c fun k => { k with waits := k.waits ++ [w] }
      .ok (modCtl s .c fun x => { x with st := .busy .lock line, hold := some (.lock, line), held := 0 })

/-- What an access to another module's memory sends (R216, R217): its new bytes, or the request to read them. -/
def accFlit (s : State) (a : Acc) (p : Place) (pa : Nat) : FlitBody :=
  match accWrite a (ofLe (bytesAt s p a.size)) with
  | some v => .write pa (compressPayload (leBytes a.size v))
  | none => .read s.domid pa a.size

/-- An access to another module's memory (R216): its flit leaves, and C waits until it is acknowledged (R219). -/
def accFar (s : State) (a : Acc) (p : Place) (m pa : Nat) : M State :=
  let old := ofLe (bytesAt s p a.size)
  let t := sendFlit s m (accFlit s a p pa) (s.cur.core, s.cur.slot) 0 a.addr.toNat
  let t := match accWrite a old with
    | some v => storeAt t p (leBytes a.size v)
    | none => t
  match routePort s m with
  | none => .ok t
  | some port =>
    let r := Remote.link s.cur.core s.cur.slot s.cur.handler port (tabGet {} s.links port).tx a (accResult a old) false
    .ok (modCtl { t with remote := t.remote ++ [r] } .c fun x => { x with st := .busy .remote 0 })

/-- An access to stack memory; an `ATOM` or load of a poisoned granule is cause 0x0B and writes nothing, a store of a part of
one is performed (R85, R142, R149). -/
def accGlobal (s : State) (a : Acc) (pa : Nat) : M State := do
  let s ← touchRange s (some (s.cur.core, s.cur.slot)) pa a.size (accKind a.op ≠ 0)
  match (if accKind a.op = 1 then none else readError s (.mem pa) a.size) with
  | some d => trap 0x0B d
  | none => .ok (accEffect s a (.mem pa))

/-- The page of the cache entry that translates an address of the running context; 0 where none does (R281). -/
def usedPage (s : State) (a : Nat) : Nat :=
  if s.cur.handler || a < 2 ^ 32 then 0
  else match cacheFind (myCore s) (me s).rcb a with
    | some e => pageBits e.e.toNat
    | none => 0

/-- A C access (R142): an access to another core's scratchpad goes there as a request, and C waits for the answer
(R138). -/
def cAccess (a : Acc) (s : State) : M State := do
  if a.op = .llk && (ctx s).lock.isSome then illegal 6 0
  let ad := a.addr.toNat
  need (ad % a.size = 0) 7 ad
  let p ← resolve s ad a.size (accKind a.op)
  let a := { a with page := usedPage s ad }
  match p with
  | .spm c slot off =>
    if c = s.cur.core then accAtBank s a c slot off
    else
      let r := Remote.access s.cur.core s.cur.slot s.cur.handler c slot off a
      .ok (modCtl { s with remote := s.remote ++ [r] } .c fun x => { x with st := .busy .remote 0 })
  | .mem pa => if a.op = .llk || a.op = .sul then trap 6 ad else accGlobal s a pa
  | .far m pa => if a.op = .llk || a.op = .sul then trap 6 ad else accFar s a p m pa

end Sys2Proof.Machine
end

