-- ==== Sys2Proof/Machine/CMem.lean ====
section
/-!
DEFINITION. C loads and stores, LDA and STL, ATOM, LLK, SUL and FENCE (R141 to R149, R262). The ordering class and
scope choose no value here: every access performs at once in the order of the steps (log 9).
-/
namespace Sys2Proof.Machine

/-- `g[ra] + SignExt(off12, 12)·size`. -/
def cmAddr (s : State) (a : BitVec 5) (o : BitVec 12) (size : Nat) : W64 :=
  reg s a + o.signExtend 64 * BitVec.ofNat 64 size

/-- A load of Table 8.1. -/
def load (signed : Bool) (size : Nat) (d a : BitVec 5) (o : BitVec 12) (s : State) : M State :=
  cAccess { op := .load signed, d := d.toNat, size := size, addr := cmAddr s a o size, val := 0 } s

/-- A store of Table 8.1. -/
def store (size : Nat) (d a : BitVec 5) (o : BitVec 12) (s : State) : M State :=
  cAccess { op := .store, d := 0, size := size, addr := cmAddr s a o size, val := reg s d } s

/-- LDB: a byte, sign-extended. -/
def execLdb (d a : BitVec 5) (c : BitVec 4) (o : BitVec 12) (s : State) : Out := execC (.ldb d a c o) (load true 1 d a o) s
/-- LDH: two bytes, sign-extended. -/
def execLdh (d a : BitVec 5) (c : BitVec 4) (o : BitVec 12) (s : State) : Out := execC (.ldh d a c o) (load true 2 d a o) s
/-- LDW: four bytes, sign-extended. -/
def execLdw (d a : BitVec 5) (c : BitVec 4) (o : BitVec 12) (s : State) : Out := execC (.ldw d a c o) (load true 4 d a o) s
/-- LDD: eight bytes. -/
def execLdd (d a : BitVec 5) (c : BitVec 4) (o : BitVec 12) (s : State) : Out := execC (.ldd d a c o) (load false 8 d a o) s
/-- LDBU: a byte, zero-extended. -/
def execLdbu (d a : BitVec 5) (c : BitVec 4) (o : BitVec 12) (s : State) : Out := execC (.ldbu d a c o) (load false 1 d a o) s
/-- LDHU: two bytes, zero-extended. -/
def execLdhu (d a : BitVec 5) (c : BitVec 4) (o : BitVec 12) (s : State) : Out := execC (.ldhu d a c o) (load false 2 d a o) s
/-- LDWU: four bytes, zero-extended. -/
def execLdwu (d a : BitVec 5) (c : BitVec 4) (o : BitVec 12) (s : State) : Out := execC (.ldwu d a c o) (load false 4 d a o) s
/-- STB: one byte stored. -/
def execStb (d a : BitVec 5) (c : BitVec 4) (o : BitVec 12) (s : State) : Out := execC (.stb d a c o) (store 1 d a o) s
/-- STH: two bytes stored. -/
def execSth (d a : BitVec 5) (c : BitVec 4) (o : BitVec 12) (s : State) : Out := execC (.sth d a c o) (store 2 d a o) s
/-- STW: four bytes stored. -/
def execStw (d a : BitVec 5) (c : BitVec 4) (o : BitVec 12) (s : State) : Out := execC (.stw d a c o) (store 4 d a o) s
/-- STD: eight bytes stored. -/
def execStd (d a : BitVec 5) (c : BitVec 4) (o : BitVec 12) (s : State) : Out := execC (.std d a c o) (store 8 d a o) s

/-- LDA: a load of its size at an unsigned offset, zero-extended (R143). -/
def execLda (d a : BitVec 5) (c : BitVec 4) (z : BitVec 2) (sc : BitVec 3) (o : BitVec 7) (s : State) : Out :=
  execC (.lda d a c z sc o) (fun s =>
    let size := 2 ^ z.toNat
    cAccess { op := .load false, d := d.toNat, size := size, addr := reg s a + BitVec.ofNat 64 (o.toNat * size), val := 0 } s) s
/-- STL: the store of its size at an unsigned offset (R143). -/
def execStl (d a : BitVec 5) (c : BitVec 4) (z : BitVec 2) (sc : BitVec 3) (o : BitVec 7) (s : State) : Out :=
  execC (.stl d a c z sc o) (fun s =>
    let size := 2 ^ z.toNat
    cAccess { op := .store, d := 0, size := size, addr := reg s a + BitVec.ofNat 64 (o.toNat * size), val := reg s d } s) s

/-- An atomic of R148 at `g[ra]`. -/
def atom (op : AccOp) (d a b : BitVec 5) (z : BitVec 1) (s : State) : M State :=
  cAccess { op := op, d := d.toNat, size := if z = 1 then 8 else 4, addr := reg s a, val := reg s b, cmpv := reg s d } s

/-- ATOM.CAS. -/
def execAtomCas (d a b : BitVec 5) (z : BitVec 1) (sc : BitVec 3) (c : BitVec 4) (s : State) : Out :=
  execC (.atomCas d a b z sc c) (atom .cas d a b z) s
/-- ATOM.XADD. -/
def execAtomXadd (d a b : BitVec 5) (z : BitVec 1) (sc : BitVec 3) (c : BitVec 4) (s : State) : Out :=
  execC (.atomXadd d a b z sc c) (atom .xadd d a b z) s
/-- ATOM.XCHG. -/
def execAtomXchg (d a b : BitVec 5) (z : BitVec 1) (sc : BitVec 3) (c : BitVec 4) (s : State) : Out :=
  execC (.atomXchg d a b z sc c) (atom .xchg d a b z) s
/-- ATOM.AND. -/
def execAtomAnd (d a b : BitVec 5) (z : BitVec 1) (sc : BitVec 3) (c : BitVec 4) (s : State) : Out :=
  execC (.atomAnd d a b z sc c) (atom .and d a b z) s
/-- ATOM.OR. -/
def execAtomOr (d a b : BitVec 5) (z : BitVec 1) (sc : BitVec 3) (c : BitVec 4) (s : State) : Out :=
  execC (.atomOr d a b z sc c) (atom .or d a b z) s
/-- ATOM.MIN, signed. -/
def execAtomMin (d a b : BitVec 5) (z : BitVec 1) (sc : BitVec 3) (c : BitVec 4) (s : State) : Out :=
  execC (.atomMin d a b z sc c) (atom .min d a b z) s
/-- ATOM.MAX, signed. -/
def execAtomMax (d a b : BitVec 5) (z : BitVec 1) (sc : BitVec 3) (c : BitVec 4) (s : State) : Out :=
  execC (.atomMax d a b z sc c) (atom .max d a b z) s

/-- The size of LLK and SUL. -/
def lkSize (z : BitVec 1) : Nat := if z = 1 then 8 else 4

/-- LLK: takes the lock bit and loads (R146). -/
def execLlk (d a : BitVec 5) (c : BitVec 4) (z : BitVec 1) (o : BitVec 11) (s : State) : Out :=
  execC (.llk d a c z o) (fun s =>
    cAccess { op := .llk, d := d.toNat, size := lkSize z, addr := reg s a + BitVec.ofNat 64 (o.toNat * lkSize z), val := 0 } s) s
/-- SUL: stores and releases the lock bit (R146). -/
def execSul (d a : BitVec 5) (c : BitVec 4) (z : BitVec 1) (o : BitVec 11) (s : State) : Out :=
  execC (.sul d a c z o) (fun s =>
    cAccess { op := .sul, d := 0, size := lkSize z, addr := reg s a + BitVec.ofNat 64 (o.toNat * lkSize z), val := reg s d } s) s

/-- FENCE: every earlier access has performed, so it orders nothing more and goes on (R262, log 9). -/
def execFence (sc : BitVec 3) (m : BitVec 16) (s : State) : Out := execC (.fence sc m) (fun s => .ok s) s

end Sys2Proof.Machine
end

