-- ==== Sys2Proof/Machine/Region.lean ====
section
/-!
DEFINITION. Region budgets (R298, R299), interrupts of the IRQ register (R335), and fault logs (R229, R230, R300).
-/
namespace Sys2Proof.Machine

/-- A 64-bit word that the hardware stores in stack memory. -/
def setMemW (s : State) (pa v : Nat) : State := storeHw s pa (leBytes 8 v)

/-- An IST bit set: when it rises while its IEN bit is 1, the module sends the MSI-X vector. The cycle is noted for a W1C write
of the same cycle (R335). -/
def setIst (s : State) (n : Nat) : State :=
  let s := { s with istAt := tabSet s.istAt n s.cycle }
  if bit s.ist n then s
  else { s with ist := s.ist ||| 2 ^ n, out := if bit s.ien n then s.out ++ [.msix n] else s.out }

/-! ## Alarms (R342, R343) -/

/-- The class of an alarm source (Table 22.8): 1 A, 2 B, 3 C. -/
def alarmClass (src : Nat) : Nat :=
  match src with
  | 3 => 1
  | 4 | 5 => 3
  | _ => 2

/-- An entry put into the log behind those of earlier cycles, and among those of its cycle in ascending source order (R342). -/
def logAlarm (log : List AlarmEnt) (e : AlarmEnt) : List AlarmEnt :=
  let after (x : AlarmEnt) : Bool := x.at_ = e.at_ && x.src > e.src
  log.filter (!after ·) ++ e :: log.filter after

/-- An alarm logged and acted on. -/
def raiseAlarm (s : State) (src : Nat) : State :=
  let cls := alarmClass src
  let log := logAlarm s.alarms ⟨s.time, src, cls, some s.cycle⟩
  let s := setIst { s with alarms := log.drop (log.length - 64), alcnt := min 255 (s.alcnt + 1) } 1
  match cls with
  | 1 => s
  | 2 => { s with bootst := if s.bootst = 3 then 3 else if src = 2 then 4 else 2 }
  | _ => { s with bootst := 3, keys := { s.keys with present := false } }

/-- The budgets that a charge of a region counts against: its own, and that of every ancestor that sets OVR bit 17 and has a
non-zero budget (R298). Each is as the last moment of R297 of its own region computed it; that of an ancestor without one, as the
region's own last moment read it. -/
def charged (s : State) (rcb : Nat) : List Budget :=
  match ((effNow s rcb).map (·.buds)).getD [] with
  | [] => []
  | b :: up => b :: (up.map fun x => ((effNow s x.rcb).bind (·.buds.head?)).getD x).filter fun x => x.own && (x.icyc ≠ 0 || x.dgran ≠ 0)

/-- What a flush reads of a block. -/
def countReads (b : Budget) : List (Nat × Nat) := [(b.rcb + 128, 24)]

/-- One block's counts after a flush: the first flush after its period sets both counts to that flush's charges
(R298). -/
def flushBlock (s : State) (ic dg : Nat) (b : Budget) : State :=
  let s := readHw s (countReads b)
  let now := s.time.toNat
  let a := b.rcb
  if now - memW s (a + 144) ≥ b.period * 1000 then
    setMemW (setMemW (setMemW s (a + 144) now) (a + 128) ic) (a + 136) dg
  else
    let s := setMemW s (a + 128) ((memW s (a + 128) + ic) % 2 ^ 48)
    setMemW s (a + 136) ((memW s (a + 136) + dg) % 2 ^ 48)

/-- The regions whose charges a core flushes: those it charged, and those of its resident, staged and queued tasks. -/
def flushed (k : Core) : List Nat :=
  (k.charges.map (·.1) ++ k.slots.map (·.2.rcb) ++ (k.shadow.map fun h => h.staged.map (·.qt.rcb)).getD [] ++ k.dq.map (·.rcb)).eraseDups

/-- The effective values of the regions whose period began anew, computed again (R297). -/
def refresh (was s : State) : State :=
  let regions := (s.effs.flatMap fun e => e.1 :: e.2.buds.map (·.rcb)).eraseDups
  regions.foldl (fun s a => if memW was (a + 144) = memW s (a + 144) then s else renewEff s a) s

/-- A core adds its local charges into the regions' counts (R298); at a period boundary the effective values are
computed again (R297). -/
def flushBudget (s : State) (c : Nat) : State :=
  let s' := (flushed (getCore s c)).foldl (fun s r =>
    let v := tabGet (0, 0) (getCore s c).charges r
    (charged s r).foldl (fun s b => flushBlock s v.1 v.2 b) s) s
  refresh s (modCore s' c fun k => { k with charges := [], flushAt := s.time.toNat / 1000 })

/-- Which budgets of a block are exhausted: 1 issue, 2 DRAM, 3 both, 0 none. The flush that brings a count there tells the cores
(R298): this is no access of memory. -/
def exhaustedBy (s : State) (b : Budget) : Nat :=
  (if b.icyc ≠ 0 && memW s (b.rcb + 128) ≥ b.icyc then 1 else 0) + (if b.dgran ≠ 0 && memW s (b.rcb + 136) ≥ b.dgran then 2 else 0)

/-- Which budgets a region's tasks overrun (R299), of the blocks with that overrun action. -/
def overrunning (s : State) (rcb : Nat) (bpol : Bool) : Nat :=
  ((charged s rcb).filter fun b => b.bpol == bpol).foldl (fun v b => v ||| exhaustedBy s b) 0

/-- What a producer reads of a queue's header (R230). -/
def queueReads (q : Nat) : List (Nat × Nat) := [(q, 16), (q + 64, 8)]

/-- An entry appended to a queue of R229 at `q` with entries of `bs.length` bytes, as a producer does (R230); `none`
where the queue is full or has another entry size, or its header cannot be read (R85; DEDUCED, log 61). -/
def queuePush (s : State) (q : Nat) (bs : List Byte) : Option State :=
  let size := bits (memW s q) 31 0
  let tail := memW s (q + 8); let head := memW s (q + 64)
  if (poisonIn s q 72).isSome then none
  else if size = 0 || bits (memW s q) 47 32 ≠ bs.length || (tail + 2 ^ 64 - head) % 2 ^ 64 ≥ size then none
  else some (setMemW (storeHw s (q + 128 + bs.length * (tail % size)) bs) (q + 8) ((tail + 1) % 2 ^ 64))

/-- A trap record to the fault log at `fdom`; where the log is full or there is none, DROPS of the task's own region rises by
one (R300); an atomic on a granule that cannot be read writes nothing (R85; DEDUCED, log 61). -/
def logRecord (s : State) (fdom own : Nat) (r : List W64) : State :=
  let s := if fdom = 0 then s else readHw s (queueReads fdom)
  let drop :=
    if rcbOk s own then
      let s := readHw s [(own + 152, 4)]
      if (poisonIn s (own + 152) 4).isSome then s else storeHw s (own + 152) (leBytes 4 ((bits (memW s (own + 152)) 31 0 + 1) % 2 ^ 32))
    else s
  if fdom = 0 then drop
  else match queuePush s fdom (r.flatMap fun w => leBytes 8 w.toNat) with
    | some s => setIst s 0
    | none => drop

/-- The effective values of a region as last computed (R297), else as its blocks stand. -/
def effKnown (s : State) (rcb : Nat) : Option Eff := (effNow s rcb).orElse fun _ => regionEff s rcb

/-- The fault domain of a region (R300). -/
def faultDomain (s : State) (rcb : Nat) : Nat := ((effKnown s rcb).map (·.fdom)).getD 0

/-- A trap record to the fault log of a region (R300). -/
def faultLogIn (s : State) (rcb own : Nat) (r : List W64) : State := logRecord s (faultDomain s rcb) own r

/-- Would a record for the fault log of a region wait for the log's header or its own region's DROPS (R76, R81, R82)? -/
def logWaits (s : State) (rcb own : Nat) : Bool :=
  let q := faultDomain s rcb
  rowsWait s (if q = 0 then [(own + 152, 4)] else queueReads q)

/-- The root region: the one that bring-up loaded (R338), else the one that the chain of a resident or queued task names. -/
def rootRegion (s : State) : Option Nat :=
  s.root.orElse fun _ => (s.cores.flatMap fun k => k.2.slots.map (·.2.rcb) ++ k.2.dq.map (·.rcb)).findSome? fun r => (regionChain s r).bind (·.getLast?)

/-- A trap record to the fault log of the task's own region. -/
def faultLog (s : State) (rcb : Nat) (r : List W64) : State := faultLogIn s rcb rcb r

end Sys2Proof.Machine
end

