-- ==== Sys2Proof/Machine/Queues.lean ====
section
/-!
DEFINITION. The four engine queues of a core and the commands in them (R11, R38 to R40, R183, R250, R320).
-/
namespace Sys2Proof.Machine

/-- An engine queue of a core. -/
def engQ (k : Core) : Queue → EngQ
  | .matrix => k.qm | .copy => k.qc | .weight => k.qw | .pred => k.qp
/-- That queue changed. -/
def modEngQ (k : Core) (q : Queue) (f : EngQ → EngQ) : Core :=
  match q with
  | .matrix => { k with qm := f k.qm } | .copy => { k with qc := f k.qc }
  | .weight => { k with qw := f k.qw } | .pred => { k with qp := f k.qp }
/-- Its number (R24, R309). -/
def queueNo : Queue → Nat
  | .matrix => 0 | .copy => 1 | .weight => 2 | .pred => 3
/-- The queue of a number. -/
def queueOf (n : Nat) : Queue :=
  match n with
  | 0 => .matrix | 1 => .copy | 2 => .weight | _ => .pred
/-- Its depth (R11). -/
def queueDepth : Queue → Nat
  | .matrix => 16 | .copy => 48 | .weight => 16 | .pred => 4

/-- A word of a command. -/
def cmdW (c : Cmd) (i : Nat) : Nat := (c.words.getD i 0).toNat
/-- Its OP (Table 2.11). -/
def cmdOp (c : Cmd) : Nat := bits (cmdW c 0) 7 0
/-- Its WAITM. -/
def cmdWait (c : Cmd) : Nat := bits (cmdW c 0) 27 12
/-- Its SIGM. -/
def cmdSig (c : Cmd) : Nat := bits (cmdW c 0) 43 28

/-- The commands of a queue that have not started: waiting and dequeued (R40, R250). -/
def unstarted (e : EngQ) : List Cmd := e.q ++ e.deq.toList
/-- All commands of a queue, queued or running. -/
def allCmds (e : EngQ) : List Cmd := unstarted e ++ e.running.map (·.cmd)
/-- All commands of a core. -/
def coreCmds (k : Core) : List Cmd := allCmds k.qm ++ allCmds k.qc ++ allCmds k.qw ++ allCmds k.qp

/-- Commands that have not started leave a queue, their in-flight counters released (R250). -/
def dropThose (s : State) (c : Nat) (q : Queue) (p : Cmd → Bool) : State :=
  let gone := (unstarted (engQ (getCore s c) q)).filter p
  let s := modCore s c fun k => modEngQ k q fun e => { e with q := e.q.filter (!p ·), deq := e.deq.filter (!p ·) }
  gone.foldl (fun s m => unpin s c m.pins) s
/-- The unstarted commands of a task leave a queue (R291). -/
def dropCmds (s : State) (c slot : Nat) (q : Queue) : State := dropThose s c q fun m => m.slot = slot
/-- Is a command one that `QDROP` of a task discards: its own, in the queue since before the cycle (R250)? -/
def droppable (s : State) (slot : Nat) (m : Cmd) : Bool := m.slot = slot && m.entered ≠ s.cycle

/-- The pacing register of a task for a queue (R320). -/
def pacing (r : SysRegs) : Queue → Nat
  | .matrix => r.pacem.toNat | .copy => r.pacec.toNat | .weight => r.pacew.toNat | .pred => r.pacep.toNat

/-- A matrix command with RED = 1 or ENG ≠ 0, after which its task's restore needs two engines (R290). -/
def wantsTwo (q : Queue) (m : Cmd) : Bool := q == .matrix && (bit (cmdW m 0) 52 || bits (cmdW m 0) 50 49 ≠ 0)

/-- The counts of the waits on a full engine queue of a core start again: a command has entered it (R284). -/
def queueGranted (s : State) (c : Nat) (q : Queue) : State :=
  let again (x : Ctl) : Ctl := if x.hold == some (.queueFull, queueNo q) then { x with held := 0 } else x
  let away (k n : Nat) : Bool := s.remote.any fun r => match r with
    | .cmd core slot tcore _ p _ _ _ => core = k && slot = n && tcore = c && p = q
    | _ => false
  { s with cores := s.cores.map fun k => (k.1, { k.2 with slots := k.2.slots.map fun e =>
    (e.1, if k.1 = c then modTaskCtl (modTaskCtl (modTaskCtl e.2 .c again) .l again) .x again
      else if away k.1 e.1 then modTaskCtl e.2 .c again else e.2) }) }

/-- A command enters the queue of a task's core with its task's next index there, its pacing, FLM and TWIN as they
stand (R60, R183, R201, R320), and its key from AKEY (R311, R314; that it is taken at this moment is DESIGN CHOICE, log 68). -/
def enqueue (s : State) (c slot : Nat) (q : Queue) (m : Cmd) : State :=
  let t := getTask s c slot
  let r := sampled s t
  let i := nth t.cmdIdx (queueNo q) 0
  let m := { m with slot := slot, tag := t.tag, idx := i, flm := r.flm, gap := pacing r q, twin := r.mxcfg.getLsbD 0, akey := r.akey.toNat, entered := s.cycle }
  let s := modTask s c slot fun t => { t with cmdIdx := setNth 0 t.cmdIdx (queueNo q) ((i + 1) % 2 ^ 32) }
  let s := if wantsTwo q m && resident s m.from_.1 m.from_.2.1 then
      modTask s m.from_.1 m.from_.2.1 fun t => { t with needTwo := true } else s
  modCore (queueGranted s c q) c fun k => modEngQ k q fun e => { e with q := e.q ++ [m] }

/-- Has the queue room (R11)? It holds the commands that are queued and those that run (R198, R250). -/
def queueRoom (s : State) (c : Nat) (q : Queue) : Bool := (allCmds (engQ (getCore s c) q)).length < queueDepth q

/-- A `PRED` command as it enters its queue: θ, β, τ and the limit sampled (R104, Table 6.7). -/
def samplePred (r : SysRegs) (e : Queue) (m : Cmd) : Cmd :=
  match e with
  | .pred =>
    let w10 := r.prbeta.toNat % 2 ^ 32 * 2 ^ 32 + r.prth.toNat % 2 ^ 32
    let w11 := r.misslim.toNat % 2 ^ 16 * 2 ^ 32 + r.tau.toNat % 2 ^ 32
    { m with words := (m.words.set 10 (BitVec.ofNat 64 w10)).set 11 (BitVec.ofNat 64 w11) }
  | _ => m

/-- A checked command of a sequencer with its pages pinned: it enters its queue, or the sequencer holds inside the word
until there is room (R95 step 6, R280). -/
def pushCmd (s : State) (q : Seq) (e : Queue) (m : Cmd) : State :=
  let c := s.cur.core; let n := s.cur.slot
  let s := pin s c m.pins
  if queueRoom s c e then enqueue s c n e (samplePred (sampled s (me s)) e m)
  else modCtl (modMe s fun t => { t with pend := some (e, m) }) q fun x =>
    { x with st := .busy .queueFull (queueNo e), hold := some (.queueFull, queueNo e), held := 0 }

/-- A command that waited for room enters its queue, and its word retires (R95 step 6). -/
def retryPush (s : State) (q : Seq) : State :=
  match (me s).pend with
  | some (e, m) =>
    if queueRoom s s.cur.core e then
      let s := enqueue s s.cur.core s.cur.slot e (samplePred (sampled s (me s)) e m)
      retire q (modMe s fun t => { t with pend := none })
    else s
  | none => s

/-- A word-0 signal bit ORed into SIGM for a signalling word (R18). -/
def withSig (sig : BitVec 5) (w0 : Nat) : Nat :=
  match tokQueue sig with
  | some n => w0 ||| 2 ^ (28 + n)
  | none => w0

/-- Cause 0x02 for the lowest reserved bit set in a command or record: `masks` lists the assigned bits of each word
(R37, R39). -/
def reservedIn (masks : List Nat) (words : List Nat) : Option Nat :=
  ((words.zip masks).zipIdx.find? fun e => e.1.1 &&& e.1.2 ≠ e.1.1).map fun e =>
    64 * e.2 + lowBit (e.1.1 ^^^ (e.1.1 &&& e.1.2)) 64

/-- The detail of a command or record check (R37): cause, reason and position. -/
def checkFail {α : Type} (cause reason pos : Nat) : M α := .error (.trap cause (illDetail ⟨cause, reason, pos, false⟩))

/-- The token queues a command names lie in its task's allotment (R255): the lowest bit of WAITM and SIGM that names another
is reported. -/
def checkTokens (t : Task) (w0 : Nat) : M Unit :=
  match (upto 12 32).find? fun b => t.tt.nt ≤ (b - 12) % 16 && bit w0 b with
  | some b => checkFail 1 1 b
  | none => .ok ()

end Sys2Proof.Machine
end

