-- ==== Sys2Proof/Machine/SysReg.lean ====
section
/-!
DEFINITION. The system registers: reads and writes of Table 13.7, the handler registers (R278), TFILL and TINV (R279,
R283), PRVIOL (R104), PWRST (R326).
-/
namespace Sys2Proof.Machine

/-- CHKST as the check context stands (Table 6.4). -/
def chkst (k : CheckCtx) : W64 :=
  BitVec.ofNat 64 (k.mcnt + k.pos * 2 ^ 16 + k.valid.toNat * 2 ^ 32 + k.mldis.toNat * 2 ^ 33 + k.aen.toNat * 2 ^ 34
    + k.vfy.toNat * 2 ^ 35)

/-- The column of a core among the 32 of the module (R10). -/
def columnOf (c : Nat) : Nat := dieOf c * 16 + c % 16
/-- The cores of a column. -/
def coresOf (col : Nat) : List Nat := (List.range 16).map fun y => (col / 16) * 256 + 16 * y + col % 16

/-- The hottest sample of a core (R324). -/
def coreTemp (s : State) (c : Nat) : Int :=
  let t := (getCore s c).temps
  t.foldl max (t.headD 0)
/-- The hottest sample of a column. -/
def columnTemp (s : State) (col : Nat) : Int :=
  (coresOf col).foldl (fun m c => max m (coreTemp s c)) (coreTemp s ((coresOf col).headD 0))
/-- A sample as a field of 12 bits shows it: one below 0 as its two's complement (DESIGN CHOICE, log 62). -/
def tempField (t : Int) : Nat := (t % 4096).toNat

/-- PWRST (Table 20.6). -/
def pwrst (s : State) (c : Nat) : W64 :=
  let k := tabGet {} s.cols (columnOf c)
  BitVec.ofNat 64 (k.level + (if k.level ≠ 0 && k.level = min 2 k.force then 4 else 0) + tempField (coreTemp s c) * 2 ^ 12
    + tempField (columnTemp s (columnOf c)) * 2 ^ 24 + k.vcur * 2 ^ 40)

/-- The register that TRSEL names, of the trapped task (Table 16.3); none where INDEX names no register. -/
def trvalRead (t : Task) (sel : Nat) : Option W64 :=
  let i := bits sel 4 0
  match bits sel 6 5 with
  | 0 => some (if i = 0 then 0 else nth t.c.r i 0)
  | 1 => if i < 16 then some (nth t.j i 0) else none
  | 2 => if i < 8 then some (nth t.y i 0) else none
  | _ =>
    if i < 8 then some (if i = 0 || nth t.c.f i false then 1 else 0)
    else if i < 12 then some (BitVec.ofNat 64 (nth t.c.b (i - 8) 0)) else none

/-- A write of that register (R278): g0 and f0 discard it, a branch target follows the checks of `MTB`. -/
def trvalWrite (t : Task) (sel : Nat) (v : W64) : M Task :=
  let i := bits sel 4 0
  match bits sel 6 5 with
  | 0 => .ok (if i = 0 then t else { t with c := { t.c with r := setNth 0 t.c.r i v } })
  | 1 => if i < 16 then .ok { t with j := setNth 0 t.j i v } else illegal 6 0
  | 2 => if i < 8 then .ok { t with y := setNth 0 t.y i v } else illegal 6 0
  | _ =>
    if i < 8 then .ok (if i = 0 then t else { t with c := { t.c with f := setNth false t.c.f i (v.getLsbD 0) } })
    else if i < 12 then
      if v.toNat % 4 ≠ 0 then trap 7 v.toNat
      else if v.toNat ≥ 32768 then illegal 6 16
      else .ok { t with c := { t.c with b := setNth 0 t.c.b (i - 8) v.toNat } }
    else illegal 6 0

/-- A system register read by `MFS` (R252); decode has refused the numbers that name none. -/
def readSys (s : State) (n : Nat) : M W64 :=
  let t := me s
  let h := (myCore s).h
  match n with
  | 0x001 => .ok s.time
  | 0x002 => .ok (myCore s).cyc
  | 0x003 => .ok t.cfst
  | 0x020 => .ok t.sys.flm
  | 0x021 => .ok t.sys.numfl
  | 0x030 => .ok t.sys.prth
  | 0x031 => .ok t.sys.prbeta
  | 0x032 => .ok t.sys.tau
  | 0x033 => .ok t.sys.misslim
  | 0x034 => .ok (chkst t.chk)
  | 0x035 => .ok t.sys.prviol
  | 0x041 => .ok t.sys.mxcfg
  | 0x050 => .ok t.sys.rngk
  | 0x051 => .ok t.sys.hstg
  | 0x068 => .ok (BitVec.ofNat 64 (h.kind + h.retire.toNat * 256))
  | 0x069 => .ok h.trsel
  | 0x06A => match trvalRead t h.trsel.toNat with
    | some v => .ok v
    | none => illegal 6 0
  | 0x06B => .ok t.sys.holdto
  | 0x06C => .ok h.tmiss
  | 0x06D | 0x06E => .ok 0
  | 0x080 => .ok t.sys.bidw
  | 0x081 => .ok t.sys.tstat
  | 0x082 => .ok t.sys.akey
  | 0x0A0 => .ok t.sys.pacem
  | 0x0A1 => .ok t.sys.pacec
  | 0x0A2 => .ok t.sys.pacew
  | 0x0A3 => .ok t.sys.pacep
  | 0x0A4 => .ok (pwrst s s.cur.core)
  | n => .ok (h.trec.getD (n - 0x060) 0)

/-- A field map's write (R4, R5): `rw` fields take the written bits, `w1c` bits clear where a 1 is written. -/
def fieldWrite (old v rw w1c : W64) : W64 := (old &&& ~~~rw ||| v &&& rw) &&& ~~~(v &&& w1c)

/-- The effect of a write to TFILL by the handler (R279): a mapping of the page TMISS names, or none; a breach of its
checks is a fault. Where every entry is pinned the handler waits. -/
def tfill (s : State) (v : W64) : M State :=
  let c := s.cur.core
  let h := (getCore s c).h
  let e := v.toNat
  let vpn := bits h.tmiss.toNat 47 21
  if !bit e 63 then
    .ok (modMe s fun t => { t with miss := t.miss.map fun m => if m.va / 2 ^ 21 = vpn then { m with noMap := true } else m })
  else match entryBad s e with
    | some 2 => checkFail 2 7 (if bits e 20 0 ≠ 0 then lowBit (bits e 20 0) 21 else 41 + lowBit (bits e 52 41) 12)
    | some _ => illegal 6 21
    | none => match cacheInsert s c (me s).rcb vpn v with
      | some s => .ok s
      | none => hold .pinned

/-- The cores a SCOPE of TINV reaches (R283). -/
def tinvCores (s : State) (scope c : Nat) : Bool :=
  match scope with
  | 1 => c = s.cur.core
  | 2 => dieOf c = dieOf s.cur.core
  | _ => true

/-- The core and the task slot of an agent. -/
def viewerTask : Viewer → Nat × Nat
  | .seq c n _ | .handler c n | .cmd c n _ _ | .run c n _ _ => (c, n)

/-- Has a C access that was translated by an entry of the page not performed yet (R283 step 2)? One through the aperture waits for
another core or for a lock bit, a store may still have to reach other agents. -/
def stillUsed (s : State) (cores : Nat → Bool) (rcb va : Nat) : Bool :=
  let used (core slot : Nat) (handler : Bool) (a : Acc) : Bool :=
    !handler && cores core && (getTask s core slot).rcb = rcb && a.page ≠ 0 && a.addr.toNat / 2 ^ a.page = va / 2 ^ a.page
  (s.remote.any fun r => match r with
    | .access core slot handler _ _ _ a | .link core slot handler _ _ a _ _ => used core slot handler a
    | _ => false)
  || (s.cores.any fun k => k.2.waits.any fun w => used w.core w.slot w.handler w.acc)
  || s.held.any fun e => cores (viewerTask e.who).1 && e.rcb = rcb && e.page ≠ 0 && e.addr / 2 ^ e.page = va / 2 ^ e.page

/-- The effect of a write to TINV (R283): the entries of the region that cover the page become invalid, and the handler
holds until none of them is in flight and every C access that used them has performed. -/
def tinv (s : State) (v : W64) : M State :=
  let scope := bits v.toNat 2 0
  let va := bits v.toNat 47 21 * 2 ^ 21
  let rcb := (me s).rcb
  if scope = 0 || scope > 3 then checkFail 2 6 0
  else if !(me s).eff.tctl then trap 6 va
  else
    let s := cacheInvalidate s (tinvCores s scope) rcb va
    if stillPinned s (tinvCores s scope) rcb va || stillUsed s (tinvCores s scope) rcb va then .error (.holdIn s .kept 0) else .ok s

/-- The effect of a write to PRVIOL (Table 6.5): VCNT is set and VFIRST becomes 0xFFFF. -/
def prviolSet (s : State) (v : W64) : State :=
  modMe s fun t => { t with sys := { t.sys with prviol := BitVec.ofNat 64 (bits v.toNat 31 0 + 0xFFFF * 2 ^ 32) } }

/-- The system registers of a task changed. -/
def modSys (s : State) (f : SysRegs → SysRegs) : State := modMe s fun t => { t with sys := f t.sys }

/-- The handler part of the core changed. -/
def modHandler (s : State) (f : Handler → Handler) : State := modMyCore s fun k => { k with h := f k.h }

/-- A system register written by `MTS` (R4, R5, R252); a read-only register keeps its value. -/
def writeSys (s : State) (n : Nat) (v : W64) : M State :=
  let h := (myCore s).h
  match n with
  | 0x003 => .ok (modMe s fun t => { t with cfst := v &&& 0x0003F0000FFF1FFF })
  | 0x020 => .ok (modSys s fun r => { r with flm := v &&& 0x3F })
  | 0x021 => .ok (if (me s).rngAt = some s.cycle then s else modSys s fun r => { r with numfl := fieldWrite r.numfl v 0 1 })
  | 0x030 => .ok (modSys s fun r => { r with prth := v &&& 0xFFFFFFFF })
  | 0x031 => .ok (modSys s fun r => { r with prbeta := v &&& 0xFFFFFFFF })
  | 0x032 => .ok (modSys s fun r => { r with tau := v &&& 0xFFFFFFFF })
  | 0x033 => .ok (modSys s fun r => { r with misslim := v &&& 0xFFFF })
  | 0x034 => .ok (modMe s fun t => { t with chk := { t.chk with mldis := v.getLsbD 33 } })
  | 0x035 => .ok (prviolSet s v)
  | 0x041 => .ok (modSys s fun r => { r with mxcfg := v &&& 1 })
  | 0x050 => .ok (modSys s fun r => { r with rngk := v })
  | 0x051 => .ok (modSys s fun r => { r with hstg := fieldWrite r.hstg v 0xFFFF0000FFFFFFFF 0x800000000000 })
  | 0x063 | 0x064 | 0x065 | 0x066 => .ok (modHandler s fun h => { h with trec := setNth 0 h.trec (n - 0x060) v })
  | 0x068 => .ok (modHandler s fun h => { h with retire := v.getLsbD 8 })
  | 0x069 => .ok (modHandler s fun h => { h with trsel := v &&& 0x7F })
  | 0x06A => do
    let t ← trvalWrite (me s) h.trsel.toNat v
    .ok (modMe s fun _ => t)
  | 0x06B => .ok (modSys s fun r => { r with holdto := v &&& 0xFFFFFFFF })
  | 0x06D => tfill s v
  | 0x06E => tinv s v
  | 0x080 => .ok (modSys s fun r => { r with bidw := v &&& 0xFFFF })
  | 0x081 => .ok (modSys s fun r => { r with tstat := fieldWrite r.tstat v 0 0x30000000000 })
  | 0x082 => .ok (modSys s fun r => { r with akey := v &&& 0xFFFFFFFF })
  | 0x0A0 => .ok (modSys s fun r => { r with pacem := v &&& 0xFFFF })
  | 0x0A1 => .ok (modSys s fun r => { r with pacec := v &&& 0xFFFF })
  | 0x0A2 => .ok (modSys s fun r => { r with pacew := v &&& 0xFFFF })
  | 0x0A3 => .ok (modSys s fun r => { r with pacep := v &&& 0xFFFF })
  | _ => .ok s

end Sys2Proof.Machine
end

