-- ==== Sys2Proof/Machine/CSys.lean ====
section
/-!
DEFINITION. C token instructions (R256), TRAP and ERET (R276, R277), MFS and MTS (R252), NODE and END (R285, R44),
QDROP and QDEPTH (R250).
-/
namespace Sys2Proof.Machine

/-- A push on a queue of the task, or the wait for room (R18, R19). -/
def signal (s : State) (q : Nat) : M State :=
  if tokRoom (me s) q then .ok (modMe s fun t => tokPush t q) else hold .push q

/-- TKSIG on the task's own queue. -/
def execTksig (q : BitVec 4) (s : State) : Out := execC (.tksig q) (fun s => signal s q.toNat) s
/-- TKSIG with RMT: the push goes to the peer task on a core of the cluster, and C waits until it is accepted. -/
def execTksigRemote (a : BitVec 5) (q : BitVec 4) (s : State) : Out :=
  execC (.tksigRemote a q) (fun s =>
    let c := dieOf s.cur.core * 256 + (reg s a).toNat % 256
    if c = s.cur.core then signal s q.toNat
    else match peerSlot s (me s) c with
      | none => trap 8 (coreNo c)
      | some p =>
        let r := Remote.token s.cur.core s.cur.slot s.cur.handler c p q.toNat
        .ok (modCtl { s with remote := s.remote ++ [r] } .c fun x => { x with st := .busy .remote 0 })) s
/-- TKWAIT: pops a token, or C holds. -/
def execTkwait (q : BitVec 4) (s : State) : Out :=
  execC (.tkwait q) (fun s =>
    if tokAvail (me s) q.toNat then .ok (modMe s fun t => tokPop t q.toNat) else hold .token q.toNat) s
/-- TKCNT: the count at the end of the previous cycle. -/
def execTkcnt (d : BitVec 5) (q : BitVec 4) (s : State) : Out :=
  execC (.tkcnt d q) (fun s => .ok (setReg s d (BitVec.ofNat 64 (tokCount (me s) q.toNat)))) s
/-- TKINIT: the count at the end of the cycle. -/
def execTkinit (v : BitVec 8) (q : BitVec 4) (s : State) : Out :=
  execC (.tkinit v q) (fun s => .ok (modMe s fun t => { t with tset := tabSet t.tset q.toNat v.toNat })) s

/-- TRAP: cause 0x12 with the code (R276). -/
def execTrap (c : BitVec 12) (s : State) : Out := execC (.trap c) (fun _ => trap 0x12 c.toNat) s

/-- Which of a record's program counters is not a multiple of its stream's word size (R277). -/
def badRecordPc (trec : List W64) : Bool :=
  [(3, 4), (4, 8), (5, 16), (6, 4)].any fun p => (trec.getD p.1 0).toNat % p.2 ≠ 0

/-- The trap record that a retirement delivers (R291): TREC as it stands, which a refill or a notification leaves unchanged
(R327). Where no trap has filled it there is none: CAUSE 0 is never reported (R275; DEDUCED, log 25). -/
def deliveredRecord (h : Handler) : List W64 := if bits (h.trec.getD 0 0).toNat 7 0 = 0 then [] else h.trec

/-- ERET: retires the task as faulted, or returns (R277). -/
def execEret (s : State) : Out :=
  execC .eret (fun s =>
    let h := (myCore s).h
    if h.retire then .ok (modHandler (modMe s fun t => markFaulted t (deliveredRecord h)) Handler.free)
    else if h.kind = 0 && badRecordPc h.trec then illegal 6 0
    else .ok (leaveHandler s)) s

/-- MFS: reads a system register (R252). -/
def execMfs (d : BitVec 5) (n : BitVec 12) (s : State) : Out :=
  execC (.mfs d n) (fun s => do
    let v ← readSys s n.toNat
    .ok (setReg s d v)) s
/-- MTS: writes a system register (R252). -/
def execMts (a : BitVec 5) (n : BitVec 12) (s : State) : Out :=
  execC (.mts a n) (fun s => do
    let t ← writeSys s n.toNat (reg s a)
    .ok (modMe t fun k => { k with sysOld := some ⟨s.cycle, n.toNat, (me s).sys, (me s).chk.mldis⟩ })) s

/-- Has a sequencer other than C reached a drain point (R285 items 3 and 4)? It has ended, or it holds before issue on
a word whose wait queue has count 0, with no loop active. -/
def seqDrained (t : Task) (q : Seq) : Bool :=
  let c := taskCtl t q
  c.st == .ended || (c.loops.isEmpty && !c.popped && c.st == .run && match c.hold with
    | some (.token, n) => tokCount t n = 0
    | _ => false)

/-- Is the task at a drain point (R285)? -/
def drained (s : State) (c n : Nat) : Bool :=
  let t := getTask s c n
  !(coreCmds (getCore s c)).any (fun m => m.slot = n)
    && t.ins.all (fun i => i.runs.isEmpty && i.blocks.isEmpty) && t.outs.all (fun o => o.blocks.isEmpty)
    && seqDrained t .l && seqDrained t .s && seqDrained t .x && t.x.ops.all (·.landed) && t.x.sigs.isEmpty

/-- The tag of the predecessor of a queued task; 0 names none. -/
def QTask.after (q : QTask) : Nat := bits (q.lrec.getD 7 0).toNat 31 0

/-- The tasks staged in a core's shadow plane. -/
def stagedTasks (k : Core) : List Staged := (k.shadow.map (·.staged)).getD []

/-- Does a queued or staged task wait for its predecessor: another one with that tag is queued, staged or resident on the core,
or has retired as faulted (R303 item 2, R305)? -/
def QTask.waits (k : Core) (q : QTask) : Bool :=
  q.after ≠ 0 && (q.held || (k.dq.erase q).any (fun x => x.tag = q.after) || k.slots.any (fun t => t.2.tag = q.after)
    || (stagedTasks k).any fun x => x.qt.tag = q.after && x.qt.uid ≠ q.uid)

/-- May a staged task become live: its predecessor is done (R305), and no budget of BPOL 0 blocks its region (R299)? -/
def Staged.ready (s : State) (c : Nat) (x : Staged) : Bool := !x.qt.waits (getCore s c) && overrunning s x.qt.rcb false = 0

/-- Is there a flip to make: one that takes victims out, or one that brings a task? A shadow plane that only keeps held tasks
is not flipped (R305). -/
def canFlip (s : State) (c : Nat) (h : Shadow) : Bool := h.token && (h.only || h.staged.any (Staged.ready s c))

/-- Does a set swap token hold the tasks of a core at their drain points (R304)? -/
def tokenHolds (s : State) (c : Nat) : Bool := ((getCore s c).shadow.map (canFlip s c)).getD false

/-- Does the dispatcher keep the task at its drain point: a set swap token (R304), or a budget overrun with BPOL 0
(R299)? -/
def keptAtDrain (s : State) (c n : Nat) : Bool :=
  tokenHolds s c
    || overrunning s (getTask s c n).rcb false ≠ 0

/-- NODE: holds C until the drain point, flushes the core's charges there (R298), and retires in a later cycle unless
the dispatcher keeps the task (R285). With a lock held it is illegal (R147). -/
def execNode (s : State) : Out :=
  execC .node (fun s =>
    let c := s.cur.core; let n := s.cur.slot
    if (ctx s).lock.isSome then illegal 6 0
    else if !drained s c n then .error (.holdIn (modMe s fun t => { t with drainPt := none }) .nodeDrain 0)
    else match (me s).drainPt with
      | none => .error (.holdIn (modMe (flushBudget s c) fun t => { t with drainPt := some s.cycle }) .kept 0)
      | some k =>
        if k = s.cycle || keptAtDrain s c n then hold .kept 0
        else .ok (modMe s fun t => { t with drainPt := none })) s

/-- An end instruction: the sequencer issues nothing more, and the stream's end retires later (R44). -/
def endStream (q : Seq) (s : State) : State := modCtl s q fun c => { c with st := .ending }

/-- END. With a lock held it is illegal (R147). -/
def execEnd (s : State) : Out :=
  execC .endC (fun s => if (ctx s).lock.isSome then illegal 6 0 else .ok (endStream .c s)) s

/-- QDROP: the task's unstarted commands that stood in the queue at the start of the cycle leave it, and their number goes to
the register (R250). -/
def execQdrop (d : BitVec 5) (q : BitVec 2) (s : State) : Out :=
  execC (.qdrop d q) (fun s =>
    let p := droppable s s.cur.slot
    let n := ((unstarted (engQ (myCore s) (queueOf q.toNat))).filter p).length
    .ok (setReg (dropThose s s.cur.core (queueOf q.toNat) p) d (BitVec.ofNat 64 n))) s
/-- QDEPTH: the task's commands queued or running. -/
def execQdepth (d : BitVec 5) (q : BitVec 2) (s : State) : Out :=
  execC (.qdepth d q) (fun s =>
    let n := ((allCmds (engQ (myCore s) (queueOf q.toNat))).filter fun m => m.slot = s.cur.slot).length
    .ok (setReg s d (BitVec.ofNat 64 n))) s

end Sys2Proof.Machine
end

