-- ==== Sys2Proof/Machine/Launch.lean ====
section
/-!
DEFINITION. The hardware walker (R282), reads by virtual address outside a task's own accesses, kernel headers and
patch entries (R45, R46), task types (R301) and the checks of a launch (R42, R308).
-/
namespace Sys2Proof.Machine

/-- A table entry the walker reads; none where it is not backed or its granule is poisoned. -/
def walkRead (s : State) (pa : Nat) : Option Nat :=
  if pa + 8 ≤ 2 ^ 39 && !s.poison.contains (pa / 64) then some (memW s pa) else none

/-- The leaf entry that the walker finds for an address (R282). -/
def walk (s : State) (troot va : Nat) : Option Nat :=
  if troot = 0 then none
  else match walkRead s (troot + 8 * bits va 47 30) with
    | none => none
    | some d =>
      if !bit d 63 then none
      else if bit d 60 then (if (entryBad s d).isSome then none else some d)
      else if bits d 62 61 ≠ 0 || bits d 59 41 ≠ 0 || bits d 11 0 ≠ 0 then none
      else match walkRead s (bits d 40 12 * 2 ^ 12 + 8 * bits va 29 21) with
        | none => none
        | some e => if !bit e 63 || bit e 60 || (entryBad s e).isSome then none else some e

/-- The table entries that a walk for an address reads. -/
def walkReads (s : State) (troot va : Nat) : List (Nat × Nat) :=
  let a := troot + 8 * bits va 47 30
  if troot = 0 then []
  else (a, 8) :: match walkRead s a with
    | some d => if bit d 63 && !bit d 60 then [(bits d 40 12 * 2 ^ 12 + 8 * bits va 29 21, 8)] else []
    | none => []

/-- The physical address of a byte of a region's virtual memory for the launch unit, the loader and the dispatcher
(R41, R304): a cached mapping of the region, or the walker's. -/
def launchPa (s : State) (c rcb troot va : Nat) : M Nat :=
  if va < 2 ^ 32 || va ≥ 2 ^ 48 then trap 6 va
  else
    let e := match cacheFind (getCore s c) rcb va with
      | some t => some t.e.toNat
      | none => walk s troot va
    match e with
    | none => trap 5 va
    | some e =>
      let pa := bits e 40 21 * 2 ^ 21 + va % 2 ^ pageBits e
      if !bit e 61 || isRemote s e || pa ≥ 2 ^ 39 then trap 6 va
      else if s.poison.contains (pa / 64) then trap 0x0B (pa / 64 * 64)
      else .ok pa

/-- `n` 8-byte words of a region's virtual memory. -/
def launchWords (s : State) (c rcb troot : Nat) (va : Nat) : Nat → M (List Nat)
  | 0 => .ok []
  | n + 1 => do
    let pa ← launchPa s c rcb troot va
    let r ← launchWords s c rcb troot (va + 8) n
    .ok (memW s pa :: r)

/-- What reading `n` words of it accesses: table entries for each page that no cached mapping serves, and the granules. -/
def launchReads (s : State) (c rcb troot va n : Nat) : List (Nat × Nat) :=
  let units (u : Nat) : List Nat := upto (va / u) ((va + 8 * n + u - 1) / u - va / u)
  ((units (2 ^ 21)).flatMap fun p => if (cacheFind (getCore s c) rcb (p * 2 ^ 21)).isSome then [] else walkReads s troot (p * 2 ^ 21))
    ++ (units 64).filterMap fun g => match launchPa s c rcb troot (g * 64) with
      | .ok pa => some (pa, 64)
      | .error _ => none

/-- `n` words of it, read as accesses. -/
def readVirtual (s : State) (c rcb troot va n : Nat) : M (State × List Nat) := do
  let s ← reach s (launchReads s c rcb troot va n)
  let ws ← launchWords s c rcb troot va n
  .ok (s, ws)

/-- `n` bytes of it. -/
def launchBytes (s : State) (c rcb troot va n : Nat) : M (State × List Byte) := do
  let (s, ws) ← readVirtual s c rcb troot va ((n + 7) / 8)
  .ok (s, (ws.flatMap fun w => leBytes 8 w).take n)

/-- The least failing position of a record's checks, each given as position, reason, and whether it fails. -/
def firstFail (l : List (Nat × Nat × Bool)) : M Unit :=
  match (l.filter (·.2.2)).foldl (fun b x => match b with
    | none => some x
    | some y => if x.1 < y.1 then some x else some y) (none : Option (Nat × Nat × Bool)) with
  | none => .ok ()
  | some x => checkFail 2 x.2.1 x.1

/-- The checks of reserved bits of a record, one entry for each word that breaks its mask. -/
def maskFails (words : List Nat) (masks : List Nat) : List (Nat × Nat × Bool) :=
  ((words.zip masks).zipIdx).map fun e =>
    let bad := e.1.1 ^^^ (e.1.1 &&& e.1.2)
    (64 * e.2 + lowBit bad 64, 7, bad ≠ 0)

/-- A patch entry of its word (Table 2.14). -/
def patchOf (w : Nat) : Patch := { ioff := bits w 63 32, poff := bits w 31 16, kind := bits w 3 2, strm := bits w 1 0 }

/-- The checks of a patch entry (R46). A POFF that is not a multiple of 4 (Table 2.14) fails like one past the block, with POFF
as the offending field, and a KIND that does not agree with STRM is reported at KIND (DESIGN CHOICE, log 55). -/
def checkPatch (lens : List Nat) (plen w : Nat) : M Unit :=
  let p := patchOf w
  firstFail [(4 + lowBit (bits w 15 4) 12, 7, bits w 15 4 ≠ 0), (0, 6, p.strm ≥ 2),
    (2, 6, (p.kind = 0 || p.kind = 1) && p.strm ≠ 0 || p.kind = 2 && p.strm ≠ 1 || p.kind = 3),
    (32, 6, p.ioff % (if p.strm = 0 then 4 else 8) ≠ 0 || p.ioff ≥ nth lens p.strm 0), (16, 6, p.poff + 4 > plen || p.poff % 4 ≠ 0)]

/-- The kernel header and the patch table, read and checked (R45, R46). -/
def readHead (s : State) (c rcb troot khdr plen : Nat) : M (State × List Nat × List Nat) := do
  let (s, h) ← readVirtual s c rcb troot khdr 8
  let w (i : Nat) := nth h i 0
  let lens := [1, 2, 3, 4].map fun i => bits (w i) 63 32
  firstFail (maskFails h [0xFFFFFFFF, 0xFFFFFFFFFFFFFFC0, 0xFFFFFFFFFFFFFFC0, 0xFFFFFFFFFFFFFFC0, 0xFFFFFFFFFFFFFFC0, 0, 0, 0]
    ++ [(0, 6, decide (bits (w 0) 15 0 ≠ 1)), (16, 6, decide (bits (w 0) 31 16 > 4096))]
    ++ ([(4, 32768), (8, 32768), (16, 65536), (4, 16384)].zipIdx.map fun l =>
        (64 * (l.2 + 1) + 32, 6, decide (nth lens l.2 0 % l.1.1 ≠ 0 ∨ nth lens l.2 0 > l.1.2))))
  let (s, ps) ← readVirtual s c rcb troot (khdr + 64) (bits (w 0) 31 16)
  ps.forM (checkPatch lens plen)
  .ok (s, h, ps)

/-- The code of a task, read at its dispatch: header and patch table, checked again, the sections and the parameter block
(R43 item 1). -/
def readKernel (s : State) (c rcb troot khdr param plen : Nat) : M (State × Code) := do
  let (s, h, ps) ← readHead s c rcb troot khdr plen
  let sec (s : State) (i : Nat) := launchBytes s c rcb troot (khdr + bits (nth h i 0) 31 0) (bits (nth h i 0) 63 32)
  let (s, cc) ← sec s 1
  let (s, cl) ← sec s 2
  let (s, cx) ← sec s 3
  let (s, cs) ← sec s 4
  let (s, pb) ← if plen = 0 then .ok (s, []) else launchBytes s c rcb troot param plen
  .ok (s, { c := cc, l := cl, x := cx, s := cs, patches := ps.map patchOf, param := pb })

/-- A task-type entry of the table at TTBASE (R301). -/
def readType (s : State) (n : Nat) : M TType :=
  let w (i : Nat) := memW s (s.ttbase.toNat + 64 * n + 8 * i)
  let opt (v e l : Nat) := if bit (w 1) v then some (bits (w 1) e l) else none
  let t : TType := {
    air := bits (w 0) 40 36, res := bits (w 0) 35 30, spm := bits (w 0) 29 24, nt := bits (w 0) 23 19
    no := bits (w 0) 18 16, ni := bits (w 0) 15 12, nz := bits (w 0) 11 8, nv := bits (w 0) 4 0
    note := opt 47 44 32, refill := opt 31 28 16, trap := opt 15 12 0, pimg := w 2, plen := bits (w 3) 15 0 }
  if !bit (w 0) 41 || t.air > 16 || t.spm = 0 || t.spm > 32 || t.spm < t.res + t.air || t.nt = 0 || t.nt > 16
      || t.no > 4 || t.ni > 8 || t.nz > 8 || t.nv > 16 || t.plen > 32768 then checkFail 1 6 0
  else .ok t

/-- The words of a launch record (Table 2.12). -/
structure LRec where
  tag : Nat
  plen : Nat
  type : Nat
  khdr : Nat
  param : Nat
  rcb : Nat
  die : Nat
  row0 : Nat
  col0 : Nat
  nrow : Nat
  ncol : Nat
  after : Nat
  deriving DecidableEq, Repr

/-- The fields of a launch record. -/
def lrecOf (r : List W64) : LRec :=
  let w (i : Nat) := (r.getD i 0).toNat
  { tag := bits (w 0) 63 32, plen := bits (w 0) 31 16, type := bits (w 0) 5 0, khdr := w 1, param := w 2, rcb := w 3
    die := bits (w 6) 16 16, nrow := bits (w 6) 15 12, ncol := bits (w 6) 11 8, row0 := bits (w 6) 7 4, col0 := bits (w 6) 3 0
    after := bits (w 7) 31 0 }

/-- The checks of R42; a `SPAWN` needs w3 and w6 to be 0 (R308). A rectangle that leaves the die offends from ROW0 or COL0 on. -/
def checkRecord (r : List W64) (spawn : Bool) : M Unit :=
  let l := lrecOf r
  let m3 := if spawn then 0 else 0xFFFFFFFFFFFFFF00
  let m6 := if spawn then 0 else 0x1FFFF
  let m2 := if l.plen = 0 then 0xFFFFFFFFFFFFFFFF else 0xFFFFFFFFFFFFFFF8
  firstFail (maskFails (r.map (·.toNat))
      [0xFFFFFFFFFFFF003F, 0xFFFFFFFFFFFFFFC0, m2, m3, 0xFFFFFFFFFFFFFFFF, 0xFFFFFFFFFFFFFFFF, m6, 0xFFFFFFFF]
    ++ [(16, 6, decide (l.plen % 8 ≠ 0)), (64 * 6 + 4, 6, !spawn && l.row0 + l.nrow > 15), (64 * 6, 6, !spawn && l.col0 + l.ncol > 15)])

/-- The core indices of a record's rectangle (R9, R43). -/
def rectangle (l : LRec) : List Nat :=
  (upto l.row0 (l.nrow + 1)).flatMap fun y => (upto l.col0 (l.ncol + 1)).map fun x => l.die * 256 + 16 * y + x

/-- Is a core usable for launches, by the map that the last module reset left (R339)? -/
def coreUsable (s : State) (c : Nat) : Bool := bit (nth s.bootMap c 0) 0
/-- Is the engine of a core usable by the unit map as it stands (R339)? -/
def engUsable (s : State) (c e : Nat) : Bool := bit (tabGet 7 s.units c) (1 + e)

/-- Cause 0x06 with a reason in [39:32] and the low half of an address (R297, R308). -/
def denied {α : Type} (reason a : Nat) : M α := trap 6 (reason * 2 ^ 32 + a % 2 ^ 32)

/-- The blocks on the path to the root read, and the region's effective values computed for its tasks, with its chain (R297). -/
def readRegion (s : State) (rcb : Nat) : M (State × List Nat × Eff) := do
  let s ← reachGood s (regionReads s rcb)
  match regionChain s rcb with
  | none => denied 5 rcb
  | some ch => .ok (setEff s rcb (effOf s ch), ch, effOf s ch)

/-- The checks of a launch in their order (R42, R301, R297, R308, R46): the type, the region's values, computed here for its
tasks (R297) whether or not a later check fails, the cores. `caller` is the launching task's region, none for the front end (R315). -/
def checkLaunch (s : State) (c a : Nat) (r : List W64) (caller : Option Nat) (spawn : Bool) :
    M (State × TType × Eff × Nat × List Nat) := do
  checkRecord r spawn
  let l := lrecOf r
  let s ← reachGood s [(s.ttbase.toNat + 64 * l.type, 64)]
  let tt ← readType s l.type
  let rcb := if spawn then caller.getD 0 else l.rcb
  let (s, ch, e) ← readRegion s rcb
  failIn s do
    if !spawn && (caller.map (fun k => !ch.contains k)).getD false then denied 3 a
    let cores := if spawn then [c] else rectangle l
    if cores.any (fun k => !bit e.cmask k || !coreUsable s k) then denied 4 a
    let (s, _) ← readHead s c rcb e.troot l.khdr l.plen
    .ok (s, tt, e, rcb, cores)

/-- A queued task of a checked record (R303). -/
def queued (s : State) (r : List W64) (tt : TType) (e : Eff) (rcb : Nat) : QTask :=
  { tag := (lrecOf r).tag, rcb := rcb, lrec := r, typeNo := (lrecOf r).type, tt := tt, prio := e.prio, since := s.time.toNat }

/-- Has a core's dispatcher queue room (R303)? -/
def dqRoom (s : State) (c : Nat) : Bool := (getCore s c).dq.length < 64

/-- A task at the tail of a core's dispatcher queue. -/
def enqueueOld (s : State) (c : Nat) (q : QTask) : State := modCore s c fun k => { k with dq := k.dq ++ [q] }
/-- A new task at the tail of a core's dispatcher queue, with a number of its own. -/
def enqueueTask (s : State) (c : Nat) (q : QTask) : State :=
  enqueueOld { s with taskNo := s.taskNo + 1 } c { q with uid := s.taskNo + 1 }

/-- The words of a record read by the running task's C, in any address form of R120. -/
def readWords (s : State) (a n acc : Nat) : M (State × List W64) := do
  let p ← placeOf s s.cur.core s.cur.slot a (8 * n) acc
  let (s, bs) ← readAt s (s.cur.core, s.cur.slot) p (8 * n)
  .ok (s, (List.range n).map fun i => BitVec.ofNat 64 (ofLe ((bs.drop (8 * i)).take 8)))

end Sys2Proof.Machine
end

