-- ==== Sys2Proof/Machine/CSched.lean ====
section
/-!
DEFINITION. The scheduling instructions of C (R307 to R313).
-/
namespace Sys2Proof.Machine

/-- LAUNCH and SPAWN (R308): a checked record enters every queue of its cores if all have room. -/
def launch (spawn : Bool) (d a : BitVec 5) (s : State) : M State := do
  let ad := (reg s a).toNat
  need (ad % 64 = 0) 7 ad
  let (s, r) ← readWords s ad 8 0
  let (s, tt, e, rcb, cores) ← checkLaunch s s.cur.core ad r (some (me s).rcb) spawn
  if cores.all (dqRoom s) then
    let s := cores.foldl (fun s c => enqueueTask s c (queued s r tt e rcb)) s
    .ok (setReg s d 0)
  else .ok (setReg s d 1)

/-- LAUNCH. -/
def execLaunch (d a : BitVec 5) (s : State) : Out := execC (.launch d a) (launch false d a) s
/-- SPAWN. -/
def execSpawn (d a : BitVec 5) (s : State) : Out := execC (.spawn d a) (launch true d a) s

/-- REMQ: the block goes to the peer task's queue on another core, and C waits until the target has checked and
accepted it (R309). -/
def execRemq (d a b : BitVec 5) (s : State) : Out :=
  execC (.remq d a b) (fun s => do
    let t := (reg s b).toNat
    if bits t 63 10 ≠ 0 then illegal 6 11
    let ad := (reg s a).toNat
    need (ad % 64 = 0) 7 ad
    let (s, ws) ← readWords s ad 16 0
    let c := dieOf s.cur.core * 256 + t % 256
    match (if c = s.cur.core then some s.cur.slot else peerSlot s (me s) c) with
    | none => trap 8 ad
    | some p =>
      let r := Remote.cmd s.cur.core s.cur.slot c p (queueOf (bits t 9 8)) d.toNat ad ws
      .ok (modCtl { s with remote := s.remote ++ [r] } .c fun x => { x with st := .busy .remote 0 })) s

/-- TNDR: the checked tender is broadcast, and C waits until the award commits or the bids run out (R312). -/
def execTndr (d a b : BitVec 5) (s : State) : Out :=
  execC (.tndr d a b) (fun s => do
    let k := (reg s b).toNat
    if bits k 63 41 ≠ 0 || bits k 39 38 ≠ 0 then illegal 6 11
    let ad := (reg s a).toNat
    need (ad % 64 = 0) 7 ad
    let (s, r) ← readWords s ad 8 0
    let (s, tt, e, rcb, cores) ← checkLaunch s s.cur.core ad r (some (me s).rcb) false
    if (lrecOf r).die ≠ dieOf s.cur.core then failIn s (denied 4 ad)
    let t : Tender := {
      lrec := r, tt := tt, rcb := rcb, cls := bits k 37 32, key := bits k 31 0, must := bit k 40
      start := s.cycle, win := max 8 (bits (sampled s (me s)).bidw.toNat 15 0), rd := d.toNat
      cores := cores.filter fun c => (tabFind (getCore s c).forms (bits k 37 32)).isSome && bit e.cmask c }
    let s := modMe s fun x => { x with tender := some t }
    .ok (modCtl s .c fun x => { x with st := .busy .tender 0 })) s

/-- WDRAW: takes back an undispatched task that a tender placed on this core, and tells the tendering task (R313). -/
def execWdraw (d a : BitVec 5) (s : State) : Out :=
  execC (.wdraw d a) (fun s => do
    need (me s).eff.sctl 6 (reg s a).toNat
    let tag := (reg s a).toNat % 2 ^ 32
    let c := s.cur.core
    match findIx (fun q => q.tag = tag && q.placed.isSome) (getCore s c).dq with
    | none => .ok (setReg s d 0)
    | some i =>
      let s' := match (((getCore s c).dq[i]?).bind (·.placed)) with
        | some (core, uid, must) => { s with notices := s.notices ++ [⟨core, uid, must, tag, coreNo c⟩] }
        | none => s
      .ok (setReg (modCore s' c fun k => { k with dq := k.dq.eraseIdx i }) d 1)) s

/-- BIDF: the bid formula of a class of this core, set or removed (R310). -/
def execBidf (a b : BitVec 5) (s : State) : Out :=
  execC (.bidf a b) (fun s => do
    let k := (reg s b).toNat
    need (me s).eff.sctl 6 (reg s a).toNat
    if bits k 63 6 ≠ 0 then illegal 6 11
    let ad := (reg s a).toNat
    need (ad % 16 = 0) 7 ad
    let (s, ws) ← readWords s ad 2 0
    .ok (modMyCore s fun c => { c with
      forms := if (ws.getD 1 0).getLsbD 8 then tabSet c.forms k ws else tabDel c.forms k })) s

end Sys2Proof.Machine
end

