-- ==== Sys2Proof/Machine/EvDram.lean ====
section
/-!
DEFINITION. Events of stack memory: epochs and swaps (R70, R71), refresh and row-hammer alerts (R81, R82), reopening (R75),
scrubbing, scores and retirement (R83 to R86), error windows and lasting faults (R345).
-/
namespace Sys2Proof.Machine

/-! ## Swaps -/

/-- The channel group that a physical region maps to. -/
def groupOf (s : State) (r : Nat) : Nat := (mapAddress s (r * 2 ^ 21)).groupNo

/-- Does a region contain a held, suspended or lost line (R70 item 4), or has an `LNPEG` for a row of it reached the
controller (R72)? -/
def regionPegged (s : State) (r : Nat) : Bool :=
  let pegs := (allTasks s).flatMap (·.2.2.pegs) ++ s.cores.flatMap fun k => k.2.dq.flatMap (·.lost)
  (s.pegReqs.any fun q => bits q.pa 38 21 = r) || pegs.any fun p => p.bank < 8192 && unmapAddress s p.bank p.row 0 / 2 ^ 21 = r

/-- The groups with the largest and the smallest count, ties to the lower index, and their counts. -/
def hotCold (s : State) : Nat × Nat :=
  let n (g : Nat) := tabGet 0 s.traffic g
  (List.range 32).foldl (fun b g => (if n g > n b.1 then g else b.1, if n g < n b.2 then g else b.2)) (0, 0)

/-- The first eligible region of a group's list, by count, ties to the lower region (R70 items 3 and 4). -/
def hotRegion (s : State) (g : Nat) : Option Nat :=
  let l := (tabGet [] s.topRegs g).filter fun e => !regionPegged s e.1
  (l.foldl (fun b e => match b with
    | none => some e
    | some x => if e.2 > x.2 || (e.2 = x.2 && e.1 < x.1) then some e else some x) none).map (·.1)

/-- The lowest eligible region that maps to a group and is not in its list. -/
def coldRegion (s : State) (g : Nat) : Option Nat :=
  (List.range 262144).find? fun r => groupOf s r = g && !(tabGet [] s.topRegs g).any (fun e => e.1 = r) && !regionPegged s r

/-- The swap that the end of an epoch starts, if any (R70). -/
def chooseSwap (s : State) : Option Swap :=
  let c := (tabGet {} s.memctl 0).remapc.toNat
  let (h, l) := hotCold s
  let ch := tabGet 0 s.traffic h; let cc := tabGet 0 s.traffic l
  if !bit c 0 || s.swap.isSome || 16 * ch ≤ cc * (16 + bits c 39 32) then none
  else match hotRegion s h, coldRegion s l with
    | some a, some b => some { a := a, b := b }
    | _, _ => none

/-- EPOCH_END (R70, R71, R73): a swap may begin its copy phase; the counts start anew, and REMAPC as written takes effect. -/
def execEpochEnd (s : State) : Out :=
  if s.time.toNat < s.epochAt + 1000 * s.epochLen then .next s
  else
    let w := chooseSwap s
    .next { s with
      swap := w.orElse fun _ => s.swap
      traffic := [], topRegs := [], epochAt := s.time.toNat
      epochLen := max 1 (bits (tabGet {} s.memctl 0).remapc.toNat 31 8) }

/-- SWAP_FLIP (R71): the entries of ITAB are exchanged; no address reads another value (R69). -/
def execSwapFlip (s : State) : Out :=
  match s.swap with
  | none => .next s
  | some w =>
    let a := machineRegion s w.a; let b := machineRegion s w.b
    .next { s with itab := tabSet (tabSet s.itab w.a b) w.b a, swap := none, swaps := (s.swaps + 1) % 2 ^ 32 }

/-! ## Errors of rows (R83 to R86) -/

/-- The counts of a row in the window. -/
def rowErr (s : State) (b r : Nat) : RowErr := (s.rowErrs.find? fun e => e.bank = b && e.row = r).getD { bank := b, row := r }
/-- Those counts set. -/
def setRowErr (s : State) (e : RowErr) : State :=
  { s with rowErrs := (s.rowErrs.filter fun x => !(x.bank = e.bank && x.row = e.row)) ++ [e] }

/-- The retirement score (R86). -/
def score (e : RowErr) : Nat := 4 * e.n + 16 * (max 1 e.bits.length - 1) + 32 * (e.last && e.prev).toNat

/-- SCRUBC of a bank's stack. -/
def scrubc (s : State) (b : Nat) : Nat := (tabGet {} s.memctl (b / 1024)).scrubc.toNat

/-- The rows of a stack's hot list. -/
def hotList (s : State) (stack : Nat) : List RowErr := s.rowErrs.filter fun e => e.bank / 1024 = stack && e.hot.isSome

/-- A row enters its stack's hot list: a full list gives up its entry with the lowest score, the one listed longest among
equals (R83). -/
def enterHot (s : State) (e : RowErr) : State :=
  let l := hotList s (e.bank / 1024)
  let s := if l.length < 256 then s
    else match l.foldl (fun b x => match b with
        | none => some x
        | some y => if score x < score y || (score x = score y && x.hot.getD 0 < y.hot.getD 0) then some x else some y) none with
      | some x => setRowErr s { x with hot := none }
      | none => s
  setRowErr s { e with hot := some s.time.toNat }

/-- Errors that a read of a row finds (R83 to R85): they are counted for the row, the bank and the stack in the window that runs,
a corrected one puts the row on the hot list, and an uncorrectable one poisons its granule. -/
def foundErrors (s : State) (b r : Nat) (f : ScrubFind) (scrub : Bool := false) : State :=
  let s := rollWindow s
  let e := rowErr s b r
  let more (v : Nat × Nat) : Nat × Nat := (v.1 + f.corrected.length, v.2 + f.bad.length)
  let s := { s with
    bankErrs := tabSet s.bankErrs b (more (tabGet (0, 0) s.bankErrs b))
    stackErrs := tabSet s.stackErrs (b / 1024) (more (tabGet (0, 0) s.stackErrs (b / 1024))) }
  let e := { e with
    n := e.n + f.corrected.length, bad := e.bad + f.bad.length, bits := (e.bits ++ f.corrected).eraseDups
    prev := if scrub then e.last else e.prev, last := if scrub then !f.corrected.isEmpty else e.last
    corr := if f.corrected.isEmpty then e.corr else s.time.toNat }
  let s := f.bad.foldl (fun s c => markPoison s (unmapAddress s b r (c % 16) / 64)) s
  if f.corrected.isEmpty || e.hot.isSome then setRowErr s e else enterHot s e

/-! ## Refresh and back-off -/

/-- REFRESH (R81, R82): a bank's held lines are suspended, its other lines close, and its activation counts return to 0;
an alert that a close raised keeps its response. -/
def execRefresh (b : Nat) (s : State) : Out :=
  if (getBank s b).busy then .next s
  else
    let held := heldRows s b
    let shut := ((getBank s b).lines.filterMap (·.row)).filter fun r => !held.contains r
    let s := shut.foldl (fun s r => closeRow s b r) s
    .next (modBank (suspendBank s b) b fun k => { k with acts := [] })

/-- ROW_HAMMER_ALERT (R82): held lines are suspended for the back-off, and the count of the row returns to 0. -/
def execRowHammerAlert (b : Nat) (s : State) : Out :=
  match (getBank s b).alerts with
  | [] => .next s
  | r :: rs =>
    if (getBank s b).busy then .next s
    else .next (modBank (suspendBank s b) b fun k => { k with acts := tabDel k.acts r, alerts := rs })

/-- A suspended row opens again in its line, which counts as an activation (R75, R82). -/
def reopen (s : State) (b row : Nat) : State :=
  let s := { s with cores := s.cores.map fun c => (c.1, { c.2 with slots := c.2.slots.map fun t => (t.1, { t.2 with
    pegs := t.2.pegs.map fun p => if p.bank = b ∧ p.row = row ∧ p.st = .suspended then { p with st := .held } else p }) }) }
  modBank s b fun k => countClose (actTh s (b / 1024)) { k with
    lines := k.lines.map fun l => if l.row = some row then { l with isOpen := true } else l } row

/-- LINE_REOPEN (R75, R81, R85): the bank resumes and its suspended rows are held again; one that an uncorrectable error
keeps from opening becomes lost, with its granule poisoned and the error counted (R84). `bad` lists row and column. Rows that
an `LNOPEN` asked for open then. -/
def execLineReopen (b : Nat) (bad : List (Nat × Nat)) (s : State) : Out :=
  if !(getBank s b).busy then .next s
  else
    let rows := (heldRows s b).filter fun r => rowSuspended s b r
    let wanted := (getBank s b).wanted
    let s := modBank s b fun k => { k with busy := false, wanted := [] }
    let s := rows.foldl (fun s r =>
      match bad.find? fun e => e.1 = r with
      | none => reopen s b r
      | some e =>
        let s := modBank s b fun k => { k with stuck := if k.stuck.contains r then k.stuck else k.stuck ++ [r] }
        loseRow (foundErrors s b r { corrected := [], bad := [e.2] }) b r) s
    .next (wanted.foldl (fun s r => (openRow s b r).getD s) s)

/-! ## Scrubbing and retirement -/

/-- An error that an ordinary read of a row meets, or its reopening (R83, R85): the read opens the row where it is not open, and
waits while its bank is stopped. -/
def readErrors (s : State) (b r : Nat) (f : ScrubFind) : State :=
  match (if (getBank s b).busy then none else openRow s b r) with
  | some s => foundErrors s b r f
  | none => s

/-- PATROL_SCRUB (R83). -/
def execPatrolScrub (b r : Nat) (f : ScrubFind) (s : State) : Out :=
  if !bit (scrubc s b) 0 || r ≥ 65536 then .next s else .next (foundErrors s b r f true)

/-- HOT_LIST_SCRUB (R83): a listed row is read; after a whole patrol period without a corrected error it leaves the list. -/
def execHotListScrub (b r : Nat) (f : ScrubFind) (s : State) : Out :=
  if !bit (scrubc s b) 0 || (rowErr s b r).hot.isNone then .next s
  else
    let s := foundErrors s b r f true
    let e := rowErr s b r
    let hours := max 1 (bits (scrubc s b) 15 8)
    .next (if s.time.toNat - e.corr ≥ hours * 3600 * 10 ^ 9 then setRowErr s { e with hot := none } else s)

/-- A record of a lasting fault in the root region's log: cause 0x0B and SEQ 6, the rest unstated (R345). -/
def lastingRecord (s : State) : State :=
  let free (i : Nat) := Config.freeNat s.fresh i
  let r := (List.range 8).map fun i => BitVec.ofNat 64 (if i = 0 then free 0 % 2 ^ 48 * 2 ^ 16 + 0x060B else free i)
  match rootRegion s with
  | some root => faultLog (bump s) root r
  | none => s

/-- ROW_RETIREMENT (R86): a listed row whose score reaches RETTH moves to a spare row, once in a window; its pegs become
lost. A bank with no free spare is logged as exhausted. Either way the count is a lasting fault of the row, recorded in
non-volatile memory and in the root region's log (R345). -/
def execRowRetirement (b r : Nat) (s : State) : Out :=
  let s := rollWindow s
  let e := rowErr s b r
  if e.hot.isNone || e.acted || score e < max 1 (bits (scrubc s b) 39 32) then .next s
  else
    let s := lastingRecord (setRowErr { s with rowsNv := s.rowsNv ++ [(b, r)] } { e with acted := true })
    if (getBank s b).spares ≥ 32 then .next { s with memLog := s.memLog ++ [.exhausted b] }
    else .next (modBank (loseRow { s with memLog := s.memLog ++ [.retired b r] } b r) b fun k => { k with
      spares := k.spares + 1, moved := if k.moved.contains r then k.moved else k.moved ++ [r], stuck := k.stuck.filter (· ≠ r) })

/-! ## Error windows (R345) -/

/-- ERROR_WINDOW_END: at a window boundary every count returns to 0. -/
def execErrorWindowEnd (s : State) : Out := .next (rollWindow s)

/-- The threshold of a unit's count (Tables 22.9, 22.10). -/
def faultThreshold (s : State) (u : FaultUnit) : Nat :=
  let f := s.fltcfg.toNat
  max 1 (match u with
    | .sramCorrected _ => bits f 39 32
    | .sramUncorrectable _ => bits f 47 40
    | .mismatch _ _ => bits f 55 48
    | .retrain _ => bits f 63 56)

/-- The errors counted for a unit. -/
def errCount (s : State) (u : FaultUnit) : Nat := ((s.errCnt.find? fun e => e.1 = u).map (·.2)).getD 0

/-- A core's byte of the unit map changed (R339). -/
def setUnit (s : State) (c v : Nat) : State := setIst { s with units := tabSet s.units c (v % 8) } 2

/-- The drain or the ragged update of a task's S stops at its word with cause 0x06 and the address (R208, R219). -/
def stopS (s : State) (c n va : Nat) : State :=
  let pins := ((getTask s c n).drain.map (·.pins)).getD []
  let s := modTask (unpin s c pins) c n fun t => { t with drain := none, rag := none }
  { raise { s with cur := { core := c, slot := n } } .s 6 va with cur := s.cur }

/-- A copy in flight stops with a fault (R219, R271): the command leaves its queue. -/
def stopCopy (s : State) (c n idx va : Nat) : State :=
  match (getCore s c).qc.running.find? fun r => r.cmd.slot = n && r.cmd.idx = idx with
  | none => s
  | some r =>
    let s := modCore (unpin s c r.cmd.pins) c fun k => { k with qc := { k.qc with running := k.qc.running.filter fun x => !(x.cmd.slot = n && x.cmd.idx = idx) } }
    modTask s c n fun t => addFault t {
      cause := 6, detail := BitVec.ofNat 64 va, seq := 4, eng := 1, idx := idx
      prog := ((r.wrote.map (· / 64)).eraseDups).length, op := bits (r.cmd.words.getD 0 0).toNat 7 0, cycle := s.cycle }

/-- An access that waits on a route whose port goes down ends with cause 0x06 and its address, at the word or command that made it
(R219): a word of S, a copy; a word of C is told of it by its waiting request. -/
def flitLost (s : State) (f : Flit) : State :=
  match f.by_ with
  | some (c, n, uid, seq) =>
    if !resident s c n || (getTask s c n).uid ≠ uid then s
    else match seq with
      | 3 => if (getTask s c n).drain.isSome || (getTask s c n).rag.isSome then stopS s c n f.va else s
      | 4 => stopCopy s c n f.idx f.va
      | _ => s
  | none => s

/-- A waiting access of C whose flit is lost with its port. -/
def Remote.lose (p : Nat) (l : List Flit) : Remote → Remote
  | .link core slot h port seq acc res lost => .link core slot h port seq acc res (lost || (port = p && l.any fun f => f.seq = seq))
  | r => r

/-- A port marked down (R219, R339): what was on its way over it is given up, and its accesses end. -/
def portDown (s : State) (p : Nat) : State :=
  if !bit s.ports p then s
  else
    let l := tabGet {} s.links p
    let s := l.unacked.foldl flitLost { s with remote := s.remote.map (Remote.lose p l.unacked) }
    setIst (setIst { s with ports := putBits s.ports p p 0, links := tabSet s.links p { l with unacked := [], retrain := false } } 2) 3

/-- The action on a unit with a lasting fault (Table 22.10). -/
def markUnit (s : State) (u : FaultUnit) : State :=
  match u with
  | .sramCorrected c => setUnit s c (putBits (tabGet 7 s.units c) 0 0 0)
  | .sramUncorrectable c => setUnit s c (putBits (tabGet 7 s.units c) 0 0 0)
  | .mismatch c e => setUnit s c (putBits (tabGet 7 s.units c) (1 + e % 2) (1 + e % 2) 0)
  | .retrain p => portDown s p

/-- LASTING_FAULT (R345): a count that has reached its threshold marks its unit, once per window. -/
def execLastingFault (u : FaultUnit) (s : State) : Out :=
  let s := rollWindow s
  if errCount s u < faultThreshold s u || s.lasting.contains u then .next s
  else
    let s := { s with
      lasting := s.lasting ++ [u]
      lastingNv := if s.lastingNv.contains u then s.lastingNv else s.lastingNv ++ [u] }
    .next (markUnit (lastingRecord s) u)

end Sys2Proof.Machine
end

