-- ==== Sys2Proof/Machine/Numbers.lean ====
section
/-!
DEFINITION. Numbers: formats (R47 to R53), rounding and Convert (R56, R57), flushing (R61), the exact arithmetic under
them, K-block sums (R62) and residues (R64, R65).
-/
namespace Sys2Proof.Machine

/-- An exact value: not a number, an infinity, or `±m·2^e` with a signed zero. -/
inductive Num where
  | nan
  | inf (neg : Bool)
  | fin (neg : Bool) (m : Nat) (e : Int)
  deriving DecidableEq, Repr

/-- Positive zero. -/
def Num.zero : Num := .fin false 0 0

/-- A floating format: exponent bits, mantissa bits, bias, whether it is an IEEE format (Table 3.2). -/
structure FFmt where
  eb   : Nat
  mb   : Nat
  bias : Nat
  ieee : Bool
  deriving DecidableEq, Repr

/-- The floating format of a code; kl4 entries are bf16 (R55). -/
def ffmt (code : Nat) : Option FFmt :=
  match code with
  | 0 => some ⟨8, 23, 127, true⟩
  | 1 => some ⟨8, 7, 127, true⟩
  | 2 => some ⟨5, 10, 15, true⟩
  | 3 => some ⟨4, 3, 8, false⟩
  | 4 => some ⟨5, 2, 16, false⟩
  | 5 => some ⟨3, 2, 3, false⟩
  | 6 => some ⟨2, 1, 1, false⟩
  | 12 => some ⟨8, 7, 127, true⟩
  | _ => none

/-- The width of a format's elements in bits (Table 3.1). -/
def fmtWidth (code : Nat) : Nat :=
  match code with
  | 0 | 13 | 14 => 32
  | 1 | 2 => 16
  | 3 | 4 | 7 | 8 | 15 => 8
  | 5 => 6
  | 6 | 9 | 10 | 12 => 4
  | 11 => 2
  | _ => 32

/-- Is the format an integer format, and is it signed (R51)? -/
def intFmt (code : Nat) : Option Bool :=
  match code with
  | 7 | 9 | 11 | 13 => some true
  | 8 | 10 => some false
  | _ => none

/-- The value of a finite integer. -/
def Num.ofInt (i : Int) : Num := .fin (i < 0) i.natAbs 0

/-- Has the pattern a zero exponent and a non-zero mantissa? -/
def isSub (f : FFmt) (b : Nat) : Bool := (b >>> f.mb) % 2 ^ f.eb = 0 && b % 2 ^ f.mb ≠ 0

/-- The value of a floating pattern (R48, R49). -/
def decodeFloat (f : FFmt) (b : Nat) : Num :=
  let neg := b.testBit (f.eb + f.mb)
  let e := (b >>> f.mb) % 2 ^ f.eb
  let m := b % 2 ^ f.mb
  if f.ieee then
    if e = 2 ^ f.eb - 1 then (if m = 0 then .inf neg else .nan)
    else if e = 0 then .fin neg m (1 - f.bias - f.mb)
    else .fin neg (2 ^ f.mb + m) ((e : Int) - f.bias - f.mb)
  else if neg && e = 0 && m = 0 then .nan
  else if e = 0 then .fin neg m (1 - f.bias - f.mb)
  else .fin neg (2 ^ f.mb + m) ((e : Int) - f.bias - f.mb)

/-- An input flush (R61): a subnormal becomes a zero, with its sign in an IEEE format. -/
def flushIn (f : FFmt) (on : Bool) (b : Nat) : Nat :=
  if on && isSub f b then (if f.ieee then b - b % 2 ^ f.mb else 0) else b

/-- The value of an element pattern, flushed as an input where `on` (R48 to R53); a kl4 pattern is a bf16 entry. -/
def decodeNum (code : Nat) (on : Bool) (b : Nat) : Num :=
  match ffmt code with
  | some f => decodeFloat f (flushIn f on b)
  | none =>
    match intFmt code with
    | some true => .ofInt (sext (b % 2 ^ fmtWidth code) (fmtWidth code))
    | some false => .ofInt (b % 2 ^ fmtWidth code : Nat)
    | none => if code = 15 then (if b % 256 = 255 then .nan else .fin false 1 ((b % 256 : Nat) - 127)) else .ofInt b

/-! ## Rounding -/

/-- Does a remainder `rem` of `2^sh` (with more below it if `sticky`) round the magnitude `k` up in a mode (R56)? -/
def roundsUp (mode : Nat) (neg : Bool) (k rem sh : Nat) (sticky : Bool) : Bool :=
  let half := 2 ^ (sh - 1)
  match mode with
  | 0 => rem > half || (rem = half && (sticky || k % 2 = 1))
  | 1 => false
  | 2 => !neg && (rem > 0 || sticky)
  | 3 => neg && (rem > 0 || sticky)
  | _ => rem ≥ half

/-- The magnitude `m·2^e` rounded to a multiple of `2^q`, as that multiple. -/
def roundTo (mode : Nat) (neg : Bool) (m : Nat) (e q : Int) (sticky : Bool) : Nat :=
  if e ≥ q then
    let k := m * 2 ^ (e - q).toNat
    if sticky && ((mode = 2 && !neg) || (mode = 3 && neg)) then k + 1 else k
  else
    let sh := (q - e).toNat
    let k := m >>> sh
    if roundsUp mode neg k (m % 2 ^ sh) sh sticky then k + 1 else k

/-- ⌊log2 m⌋ of a positive number. -/
def flog2 (m : Nat) : Nat := m.log2

/-- The largest finite magnitude of a format, as mantissa and exponent. -/
def maxFin (f : FFmt) : Nat × Int :=
  (2 ^ (f.mb + 1) - 1, (2 ^ f.eb : Int) - (if f.ieee then 2 else 1) - f.bias - f.mb)

/-- Is `m·2^e` greater than `n·2^g`? -/
def gtMag (m : Nat) (e : Int) (n : Nat) (g : Int) : Bool :=
  if e ≥ g then m * 2 ^ (e - g).toNat > n else m > n * 2 ^ (g - e).toNat

/-- The pattern of `±k·2^q`, which the format represents. -/
def packFloat (f : FFmt) (neg : Bool) (k : Nat) (q : Int) : Nat :=
  let s := if neg then 2 ^ (f.eb + f.mb) else 0
  if k = 0 then s
  else
    let lg := flog2 k
    let be := (lg : Int) + q + f.bias
    if be ≤ 0 then
      let sh := q - (1 - f.bias - f.mb)
      s + (if sh ≥ 0 then k * 2 ^ sh.toNat else k >>> (-sh).toNat)
    else s + be.toNat * 2 ^ f.mb + ((if lg ≥ f.mb then k >>> (lg - f.mb) else k <<< (f.mb - lg)) - 2 ^ f.mb)

/-- The pattern of an infinity, and the canonical NaN (R50). -/
def infPat (f : FFmt) (neg : Bool) : Nat := (if neg then 2 ^ (f.eb + f.mb) else 0) + (2 ^ f.eb - 1) * 2 ^ f.mb
/-- The canonical NaN of a format (R50). -/
def nanPat (f : FFmt) : Nat := if f.ieee then infPat f false + 2 ^ (f.mb - 1) else 2 ^ (f.eb + f.mb)
/-- ±MaxFin as a pattern. -/
def maxPat (f : FFmt) (neg : Bool) : Nat := let m := maxFin f; packFloat f neg m.1 m.2

/-- Convert to a floating format (R57). -/
def toFloat (f : FFmt) (mode : Nat) (sat : Bool) (x : Num) (sticky : Bool := false) : Nat :=
  match x with
  | .nan => nanPat f
  | .inf neg => if f.ieee && !sat then infPat f neg else if sat then maxPat f neg else nanPat f
  | .fin neg m e =>
    if m = 0 && !sticky then (if f.ieee && neg then 2 ^ (f.eb + f.mb) else 0)
    else
      let lo : Int := 1 - f.bias - f.mb
      let q := max ((flog2 m : Int) + e - f.mb) lo
      let k := roundTo mode neg m e q sticky
      let top := maxFin f
      if gtMag k q top.1 top.2 then
        if sat then maxPat f neg
        else if !f.ieee then nanPat f
        else match mode with
          | 1 => maxPat f neg
          | 2 => if neg then maxPat f true else infPat f false
          | 3 => if neg then infPat f true else maxPat f false
          | _ => infPat f neg
      else if k = 0 && !f.ieee then 0
      else packFloat f neg k q

/-- Convert to an integer format, as a pattern of its width (R57). -/
def toInt (code mode : Nat) (sat : Bool) (x : Num) : Nat :=
  let w := fmtWidth code
  let signed := (intFmt code).getD true
  let hi : Int := if signed then 2 ^ (w - 1) - 1 else 2 ^ w - 1
  let lo : Int := if signed then -(2 ^ (w - 1)) else 0
  let pat (n : Int) : Nat := (n % 2 ^ w).toNat
  match x with
  | .nan => 0
  | .inf neg => pat (if neg then lo else hi)
  | .fin neg m e =>
    let k := roundTo mode neg m e 0 false
    let n : Int := if neg then -(k : Int) else k
    if lo ≤ n && n ≤ hi then pat n
    else if sat then pat (if n > 0 then hi else lo)
    else pat n

/-- Convert (R57). No conversion reaches code 15, which R57 defines as no destination (log 56). -/
def convert (x : Num) (code mode : Nat) (sat : Bool) (sticky : Bool := false) : Nat :=
  match ffmt code with
  | some f => toFloat f mode sat x sticky
  | none => toInt code mode sat x

/-- An output flush (R61). -/
def flushOut (code : Nat) (on : Bool) (b : Nat) : Nat :=
  match ffmt code with
  | some f => flushIn f on b
  | none => b

/-- The FLM bit of a format's class: inputs at 0, 2, 4, results at 1, 3, 5 (Table 3.4). -/
def flmBit (flm : Nat) (code : Nat) (out : Bool) : Bool :=
  let k := match code with
    | 0 => some 0
    | 1 | 2 | 12 => some 2
    | 3 | 4 | 5 | 6 => some 4
    | _ => none
  match k with
  | some k => flm.testBit (k + if out then 1 else 0)
  | none => false

/-! ## Exact arithmetic -/

/-- The sign changed. -/
def Num.neg : Num → Num
  | .nan => .nan
  | .inf n => .inf !n
  | .fin n m e => .fin (!n) m e

/-- The exact sum; an exact zero sum of unlike signs is +0, and −0 in mode RD (IEEE 754). -/
def Num.add (mode : Nat) : Num → Num → Num
  | .nan, _ | _, .nan => .nan
  | .inf a, .inf b => if a = b then .inf a else .nan
  | .inf a, _ | _, .inf a => .inf a
  | .fin a m e, .fin b n g =>
    if m = 0 && n = 0 then .fin (if a = b then a else mode = 3) 0 0
    else if m = 0 then .fin b n g
    else if n = 0 then .fin a m e
    else
      let q := min e g
      let x : Int := (m * 2 ^ (e - q).toNat : Nat)
      let y : Int := (n * 2 ^ (g - q).toNat : Nat)
      let z := (if a then -x else x) + (if b then -y else y)
      if z = 0 then .fin (mode = 3) 0 0 else .fin (z < 0) z.natAbs q

/-- The exact product (R54's special cases are IEEE's). -/
def Num.mul : Num → Num → Num
  | .nan, _ | _, .nan => .nan
  | .inf a, .inf b => .inf (a != b)
  | .inf a, .fin b m _ => if m = 0 then .nan else .inf (a != b)
  | .fin a m _, .inf b => if m = 0 then .nan else .inf (a != b)
  | .fin a m e, .fin b n g => .fin (a != b) (m * n) (e + g)

/-- Is it a zero? -/
def Num.isZero : Num → Bool
  | .fin _ m _ => m = 0
  | _ => false

/-- The order of values that are not NaN, zeros alike: −1, 0 or 1. -/
def Num.cmp : Num → Num → Int
  | .inf a, .inf b => if a = b then 0 else if a then -1 else 1
  | .inf a, _ => if a then -1 else 1
  | _, .inf b => if b then 1 else -1
  | .fin a m e, .fin b n g =>
    let q := min e g
    let x : Int := (m * 2 ^ (e - q).toNat : Nat)
    let y : Int := (n * 2 ^ (g - q).toNat : Nat)
    let z := (if a then -x else x) - (if b then -y else y)
    if z < 0 then -1 else if z = 0 then 0 else 1
  | .nan, _ | _, .nan => 0

/-- The value of an f32 pattern, flushed where `on`. -/
def f32 (on : Bool) (b : W32) : Num := decodeNum 0 on b.toNat
/-- An f32 result (R57), flushed where `fo`. -/
def f32Of (mode : Nat) (sat fo : Bool) (x : Num) : W32 := BitVec.ofNat 32 (flushOut 0 fo (convert x 0 mode sat))

/-! ## K-blocks and residues -/

/-- ⌊log2 |v|⌋ of a finite non-zero value. -/
def Num.log : Num → Option Int
  | .fin _ m e => if m = 0 then none else some ((flog2 m : Int) + e)
  | _ => none

/-- A product truncated toward zero onto the grid `2^g`, as a signed multiple of it. -/
def Num.onGrid (g : Int) : Num → Int
  | .fin neg m e =>
    let k : Int := if e ≥ g then (m * 2 ^ (e - g).toNat : Nat) else (m >>> (g - e).toNat : Nat)
    if neg then -k else k
  | _ => 0

/-- The sum of one K-block's products beside the running accumulator (R62), as an f32 pattern. An infinite or NaN accumulator
gives no value to the choice of E (DESIGN CHOICE, log 56). -/
def blockSum (sfo : Bool) (acc : Num) (ps : List Num) : W32 :=
  let infs := ps.filterMap fun p => match p with
    | .inf n => some n
    | _ => none
  let blk : Num :=
    if ps.contains .nan || (infs.contains true && infs.contains false) then .nan
    else match infs with
      | n :: _ => .inf n
      | [] =>
        match (ps ++ [acc]).foldl (fun b v => match v.log, b with
            | some l, some m => some (max l m)
            | some l, none => some l
            | none, b => b) (none : Option Int) with
        | none => .fin (!ps.isEmpty && ps.all fun p => match p with
            | .fin n _ _ => n
            | _ => false) 0 0
        | some e =>
          let z := ps.foldl (fun s p => s + p.onGrid (e - 40)) (0 : Int)
          if z = 0 then .fin (ps.all fun p => match p with
            | .fin n m _ => n && m = 0
            | _ => false) 0 0
          else .fin (z < 0) z.natAbs (e - 40)
  f32Of 0 false sfo blk

/-- The accumulator after one K-block (R62). -/
def blockStep (sfo : Bool) (acc : W32) (ps : List Num) : W32 :=
  let a := f32 false acc
  f32Of 0 false sfo (Num.add 0 a (f32 false (blockSum sfo a ps)))

/-- The residue fields of an element, each reduced by its modulus (R64): 1024, 1023, 1025. -/
def residues (b : W32) : Nat × Nat × Nat :=
  let v := b.toNat
  (bits v 9 0, bits v 19 10 % 1023, bits v 30 20 % 1025)

/-- The element of three residues (Table 3.6). -/
def residueElem (r : Nat × Nat × Nat) : W32 := BitVec.ofNat 32 (r.1 + r.2.1 * 2 ^ 10 + r.2.2 * 2 ^ 20)

/-- A product accumulated into an element (R65). -/
def residueAdd (b : W32) (p : Int) : W32 :=
  let r := residues b
  residueElem ((((r.1 : Int) + p) % 1024).toNat, (((r.2.1 : Int) + p) % 1023).toNat, (((r.2.2 : Int) + p) % 1025).toNat)

/-- M, the product of the moduli. -/
def residueM : Nat := 1073740800

/-- The value that an element drains to (R65): the number below M with its residues, in −M/2 … M/2 − 1. -/
def residueValue (b : W32) : Int :=
  let r := residues b
  let x := (r.1 * 1048575 * 1023 + r.2.1 * 1049600 * 512 + r.2.2 * 1047552 * 513) % residueM
  if x ≥ residueM / 2 then (x : Int) - residueM else x

/-! ## Packing (R52) -/

/-- The bits that element `i` takes, counted from the byte of element 0. -/
def elemBit (code i : Nat) : Nat := i * fmtWidth code

/-- The bytes that hold element `i`, counted from the byte of element 0: the first, and how many. -/
def elemBytes (code i : Nat) : Nat × Nat :=
  let b := elemBit code i
  (b / 8, (b + fmtWidth code - 1) / 8 - b / 8 + 1)

/-- The pattern of element `i`, from its bytes. -/
def elemOf (code i : Nat) (bs : List Byte) : Nat :=
  (ofLe bs >>> (elemBit code i % 8)) % 2 ^ fmtWidth code

/-- The bytes of element `i` with its pattern replaced. -/
def elemPut (code i : Nat) (bs : List Byte) (v : Nat) : List Byte :=
  let sh := elemBit code i % 8
  leBytes bs.length (putBits (ofLe bs) (sh + fmtWidth code - 1) sh v)

end Sys2Proof.Machine
end

