-- ==== Sys2Proof/Machine/Layout.lean ====
section
/-!
DEFINITION. Tensor layout records (R118 to R131): the record and its checks, boundary tables and snapshots, positions
and fill policies, the byte of a position, scales, and the reads and writes of elements.
-/
namespace Sys2Proof.Machine

/-- The fields of a layout record (Table 7.1); the stride of dimension 0 is 1. -/
structure Layout where
  base : Nat
  fpol : Nat
  fill : Nat
  ilvg : Nat
  ilv  : Nat
  rag  : Bool
  rank : Nat
  fmt  : Nat
  e    : List Nat
  st   : List Int
  w    : List Nat
  sst  : Nat
  sfmt : Nat
  sbg1 : Nat
  sbg0 : Nat
  sbase : Nat
  btab : Nat
  nseg : Nat
  span : Bool
  tent : Bool
  sdim : Nat
  rdim : Nat
  gen  : Nat
  deriving DecidableEq, Repr

/-- The record of twelve words. -/
def layoutOf (ws : List W64) : Layout :=
  let w (i : Nat) := (ws.getD i 0).toNat
  { base := w 0
    fpol := bits (w 1) 34 32, fill := bits (w 1) 31 16, ilvg := bits (w 1) 14 11, ilv := bits (w 1) 10 9
    rag := bit (w 1) 8, rank := bits (w 1) 7 5, fmt := bits (w 1) 4 0
    e := [bits (w 2) 19 0, bits (w 2) 39 20, bits (w 2) 59 40, bits (w 3) 19 0, bits (w 3) 39 20]
    st := [1, sext (bits (w 4) 31 0) 32, sext (bits (w 4) 63 32) 32, sext (bits (w 5) 31 0) 32, sext (bits (w 5) 63 32) 32]
    w := [bits (w 6) 11 0, bits (w 6) 23 12, bits (w 6) 35 24, bits (w 6) 47 36, bits (w 6) 59 48]
    sst := bits (w 7) 47 16, sfmt := bits (w 7) 12 8, sbg1 := bits (w 7) 7 4, sbg0 := bits (w 7) 3 0
    sbase := w 8, btab := w 9
    nseg := bits (w 10) 31 8, span := bit (w 10) 7, tent := bit (w 10) 6, sdim := bits (w 10) 5 3, rdim := bits (w 10) 2 0
    gen := bits (w 11) 15 0 }

/-! ## The record's checks -/

/-- Does a value name a space of R120? -/
def spaceOk (a : Nat) : Bool := a < 2 ^ 20 || (2 ^ 28 ≤ a && a < 2 ^ 29) || (2 ^ 32 ≤ a && a < 2 ^ 48)

/-- Assigned bits of a record's words (Table 7.1). -/
def layoutMask : List Nat :=
  [0xFFFFFFFFFFFFFFFF, 0x7FFFF7FFF, 0xFFFFFFFFFFFFFFF, 0xFFFFFFFFFF, 0xFFFFFFFFFFFFFFFF, 0xFFFFFFFFFFFFFFFF,
   0xFFFFFFFFFFFFFFF, 0xFFFFFFFF1FFF, 0xFFFFFFFFFFFFFFFF, 0xFFFFFFFFFFFFFFFF, 0xFFFFFFFF, 0xFFFF]

/-- Bit positions of E0 to E4, ST0 to ST4 (ST0 is not in the record) and W0 to W4. -/
def posE : List Nat := [128, 148, 168, 192, 212]
/-- Bit positions of the strides. -/
def posST : List Nat := [256, 256, 288, 320, 352]
/-- Bit positions of the window extents. -/
def posW : List Nat := [384, 396, 408, 420, 432]

/-- The lowest bit of the field of a word that holds its lowest set bit, fields starting at `starts`, ascending. -/
def fieldOf (v : Nat) (starts : List Nat) : Nat := (starts.filter (· ≤ lowBit v 64)).foldl max 0

/-- The elements of a packing group (R52): strides and E0 are multiples of it. -/
def packGroup (fmt : Nat) : Nat :=
  match fmtWidth fmt with
  | 4 => 2
  | 2 | 6 => 4
  | _ => 1

/-- The conditions of R121 in order, each with its reason, the position reported and whether it fails. -/
def layoutChecks (ws : List W64) : List (Nat × Nat × Bool) :=
  let l := layoutOf ws
  let word (i : Nat) := (ws.getD i 0).toNat
  let dims := List.range 5
  let ed (d : Nat) := nth l.e d 0; let sd (d : Nat) := nth l.st d 0; let wd (d : Nat) := nth l.w d 0
  let pe (d : Nat) := nth posE d 0; let ps (d : Nat) := nth posST d 0; let pw (d : Nat) := nth posW d 0
  let g := packGroup l.fmt
  let wid := fmtWidth l.fmt
  let kl4 := l.fmt = 12
  (layoutMask.zipIdx.map fun m =>
    let bad := word m.2 ^^^ (word m.2 &&& m.1)
    (1, 64 * m.2 + lowBit bad 64, decide (bad ≠ 0)))
  ++ [(2, 0, decide (l.base % 64 ≠ 0)), (6, 0, !spaceOk l.base), (2, 64, decide (l.fmt = 14 ∨ l.fmt ≥ 16)),
      (2, 69, decide (l.rank = 0 ∨ l.rank > 5))]
  ++ (dims.filter (· < l.rank)).map (fun d => (2, pe d, decide (ed d = 0)))
  ++ (dims.filter (fun d => l.rank ≤ d)).flatMap (fun d =>
      [(2, pe d, decide (ed d ≠ 1)), (2, pw d, decide (wd d ≠ 1)), (2, ps d, decide (sd d ≠ 0))])
  ++ dims.map (fun d => (2, pw d, decide (wd d = 0)))
  ++ [1, 2, 3, 4].map (fun d => (2, ps d, decide (sd d % (g : Int) ≠ 0)))
  ++ [(2, pe 0, decide (ed 0 % g ≠ 0)), (2, 96, decide (l.fpol > 3)), (2, 80, decide (wid < 16 ∧ l.fill ≥ 2 ^ wid)),
      (2, 73, decide (l.ilv > 2)), (2, 0, decide (l.ilv ≠ 0 ∧ l.base ≥ 2 ^ 20)), (2, 75, decide (l.ilv ≠ 1 ∧ l.ilvg ≠ 0)),
      (2, 75, decide (l.ilv = 1 ∧ (2 ^ l.ilvg * wid % 512 ≠ 0 ∨ 2 ^ l.ilvg * wid > 32768 * 8)))]
  ++ (if l.sbase = 0 then
      [(2, 448 + fieldOf (word 7) [0, 4, 8, 16], decide (word 7 ≠ 0)), (2, 512, kl4)]
    else
      [(2, 456, decide (if kl4 then l.sfmt ≠ 1 else ¬ (l.sfmt = 0 ∨ l.sfmt = 1 ∨ l.sfmt = 2 ∨ l.sfmt = 15))),
       (2, 512, decide (l.sbase % (if kl4 then 32 else fmtWidth l.sfmt / 8) ≠ 0)), (6, 512, !spaceOk l.sbase)])
  ++ (if l.rag then
      [(2, 69, decide (l.rank < 2)), (2, 640, decide (l.rdim = l.sdim ∨ l.rdim = 0 ∨ l.rdim ≥ l.rank)),
       (2, 643, decide (l.sdim = 0 ∨ l.sdim ≥ l.rank)), (2, ps l.sdim, decide (sd l.sdim ≠ 0)),
       (2, 648, decide (l.nseg ≠ ed l.sdim)), (2, 576, decide (l.btab = 0 ∨ l.btab % 16 ≠ 0)), (6, 576, !spaceOk l.btab),
       (2, 647, l.span && l.fpol = 0)]
    else
      [(2, 576, decide (word 9 ≠ 0)), (2, 640 + fieldOf (word 10) [0, 3, 6, 7, 8], decide (word 10 ≠ 0)),
       (2, 704, decide (word 11 ≠ 0))])

/-- A layout fault (Table 7.2). -/
def layoutFault {α : Type} (role addr reason pos : Nat) : M α :=
  trap 3 (addr % 2 ^ 32 * 2 ^ 32 + reason * 2 ^ 16 + role * 2 ^ 10 + pos)

/-- The record at a local address of a task, read and checked (R118, R121). -/
def readLayout (s : State) (c n a role : Nat) : M (List W64) := do
  need (a < 2 ^ 20 && a % 32 = 0) 7 a
  let p ← inAllot s c n a 96 a
  match readError s p 96 with
  | some d => trap 0x0B d
  | none =>
    let bs := bytesAt s p 96
    let ws := (List.range 12).map fun i => BitVec.ofNat 64 (ofLe ((bs.drop (8 * i)).take 8))
    match (layoutChecks ws).find? (·.2.2) with
    | some f => layoutFault role a f.1 f.2.1
    | none => .ok ws

/-! ## Positions -/

/-- The positions of a box in window order, dimension 0 innermost (R125). -/
def boxOf : List Nat → List (List Nat)
  | [] => [[]]
  | w :: ws => (boxOf ws).flatMap fun r => (List.range w).map fun x => x :: r

/-- A tensor index: origin plus window position (R123). -/
def addIdx (o w : List Nat) : List Nat := List.zipWith (· + ·) o w

/-- The segment entry of a snapshot. -/
def segOf (sn : Snap) (i : Nat) : SegEnt := tabGet ⟨0, 0, 0, 0⟩ sn.entries i

/-- The valid length of a segment (R127). -/
def segLen (l : Layout) (sn : Snap) (i : Nat) : Nat := if l.tent then (segOf sn i).tlen else (segOf sn i).clen

/-- Where a tensor index lies: inside, outside an extent (the lowest such dimension), beyond a ragged edge (R125,
R127). -/
inductive PosAt where
  | inside
  | out (d : Nat)
  | edge (seg row : Nat)
  deriving DecidableEq, Repr

/-- The place of an index relative to the tensor. -/
def posAt (l : Layout) (sn : Snap) (i : List Nat) : PosAt :=
  match (List.range 5).find? fun d => nth i d 0 ≥ nth l.e d 1 with
  | some d => .out d
  | none =>
    if l.rag && nth i l.rdim 0 ≥ segLen l sn (nth i l.sdim 0) then .edge (nth i l.sdim 0) (nth i l.rdim 0) else .inside

/-- An index clamped to the extents and to the last row of its segment; none where that has no row (Table 7.4). -/
def clampIdx (l : Layout) (sn : Snap) (i : List Nat) : Option (List Nat) :=
  let j := List.zipWith (fun x e => min x (e - 1)) i l.e
  if !l.rag then some j
  else
    let n := segLen l sn (nth j l.sdim 0)
    if n = 0 then none else some (j.set l.rdim (min (nth j l.rdim 0) (n - 1)))

/-- The index whose element a read takes (Table 7.4): itself, the clamped one, or none. -/
def readIdx (l : Layout) (sn : Snap) (i : List Nat) : Option (List Nat) :=
  match posAt l sn i with
  | .inside => some i
  | _ => if l.fpol ≠ 2 then none else clampIdx l sn i

/-- The position checks of a record's positions in window order (R125, R127). -/
def checkPositions (l : Layout) (role addr : Nat) (ps : List PosAt) : M Unit := do
  if l.fpol = 0 then
    match ps.find? fun p => match p with
      | .out _ => true
      | _ => false with
    | some (.out d) => layoutFault role addr 3 (nth posE d 0)
    | _ => .ok ()
  if l.span then .ok ()
  else
    let es := ps.filterMap fun p => match p with
      | .edge g k => some (g, k)
      | _ => none
    match es.foldl (fun b x => match b with
      | none => some x
      | some y => if x.1 < y.1 || (x.1 = y.1 && x.2 < y.2) then some x else some y) (none : Option (Nat × Nat)) with
    | none => .ok ()
    | some (g, k) => trap 4 (g % 2 ^ 32 + k % 2 ^ 20 * 2 ^ 32 + (if role = 1 then 2 ^ 52 else 0))

/-! ## Boundary tables -/

/-- The segments a window covers (R129); a clamped read also takes the last one, a write drops what lies past it. -/
def coveredSegs (l : Layout) (o : List Nat) (wr : Bool := false) : List Nat :=
  if !l.rag then []
  else
    let ws := upto (nth o l.sdim 0) (nth l.w l.sdim 1)
    if l.fpol = 2 && !wr then (ws.map fun i => min i (l.nseg - 1)).eraseDups else ws.filter (· < l.nseg)

/-- The first condition that a segment entry fails, as its bit (R129 item 4). -/
def segBad (l : Layout) (g : SegEnt) : Option Nat :=
  if g.clen > g.tlen then some 64
  else if g.tlen > g.cap then some 96
  else if g.start + g.cap > nth l.e l.rdim 0 then some 40
  else none

/-- A word of a boundary-table entry: the cached one where its key hits and the open choice takes it (R130). -/
def btWord (s : State) (c n : Nat) (l : Layout) (head : Place) (off mem : Nat) : State × Nat :=
  match (getCore s c).btcache.find? fun e => e.slot = n ∧ e.btab = l.btab ∧ e.gen = l.gen ∧ e.off = off with
  | some e => (bump s, if Config.freeBit s.fresh 0 then e.val.toNat else mem)
  | none => (modCore s c fun k => { k with btcache := k.btcache ++ [⟨n, l.btab, l.gen, off, BitVec.ofNat 64 mem, head⟩] }, mem)

/-- Does a table's header still hold the GEN of a cache entry? -/
def BtEntry.current (s : State) (e : BtEntry) : Bool := ofLe (bytesAt s e.head 2) = e.gen

/-- Once the GEN of a table is another, the words cached under the old one are gone: a later use of its value starts anew (R130). -/
def dropStale (s : State) : State :=
  { s with cores := s.cores.map fun k => (k.1, { k.2 with btcache := k.2.btcache.filter (·.current s) }) }

/-- The two words of 16 bytes at an address, read for a task. -/
def readPair (s : State) (c n a : Nat) : M (State × Nat × Nat) := do
  let p ← placeOf s c n a 16 0
  let (s, bs) ← readAt s (c, n) p 16
  .ok (s, ofLe (bs.take 8), ofLe (bs.drop 8))

/-- A segment entry of two words. -/
def segOfWords (w0 w1 : Nat) : SegEnt :=
  { start := bits w0 39 0, cap := bits w0 63 40, tlen := bits w1 63 32, clen := bits w1 31 0 }

/-- The header of a record's boundary table, checked (R129 items 1 to 3): whether RO is set. -/
def readHeader (s : State) (c n : Nat) (l : Layout) (role addr : Nat) : M (State × Bool) := do
  let (s, h0, h1) ← readPair s c n l.btab
  if bits h0 63 40 ≠ 0 then layoutFault 2 0xFFFFFFFF 1 (40 + lowBit (bits h0 63 40) 24)
  if bits h1 63 1 ≠ 0 then layoutFault 2 0xFFFFFFFF 1 (65 + lowBit (bits h1 63 1) 63)
  if bits h0 15 0 ≠ l.gen then layoutFault role addr 4 704
  if l.nseg > bits h0 39 16 then layoutFault role addr 2 648
  .ok (s, bit h1 0)

/-- A segment entry of a record's boundary table, checked (R129 item 4). -/
def readSeg (s : State) (c n : Nat) (l : Layout) (i : Nat) : M (State × SegEnt) := do
  let (s, w0, w1) ← readPair s c n (l.btab + 16 + 16 * i)
  let head ← placeOf s c n l.btab 16 0
  let (s, w0) := btWord s c n l head (16 + 16 * i) w0
  let (s, w1) := btWord s c n l head (24 + 16 * i) w1
  let g := segOfWords w0 w1
  match segBad l g with
  | some b => layoutFault 2 i 5 b
  | none => .ok (s, g)

/-- The snapshot of a ragged record (R129); a record that is not ragged has none. -/
def snapshot (s : State) (c n : Nat) (l : Layout) (role addr : Nat) (segs : List Nat) : M (State × Snap) :=
  if !l.rag then .ok (s, {})
  else do
    let (s, _) ← readHeader s c n l role addr
    segs.foldlM (fun (st : State × Snap) i => do
      let (s, g) ← readSeg st.1 c n l i
      .ok (s, { entries := tabSet st.2.entries i g })) (s, {})

/-! ## The byte of a position -/

/-- An index with its ragged dimensions substituted (R123). -/
def substIdx (l : Layout) (sn : Snap) (i : List Nat) : List Nat :=
  if l.rag then (i.set l.rdim ((segOf sn (nth i l.sdim 0)).start + nth i l.rdim 0)).set l.sdim 0 else i

/-- The signed element offset of a substituted index. -/
def elemOff (l : Layout) (i : List Nat) : Int := (List.zipWith (fun (x : Nat) (t : Int) => x * t) i l.st).foldl (· + ·) 0

/-- `Place` (R124): the address of byte `b` of a record. -/
def placeByte (l : Layout) (b : Int) (i1 : Nat) : Int :=
  let a : Int := l.base + b
  match l.ilv with
  | 0 => a
  | 2 =>
    if a < 0 then a
    else
      let n := a.toNat
      (putBits n 10 6 (bits n 10 6 ^^^ i1 % 32) : Nat)
  | _ =>
    let gr : Int := (2 ^ l.ilvg * fmtWidth l.fmt / 8 : Nat)
    let g : Int := (bits l.base 10 6 : Nat) + b / gr
    let u := b % gr
    let o : Int := (bits l.base 19 11 * 64 : Nat) + g / 32 * gr + u
    o / 64 * 2048 + g % 32 * 64 + o % 64

/-- An address in the space of the base it is formed from, or cause 0x06 (R123); one that passes the end of local scratchpad
lies outside the allotment. -/
def inSpace (base : Nat) (a : Int) : M Nat :=
  let n := (a % 2 ^ 64).toNat
  if a < 0 then trap 6 n
  else if base < 2 ^ 20 then (if n < 2 ^ 20 then .ok n else trap 8 n)
  else if base < 2 ^ 29 then (if 2 ^ 28 ≤ n && n < 2 ^ 29 then .ok n else trap 6 n)
  else if 2 ^ 32 ≤ n && n < 2 ^ 48 then .ok n
  else trap 6 n

/-- The address of a byte of a record (R123, R124). -/
def byteAddr (l : Layout) (b : Int) (i1 : Nat) : M Nat := inSpace l.base (placeByte l b i1)

/-- The addresses of the bytes of the element at a substituted index (R52, R123). -/
def elemAddrs (l : Layout) (i : List Nat) : M (List Nat) :=
  let b : Int := elemOff l i * (fmtWidth l.fmt : Int)
  let first := b / 8
  let cnt := ((b + (fmtWidth l.fmt : Int) - 1) / 8 - first + 1).toNat
  (List.range cnt).mapM fun (k : Nat) => byteAddr l (first + (k : Int)) (nth i 1 0)

/-- The block of a substituted index along both edges (R54, R123). -/
def scaleBlock (l : Layout) (i : List Nat) : Nat × Nat :=
  let i (d : Nat) := nth i d 0; let e (d : Nat) := nth l.e d 0
  (i 0 / 2 ^ l.sbg0, (i 1 + e 1 * (i 2 + e 2 * (i 3 + e 3 * i 4))) / 2 ^ l.sbg1)

/-- The scale that applies to a substituted index, in the space of SBASE (R123): its address and size in bytes; none where the
record has no scales. -/
def scaleAddr (l : Layout) (i : List Nat) : M (Option (Nat × Nat)) :=
  if l.sbase = 0 then .ok none
  else do
    let b := scaleBlock l i
    let k := if l.fmt = 12 then 32 else fmtWidth l.sfmt / 8
    let a ← inSpace l.sbase (l.sbase + k * (b.1 + l.sst * b.2) : Nat)
    .ok (some (a, k))

/-- The index of the tensor whose codebook gives a kl4 fill at a position outside it (Table 7.4, R55): that of the position's own
block. None where no position of the tensor lies in that block (log 12). -/
def fillBook (l : Layout) (sn : Snap) (i : List Nat) : Option (List Nat) :=
  if l.fmt = 12 && l.fpol = 1 && posAt l sn i != .inside && (!l.rag || nth i l.sdim 0 < l.nseg) then
    (clampIdx l sn i).bind fun j =>
      let j := substIdx l sn j
      if scaleBlock l j = scaleBlock l (substIdx l sn i) then some j else none
  else none

/-- The places of the bytes of an element with their addresses, for a task's accesses. -/
def elemCells (s : State) (c n : Nat) (l : Layout) (i : List Nat) (acc : Nat) (old : Bool) : M (List (Place × Nat)) := do
  let as ← elemAddrs l i
  as.mapM fun a => do
    let p ← placeOf s c n a 1 acc old
    .ok (p, a)

/-- The places of the bytes of an element, for a task's accesses. -/
def elemPlaces (s : State) (c n : Nat) (l : Layout) (i : List Nat) (acc : Nat) (old : Bool) : M (List Place) := do
  .ok ((← elemCells s c n l i acc old).map (·.1))

/-- The place of an element's scale. -/
def scalePlace (s : State) (c n : Nat) (l : Layout) (i : List Nat) (old : Bool) : M (Option (Place × Nat)) :=
  do
    match (← scaleAddr l i) with
    | none => .ok none
    | some (a, k) =>
      let p ← placeOf s c n a k 0 old
      .ok (some (p, k))

/-- The addresses of the scale of an index. -/
def scaleAddrs (l : Layout) (i : List Nat) : M (List Nat) := do
  match (← scaleAddr l i) with
  | some (a, k) => .ok (upto a k)
  | none => .ok []

/-- The addresses that the element of an index reaches, its scale with it. -/
def idxAddrs (l : Layout) (wr : Bool) (i : List Nat) : M (List Nat) := do
  let as ← elemAddrs l i
  let sc ← if wr then .ok [] else scaleAddrs l i
  .ok (as ++ sc)

/-- The footprint of a window's elements, checked and translated at issue (R123, R134, R152, R280): the cache entries it
pins. `is` lists the indices whose elements are reached, substituted, `books` those of which only the codebook is; `engine`
says that an engine will write it (Table 16.4). -/
def footprint (s : State) (c n : Nat) (l : Layout) (wr : Bool) (is : List (List Nat)) (books : List (List Nat) := [])
    (engine : Bool := false) : M (List Nat) :=
  (is.map (idxAddrs l wr) ++ books.map (scaleAddrs l)).foldlM (fun ids m => do
    let as ← m
    let more ← as.foldlM (fun (ids : List Nat) a => do
      let _ ← placeOf s c n a 1 (if wr then (if engine then 3 else 1) else 0)
      if a < 2 ^ 32 then .ok ids
      else match cacheFind (getCore s c) (getTask s c n).rcb a with
        | some e => .ok (if ids.contains e.id then ids else ids ++ [e.id])
        | none => .ok ids) ids
    .ok more) []

/-! ## Reading and writing elements -/

/-- The granules of stack memory among places, each once. -/
def granulesOf (ps : List (Place × Nat)) : List Nat :=
  (ps.flatMap fun p => match p.1 with
    | .mem pa => upto (pa / 64) ((pa + p.2 - 1) / 64 + 1 - pa / 64)
    | _ => []).eraseDups

/-- Granules accessed by an agent of a task, each once. -/
def touchGranules (s : State) (who : Nat × Nat) (wr : Bool) (gs : List Nat) : M State :=
  gs.foldlM (fun s g => touch s (some who) (g * 64) wr) s

/-- The first uncorrectable error that reads of places meet. -/
def firstError (s : State) (ps : List (Place × Nat)) : Option Nat :=
  (ps.filterMap fun p => readError s p.1 p.2).head?

/-- The element pattern at a substituted index (R52). -/
def patAt (s : State) (l : Layout) (i : List Nat) (ps : List Place) : Nat :=
  elemOf l.fmt (elemOff l i % 8).toNat (ps.flatMap fun p => bytesAt s p 1)

/-- The exact value of an element, flushed as an input on its own encoding, times its scale (R54, R55, R61). A scale itself is
never flushed (DESIGN CHOICE, log 56). -/
def valueOf (s : State) (l : Layout) (flm : Nat) (pat : Nat) (sc : Option (Place × Nat)) : Num :=
  match sc with
  | none => decodeNum l.fmt (flmBit flm l.fmt false) pat
  | some (p, k) =>
    let bs := bytesAt s p k
    if l.fmt = 12 then decodeNum 1 (flmBit flm 12 false) (ofLe ((bs.drop (2 * pat)).take 2))
    else Num.mul (decodeNum l.fmt (flmBit flm l.fmt false) pat) (decodeNum l.sfmt false (ofLe bs))

/-- The pattern of a position outside the tensor (Table 7.4). -/
def outPat (l : Layout) : Nat :=
  if l.fpol = 1 then
    match fmtWidth l.fmt with
    | 32 => l.fill * 2 ^ 16
    | w => l.fill % 2 ^ w
  else if l.fmt = 15 then 0x7F
  else 0

/-- The value of a position outside the tensor, unscaled; a kl4 fill of a block that lies outside too has no codebook, and is
open (log 12). -/
def outValue (s : State) (l : Layout) (flm : Nat) : Num :=
  if l.fmt = 12 then (if l.fpol = 1 then decodeNum 1 (flmBit flm 12 false) ((Config.freeLane s.fresh 0).toNat % 2 ^ 16) else .zero)
  else decodeNum l.fmt (flmBit flm l.fmt false) (outPat l)

/-- One byte stored at a place. -/
def storeByte (s : State) (w : Place × Byte) : State :=
  match w.1 with
  | .spm c n off => modCore s c fun k => { k with spm := memPut k.spm (spmBase (getTask s c n) + off) w.2 }
  | .mem pa => { s with mem := memPut s.mem pa w.2 }
  | .far m pa => { s with farMem := memPut s.farMem (m * 2 ^ 41 + pa) w.2 }

/-- A run of bytes of another module within one granule, and the address of its first byte in the program. -/
structure FarRun where
  m  : Nat
  pa : Nat
  n  : Nat
  va : Nat
  deriving DecidableEq, Repr

/-- The bytes of other modules among places, each with the address it was formed from, as runs within one granule. -/
def farRuns (ps : List (Place × Nat)) : List FarRun :=
  ps.foldl (fun l p => match p.1, l.getLast? with
    | .far m pa, some r => if m = r.m ∧ pa = r.pa + r.n ∧ pa % 64 ≠ 0 then l.dropLast ++ [{ r with n := r.n + 1 }] else l ++ [⟨m, pa, 1, p.2⟩]
    | .far m pa, none => l ++ [⟨m, pa, 1, p.2⟩]
    | _, _ => l) []

/-- The end of a write of bytes at places, each with its address, by S or by an engine's command of that index, as the trap record
numbers them: their rows are touched, flits leave for other modules, and a granule or SRAM word written whole loses its error (R85,
R136, R217). -/
def endStores (s : State) (who : Nat × Nat) (seq idx : Nat) (ps : List (Place × Nat)) : M State := do
  let s ← touchGranules s who true (granulesOf (ps.map fun p => (p.1, 1)))
  let s := (farRuns ps).foldl (fun s f =>
    sendFlit s f.m (.write f.pa (compressPayload (memRead s.farMem (f.m * 2 ^ 41 + f.pa) f.n))) who seq f.va idx) s
  let mems := ps.filterMap fun p => match p.1 with
    | .mem pa => some pa
    | _ => none
  let spms := ps.filterMap fun p => match p.1 with
    | .spm c n off => some (c, spmBase (getTask s c n) + off)
    | _ => none
  .ok { s with
    poison := s.poison.filter fun g => !(List.range 64).all fun k => mems.contains (g * 64 + k)
    cores := if spms.isEmpty then s.cores else s.cores.map fun k => (k.1, { k.2 with
      sramBad := k.2.sramBad.filter fun w => !(w.1 = 0 && (List.range 8).all fun j => spms.contains (k.1, w.2 * 8 + j)) }) }

/-- An element stored in those of its bytes that `p` allows: its pattern merged into them as they stand (R52, R136). -/
def storeElemIf (s : State) (l : Layout) (i : List Nat) (ps : List Place) (v : Nat) (p : Place → Bool) : State :=
  ((ps.zip (elemPut l.fmt (elemOff l i % 8).toNat (ps.flatMap fun p => bytesAt s p 1) v)).filter fun w => p w.1).foldl storeByte s

/-- An element stored (R52, R136). -/
def storeElem (s : State) (l : Layout) (i : List Nat) (ps : List Place) (v : Nat) : State := storeElemIf s l i ps v fun _ => true

end Sys2Proof.Machine
end

