-- ==== Sys2Proof/Machine/LMove.lean ====
section
/-!
DEFINITION. BINDI and ISTART (R151, R152), the checks of a copy command and COPY (R132 to R134).
-/
namespace Sys2Proof.Machine

/-- A local block of `8·k` bytes at an address that is a multiple of `al`, in the allotment and outside the airing store
(cause 0x07 or 0x08). -/
def readBlock (s : State) (c n a k al : Nat) : M (List Nat) := do
  need (a % al = 0) 7 a
  let p ← inAllot s c n a (8 * k) a
  match readError s p (8 * k) with
  | some d => trap 0x0B d
  | none =>
    let bs := bytesAt s p (8 * k)
    .ok ((List.range k).map fun i => ofLe ((bs.drop (8 * i)).take 8))

/-- An origin of two words (Tables 7.7 and 8.3). -/
def originOf (w0 w1 : Nat) : List Nat := [bits w0 19 0, bits w0 39 20, bits w0 59 40, bits w1 19 0, bits w1 39 20]

/-- The tensor indices of a window at an origin, in window order. -/
def windowAt (l : Layout) (o : List Nat) : List (List Nat) := (boxOf l.w).map (addIdx o)

/-- The substituted indices whose elements a read of a window takes. -/
def readIdxs (l : Layout) (sn : Snap) (o : List Nat) : List (List Nat) :=
  ((windowAt l o).filterMap (readIdx l sn)).map (substIdx l sn)

/-- The substituted indices whose codebooks alone it takes (Table 7.4). -/
def bookIdxs (l : Layout) (sn : Snap) (o : List Nat) : List (List Nat) := (windowAt l o).filterMap (fillBook l sn)

/-- The substituted indices that a write of a window stores to. -/
def writeIdxs (l : Layout) (sn : Snap) (o : List Nat) : List (List Nat) :=
  ((windowAt l o).filter fun i => posAt l sn i == .inside).map (substIdx l sn)

/-- BINDI (R151): the stream's binding becomes the record, its origin and the transpose bit. -/
def execBindi (t : Tok) (a b : BitVec 4) (n : BitVec 3) (xp zorg : Bool) (s : State) : Out :=
  execL (.bindi t a b n xp zorg) t false (fun s => do
    let c := s.cur.core; let k := s.cur.slot
    let r ← readLayout s c k ((getJ s a).toNat % 2 ^ 20) 0
    let org ← if zorg then .ok [0, 0, 0, 0, 0] else do
      let ws ← readBlock s c k ((getJ s b).toNat % 2 ^ 20) 2 16
      match reservedIn [0xFFFFFFFFFFFFFFF, 0xFFFFFFFFFF] ws with
      | some p => checkFail 2 7 p
      | none => .ok (originOf (nth ws 0 0) (nth ws 1 0))
    let i := nth (me s).ins n.toNat {}
    .ok (modMe s fun t => { t with ins := setNth {} t.ins n.toNat { i with bind := some { addr := (getJ s a).toNat % 2 ^ 20, lrec := r, org := org, xp := xp } } })) s

/-- ISTART (R152): a run of the stream's binding, checked and translated, enters the run queue. An active run fills one of the
queue's two places (R150; DESIGN CHOICE, log 67). -/
def execIstart (t : Tok) (c : BitVec 4) (n : BitVec 3) (s : State) : Out :=
  execL (.istart t c n) t false (fun s => do
    let core := s.cur.core; let k := s.cur.slot
    let i := nth (me s).ins n.toNat {}
    match i.bind with
    | none => illegal 6 0
    | some b =>
      if i.runs.length ≥ 2 then hold .runFull n.toNat
      else
        let l := layoutOf b.lrec
        let (s, sn) ← snapshot s core k l 0 b.addr (coveredSegs l b.org)
        checkPositions l 0 b.addr ((windowAt l b.org).map (posAt l sn))
        let pins ← footprint s core k l false (readIdxs l sn b.org) (bookIdxs l sn b.org)
        let run : Run := { bind := b, cls := c.toNat, flm := (sampled s (me s)).flm, snap := sn, pins := pins, active := i.runs.isEmpty, no := i.made }
        .ok (modMe (pin s core pins) fun t => { t with ins := setNth {} t.ins n.toNat { i with runs := i.runs ++ [run], made := i.made + 1 } })) s

/-! ## Copies -/

/-- The assigned bits of a copy command (Table 7.7). -/
def copyMask : List Nat :=
  [0x1FFFFFFFFFFFF &&& 0xFFFF0FFFFFFFFFFF, 0xFFFFFFFFFF, 0xFFFFFFFFFFFFFFF, 0xFFFFFFFFFF, 0xFFFFFFFFFFFFFFF, 0xFFFFFFFFFF]
  ++ List.replicate 10 0

/-- Do the two records of a copy agree (R134 item 3)? The position that fails, in the destination record. -/
def pairBad (xp : Bool) (a b : Layout) : Option Nat :=
  let wd (l : Layout) (d : Nat) := nth l.w d 0
  let want (d : Nat) := if xp then (match d with
    | 0 => wd a 1
    | 1 => wd a 0
    | d => wd a d) else wd a d
  let l : List (Nat × Bool) := [(512, decide (b.sbase ≠ 0)), (64, decide (b.fmt = 12)), (64, decide (a.fmt ≠ b.fmt ∧ (a.fmt = 15 ∨ b.fmt = 15))),
    (69, xp && (a.rank < 2 || b.rank < 2))]
    ++ (List.range 5).map fun d => (nth posW d 0, decide (wd b d ≠ want d))
  (l.find? (·.2)).map (·.1)

/-- A copy command's records, snapshots, positions and footprints checked (R134 items 2 to 5), for a task. -/
def checkCopy (s : State) (c n : Nat) (words : List W64) : M (State × Cmd) := do
  let w (i : Nat) := (words.getD i 0).toNat
  let sa := bits (w 1) 19 0; let da := bits (w 1) 39 20
  let so := originOf (w 2) (w 3); let dorg := originOf (w 4) (w 5)
  let r ← readLayout s c n sa 0
  let r2 ← readLayout s c n da 1
  let l := layoutOf r; let l2 := layoutOf r2
  match pairBad (bit (w 0) 48) l l2 with
  | some p => layoutFault 1 da 2 p
  | none =>
    let (s, sn) ← snapshot s c n l 0 sa (coveredSegs l so)
    let (s, sn2) ← snapshot s c n l2 1 da (coveredSegs l2 dorg true)
    checkPositions l 0 sa ((windowAt l so).map (posAt l sn))
    checkPositions l2 1 da ((windowAt l2 dorg).map (posAt l2 sn2))
    let p1 ← footprint s c n l false (readIdxs l sn so) (bookIdxs l sn so)
    let p2 ← footprint s c n l2 true (writeIdxs l2 sn2 dorg) [] true
    .ok (s, { slot := n, tag := 0, idx := 0, from_ := (c, n, 1), words := words, flm := 0, gap := 0,
              lrec := r, lrec2 := r2, snap := sn, snap2 := sn2, pins := (p1 ++ p2).eraseDups })

/-- COPY (R132 to R134). -/
def execCopy (t : Tok) (cls d a b : BitVec 4) (zorg xp : Bool) (s : State) : Out :=
  execL (.copy t cls d a b zorg xp) t true (fun s => do
    let c := s.cur.core; let n := s.cur.slot
    if !queueRoom s c .copy then holdEarly .queueFull 1
    else
      let org ← if zorg then .ok [0, 0, 0, 0] else do
        let ws ← readBlock s c n ((getJ s d).toNat % 2 ^ 20) 4 32
        match reservedIn [0xFFFFFFFFFFFFFFF, 0xFFFFFFFFFF, 0xFFFFFFFFFFFFFFF, 0xFFFFFFFFFF] ws with
        | some p => checkFail 2 7 (128 + p)
        | none => .ok ws
      let w0 := withSig t.sig (0x10 + cls.toNat * 256 + (if xp then 2 ^ 48 else 0))
      let w1 := (getJ s b).toNat % 2 ^ 20 * 2 ^ 20 + (getJ s a).toNat % 2 ^ 20
      let words := ((w0 :: w1 :: org) ++ List.replicate 10 0).map (BitVec.ofNat 64)
      let (s, m) ← checkCopy s c n words
      .ok (pushCmd s .l .copy m)) s

end Sys2Proof.Machine
end

