-- ==== Sys2Proof/Machine/LPred.lean ====
section
/-!
DEFINITION. The predictor descriptor (R103), the checks of a predictor command and PRED (R105, R106).
-/
namespace Sys2Proof.Machine

/-- A predictor descriptor (Table 6.1). -/
structure PDesc where
  hst    : Nat
  gf     : Bool
  rank   : Nat
  nrow   : Nat
  upitch : Nat
  ubase  : Nat
  lbase  : Nat
  ebase  : Nat
  vbase  : Nat
  hbase  : Nat
  qlist  : Nat
  plist  : Nat
  mlist  : Nat
  ulist  : Nat
  aen    : Bool
  alist  : Nat
  deriving DecidableEq, Repr

/-- The descriptor of eight words. -/
def descOf (ws : List Nat) : PDesc :=
  let w (i : Nat) := nth ws i 0
  let hi (i : Nat) := bits (w i) 39 20; let lo (i : Nat) := bits (w i) 19 0
  { hst := bits (w 0) 28 21, gf := bit (w 0) 20, rank := bits (w 0) 19 12, nrow := bits (w 0) 11 0 + 1
    upitch := bits (w 1) 35 20, ubase := lo 1, lbase := hi 2, ebase := lo 2, vbase := hi 3, hbase := lo 3
    qlist := hi 4, plist := lo 4, mlist := hi 5, ulist := lo 5, aen := bit (w 6) 20, alist := lo 6 }

/-- The assigned bits of a descriptor. -/
def descMask : List Nat :=
  [0x1FFFFFFF, 0xFFFFFFFFF, 0xFFFFFFFFFF, 0xFFFFFFFFFF, 0xFFFFFFFFFF, 0xFFFFFFFFFF, 0x1FFFFF, 0]

/-- Is an f32 pattern a NaN? -/
def isNaN (b : Nat) : Bool := bits b 30 23 = 255 && bits b 22 0 ≠ 0

/-- The footprints of a predictor command (R106 item 4), in order. -/
def predRanges (d : PDesc) (inp : Nat) (vfy : Bool) : List (Nat × Nat) :=
  let l := 4 * (d.nrow + 1)
  [(d.ubase, d.nrow * d.upitch), (d.ebase, 4 * d.nrow)] ++ (if d.gf then [(d.lbase, 4 * d.nrow)] else [])
    ++ [(d.hbase, (d.nrow - 1) * d.hst + 1), (d.plist, l), (d.qlist, l), (d.ulist, l), (d.mlist, l)]
    ++ (if d.aen then [(d.alist, l)] else []) ++ (if vfy then [(d.vbase, 8 * d.nrow)] else []) ++ [(inp, 8 + 4 * d.rank)]

/-- The checks of a descriptor, an input block and the sampled registers (R106 items 2 to 4). Of several failures of item 3, the
first in the order in which R106 lists them is named (DEDUCED, log 32). -/
def checkPred (s : State) (c n : Nat) (ws : List Nat) (inp : Nat) (vfy : Bool) (regs : List Nat) : M Unit := do
  match reservedIn descMask ws with
  | some p => checkFail 2 7 p
  | none => .ok ()
  let d := descOf ws
  let bad : List (Nat × Bool) :=
    [(12, decide (d.rank % 2 ≠ 0 ∨ d.rank < 2 ∨ d.rank > 128)), (84, decide (d.upitch < d.rank / 2 + 1)),
     (21, decide (d.hst = 0)), (148, !d.gf && d.lbase ≠ 0), (384, !d.aen && d.alist ≠ 0),
     (128, decide (d.ebase % 4 ≠ 0)), (148, decide (d.lbase % 4 ≠ 0)), (212, decide (d.vbase % 8 ≠ 0)),
     (256, decide (d.plist % 4 ≠ 0)), (276, decide (d.qlist % 4 ≠ 0)), (320, decide (d.ulist % 4 ≠ 0)),
     (340, decide (d.mlist % 4 ≠ 0)), (384, decide (d.alist % 4 ≠ 0)), (0, decide (inp % 8 ≠ 0) || regs.any isNaN)]
  match bad.find? (·.2) with
  | some b => checkFail 1 6 b.1
  | none => .ok ()
  match (predRanges d inp vfy).find? fun r => r.1 + r.2 > spmUsable (getTask s c n) with
  | some r => trap 8 r.1
  | none => .ok ()

/-- PRED (R105, R106). -/
def execPred (t : Tok) (c : BitVec 4) (a b : BitVec 4) (vfy : Bool) (s : State) : Out :=
  execL (.pred t c a b vfy) t true (fun s => do
    let core := s.cur.core; let n := s.cur.slot
    let r := sampled s (me s)
    let inp := (getJ s b).toNat % 2 ^ 20
    let ws ← readBlock s core n ((getJ s a).toNat % 2 ^ 20) 8 64
    checkPred s core n ws inp vfy [r.prth.toNat, r.prbeta.toNat, r.tau.toNat]
    let w0 := withSig t.sig (0x30 + c.toNat * 256 + vfy.toNat * 2 ^ 48)
    let words := ((w0 :: ws) ++ [inp, 0, 0, 0, 0, 0, 0]).map (BitVec.ofNat 64)
    .ok (pushCmd s .l .pred
      { slot := n, tag := 0, idx := 0, from_ := (core, n, 1), words := words, flm := 0, gap := 0 })) s

end Sys2Proof.Machine
end

