-- ==== Sys2Proof/Machine/Fetch.lean ====
section
/-!
DEFINITION. Fetching a word of a stream's code section with the overlay of the task's patch table (R15, R46).
-/
namespace Sys2Proof.Machine

/-- The value that a patch overlays on a word (R46). -/
def overlay (param : List Byte) (w : Nat) (p : Patch) : Nat :=
  let v := ofLe ((param.drop p.poff).take 4)
  match p.kind with
  | 0 => putBits w 15 0 v
  | 1 => putBits w 20 0 v
  | _ => putBits w 31 0 v

/-- The stream number of a patch entry's STRM field (Table 2.14). -/
def patchSeq (p : Patch) : Nat := p.strm

/-- The word at a program counter of a stream, patched; none at or past the end of the section. -/
def fetchWord (t : Task) (q : Seq) (pc : Nat) : Option Nat :=
  if pc + wordSize q ≤ (sectionOf t q).length then
    let w := ofLe (((sectionOf t q).drop pc).take (wordSize q))
    some ((t.code.patches.filter fun p => patchSeq p = seqCode q && p.ioff = pc).foldl (overlay t.code.param) w)
  else none

/-- The first unit of 1 KiB of a stream's section in its instruction memory. -/
def imStart (a : Allot) : Seq → Nat
  | .c => a.imC | .l => a.imL | .x => a.imX | .s => a.imS

/-- Does a word of instruction memory, numbered by sequencer, plane and place, hold bytes `lo` to `lo + n − 1` of the stream's
section (R344)? -/
def codeWord (plane : Nat) (t : Task) (q : Seq) (lo n w : Nat) : Bool :=
  w / 2 ^ 14 = seqCode q * 2 + plane && overlap (w % 2 ^ 14 * 8) 8 (imStart t.al q * 1024 + lo) n

/-- Does the fetch of the word at the program counter meet an uncorrectable error? -/
def fetchBad (s : State) (q : Seq) : Bool :=
  sramHit s s.cur.core 4 (codeWord (myCore s).plane (me s) q (ctl s q).pc (wordSize q))

/-- A task's sections written to a plane: errors of the words they replace are gone. -/
def loadCode (s : State) (c plane : Nat) (t : Task) : State :=
  sramClear s c 4 fun w => [Seq.c, .l, .x, .s].any fun q => codeWord plane t q 0 (sectionOf t q).length w

/-- The X word of the task that runs. -/
def thisXWord (s : State) : Option XWord := (fetchWord (me s) .x (ctl s .x).pc).bind fun w => (decodeX w).1

end Sys2Proof.Machine
end

