-- ==== Sys2Proof/Machine/Loops.lean ====
section
/-!
DEFINITION. Hardware loops and branches of L, X and S (R242 to R245).
-/
namespace Sys2Proof.Machine

/-- A loop set up by the word at the pc (R244 items 1 and 3): `at_n` and `at_e` are the bit positions of its counter and
end fields. A count of 0 skips the body, which then counts as having issued its last word. -/
def startLoop (q : Seq) (n count e at_n at_e : Nat) (s : State) : M State :=
  let c := ctl s q
  let last := c.pc + e * wordSize q
  if c.loops.any (fun l => l.n = n) then illegal 6 at_n (q == .x)
  else if c.loops.any (fun l => l.last < last) then illegal 6 at_e (q == .x)
  else if count = 0 then .ok (modCtl s q fun c => { c with cnt := setNth 0 c.cnt n 0, pc := last })
  else .ok (modCtl s q fun c => { c with
    cnt := setNth 0 c.cnt n count, loops := ⟨n, c.pc + wordSize q, last⟩ :: c.loops })

/-- The loops that stay active at a transfer to `tgt`: one whose body it lies outside ends, with every loop nested in it
(R244 item 4). -/
def loopsAt (tgt : Nat) (ls : List Loop) : List Loop :=
  (ls.reverse.takeWhile fun l => l.first ≤ tgt && tgt ≤ l.last).reverse

/-- Is the word `k` words after the pc the last word of an active loop's body (R244 item 5)? -/
def endsLoop (c : Ctl) (w k : Nat) : Bool := c.loops.any fun l => l.last = c.pc + k * w

/-- A target relative to the pc, as a 64-bit offset: one that is negative lies past every section (R242). -/
def relTarget (pc : Nat) (w : Nat) (off : Int) : Nat := (((pc : Int) + w * off) % 2 ^ 64).toNat

end Sys2Proof.Machine
end

