-- ==== Sys2Proof/Machine/Operands.lean ====
section
/-!
DEFINITION. The operands of X (R29, R30, R156 to R160): registers, predicates and e-flags with the operations still in
flight on them, stream pops and peeks, immediates, and the results an operation posts.
-/
namespace Sys2Proof.Machine

/-- Lanes of a register (R156). -/
def laneCount : Nat := 1024
/-- A lane value in every lane. -/
def splat (v : W32) : Lanes := List.replicate laneCount v
/-- The X part of the task that runs. -/
def xOf' (s : State) : XCtx := (me s).x
/-- That part changed. -/
def modX (s : State) (f : XCtx → XCtx) : State := modMe s fun t => { t with x := f t.x }

/-! ## Operations in flight (R34, R160, R246 to R249) -/

/-- The lane or bit values of an item as they stand: registers by lane, predicates and e-flags as 0 or 1. -/
def itemVal (x : XCtx) : XItem → List W32
  | .v n => nth x.v n (splat 0)
  | .p n => (nth x.p n []).map fun b => if b then 1 else 0
  | .e n => [if nth x.e n false then 1 else 0]
  | .z n => nth x.z n []

/-- An item set. -/
def setItem (x : XCtx) (i : XItem) (l : List W32) : XCtx :=
  match i with
  | .v n => { x with v := setNth [] x.v n l }
  | .p n => { x with p := setNth [] x.p n (l.map fun w => w ≠ 0) }
  | .e n => { x with e := setNth false x.e n (l.headD 0 ≠ 0) }
  | .z n => { x with z := setNth [] x.z n l }

/-- The drained elements of tiles after a result is written: an element that it writes holds what it wrote (log 65). -/
def undrained (zd : Tab (List Nat)) (i : XItem) (val : List (Option W32)) : Tab (List Nat) :=
  match i with
  | .z n => match tabFind zd n with
    | none => zd
    | some l => tabSet zd n (l.filter fun e => (nth val e none).isNone)
  | _ => zd

/-- Has the operation's bound passed at the present count? -/
def XOp.passed (o : XOp) (count : Nat) : Bool := o.issued + o.bound ≤ count

/-- What overlapping operations may leave in a lane: the value of one that writes it and that no other was issued after the bound of
(R160). -/
def laneChoices (ops : List XOp) (l : Nat) : List W32 :=
  let w := ops.filterMap fun p => (nth p.val l none).map fun v => (p, v)
  (w.filter fun e => !w.any fun f => e.1.passed f.1.issued).map (·.2)

/-- The lanes after an operation's results are written; `pick` gives what a lane that it writes becomes. -/
def mergeLanes (pick : Nat → W32 → W32) (old : List W32) (new : List (Option W32)) : List W32 :=
  (old.zip new).zipIdx.map fun e => match e.1.2 with
    | none => e.1.1
    | some v => pick e.2 v

/-- The SRAM array of an item: 2 accumulator file, 3 vector registers (R344). Predicates and e-flags lie in none. -/
def sramArray : XItem → Nat
  | .v _ => 3
  | .z _ => 2
  | _ => 16
/-- Its number among the core's registers or tiles, which stands for its words. -/
def sramWord (t : Task) : XItem → Nat
  | .v n => t.al.v + n
  | .z n => t.al.z + n
  | .p n => n
  | .e n => n
/-- The operation at place `k` of the list lands (R246): in a lane that operations which overlap have written before it, one of their
results stands from then on (R160). -/
def landOne (s : State) (k : Nat) : State :=
  let x := xOf' s
  match x.ops[k]? with
  | none => s
  | some o =>
    if o.landed then s
    else
      let others := if o.clash then x.ops.filter fun p => p.item = o.item && p.landed && p.clash else []
      let pick (l : Nat) (v : W32) : W32 :=
        if others.isEmpty then v
        else match laneChoices (o :: others) l with
          | [] | [_] => v
          | c => nth c (Config.freeNat s.fresh l % c.length) v
      let l := mergeLanes pick (itemVal x o.item) o.val
      let s := if o.val.all (·.isSome) then sramClear s s.cur.core (sramArray o.item) (fun w => w = sramWord (me s) o.item) else s
      modX (if others.isEmpty then s else bump s) fun x =>
        { setItem x o.item l with ops := x.ops.set k { o with landed := true }, zd := undrained x.zd o.item o.val }

/-- It lands, after the earlier writes of its tile if it writes one: tiles keep their order (R248). -/
def landOp (s : State) (k : Nat) : State :=
  match (xOf' s).ops[k]? with
  | some o => match o.item with
    | .z _ => (List.range (k + 1)).foldl (fun s j => if ((xOf' s).ops[j]?.map (·.item)) == some o.item then landOne s j else s) s
    | _ => landOne s k
  | none => s

/-- Operations that are over leave the list. -/
def dropOps (s : State) : State :=
  modX s fun x =>
    { x with
      ops := x.ops.filter fun o => !(o.landed && o.passed x.count
        && !(o.clash && x.ops.any fun p => p.item = o.item && p.clash && !p.landed)),
      inter := x.inter && x.ops.any fun o => o.pre && !o.landed }

/-- Every operation whose bound has passed lands (R34). -/
def settle (s : State) : State :=
  let x := xOf' s
  dropOps ((List.range x.ops.length).foldl (fun s k => match (xOf' s).ops[k]? with
    | some o => if o.passed x.count then landOp s k else s
    | none => s) s)

/-- Does a read at the present count see an undefined value (R34)? An operation of the same word does not count (R32),
nor one that has landed while X waits for it (R248, R249), before the trap (R249), or in a tile that a command reads (R196). -/
def unsettled (x : XCtx) (i : XItem) : Bool :=
  x.ops.any fun o => o.item = i && o.issued < x.count && !o.passed x.count && !(o.landed && (o.marked || o.pre || x.inter))

/-- A result posted: it will be written by `count + bound` (R34, R158). -/
def post (s : State) (i : XItem) (bound : Nat) (val : List (Option W32)) : State :=
  modX s fun x =>
    let live (o : XOp) : Bool := o.item = i && !o.passed x.count
    let tile : Bool := match i with
      | .z _ => true
      | _ => false
    let clash := !tile && x.ops.any live
    { x with ops := (x.ops.map fun o => if clash && live o then { o with clash := true } else o)
        ++ [{ item := i, issued := x.count, bound := bound, val := val, clash := clash }] }

/-! ## Sources -/

/-- A vector register read (R34). -/
def readV (s : State) (n : Nat) : State × Lanes :=
  if unsettled (xOf' s) (.v n) then (bump s, (List.range laneCount).map (Config.freeLane s.fresh))
  else (s, nth (xOf' s).v n (splat 0))

/-- A predicate read; p0 is all-true (R157). -/
def readP (s : State) (n : Nat) : State × List Bool :=
  if n = 0 then (s, List.replicate laneCount true)
  else if unsettled (xOf' s) (.p n) then (bump s, (List.range laneCount).map (Config.freeBit s.fresh))
  else (s, nth (xOf' s).p n (List.replicate laneCount false))

/-- An e-flag read; before its bound it is either value (R245). -/
def readE (s : State) (n : Nat) : State × Bool :=
  if unsettled (xOf' s) (.e n) then (bump s, Config.freeBit s.fresh 0) else (s, nth (xOf' s).e n false)

/-- The lane value of operand code 29 (R159). -/
def immLane (x : Slot) : W32 :=
  let i := x.imm.toNat % 2 ^ 13
  if x.type = 0 then BitVec.ofNat 32 (i * 2 ^ 19) else BitVec.ofInt 32 (sext i 13)

/-- The lane value of code 29 in a slot whose type5 is reserved (R159). -/
def immLaneInt (x : Slot) : W32 := BitVec.ofInt 32 (sext (x.imm.toNat % 2 ^ 13) 13)

/-- A block with every lane valid. -/
def plainBlock (l : Lanes) : Block := { lanes := l, valid := List.replicate laneCount true, seg := List.replicate laneCount 0 }

/-- A source operand (R29, R30): `imm` is what code 29 stands for. -/
def source (s : State) (x : Slot) (imm : W32) (code : BitVec 5) : State × Block :=
  let n := code.toNat
  if n < 16 then
    let (s, l) := readV s n
    (s, plainBlock l)
  else if n < 24 then
    let i := nth (me s).ins (n - 16) {}
    match i.blocks with
    | [] => (s, plainBlock (splat 0))
    | b :: r =>
      if x.imm.getLsbD 13 then (s, b)
      else (modMe s fun t => { t with ins := setNth {} t.ins (n - 16) { i with blocks := r } }, b)
  else if n = 29 then (s, plainBlock (splat imm))
  else (s, plainBlock (splat 0))

/-! ## Destinations -/

/-- A result written under an active mask (R158): a register's other lanes keep their value, an out-stream's are +0 with
valid bit 0. -/
def writeDst (s : State) (x : Slot) (bound : Nat) (act : List Bool) (r : Lanes) : State :=
  let d := x.dst.toNat
  if d < 16 then post s (.v d) bound ((act.zip r).map fun e => if e.1 then some e.2 else none)
  else if 24 ≤ d && d < 28 then
    let o := nth (me s).outs (d - 24) {}
    let b : Block := { lanes := (act.zip r).map fun e => if e.1 then e.2 else 0, valid := act }
    modMe s fun t => { t with outs := setNth {} t.outs (d - 24) { o with blocks := o.blocks ++ [b] } }
  else s

/-- A result that writes every lane. -/
def writeAll (s : State) (x : Slot) (bound : Nat) (r : Lanes) : State :=
  writeDst s x bound (List.replicate laneCount true) r

/-- A predicate written whole (R168, R175). -/
def writeP (s : State) (n bound : Nat) (r : List Bool) : State :=
  post s (.p n) bound (r.map fun b => some (if b then 1 else 0))

/-! ## What a slot's effect reads -/

/-- The sources, the governing predicate and the flush in force of a slot. -/
structure XIn where
  a   : Block
  b   : Block
  c   : Block
  act : List Bool
  flm : Nat
  deriving DecidableEq, Repr

/-- The operands of a slot, in the order of R30. -/
def readIn (s : State) (x : Slot) (imm : W32) : State × XIn :=
  let (s, a) := source s x imm x.srcA
  let (s, b) := source s x imm x.srcB
  let (s, c) := source s x imm x.srcC
  let (s, p) := readP s x.pred.toNat
  (s, { a := a, b := b, c := c, act := p, flm := (sampled s (me s)).flm.toNat })

/-- The input flush in force for a format's class (R60). -/
def fiOf (x : Slot) (k : XIn) (code : Nat) : Bool := x.fi || flmBit k.flm code false
/-- The output flush in force. -/
def foOf (x : Slot) (k : XIn) (code : Nat) : Bool := x.fo || flmBit k.flm code true

/-- A lane by row and column. -/
def laneAt (l : Lanes) (r c : Nat) : W32 := nth l (64 * r + c) 0

/-- The vector registers, predicates and e-flags an instruction's slot names, as sources or destinations (R248). -/
def slotItems (i : Instr) : List XItem :=
  match xParts i with
  | none => []
  | some (op, x) =>
    match opUse op with
    | none => []
    | some u =>
      let im := x.imm.toNat
      let v (k : Use) (f : BitVec 5) : List XItem := match k with
        | .src | .srcImm | .dst | .vOnly | .vOr28 | .vi28 => if f.toNat < 16 then [.v f.toNat] else []
        | .pd | .pr => [.p (f.toNat % 8)]
        | .ed => [.e (f.toNat % 4)]
        | _ => []
      v u.d x.dst ++ v u.a x.srcA ++ v u.b x.srcB ++ v u.c x.srcC
        ++ (if u.pr then [.p x.pred.toNat] else [])
        ++ (if op = 0x85 then [.p (bits im 2 0), .p (bits im 5 3)] else [])
        ++ (if op = 0x90 && bit im 5 then [.p (bits im 8 6)] else [])
        ++ (if op = 0xA0 && bit im 13 && x.srcA.toNat < 16 then [.v x.srcA.toNat] else [])
        ++ (if op = 0x90 || op = 0x91 || op = 0x92 then [.z (bits im 2 0)] else [])
        ++ (if (op = 0xA1 || op = 0xA2) && x.dst.toNat % 8 < 4 then [.e (x.dst.toNat % 8)] else [])

/-- Does a word wait in interlock cycles (R248, R249)? -/
def interlocked (x : XCtx) (items : List XItem) : Bool :=
  x.ops.any fun o => items.contains o.item && o.item != .p 0 && !o.landed && !o.passed x.count && (o.marked || x.inter)

/-! ## The frame of an instruction of X -/

/-- A failure of an instruction's own, at a position in its slot. -/
def xIllegal {α : Type} (s : State) (reason at_ : Nat) : M α :=
  illegal reason (at_ + if s.cur.slotB then 0 else 56) s.cur.slotB

/-- The in-streams an instruction pops or peeks, in the order of R30, with their fields' positions. -/
def streamUses (i : Instr) : List (Nat × Nat) :=
  match xParts i with
  | none => []
  | some (op, x) =>
    match opUse op with
    | none => []
    | some u =>
      let f (k : Use) (c : BitVec 5) (l : Nat) : List (Nat × Nat) :=
        if takesStream k && isStream c.toNat then [(c.toNat - 16, l)] else []
      f u.a x.srcA 38 ++ f u.b x.srcB 33 ++ f u.c x.srcC 28

/-- Does a slot peek (R30)? -/
def peeks (i : Instr) : Bool := ((xParts i).map fun p => p.2.imm.getLsbD 13).getD false

/-- The out-stream an instruction pushes, if it does. -/
def streamPush (i : Instr) : Option Nat :=
  match xParts i with
  | none => none
  | some (op, x) =>
    if ((opUse op).map fun u => u.d == .dst).getD false && 24 ≤ x.dst.toNat && x.dst.toNat < 28 then some (x.dst.toNat - 24)
    else none

/-- The blocks of in-streams that instructions take, by stream, and the first stream that holds too few for a pop or a
peek (R30). -/
def lacking (t : Task) : List (Nat × Bool) → List Nat → Option Nat
  | [], _ => none
  | (n, peek) :: r, taken =>
    if (nth t.ins n {}).blocks.length ≤ (taken.filter (· = n)).length then some n
    else lacking t r (if peek then taken else n :: taken)

/-- The stream hold of the instructions of a word, in the order of R30. -/
def streamHold (t : Task) (is : List Instr) : M Unit :=
  match lacking t (is.flatMap fun i => (streamUses i).map fun u => (u.1, peeks i)) [] with
  | some n => hold .inEmpty n
  | none =>
    let outs := is.filterMap streamPush
    match outs.find? fun o => (nth t.outs o {}).blocks.length + (outs.filter (· = o)).length > 2 with
    | some o => hold .outFull o
    | none => .ok ()

/-- Is an in-stream the A source of a matrix command of the task that has not retired (R204)? -/
def claimed (s : State) (n : Nat) : Bool :=
  (allCmds (myCore s).qm).any fun m =>
    m.slot = s.cur.slot && bits (cmdW m 1) 11 10 = 0 && bits (cmdW m 1) 14 12 = n

/-- The granule of a poisoned block that a slot would take (R155). -/
def poisonAt (t : Task) (peek : Bool) : List Nat → List Nat → Option Nat
  | [], _ => none
  | n :: r, taken =>
    match ((nth t.ins n {}).blocks[(taken.filter (· = n)).length]?).bind (·.poison) with
    | some g => some g
    | none => poisonAt t peek r (if peek then taken else n :: taken)

/-- The stream conditions of a slot at issue: enough blocks and room, no stream that a matrix command owns, no poisoned
block. -/
def slotReady (s : State) (i : Instr) : M Unit := do
  streamHold (me s) [i]
  match (streamUses i).find? fun u => claimed s u.1 with
  | some u => xIllegal s 6 u.2
  | none =>
    match poisonAt (me s) (peeks i) ((streamUses i).map (·.1)) [] with
    | some g => trap 0x0B g
    | none => .ok ()

/-- The vector registers and the tile that an instruction's slot reads. -/
def slotReads (i : Instr) : List XItem :=
  match xParts i with
  | none => []
  | some (op, x) =>
    match opUse op with
    | none => []
    | some u =>
      let v (k : Use) (f : BitVec 5) : List XItem := match k with
        | .src | .srcImm | .vOnly | .vOr28 | .vi28 => if f.toNat < 16 then [.v f.toNat] else []
        | _ => []
      v u.a x.srcA ++ v u.b x.srcB ++ v u.c x.srcC
        ++ (if op = 0xA0 && x.imm.getLsbD 13 && x.srcA.toNat < 16 then [.v x.srcA.toNat] else [])
        ++ (if op = 0x90 then [.z (x.imm.toNat % 8)] else [])

/-- A read of registers or tiles meets an uncorrectable error (R344). -/
def sramReady (s : State) (l : List XItem) : M Unit :=
  match l.find? fun i => sramHit s s.cur.core (sramArray i) fun w => w = sramWord (me s) i with
  | some i => trap 0x0B (sramLocator s.cur.core (sramArray i))
  | none => .ok ()

/-- The failures of an X instruction in the slot it stands in. -/
def legalX (s : State) (i : Instr) : Option Fail :=
  let fs := (match i with
    | .nop => []
    | .msetf _ _ => (decodeX ((encodeX i).getD 0)).2
    | i => match xParts i with
      | some (op, x) => slotFails op (encSlot op x) s.cur.slotB
      | none => []) ++ slotCtxFails (ctxOf s .x) i
  pickFail (fs.map fun f => match i with
    | .msetf _ _ => f
    | _ => f.inWord s.cur.slotB)

/-- An instruction of X in its slot: checks, stream conditions, effect. The step around it issues the word (R30, R34). -/
def execX (i : Instr) (body : State → M State) (s : State) : Out :=
  match legalX s i with
  | some f => .next (raise s .x f.cause (illDetail f))
  | none =>
    match slotReady s i >>= fun _ => sramReady s (slotReads i) >>= fun _ => body s with
    | .ok t => .next t
    | .error e => .next (stopWord s .x e)

end Sys2Proof.Machine
end

