-- ==== Sys2Proof/Machine/Special.lean ====
section
/-!
DEFINITION. The special functions (R172): exact special values and exact results, integer roots and quotients with a
sticky part, and 256-bit enclosures of the transcendental ones (log 10).
-/
namespace Sys2Proof.Machine

/-- Fraction bits of the fixed-point numbers of the enclosures. -/
def fixP : Nat := 256
/-- One in fixed point. -/
def fixOne : Nat := 2 ^ fixP
/-- The error of an enclosure, in units of the last place: it bounds the truncations of every series below. -/
def fixErr : Nat := 2 ^ 16

/-- `Σ z^(2k+1)/(2k+1)` over `n` terms from `k`, where `p` is `z^(2k+1)` and `zz` is `z²`. -/
def atanhSum (zz : Nat) : Nat → Nat → Nat → Nat
  | 0, _, _ => 0
  | n + 1, k, p => p / (2 * k + 1) + atanhSum zz n (k + 1) (p * zz / fixOne)

/-- `2·atanh z` for `0 ≤ z ≤ 1/3`. -/
def twoAtanh (z : Nat) : Nat := 2 * atanhSum (z * z / fixOne) 90 0 z

/-- ln 2, from `2·atanh(1/3)`. -/
def ln2 : Nat := twoAtanh (fixOne / 3)

/-- `Σ t^k/k!` over `n` terms from `k`, where `p` is `t^k/k!`. -/
def expSum (t : Nat) : Nat → Nat → Nat → Nat
  | 0, _, _ => 0
  | n + 1, k, p => p + expSum t n (k + 1) (p * t / fixOne / (k + 1))

/-- `e^t` for `0 ≤ t < 1`. -/
def expFix (t : Nat) : Nat := expSum t 70 0 fixOne

/-- `e^(−u)` for `0 ≤ u`. -/
def expNeg (u : Nat) : Nat :=
  let k := u / ln2
  (fixOne * fixOne / expFix (u - k * ln2)) >>> k

/-- The fixed-point magnitude of `m·2^e`, exact for `e ≥ −256`. -/
def toFix (m : Nat) (e : Int) : Nat := if e ≥ -256 then m * 2 ^ (e + 256).toNat else m >>> (-(e + 256)).toNat

/-- ⌊√n⌋, by Newton's steps from above. -/
def isqrtStep (n : Nat) : Nat → Nat → Nat
  | 0, x => x
  | k + 1, x => let y := (x + n / x) / 2; if y ≥ x then x else isqrtStep n k y
/-- ⌊√n⌋. -/
def isqrt (n : Nat) : Nat := if n = 0 then 0 else isqrtStep n (n.log2 + 8) (2 ^ (n.log2 / 2 + 1))

/-- An f32 result of an exact value below which a sticky part may lie. -/
def f32Sticky (mode : Nat) (sat fo : Bool) (x : Num) (sticky : Bool) : W32 :=
  BitVec.ofNat 32 (flushOut 0 fo (convert x 0 mode sat sticky))

/-- The result that both ends of an enclosure give; where they differ, an open value (log 10). -/
def enclosed (key : Nat) (a : W32) (mode : Nat) (sat fo : Bool) (lo hi : Num) : W32 :=
  let r := f32Of mode sat fo lo
  if r = f32Of mode sat fo hi then r else Config.hardRound (key * 64 + mode * 4 + sat.toNat * 2 + fo.toNat) a

/-- A fixed-point integer as an exact value. -/
def fixNum (x : Int) : Num := .fin (x < 0) x.natAbs (-256)

/-- 2^x. -/
def exp2 (a : W32) (mode : Nat) (sat fo : Bool) (x : Num) : W32 :=
  let out := f32Of mode sat fo
  match x with
  | .nan => out .nan
  | .inf neg => out (if neg then .zero else .inf false)
  | .fin neg m e =>
    if m = 0 then out (.fin false 1 0)
    else if gtMag m e 400 0 then out (.fin false 1 (if neg then -400 else 400))
    else
      let f : Int := if neg then -(toFix m e : Int) else toFix m e
      let n := f / (fixOne : Int)
      let r := (f % (fixOne : Int)).toNat
      if r = 0 then out (.fin false 1 n)
      else
        let v := expFix (r * ln2 / fixOne)
        enclosed 0 a mode sat fo (.fin false (v - fixErr) (n - 256)) (.fin false (v + fixErr) (n - 256))

/-- log₂ x. -/
def log2 (a : W32) (mode : Nat) (sat fo : Bool) (x : Num) : W32 :=
  let out := f32Of mode sat fo
  match x with
  | .nan => out .nan
  | .inf neg => out (if neg then .nan else .inf false)
  | .fin neg m e =>
    if m = 0 then out (.inf true)
    else if neg then out .nan
    else
      let lg := flog2 m
      let n : Int := lg + e
      if m = 2 ^ lg then out (Num.ofInt n)
      else
        let y := m * fixOne / 2 ^ lg
        let z := (y - fixOne) * fixOne / (y + fixOne)
        let v : Int := n * fixOne + (twoAtanh z * fixOne / ln2 : Nat)
        enclosed 1 a mode sat fo (fixNum (v - fixErr)) (fixNum (v + fixErr))

/-- 1/x. -/
def recip (mode : Nat) (sat fo : Bool) : Num → W32
  | .nan => f32Of mode sat fo .nan
  | .inf neg => f32Of mode sat fo (.fin neg 0 0)
  | .fin neg m e =>
    if m = 0 then f32Of mode sat fo (.inf neg)
    else f32Sticky mode sat fo (.fin neg (2 ^ 80 / m) (-80 - e)) (2 ^ 80 % m ≠ 0)

/-- √x. -/
def sqrt (mode : Nat) (sat fo : Bool) : Num → W32
  | .nan => f32Of mode sat fo .nan
  | .inf neg => f32Of mode sat fo (if neg then .nan else .inf false)
  | .fin neg m e =>
    if m = 0 then f32Of mode sat fo (.fin neg 0 0)
    else if neg then f32Of mode sat fo .nan
    else
      let g := e - e % 2 - 80
      let k := m * 2 ^ (e - g).toNat
      let r := isqrt k
      f32Sticky mode sat fo (.fin false r (g / 2)) (r * r ≠ k)

/-- 1/√x. -/
def rsqrt (mode : Nat) (sat fo : Bool) : Num → W32
  | .nan => f32Of mode sat fo .nan
  | .inf neg => f32Of mode sat fo (if neg then .nan else .zero)
  | .fin neg m e =>
    if m = 0 then f32Of mode sat fo (.inf neg)
    else if neg then f32Of mode sat fo .nan
    else
      let k := m * 2 ^ (e % 2).toNat
      let q := 2 ^ 160 / k
      let r := isqrt q
      f32Sticky mode sat fo (.fin false r (-80 - (e - e % 2) / 2)) (r * r ≠ q || 2 ^ 160 % k ≠ 0)

/-- tanh x: below 2^−13 it lies between x·(1 − 2^−27) and x; above 60 it lies between 1 − 2^−100 and 1. -/
def tanh (a : W32) (mode : Nat) (sat fo : Bool) (x : Num) : W32 :=
  let out := f32Of mode sat fo
  match x with
  | .nan => out .nan
  | .inf neg => out (.fin neg 1 0)
  | .fin neg m e =>
    if m = 0 then out (.fin neg 0 0)
    else if !gtMag m e 1 (-13) then out (.fin neg (m * 2 ^ 60 - 1) (e - 60))
    else if gtMag m e 60 0 then out (.fin neg (2 ^ 100 - 1) (-100))
    else
      let w := expNeg (2 * toFix m e)
      let v := (fixOne - w) * fixOne / (fixOne + w)
      enclosed 2 a mode sat fo (.fin neg (v - fixErr) (-256)) (.fin neg (v + fixErr) (-256))

/-- 1/(1 + e^−x): above 110 it lies between 1 − 2^−100 and 1, below −110 between 0 and 2^−158. -/
def sigmoid (a : W32) (mode : Nat) (sat fo : Bool) (x : Num) : W32 :=
  let out := f32Of mode sat fo
  match x with
  | .nan => out .nan
  | .inf neg => out (if neg then .zero else .fin false 1 0)
  | .fin neg m e =>
    if m = 0 then out (.fin false 1 (-1))
    else if gtMag m e 110 0 then out (if neg then .fin false 1 (-400) else .fin false (2 ^ 100 - 1) (-100))
    else
      let w := expNeg (toFix m e)
      let v := (if neg then w else fixOne) * fixOne / (fixOne + w)
      enclosed 3 a mode sat fo (.fin false (v - fixErr) (-256)) (.fin false (v + fixErr) (-256))

/-- A special function by its op8 (Table 9.5), on a lane flushed where `fi`. -/
def special (op : Nat) (mode : Nat) (sat fi fo : Bool) (a : W32) : W32 :=
  let x := f32 fi a
  match op with
  | 0x73 => exp2 a mode sat fo x
  | 0x74 => log2 a mode sat fo x
  | 0x75 => recip mode sat fo x
  | 0x76 => rsqrt mode sat fo x
  | 0x77 => sqrt mode sat fo x
  | 0x78 => tanh a mode sat fo x
  | _ => sigmoid a mode sat fo x

end Sys2Proof.Machine
end

