-- ==== Sys2Proof/Machine/VLanes.lean ====
section
/-!
DEFINITION. What the vector instructions compute on lanes (R164 to R174, R180, R181, R221): single lanes, lines, lists.
-/
namespace Sys2Proof.Machine

/-- The canonical f32 NaN. -/
def f32NaN : W32 := 0x7FC00000
/-- Is a lane a NaN as f32? -/
def nan32 (a : W32) : Bool := f32 false a == .nan

/-- An exact integer result as s32 (R164). -/
def s32Of (sat : Bool) (v : Int) : W32 :=
  if sat then BitVec.ofInt 32 (max (-2147483648) (min 2147483647 v)) else BitVec.ofInt 32 v

/-- The rounding, saturation and flushes of a slot on f32 lanes. -/
structure FMode where
  mode : Nat
  sat  : Bool
  fi   : Bool
  fo   : Bool
  deriving DecidableEq, Repr

/-- A lane as an exact value under a slot's input flush. -/
def FMode.inp (m : FMode) (a : W32) : Num := f32 m.fi a
/-- An exact value as a lane under a slot's rounding and output flush. -/
def FMode.out (m : FMode) (x : Num) : W32 := f32Of m.mode m.sat m.fo x

/-- The arithmetic instructions (R164). -/
inductive Arith where
  | add | sub | mul | fma | fms
  deriving DecidableEq, Repr

/-- A lane of an arithmetic instruction (R164). -/
def arith (op : Arith) (isF : Bool) (m : FMode) (a b c : W32) : W32 :=
  if isF then
    let x := m.inp a; let y := m.inp b; let z := m.inp c
    m.out (match op with
      | .add => Num.add m.mode x y
      | .sub => Num.add m.mode x y.neg
      | .mul => Num.mul x y
      | .fma => Num.add m.mode (Num.mul x y) z
      | .fms => Num.add m.mode (Num.mul x y) z.neg)
  else
    let x := a.toInt; let y := b.toInt; let z := c.toInt
    s32Of m.sat (match op with
      | .add => x + y
      | .sub => x - y
      | .mul => x * y
      | .fma => x * y + z
      | .fms => x * y - z)

/-- A lane flushed as an f32 input; a lane flushed as an f32 result. -/
def flushLane (on : Bool) (a : W32) : W32 := BitVec.ofNat 32 (flushOut 0 on a.toNat)

/-- Is `a` below `b` as f32, −0 below +0 (R165)? -/
def below32 (a b : W32) : Bool :=
  let c := Num.cmp (f32 false a) (f32 false b)
  c < 0 || (c = 0 && a.getLsbD 31 && !b.getLsbD 31)

/-- The lesser or greater of two lanes (R165). -/
def minMax (isMax isF : Bool) (m : FMode) (a b : W32) : W32 :=
  if isF then
    let a := flushLane m.fi a; let b := flushLane m.fi b
    if nan32 a || nan32 b then f32NaN
    else flushLane m.fo (if below32 a b != isMax then a else b)
  else if (a.toInt < b.toInt) != isMax then a else b

/-- VCLAMP: the lesser of `hi` and the greater of `a` and `lo` (R165). -/
def clampLane (isF : Bool) (m : FMode) (a lo hi : W32) : W32 := minMax false isF m (minMax true isF m a lo) hi

/-- VABS and VNEG (R165): `f` acts on the sign bit, `g` on the integer. -/
def signOp (f : W32 → W32) (g : Int → Int) (isF : Bool) (m : FMode) (a : W32) : W32 :=
  if isF then
    let a := flushLane m.fi a
    if nan32 a then f32NaN else flushLane m.fo (f a)
  else s32Of m.sat (g a.toInt)

/-- The shifts (R166). -/
def shiftLane (kind : Nat) (a b : W32) : W32 :=
  let n := b.toNat % 64
  match kind with
  | 0 => a <<< n
  | 1 => a >>> n
  | _ => a.sshiftRight n

/-- A condition of VCMP (Table 9.3). -/
def cmpLane (cc : Nat) (isF fi : Bool) (a b : W32) : Bool :=
  if isF then
    let x := f32 fi a; let y := f32 fi b
    let un := x == .nan || y == .nan
    let c := Num.cmp x y
    match cc with
    | 0 => !un && c = 0 | 1 => un || c ≠ 0 | 2 => !un && c < 0 | 3 => !un && c ≤ 0 | 4 => !un && c > 0
    | 5 => !un && c ≥ 0 | 10 => un | _ => !un
  else
    match cc with
    | 0 => a = b | 1 => a ≠ b | 2 => a.toInt < b.toInt | 3 => a.toInt ≤ b.toInt | 4 => a.toInt > b.toInt
    | 5 => a.toInt ≥ b.toInt | 6 => a.toNat < b.toNat | 7 => a.toNat ≤ b.toNat | 8 => a.toNat > b.toNat
    | _ => a.toNat ≥ b.toNat

/-- VCVT of a lane (R169, R170). -/
def cvtLane (src dst mode : Nat) (sat fi fo : Bool) (a : W32) : W32 :=
  let w := fmtWidth src
  let r := flushOut dst fo (convert (decodeNum src fi (a.toNat % 2 ^ w)) dst mode sat)
  match intFmt dst with
  | some true => BitVec.ofInt 32 (sext r (fmtWidth dst))
  | _ => BitVec.ofNat 32 r

/-- VFLIP of a lane of format 0, 1 or 2 (R171). -/
def flipLane (code : Nat) (a : W32) : W32 :=
  let w := fmtWidth code
  let x := a.toNat % 2 ^ w
  let top := 2 ^ (w - 1)
  BitVec.ofNat 32 (match decodeNum code false x with
    | .nan => 0
    | v => if v.isZero then top else if x ≥ top then 2 ^ w - 1 - x else x + top)

/-- VUNFLIP of a lane (R171). -/
def unflipLane (code : Nat) (a : W32) : W32 :=
  let w := fmtWidth code
  let k := a.toNat % 2 ^ w
  let top := 2 ^ (w - 1)
  let x := if k ≥ top then k - top else 2 ^ w - 1 - k
  BitVec.ofNat 32 (match decodeNum code false x, ffmt code with
    | .nan, some f => nanPat f
    | _, _ => x)

/-! ## Lines -/

/-- The exact sum of values (R174); none gives +0. -/
def sumNum (mode : Nat) : List Num → Num
  | [] => .zero
  | a :: r => r.foldl (Num.add mode) a

/-- The combination of the lanes that contribute (R174), by op code. -/
def combine (op : Nat) (isF : Bool) (m : FMode) (l : List W32) : W32 :=
  match op, isF with
  | 0, true => m.out (sumNum m.mode (l.map m.inp))
  | 0, false => s32Of m.sat ((l.map (·.toInt)).foldl (· + ·) 0)
  | 1, f => match l with
    | [] => if f then 0xFF800000 else 0x80000000
    | a :: r => r.foldl (minMax true f m) (minMax true f m a a)
  | 2, f => match l with
    | [] => if f then 0x7F800000 else 0x7FFFFFFF
    | a :: r => r.foldl (minMax false f m) (minMax false f m a a)
  | 3, _ => l.foldl (· &&& ·) 0xFFFFFFFF
  | _, _ => l.foldl (· ||| ·) 0

/-- The lane numbers of each line: rows, or columns (R156). -/
def linesOf (rows : Bool) : List (List Nat) :=
  if rows then (List.range 16).map fun r => upto (64 * r) 64
  else (List.range 64).map fun c => (List.range 16).map fun r => 64 * r + c

/-- What a lane of a line becomes in a reduction, or in a scan over the positions before (`exc`) or up to it. -/
def lineLane (scan exc : Bool) (f : List W32 → W32) (line : List (Nat × Bool × Nat × W32)) (l seg : Nat) : W32 :=
  f ((line.filter fun e => e.2.1 && e.2.2.1 = seg && (!scan || e.1 < l || (e.1 = l && !exc))).map (·.2.2.2))

/-- A reduction or scan of a block along its rows or columns (R174). -/
def axisOp (rows scan seg exc : Bool) (f : List W32 → W32) (act : List Bool) (b : Block) : Lanes :=
  let cell (l : Nat) : Nat × Bool × Nat × W32 :=
    (l, nth act l false && (!seg || nth b.valid l false), if seg then nth b.seg l 0 else 0, nth b.lanes l 0)
  let done := (linesOf rows).map fun ns =>
    let line := ns.map cell
    line.map fun e => lineLane scan exc f line e.1 e.2.2.1
  if rows then done.flatten
  else (List.range 16).flatMap fun r => done.map fun col => nth col r 0

/-! ## Lists (R180, R181) -/

/-- An entry of a top-k list: value, index, whether it is a candidate. -/
structure TopEnt where
  val  : W32
  idx  : Int
  cand : Bool
  deriving DecidableEq, Repr

/-- Does an entry stand before another (R181)? -/
def topBefore (isF : Bool) (a b : TopEnt) : Bool :=
  let c := if isF then Num.cmp (f32 false a.val) (f32 false b.val) else a.val.toInt - b.val.toInt
  c > 0 || (c = 0 && (a.idx < b.idx || (a.idx = b.idx && !a.cand && b.cand)))

/-- An entry put in its place; of two that the order leaves tied, −0 and +0 with one index, the one nearer the front of srcC stays
there (DESIGN CHOICE, log 67). -/
def topInsert (isF : Bool) (e : TopEnt) : List TopEnt → List TopEnt
  | [] => [e]
  | x :: r => if topBefore isF e x then e :: x :: r else x :: topInsert isF e r

/-- The register of a list of entries with its `k` (R180). -/
def topReg (es : List TopEnt) (k : Nat) : Lanes :=
  let pad (l : List W32) (n : Nat) := (l ++ List.replicate n 0).take n
  pad (es.map (·.val)) 64 ++ pad (es.map fun e => BitVec.ofInt 32 e.idx) 64
    ++ pad [BitVec.ofNat 32 es.length, BitVec.ofNat 32 k] (laneCount - 128)

/-- VTOPK (R181). -/
def topk (isF : Bool) (row k : Nat) (a : Lanes) (act : List Bool) (base : W32) (list : Option Lanes) : Lanes :=
  let old := match list with
    | none => []
    | some l =>
      let n := min (max (laneAt l 2 0).toInt 0) 64
      (List.range n.toNat).map fun i => { val := laneAt l 0 i, idx := (laneAt l 1 i).toInt, cand := false : TopEnt }
  let new := (List.range 64).filterMap fun c =>
    if nth act (64 * row + c) false then
      some { val := laneAt a row c, idx := (base + BitVec.ofNat 32 (64 * row + c)).toInt, cand := true : TopEnt }
    else none
  let all := (old ++ new).filter fun e => !(isF && nan32 e.val)
  topReg ((all.foldl (fun l e => topInsert isF e l) []).take k) k

/-! ## Random numbers (R221) -/

/-- `n` rounds of Philox4x32. -/
def philoxRounds : Nat → List W32 → W32 → W32 → List W32
  | 0, c, _, _ => c
  | n + 1, c, k0, k1 =>
    let c0 := nth c 0 0; let c1 := nth c 1 0; let c2 := nth c 2 0; let c3 := nth c 3 0
    let p0 := c0.toNat * 0xD2511F53; let p1 := c2.toNat * 0xCD9E8D57
    let hi (p : Nat) : W32 := BitVec.ofNat 32 (p / 2 ^ 32)
    philoxRounds n [hi p1 ^^^ c1 ^^^ k0, BitVec.ofNat 32 p1, hi p0 ^^^ c3 ^^^ k1, BitVec.ofNat 32 p0]
      (k0 + 0x9E3779B9) (k1 + 0xBB67AE85)

/-- Philox (R221). -/
def philox (c : List W32) (k0 k1 : W32) : List W32 := philoxRounds 10 c k0 k1

end Sys2Proof.Machine
end

