-- ==== Sys2Proof/Machine/Weights.lean ====
section
/-!
DEFINITION. Weight tables, image geometry and the checks of weight-streamer commands (R87 to R95), WTILE, WGATH, DARN
and PFCH (R94, R101, R113), AIRCFG and AIRQ (R100).
-/
namespace Sys2Proof.Machine

/-- N and M of an NM code (Table 5.3). -/
def nOf (nm : Nat) : Nat := if nm = 1 || nm = 3 then 2 else 1
/-- M. -/
def mOf (nm : Nat) : Nat := if nm = 0 then 1 else if nm = 3 then 8 else 4

/-- Logical elements of a row (R91). -/
def rlenOf (l : Layout) (nm : Nat) : Nat := if nm = 0 then nth l.w 0 0 else nth l.w 0 0 * mOf nm / nOf nm
/-- Bytes of a row's data. -/
def dataLen (l : Layout) : Nat := ceilDiv (nth l.w 0 0 * fmtWidth l.fmt) 8
/-- Bytes of one scale: its width, or a codebook (R91). -/
def scaleLen (l : Layout) : Nat := if l.sbase = 0 then 0 else if l.fmt = 12 then 32 else fmtWidth l.sfmt / 8
/-- Scales of a row. -/
def scaleCnt (l : Layout) (nm : Nat) : Nat := if l.sbase = 0 then 0 else ceilDiv (rlenOf l nm) (2 ^ l.sbg0)
/-- Bytes of a row's indices. -/
def indexLen (l : Layout) (nm : Nat) : Nat := if nm = 0 then 0 else ceilDiv (nth l.w 0 0) 4
/-- Bytes of a row with its scales and indices. -/
def rowLen (l : Layout) (nm : Nat) : Nat := dataLen l + scaleCnt l nm * scaleLen l + indexLen l nm

/-- The units of an image (R91): pitches, sections and size. -/
structure Image64 where
  rpitch : Nat
  spitch : Nat
  ipitch : Nat
  soff   : Nat
  ioff   : Nat
  size   : Nat
  deriving DecidableEq, Repr

/-- The geometry of an image of `rows` rows. -/
def imageOf (l : Layout) (nm rows : Nat) : Image64 :=
  let rp := ceilDiv (dataLen l) 64
  let sp := ceilDiv (scaleCnt l nm * scaleLen l) 64
  let ip := ceilDiv (indexLen l nm) 64
  let so := 1 + rows * rp
  let io := so + rows * sp
  { rpitch := rp, spitch := sp, ipitch := ip, soff := if l.sbase = 0 then 0 else so, ioff := if nm = 0 then 0 else io
    size := io + rows * ip }

/-- The header words w0 and w1 of an image (Table 5.2). -/
def imageHeader (l : Layout) (nm rows : Nat) : List Nat :=
  let g := imageOf l nm rows
  [rlenOf l nm * 2 ^ 32 + rows % 2 ^ 16 * 2 ^ 16 + (if l.sbase = 0 then 0 else l.sbg0 * 2 ^ 12) + nm * 2 ^ 10
     + (if l.sbase = 0 then 0 else l.sfmt * 2 ^ 5) + l.fmt,
   g.ipitch * 2 ^ 44 + g.ioff * 2 ^ 33 + g.spitch * 2 ^ 22 + g.soff * 2 ^ 11 + g.rpitch]

/-- The address of a dense or packed table's index table (R93). -/
def ibaseOf (l : Layout) : Nat := l.base + 64 * ceilDiv (nth l.e 1 0 * (nth l.st 1 0).toNat * fmtWidth l.fmt) 512

/-- The conditions of R87 and R93 on a record: position and whether it fails; `row0` is the tile's first row, none for a gather. Of
several that fail the first of this list is reported; a W0 above E0 is reported at W0, and a tile past E1 at W1 (both DESIGN CHOICE,
log 67). -/
def weightBad (l : Layout) (nm : Nat) (row0 : Option Nat) : Option Nat :=
  let n := nOf nm
  let fs : List (Nat × Bool) :=
    [(72, l.rag), (64, decide (l.fmt = 0 ∨ l.fmt > 12)), (408, decide (nth l.w 2 1 ≠ 1)), (420, decide (nth l.w 3 1 ≠ 1)),
     (432, decide (nth l.w 4 1 ≠ 1)), (384, decide (nth l.w 0 0 > nth l.e 0 0)),
     (396, (row0.map fun r => decide (r + nth l.w 1 0 > nth l.e 1 0)).getD false),
     (384, decide (nm ≠ 0 ∧ nth l.w 0 0 % n ≠ 0)), (128, decide (nm ≠ 0 ∧ nth l.e 0 0 % n ≠ 0)),
     (69, decide (nm ≠ 0 ∧ l.rank ≠ 2)), (256, decide (nm ≠ 0 ∧ nth l.st 1 0 ≤ 0))]
  (fs.find? (·.2)).map (·.1)

/-- The addresses of the data bytes of table row `r` from element 0 (R88, R124). -/
def rowData (l : Layout) (r : Nat) : M (List Nat) :=
  let b : Int := elemOff l [0, r, 0, 0, 0] * (fmtWidth l.fmt : Int) / 8
  (List.range (dataLen l)).mapM fun (k : Nat) => byteAddr l (b + (k : Int)) r

/-- The addresses of the scale bytes of row `r`, in the space of SBASE (R123). -/
def rowScales (l : Layout) (nm r : Nat) : M (List Nat) := do
  let as ← (List.range (scaleCnt l nm)).mapM fun (j : Nat) =>
    inSpace l.sbase (l.sbase + (j + l.sst * (r / 2 ^ l.sbg1)) * scaleLen l : Nat)
  .ok (as.flatMap fun a => upto a (scaleLen l))

/-- The addresses of the index bytes of row `r` (R93). -/
def rowIndices (l : Layout) (nm ibase r : Nat) : List Nat :=
  upto (ibase + r * 64 * ceilDiv (nth l.e 0 0) 256) (indexLen l nm)

/-- The addresses of a row with its scales and indices. -/
def rowAddrs (l : Layout) (nm ibase r : Nat) : M (List Nat) := do
  let d ← rowData l r
  let sc ← rowScales l nm r
  .ok (d ++ sc ++ rowIndices l nm ibase r)

/-- The places of addresses read for a task, and the cache entries of the global ones. -/
def readPlaces (s : State) (c n : Nat) (old : Bool) (as : List Nat) : M (List Place) :=
  as.mapM fun a => placeOf s c n a 1 0 old

/-- Cache entries that addresses use, each once. -/
def pinsOf (s : State) (c n : Nat) (as : List Nat) (ids : List Nat) : List Nat :=
  as.foldl (fun ids a =>
    if a < 2 ^ 32 then ids
    else match cacheFind (getCore s c) (getTask s c n).rcb a with
      | some e => if ids.contains e.id then ids else ids ++ [e.id]
      | none => ids) ids

/-- The rows that a command's footprint covers (R95 step 4). -/
def footRows (l : Layout) (row0 : Option Nat) : List Nat :=
  match row0 with
  | some r => upto r (nth l.w 1 0)
  | none => List.range (nth l.e 1 0)

/-- The assigned bits of a weight-streamer command by its fields (Table 5.3); record words have their own checks. -/
def weightMask (words : List Nat) : List Nat :=
  let w (i : Nat) := nth words i 0
  let op := bits (w 0) 7 0
  let heat := (op = 0x20 || op = 0x22) && bit (w 0) 50
  let all := 0xFFFFFFFFFFFFFFFF
  let m0 := 0x1B0FFFFFFFFFFF ||| (if op = 0x20 || op = 0x22 then 2 ^ 50 else 0)
  let m13 := (if op = 0x21 then 0xFFFF000000000000 else 0xFFFFF) ||| (if heat then 0xFFFFFFF00000 else 0)
  [m0] ++ List.replicate 12 all
    ++ [m13, if bits (w 0) 52 51 = 0 then 0 else all, if op = 0x23 then 0 else 0x7FF]

/-- The checks of a weight-streamer command with the record read at `addr` (R95 steps 1 to 5, R101): the pages it
pins. -/
def checkWeight (s : State) (c n addr : Nat) (words : List W64) : M (List Nat) := do
  let ws := words.map (·.toNat)
  let w (i : Nat) := nth ws i 0
  let op := bits (w 0) 7 0
  let nm := bits (w 0) 52 51
  let l := layoutOf ((words.drop 1).take 12)
  let row0 := if op = 0x21 then some (bits (w 13) 63 48) else none
  match weightBad l nm row0 with
  | some p => layoutFault 0 addr 2 p
  | none =>
    match reservedIn (weightMask ws) ws with
    | some p => checkFail 2 7 p
    | none =>
      if bits (w 0) 49 48 = 3 then checkFail 1 6 48
      if bit (w 0) 50 && bits (w 13) 47 40 = 0 then checkFail 1 6 (64 * 13 + 40)
      if op ≠ 0x21 then need (bits (w 13) 19 0 % 4 = 0) 7 (bits (w 13) 19 0)
      let pins ← (footRows l row0).foldlM (fun ids r => do
        let as ← rowAddrs l nm (w 14) r
        let _ ← readPlaces s c n false as
        .ok (pinsOf s c n as ids)) []
      if op = 0x21 && bits (w 15) 10 0 + (imageOf l nm (nth l.w 1 0)).size > 2048 then trap 6 (2 ^ 32)
      .ok pins

/-- A streamer instruction (R94, R95): the command of its fields, checked and pushed. -/
def pushWeight (op : Nat) (sig : BitVec 5) (cls nm buf heat row0 hst hbase list boff : Nat) (addr : Nat) (s : State) :
    M State := do
  let c := s.cur.core; let n := s.cur.slot
  let r ← readLayout s c n addr 0
  let l := layoutOf r
  let w0 := withSig sig (op + cls * 256 + buf * 2 ^ 48 + heat * 2 ^ 50 + nm * 2 ^ 51)
  let w13 := row0 * 2 ^ 48 + hst * 2 ^ 40 + hbase * 2 ^ 20 + list
  let words := BitVec.ofNat 64 w0 :: r ++ [w13, if nm = 0 then 0 else ibaseOf l, boff].map (BitVec.ofNat 64)
  let pins ← checkWeight s c n addr words
  .ok (pushCmd s .l .weight
    { slot := n, tag := 0, idx := 0, from_ := (c, n, 1), words := words, flm := 0, gap := 0, pins := pins })

/-- The low 20 bits of a register of L: a local address. -/
def local20 (s : State) (a : BitVec 4) : Nat := (getJ s a).toNat % 2 ^ 20

/-- WTILE. -/
def execWtile (t : Tok) (c : BitVec 4) (a : BitVec 4) (row0 : BitVec 16) (nm buf : BitVec 2) (boff : BitVec 11)
    (s : State) : Out :=
  execL (.wtile t c a row0 nm buf boff) t true (fun s =>
    pushWeight 0x21 t.sig c.toNat nm.toNat buf.toNat 0 row0.toNat 0 0 0 boff.toNat (getJ s a).toNat s) s

/-- WGATH. -/
def execWgath (t : Tok) (c : BitVec 4) (d a b : BitVec 4) (hst : BitVec 8) (nm : BitVec 2) (heat : Bool)
    (buf : BitVec 2) (boff : BitVec 11) (s : State) : Out :=
  execL (.wgath t c d a b hst nm heat buf boff) t true (fun s =>
    pushWeight 0x20 t.sig c.toNat nm.toNat buf.toNat heat.toNat 0 hst.toNat (if heat then local20 s d else 0)
      (local20 s b) boff.toNat (getJ s a).toNat s) s

/-- DARN (R113): the list is that of the check context. VALID and AEN are checked before the record is read, and w7 names SEL,
bit 24 (both DESIGN CHOICE, log 67). -/
def execDarn (t : Tok) (c : BitVec 4) (d a : BitVec 4) (sel : Bool) (hst : BitVec 8) (nm : BitVec 2) (heat : Bool)
    (buf : BitVec 2) (boff : BitVec 11) (s : State) : Out :=
  execL (.darn t c d a sel hst nm heat buf boff) t true (fun s =>
    let k := (me s).chk
    if !k.valid || (sel && !k.aen) then illegal 6 24
    else pushWeight 0x22 t.sig c.toNat nm.toNat buf.toNat heat.toNat 0 hst.toNat (if heat then local20 s d else 0)
      (if sel then k.alist else k.mlist) boff.toNat (getJ s a).toNat s) s

/-- PFCH (R101). -/
def execPfch (t : Tok) (c : BitVec 4) (a b : BitVec 4) (s : State) : Out :=
  execL (.pfch t c a b) t true (fun s =>
    pushWeight 0x23 t.sig c.toNat 0 0 0 0 0 0 (local20 s b) 0 (getJ s a).toNat s) s

/-! ## The airing store -/

/-- Is a weight-streamer command that the task itself pushed, here or by `REMQ` on another core, still there (R100)? -/
def ownWeight (s : State) (c n : Nat) : Bool :=
  s.cores.any fun k => (allCmds k.2.qw).any fun m => m.from_.1 = c && m.from_.2.1 = n

/-- A 32-bit word of a task's scratchpad, read as it stands. -/
def spm32 (s : State) (c n off : Nat) : Nat := memNat (getCore s c).spm (spmBase (getTask s c n) + off) 4

/-- The scratchpad ranges that a new airing store must not cover (R100): address and length. A queued streamer command names the
heat bytes of rows 0 to E1 − 1, whichever rows it lists (DESIGN CHOICE, log 59). -/
def namedRanges (s : State) (c n : Nat) : List (Nat × Nat) :=
  let t := getTask s c n
  let cmds := (allCmds (getCore s c).qw).filter fun m => m.slot = n
  let k := t.chk
  let h := (sampled s t).hstg.toNat
  (cmds.flatMap fun m =>
    let w13 := cmdW m 13; let l := layoutOf ((m.words.drop 1).take 12)
    (if cmdOp m = 0x21 then [] else [(bits w13 19 0, 4 * (spm32 s c n (bits w13 19 0) + 1))])
    ++ (if bit (cmdW m 0) 50 then [(bits w13 39 20, (nth l.e 1 0 - 1) * bits w13 47 40 + 1)] else []))
  ++ (if !k.valid then [] else
    let len := 4 * (k.u.length + 1)
    (k.u.map fun e => (k.hbase + e.1 * k.hst, 1)) ++ [(k.mlist, len)] ++ (if k.aen then [(k.alist, len)] else [])
      ++ if k.vfy then k.u.map fun e => (k.vbase + 8 * e.1, 8) else [])
  ++ ((List.range (bits h 63 48)).map fun i => (spm32 s c n (bits h 19 0 + 4 * i) % 2 ^ 20, 1))
  ++ (if bits h 31 20 = 0 then [] else [(bits h 19 0, 4 * bits h 31 20)])

/-- The words that finding those ranges reads: the counts of row lists and the staged entries. -/
def namedReads (s : State) (c n : Nat) : List Nat :=
  let t := getTask s c n
  let h := (sampled s t).hstg.toNat
  (((allCmds (getCore s c).qw).filter fun m => m.slot = n && cmdOp m ≠ 0x21).map fun m => bits (cmdW m 13) 19 0)
    ++ (List.range (bits h 63 48)).map fun i => bits h 19 0 + 4 * i

/-- An uncorrectable error that words of a task's scratchpad hold (R344). -/
def wordError (s : State) (c n : Nat) (l : List Nat) : Option Nat := l.findSome? fun a => readError s (.spm c n a) 4

/-- Bytes of scratchpad that become undefined (R7). -/
def scramble (s : State) (c a n : Nat) : State :=
  modCore (bump s) c fun k => { k with spm := memWrite k.spm a ((List.range n).map (Config.freeByte s.fresh)) }

/-- AIRCFG (R100): waits for the task's own streamer commands, then empties the store and sets it up. -/
def execAircfg (t : Tok) (slot : BitVec 12) (pmin : BitVec 8) (size : BitVec 5) (s : State) : Out :=
  execL (.aircfg t slot pmin size) t false (fun s =>
    let c := s.cur.core; let n := s.cur.slot
    let k := me s
    if ownWeight s c n then hold .drainWork 0
    else match (if size = 0 then none else wordError s c n (namedReads s c n)) with
    | some d => trap 0x0B d
    | none =>
      let lo := spmSize k - size.toNat * 32768
      if size ≠ 0 && (namedRanges s c n).any (fun r => overlap r.1 r.2 lo (size.toNat * 32768)) then illegal 6 0
      else
        let s := if size.toNat < k.air.size then
            scramble s c (spmBase k + spmSize k - k.air.size * 32768) ((k.air.size - size.toNat) * 32768) else s
        .ok (modMe s fun t => { t with air := { size := size.toNat, slot := slot.toNat, pmin := pmin.toNat } })) s

/-- The field NRES of the airing status word: 13 bits, which cannot hold the count of a store of 8,192 occupied slots; the
spec states no value for it there, and the field is then free (log 53). -/
def nres (s : State) (n : Nat) : Nat := if n < 2 ^ 13 then n else Config.freeNat s.fresh 0 % 2 ^ 13

/-- AIRQ (R100): the status word of Table 5.6. -/
def execAirq (t : Tok) (d a b : BitVec 4) (s : State) : Out :=
  execL (.airq t d a b) t false (fun s => do
    let c := s.cur.core; let n := s.cur.slot
    if ownWeight s c n then hold .drainWork 0
    else
      let ad := (getJ s a).toNat
      let r ← readLayout s c n ad 0
      match weightBad (layoutOf r) 0 none with
      | some p => layoutFault 0 ad 2 p
      | none =>
        let base := (r.getD 0 0).toNat
        let row := (getJ s b).toNat % 2 ^ 32
        let air := (me s).air
        let slot := air.slots.find? fun x => x.2.base = base ∧ x.2.row = row
        match slot.bind fun x => readError s (.spm c n x.2.haddr) 1 with
        | some d => trap 0x0B d
        | none =>
          let v := nres s air.slots.length * 2 ^ 32 + match slot with
            | some x => x.1 * 2 ^ 16 + memNat (getCore s c).spm (spmBase (me s) + x.2.haddr) 1 * 256 + 1
            | none => 0
          .ok (setJ (bump s) d (BitVec.ofNat 64 v))) s

end Sys2Proof.Machine
end

