-- ==== Sys2Proof/Machine/MatrixCmd.lean ====
section
/-!
DEFINITION. The matrix command (R184, R185), its checks at the push (R189, R190), and the matrix instructions of slot B
(R191 to R198).
-/
namespace Sys2Proof.Machine

/-! ## The command -/

/-- A level of the loop nest: iterations and advances (Table 10.1). -/
structure Level where
  count : Nat
  am : Int
  ak : Int
  bn : Int
  bk : Int
  cm : Int
  cn : Int
  deriving DecidableEq, Repr

/-- The fields of a matrix command (Table 10.1). -/
structure MCmd where
  rtrp : Bool
  drn  : Bool
  dfmt : Bool
  accm : Nat
  acct : Nat
  nm   : Nat
  red  : Bool
  sega : Bool
  eng  : Nat
  asel : Nat
  asrc : Nat
  bfmt : Nat
  afmt : Nat
  boff : Nat
  kb   : Nat
  n    : Nat
  m    : Nat
  lv   : List Level
  cn0  : Nat
  cm0  : Nat
  bk0  : Nat
  bn0  : Nat
  ak0  : Nat
  am0  : Nat
  deriving DecidableEq, Repr

/-- The fields of sixteen words. -/
def mcmdOf (ws : List W64) : MCmd :=
  let w (i : Nat) := (ws.getD i 0).toNat
  let lv := (List.range 6).map fun l =>
    let v := w (4 + l)
    { count := bits v 15 0 + 1, am := sext (bits v 39 28) 12, ak := sext (bits v 27 16) 12, bn := sext (bits v 63 52) 12,
      bk := sext (bits v 51 40) 12, cm := 4 * sext (bits (w 10) (10 * l + 9) (10 * l + 5)) 5,
      cn := 4 * sext (bits (w 10) (10 * l + 4) (10 * l)) 5 : Level }
  { rtrp := bit (w 0) 63, drn := bit (w 0) 62, dfmt := bit (w 0) 61, accm := bits (w 0) 60 59, acct := bits (w 0) 57 55
    nm := bits (w 0) 54 53, red := bit (w 0) 52, sega := bit (w 0) 51, eng := bits (w 0) 50 49
    asel := bits (w 1) 31 12, asrc := bits (w 1) 11 10, bfmt := bits (w 1) 9 5, afmt := bits (w 1) 4 0
    boff := bits (w 2) 10 0, kb := bits (w 3) 27 12, n := bits (w 3) 11 6 + 1, m := bits (w 3) 5 0 + 1, lv := lv
    cn0 := bits (w 11) 59 54, cm0 := bits (w 11) 53 48, bk0 := bits (w 11) 47 36, bn0 := bits (w 11) 35 24
    ak0 := bits (w 11) 23 12, am0 := bits (w 11) 11 0 }

/-- The assigned bits of a matrix command. -/
def matrixMask : List Nat :=
  [0xFFFFFFFFFFFFFFFF - 2 ^ 58 - 2 ^ 48 - 0xF00000000000, 0xFFFFFFFF, 0x7FF, 0xFFFFFFF]
  ++ List.replicate 6 0xFFFFFFFFFFFFFFFF ++ [0xFFFFFFFFFFFFFFF, 0xFFFFFFFFFFFFFFF, 0, 0, 0, 0]

/-- The passes of a command. -/
def passCount (f : MCmd) : Nat := f.lv.foldl (fun p l => p * l.count) 1

/-- Where pass `p` of the nest stands (R185). -/
structure Pass where
  am : Int
  ak : Int
  bn : Int
  bk : Int
  cm : Int
  cn : Int
  deriving DecidableEq, Repr

/-- The pass of a number, level 0 innermost. -/
def passAt (f : MCmd) (p : Nat) : Pass :=
  (f.lv.foldl (fun (a : Nat × Pass) l =>
    let i : Int := (a.1 % l.count : Nat)
    let b := a.2
    (a.1 / l.count, { am := b.am + i * l.am, ak := b.ak + i * l.ak, bn := b.bn + i * l.bn, bk := b.bk + i * l.bk,
                      cm := b.cm + i * l.cm, cn := b.cn + i * l.cn })) (p, ⟨f.am0, f.ak0, f.bn0, f.bk0, f.cm0, f.cn0⟩)).2

/-- The least and the greatest value that an index takes over the nest. -/
def nestRange (f : MCmd) (base : Nat) (adv : Level → Int) : Int × Int :=
  f.lv.foldl (fun r l =>
    let d := ((l.count : Int) - 1) * adv l
    (r.1 + min 0 d, r.2 + max 0 d)) ((base : Int), (base : Int))

/-- A count added to a position's. -/
def addAt (p : Int × Int) (k : Nat) : List ((Int × Int) × Nat) → List ((Int × Int) × Nat)
  | [] => [(p, k)]
  | e :: r => if e.1 = p then (p, e.2 + k) :: r else e :: addAt p k r

/-- How many passes stand at each tile position. -/
def passSpread (f : MCmd) : List ((Int × Int) × Nat) :=
  f.lv.foldl (fun d l =>
    if l.cm = 0 && l.cn = 0 then d.map fun e => (e.1, e.2 * l.count)
    else d.foldl (fun acc e => (List.range l.count).foldl (fun acc (i : Nat) =>
      addAt (e.1.1 + (i : Int) * l.cm, e.1.2 + (i : Int) * l.cn) e.2 acc) acc) []) [(((f.cm0 : Int), (f.cn0 : Int)), 1)]

/-- The largest number of passes that reach one tile element (R189). -/
def passDepth (f : MCmd) : Nat :=
  let d := passSpread f
  (List.range 4096).foldl (fun (h : Nat) (e : Nat) =>
    let row : Int := (e / 64 : Nat); let col : Int := (e % 64 : Nat)
    let k := d.foldl (fun k p =>
      if p.1.1 ≤ row && row < p.1.1 + f.m && p.1.2 ≤ col && col < p.1.2 + f.n then k + p.2 else k) 0
    max h k) 0

/-! ## Checks at the push -/

/-- Is a format code an integer format (Table 3.1)? -/
def isIntFmt (c : Nat) : Bool := 7 ≤ c && c ≤ 11

/-- The largest magnitude of an integer format (R66). -/
def fmtLimit (c : Nat) : Nat :=
  match c with
  | 7 => 128 | 8 => 255 | 9 => 8 | 10 => 15 | _ => 2

/-- The value conditions of R190 step 2, with R186 and R188, in their order: position and whether it fails. -/
def matrixBad (s : State) (c : Nat) (f : MCmd) : List (Nat × Bool) :=
  let lane := f.asrc = 0 || f.asrc = 2
  let am := nestRange f f.am0 (·.am); let ak := nestRange f f.ak0 (·.ak)
  let bn := nestRange f f.bn0 (·.bn); let bk := nestRange f f.bk0 (·.bk)
  let cm := nestRange f f.cm0 (·.cm); let cn := nestRange f f.cn0 (·.cn)
  let e0 := engUsable s c 0; let e1 := engUsable s c 1
  [(59, decide (f.accm = 3)), (49, decide (f.eng = 3)), (74, decide (f.asrc = 3)),
   (64, decide (f.afmt = 0 ∨ f.afmt > 12)), (69, decide (f.bfmt = 0 ∨ f.bfmt > 12)),
   (59, decide (f.accm = 2) && !(isIntFmt f.afmt && isIntFmt f.bfmt)), (62, f.drn && f.accm ≠ 2), (61, f.dfmt && !f.drn),
   (204, decide (f.kb = 0)), (52, f.red && f.eng ≠ 0), (52, f.red && !(e0 && e1)),
   (49, (decide (f.eng = 1) && !e0) || (decide (f.eng = 2) && !e1)), (192, lane && f.m > 16)]
  ++ (f.lv.zipIdx.map fun l => (64 * (4 + l.2) + 28, lane && l.1.am ≠ 0))
  ++ (f.lv.zipIdx.map fun l => (64 * (4 + l.2) + 16, decide (f.asrc = 0) && l.1.ak ≠ 0))
  ++ [(704, lane && f.am0 ≠ 0), (716, decide (f.asrc = 0) && f.ak0 ≠ 0), (64, lane && f.afmt = 12),
      (51, f.sega && f.asrc ≠ 0),
      (752, decide (cm.1 < 0 ∨ cm.2 + f.m > 64)), (758, decide (cn.1 < 0 ∨ cn.2 + f.n > 64)),
      (704, decide (am.1 < 0)), (716, decide (ak.1 < 0)), (728, decide (bn.1 < 0)), (740, decide (bk.1 < 0))]

/-- The K positions and rows of A that the nest takes: least and past the greatest. -/
def aBox (f : MCmd) : Nat × Nat × Nat × Nat :=
  let am := nestRange f f.am0 (·.am); let ak := nestRange f f.ak0 (·.ak)
  (32 * ak.1.toNat, 32 * (ak.2.toNat + f.kb), am.1.toNat, am.2.toNat + f.m)

/-- The tensor indices that the passes read from a record, each pass's rows in order (R186). -/
def aIndices (f : MCmd) : List (List Nat) :=
  (((List.range (passCount f)).map fun p =>
    let x := passAt f p
    (x.am.toNat, x.ak.toNat)).eraseDups).flatMap fun a =>
      (upto a.1 f.m).flatMap fun m => (upto (32 * a.2) (32 * f.kb)).map fun k => [k, m, 0, 0, 0]

/-- The first in window order of the tensor indices that the passes read outside the extents (R125): least row, then least K
position. -/
def firstOut (l : Layout) (is : List (List Nat)) : Option (List Nat) :=
  (is.filter fun i => posAt l {} i != .inside).foldl (fun b i => match b with
    | none => some i
    | some j => if nth i 1 0 < nth j 1 0 || (nth i 1 0 = nth j 1 0 && nth i 0 0 < nth j 0 0) then some i else some j) none

/-- The record of A, checked (R190 step 4). -/
def checkARecord (s : State) (c n : Nat) (f : MCmd) : M (List W64) := do
  let r ← readLayout s c n f.asel 0
  let l := layoutOf r
  if l.rag then layoutFault 0 f.asel 2 72
  else if l.base ≥ 2 ^ 20 then layoutFault 0 f.asel 6 0
  else if l.sbase ≥ 2 ^ 20 then layoutFault 0 f.asel 6 512
  else if l.fmt ≠ f.afmt then layoutFault 0 f.asel 2 64
  else
    checkPositions l 0 f.asel ((firstOut l (aIndices f)).toList.map (posAt l {}))
    let _ ← footprint s c n l false ((aIndices f).filterMap (readIdx l {})) ((aIndices f).filterMap (fillBook l {}))
    if f.accm = 2 && l.sbase ≠ 0 then layoutFault 0 f.asel 2 512
    .ok r

/-- The number of products that enter one element (R189). -/
def productCount (f : MCmd) : Nat := 32 * f.kb * passDepth f

/-- Does a residue command fail the static range test (R66)? -/
def rangeFails (f : MCmd) : Bool :=
  f.accm = 2 && productCount f * fmtLimit f.afmt * fmtLimit f.bfmt ≥ residueM / 2

/-- The checks of a matrix command (R190 steps 1 to 5), for a task: the command. -/
def checkMatrix (s : State) (c n : Nat) (words : List W64) : M Cmd := do
  let ws := words.map (·.toNat)
  let t := getTask s c n
  if bits (nth ws 0 0) 7 0 ≠ 1 then checkFail 1 0 0
  match reservedIn matrixMask ws with
  | some p => checkFail 2 7 p
  | none => .ok ()
  let f := mcmdOf words
  match (matrixBad s c f).find? (·.2) with
  | some b => checkFail 1 6 b.1
  | none => .ok ()
  checkTokens t (nth ws 0 0)
  if f.acct ≥ t.tt.nz then checkFail 1 1 55
  let b := aBox f
  if f.asrc = 0 && f.asel % 8 ≥ t.tt.ni then checkFail 1 1 76
  if f.asrc = 2 && f.asel % 16 + (b.2.1 - 1) / 64 ≥ t.tt.nv then checkFail 1 1 76
  if f.asrc = 0 && f.accm = 2 then
    match (nth t.ins (f.asel % 8) {}).bind with
    | some b => if (layoutOf b.lrec).sbase ≠ 0 then layoutFault 0 b.addr 2 512
    | none => .ok ()
  let r ← if f.asrc = 1 then checkARecord s c n f else .ok []
  if rangeFails f && f.rtrp then trap 0x13 (productCount f)
  .ok { slot := n, tag := 0, idx := 0, from_ := (c, n, 2), words := words, flm := 0, gap := 0, lrec := r }

/-- The sticky range flag of a task after a command has entered its queue (R66). -/
def noteRange (s : State) (c n : Nat) (f : MCmd) : State :=
  if rangeFails f then modTask s c n fun t => { t with sys := { t.sys with numfl := 1 }, rngAt := some s.cycle } else s

/-! ## MGO and the configuration registers -/

/-- A failed check of a command that slot B pushes names the slot (R37). -/
def inSlotB {α : Type} (m : M α) : M α :=
  match m with
  | .error (.trap c d) => .error (.trap c (if c = 1 || c = 2 then d + 256 else d))
  | m => m

/-- The vector registers that a command takes as A, read as a slot reads its sources (R186); by ⌊k/64⌋. -/
def readARegs (s : State) (f : MCmd) : State × List Lanes :=
  let b := aBox f
  (List.range ((b.2.1 - 1) / 64 + 1)).foldl (fun st j =>
    if j < b.1 / 64 then (st.1, st.2 ++ [[]])
    else
      let (s, l) := readV st.1 (f.asel % 16 + j)
      (s, st.2 ++ [l])) (s, [])

/-- The numbers of those registers. -/
def aRegs (f : MCmd) : List Nat :=
  let b := aBox f
  ((List.range ((b.2.1 - 1) / 64 + 1)).filter fun j => j ≥ b.1 / 64).map fun j => f.asel % 16 + j

/-- Every write of a command's tile that has issued lands before the command reads it (R196). -/
def landTile (s : State) (z : Nat) : State :=
  let s := (List.range (xOf' s).ops.length).foldl (fun s k => if ((xOf' s).ops[k]?.map (·.item)) == some (.z z) then landOne s k else s) s
  modX s fun x => { x with ops := x.ops.map fun o => if o.item = .z z then { o with marked := true } else o }

/-- MGO (R190, R195): the configuration registers, with the word's signal, become a command. -/
def execMgo (x : Slot) (s : State) : Out :=
  execX (.mgo x) (fun s => do
    let c := s.cur.core; let n := s.cur.slot
    let cfg := (xOf' s).cfg
    let sig : BitVec 5 := ((thisXWord s).map fun w => w.tok.sig).getD 0
    let words := cfg.set 0 (BitVec.ofNat 64 (withSig sig (nth cfg 0 0).toNat))
    let f := mcmdOf words
    let m ← inSlotB (checkMatrix s c n words)
    if !queueRoom s c .matrix then hold .queueFull 0
    else
      sramReady s (if f.asrc = 2 then (aRegs f).map .v else [])
      let (s, vs) := if f.asrc = 2 then readARegs s f else (s, [])
      .ok (pushCmd (noteRange (landTile s f.acct) c n f) .x .matrix { m with vregs := vs })) s

/-- MLDC (R193). -/
def execMldc (x : Slot) (s : State) : Out :=
  execX (.mldc x) (fun s => do
    let a := x.imm.toNat % 2 ^ 13 * 128
    let p ← inAllot s s.cur.core s.cur.slot a 128 a
    match readError s p 128 with
    | some d => trap 0x0B d
    | none =>
      let bs := bytesAt s p 128
      .ok (modX s fun k => { k with cfg := (List.range 16).map fun i => BitVec.ofNat 64 (ofLe ((bs.drop (8 * i)).take 8)) })) s

/-- The configuration registers with what a selector names replaced (Table 10.3). -/
def setConfig (cfg : List W64) (sel : Nat) (v : W64) : List W64 :=
  let put (w h l : Nat) : List W64 := setNth 0 cfg w (BitVec.ofNat 64 (putBits (nth cfg w 0).toNat h l v.toNat))
  if sel < 16 then setNth 0 cfg sel v
  else match sel with
    | 0x10 => put 0 63 48
    | 0x11 => put 0 43 28
    | 0x12 => put 0 27 12
    | 0x13 => put 0 11 8
    | 0x14 => put 3 27 12
    | 0x15 => put 2 10 0
    | _ => cfg

/-- MSETF (R194). -/
def execMsetf (sel : BitVec 8) (v : W64) (s : State) : Out :=
  execX (.msetf sel v) (fun s => .ok (modX s fun k => { k with cfg := setConfig k.cfg sel.toNat v })) s

/-! ## Tiles -/

/-- The commands of the task on a tile, queued or running (R196): those that a peer's `REMQ` pushed too (DESIGN CHOICE, log 67). -/
def onTile (s : State) (z : Nat) : List Cmd :=
  (allCmds (myCore s).qm).filter fun m => m.slot = s.cur.slot && (mcmdOf m.words).acct = z

/-- A hold until no command is on the tile. -/
def awaitTile (s : State) (z : Nat) : M Unit := if (onTile s z).isEmpty then .ok () else hold .tile z

/-- Row block `q` of a tile as it stands (R182). -/
def rowBlock (x : XCtx) (z q : Nat) : Lanes := ((nth x.z z []).drop (1024 * q)).take 1024

/-- A row block read; before the bound of a write of it its lanes are undefined (R34). -/
def readZ (s : State) (z q : Nat) : State × Lanes :=
  let x := xOf' s
  let live := x.ops.any fun o => o.item = .z z && o.issued < x.count && !o.passed x.count
    && !(o.landed && (o.marked || o.pre || x.inter)) && ((o.val.drop (1024 * q)).take 1024).any (·.isSome)
  if live then (bump s, (List.range laneCount).map (Config.freeLane s.fresh)) else (s, rowBlock x z q)

/-- VRDACC (R196). -/
def execVrdacc (x : Slot) (s : State) : Out :=
  execX (.vrdacc x) (fun s => do
    let im := x.imm.toNat
    awaitTile s (im % 8)
    let (s, act) := readP s x.pred.toNat
    let (s, l) := readZ s (im % 8) (bits im 4 3)
    .ok (writeDst s x 8 act l)) s

/-- Does a nest restore an element's start bits: passes reached its row, and each found it wholly invalid (R188)? -/
def restored (f : MCmd) (x : MxRun) (i : Nat) : Bool := f.sega && nth x.seen i false && !nth x.okr (i / 64) false
/-- Does the drain of a nest write an element (R185)? -/
def drains (f : MCmd) (x : MxRun) (i : Nat) : Bool := f.drn && nth x.seen i false && !restored f x i

/-- What a peek sees of a tile's row block: the lanes and their bits (R197). From the end of a residue command's nest to its
retirement its drain may be yet to come, in progress or over, as a free choice says: a lane is 0 or its residue bits with a
false bit, or its drained value with a true one. -/
def peekTile (s : State) (z q : Nat) : State × Lanes × List Bool :=
  let cmds := onTile s z
  let runs := (myCore s).qm.running.filterMap fun r => if cmds.contains r.cmd then r.mx.map fun x => (mcmdOf r.cmd.words, x) else none
  let all (b : Bool) : List Bool := List.replicate laneCount b
  if cmds.any fun m => (mcmdOf m.words).accm = 2 then
    match runs.find? fun r => r.1.accm = 2 && r.1.drn && r.2.ended with
    | none => (s, splat 0, all false)
    | some (f, x) =>
      let part (t : Lanes) : Lanes := (t.drop (1024 * q)).take 1024
      let before := part (x.hist.headD []); let now := part x.drained
      let kind (l : Nat) : Nat := Config.freeNat s.fresh l % (if drains f x (1024 * q + l) then 3 else 2)
      (bump s, (List.range laneCount).map fun l => if kind l = 0 then 0 else nth (if kind l = 1 then before else now) l 0,
        (List.range laneCount).map fun l => kind l = 2)
  else
    let (s, now) := readZ s z q
    match runs with
    | [] => (s, now, all true)
    | (_, r) :: _ =>
      let seen := (r.start :: r.hist).map fun t => (t.drop (1024 * q)).take 1024
      (bump s, (List.range laneCount).map fun l =>
        nth (nth seen (Config.freeNat s.fresh l % seen.length) []) l 0, all true)

/-- VRDACC.peek (R197). -/
def execVrdaccPeek (x : Slot) (s : State) : Out :=
  execX (.vrdaccPeek x) (fun s =>
    let im := x.imm.toNat
    let (s, act) := readP s x.pred.toNat
    let (s, l, ok) := peekTile s (im % 8) (bits im 4 3)
    let s := writeDst s x 8 act l
    .ok (if bits im 8 6 = 0 then s else writeP s (bits im 8 6) 8 ((act.zip ok).map fun b => b.1 && b.2))) s

/-- VWRACC (R196). -/
def execVwracc (x : Slot) (s : State) : Out :=
  execX (.vwracc x) (fun s => do
    let im := x.imm.toNat
    awaitTile s (im % 8)
    let (s, a) := source s x 0 x.srcA
    let (s, act) := readP s x.pred.toNat
    let q := bits im 4 3
    let val := List.replicate (1024 * q) none ++ ((act.zip a.lanes).map fun e => if e.1 then some e.2 else none)
      ++ List.replicate (1024 * (3 - q)) none
    .ok (post s (.z (im % 8)) 4 val)) s

/-- MCLR (R196). -/
def execMclr (x : Slot) (s : State) : Out :=
  execX (.mclr x) (fun s => do
    let z := x.imm.toNat % 8
    awaitTile s z
    .ok (post s (.z z) 4 (List.replicate 4096 (some 0)))) s

/-- MQRY (R198). -/
def execMqry (x : Slot) (s : State) : Out :=
  execX (.mqry x) (fun s =>
    let (s, act) := readP s x.pred.toNat
    let t := me s
    let mine := (allCmds (myCore s).qm).filter fun m => m.slot = s.cur.slot
    let tiles := (List.range 8).foldl (fun v z => if (onTile s z).isEmpty then v else v + 2 ^ z) 0
    let vs := [mine.length, nth t.cmdIdx 0 0, t.lastIdx, tiles, t.lastEng, (myCore s).active]
    .ok (writeDst s x 4 act (vs.map (BitVec.ofNat 32) ++ List.replicate (laneCount - 6) 0))) s

end Sys2Proof.Machine
end

