-- ==== Sys2Proof/Machine/SStream.lean ====
section
/-!
DEFINITION. The S stream (R205 to R215): BINDO, DRAIN, DRAINX and the block a drain writes, SLOOP, SADDI, SLI, STK, SLD,
RGAPND, RGCMT, RGUPK and SEND.
-/
namespace Sys2Proof.Machine

/-- BINDO (R206). -/
def execBindo (t : Tok) (o : BitVec 2) (a : BitVec 3) (s : State) : Out :=
  execS (.bindo t o a) t (fun s => do
    let v := (getY s a).toNat
    if bits v 4 1 ≠ 0 then checkFail 2 7 (1 + lowBit (bits v 4 1) 4)
    let ad := bits v 19 5 * 32
    let app := bit v 0
    let r ← readLayout s s.cur.core s.cur.slot ad 0
    let l := layoutOf r
    if l.sbase ≠ 0 then layoutFault 0 ad 2 512
    if l.fmt = 12 || l.fmt = 15 then layoutFault 0 ad 2 64
    if app && !l.rag then layoutFault 0 ad 2 72
    let b : OutBind := { addr := ad, lrec := r, app := app, cursor := 0, flm := (sampled s (me s)).flm }
    .ok (modMe s fun t => { t with outs := setNth {} t.outs o.toNat { (nth t.outs o.toNat {}) with bind := some b } })) s

/-! ## Blocks of an out-stream -/

/-- The number of the block that covers a window position (R207). -/
def blockNo (l : Layout) (w : List Nat) : Nat :=
  let x (d : Nat) := nth w d 0; let e (d : Nat) := nth l.w d 1
  x 0 / 64 + ceilDiv (e 0) 64 * (x 1 / 16 + ceilDiv (e 1) 16 * (x 2 + e 2 * (x 3 + e 3 * x 4)))

/-- NB, the blocks of a binding's window. -/
def blockCnt (l : Layout) : Nat :=
  ceilDiv (nth l.w 0 1) 64 * ceilDiv (nth l.w 1 1) 16 * nth l.w 2 1 * nth l.w 3 1 * nth l.w 4 1

/-- The window position of a lane of block `c`, or none (R207). -/
def blockPos (l : Layout) (c lane : Nat) : Option (List Nat) :=
  let e (d : Nat) := nth l.w d 1
  let b0 := ceilDiv (e 0) 64; let b1 := ceilDiv (e 1) 16
  let w0 := 64 * (c % b0) + lane % 64; let w1 := 16 * (c / b0 % b1) + lane / 64
  let r := c / b0 / b1
  if w0 ≥ e 0 || w1 ≥ e 1 then none else some [w0, w1, r % e 2, r / e 2 % e 3, r / e 2 / e 3]

/-- The tensor index of a window position of an out-stream: with APP, the row counts from the tentative end (R207). -/
def outIdx (l : Layout) (sn : Snap) (app : Bool) (w : List Nat) : List Nat :=
  if app then w.set l.rdim (nth w l.rdim 0 + (segOf sn (nth w l.sdim 0)).tlen) else w

/-- Where a window position of an out-stream lies (R125, R127, R207). -/
def outPosAt (l : Layout) (sn : Snap) (app : Bool) (w : List Nat) : PosAt :=
  if !app then posAt l sn w
  else
    let i := outIdx l sn app w
    match (List.range 5).find? fun d => nth i d 0 ≥ nth l.e d 1 with
    | some d => .out d
    | none =>
      let g := segOf sn (nth w l.sdim 0)
      if nth w l.rdim 0 ≥ g.cap - g.tlen then .edge (nth w l.sdim 0) (nth w l.rdim 0) else .inside

/-- The window positions of `n` blocks from the cursor, in window order (R208 item 2). -/
def drainPositions (l : Layout) (cursor n : Nat) : List (List Nat) :=
  let nb := blockCnt l
  let cs := (List.range (min n nb)).map fun j => (cursor + j) % nb
  (boxOf l.w).filter fun w => cs.contains (blockNo l w)

/-- S holds inside a drain until its last block is written. -/
def startDrain (s : State) (d : Drain) : State :=
  let s := pin s s.cur.core d.pins
  modCtl (modMe s fun t => { t with drain := some d }) .s fun c =>
    { c with st := .busy .drainWork d.o, hold := some (.drainWork, d.o), held := 0 }

/-- DRAIN (R208): the checks at issue; its blocks are written one at a time. -/
def execDrain (t : Tok) (o : BitVec 2) (n : BitVec 9) (s : State) : Out :=
  execS (.drain t o n) t (fun s => do
    let c := s.cur.core; let k := s.cur.slot
    match (nth (me s).outs o.toNat {}).bind with
    | none => illegal 6 15
    | some b =>
      let l := layoutOf b.lrec
      let (s, sn) ← snapshot s c k l 0 b.addr (coveredSegs l [0, 0, 0, 0, 0] true)
      let ws := drainPositions l b.cursor n.toNat
      checkPositions l 0 b.addr (ws.map (outPosAt l sn b.app))
      let is := (ws.filter fun w => outPosAt l sn b.app w == .inside).map fun w => substIdx l sn (outIdx l sn b.app w)
      let pins ← footprint s c k l true is
      .ok (startDrain s { o := o.toNat, left := n.toNat, snap := sn, pins := pins })) s

/-- DRAINX (R209): rows go where the list says. -/
def execDrainx (t : Tok) (o : BitVec 2) (b : BitVec 3) (n : BitVec 9) (s : State) : Out :=
  execS (.drainx t o b n) t (fun s => do
    let c := s.cur.core; let k := s.cur.slot
    match (nth (me s).outs o.toNat {}).bind with
    | none => illegal 6 15
    | some b' =>
      let l := layoutOf b'.lrec
      if l.rag || nth l.w 0 0 > 64 then illegal 6 15
      let a := (getY s b).toNat % 2 ^ 20
      need (a % 4 = 0) 7 a
      let rd (a : Nat) : M Nat := do
        let p ← inAllot s c k a 4 a
        let (_, bs) ← readAt s (c, k) p 4
        .ok (ofLe bs)
      let cnt ← rd a
      let rows ← (List.range (min cnt (16 * n.toNat))).mapM fun i => rd (a + 4 + 4 * i)
      match findIx (fun r => r ≥ nth l.e 1 0) rows with
      | some i => trap 6 i
      | none =>
        let is := rows.eraseDups.flatMap fun r => (List.range (nth l.w 0 0)).map fun x => [x, r, 0, 0, 0]
        checkPositions l 0 b'.addr (is.map (posAt l {}))
        let pins ← footprint s c k l true (is.filter fun i => posAt l {} i == .inside)
        .ok (startDrain s { o := o.toNat, left := n.toNat, list := some rows, pins := pins })) s

/-- The pattern a drain writes for a lane (R58, R61, R208). -/
def outPattern (fmt flm : Nat) (v : W32) : Nat :=
  let x := if (intFmt fmt).isSome then Num.ofInt v.toInt else f32 (flmBit flm 0 false) v
  flushOut fmt (flmBit flm fmt true) (convert x fmt 0 true)

/-- Where a lane of the drain's next block goes: a substituted index, or none where it is dropped. -/
def laneTarget (l : Layout) (b : OutBind) (d : Drain) (lane : Nat) : Option (List Nat) :=
  match d.list with
  | some rows =>
    match rows[16 * d.done + lane / 64]? with
    | some r =>
      let i := [lane % 64, r, 0, 0, 0]
      if lane % 64 < nth l.w 0 0 && posAt l d.snap i == .inside then some i else none
    | none => none
  | none =>
    match blockPos l b.cursor lane with
    | some w => if outPosAt l d.snap b.app w == .inside then some (substIdx l d.snap (outIdx l d.snap b.app w)) else none
    | none => none

/-- The lanes of a block written in turn, until one cannot be: the places written, with their addresses, and its fault. -/
def writeLanes (c n : Nat) (l : Layout) (flm : Nat) (blk : Block) :
    List (Nat × List Nat) → State → List (Place × Nat) → M (State × List (Place × Nat) × Option (Nat × Nat))
  | [], s, ps => .ok (s, ps, none)
  | x :: xs, s, ps => match elemCells s c n l x.2 1 true with
    | .ok qs => writeLanes c n l flm blk xs (storeElem s l x.2 (qs.map (·.1)) (outPattern l.fmt flm (nth blk.lanes x.1 0))) (ps ++ qs)
    | .error (.trap cause d) => .ok (s, ps, some (cause, d))
    | .error e => .error e

/-- One block of a drain written through its binding (R208, R209): where a write fails, those before it stay. -/
def drainWrite (s : State) (c n : Nat) (b : OutBind) (d : Drain) (blk : Block) : M (State × Option (Nat × Nat)) := do
  let l := layoutOf b.lrec
  let targets := (List.range 1024).filterMap fun k =>
    if nth blk.valid k false then (laneTarget l b d k).map fun i => (k, i) else none
  let (s, ps, f) ← writeLanes c n l b.flm.toNat blk targets s []
  let s ← endStores s (c, n) 3 0 ps
  .ok (s, f)

/-! ## The other S instructions -/

/-- SLOOP (R211, R244). -/
def execSloop (t : Tok) (c : BitVec 2) (a : BitVec 3) (e : BitVec 12) (s : State) : Out :=
  execS (.sloop t c a e) t (fun s => startLoop .s c.toNat ((getY s a).toNat % 2 ^ 32) e.toNat 15 0 s) s
/-- SADDI. -/
def execSaddi (t : Tok) (d a : BitVec 3) (i : BitVec 11) (s : State) : Out :=
  execS (.saddi t d a i) t (fun s => .ok (setY s d (getY s a + i.signExtend 64))) s
/-- SLI: the immediate times 64. -/
def execSli (t : Tok) (d : BitVec 3) (i : BitVec 14) (s : State) : Out :=
  execS (.sli t d i) t (fun s => .ok (setY s d (i.zeroExtend 64 * 64))) s
/-- STK: the count of a token queue at the end of the previous cycle. -/
def execStk (t : Tok) (d : BitVec 3) (q : BitVec 4) (s : State) : Out :=
  execS (.stk t d q) t (fun s => .ok (setY s d (BitVec.ofNat 64 (tokCount (me s) q.toNat)))) s
/-- SLD (R212). -/
def execSld (t : Tok) (d a : BitVec 3) (i : BitVec 11) (s : State) : Out :=
  execS (.sld t d a i) t (fun s => do
    let c := s.cur.core; let n := s.cur.slot
    let ad := (getY s a + i.zeroExtend 64 * 8).toNat
    if ad ≥ 2 ^ 20 then trap 6 ad
    need (ad % 8 = 0) 7 ad
    let p ← inAllot s c n ad 8 ad
    let (s, bs) ← readAt s (c, n) p 8
    .ok (setY s d (BitVec.ofNat 64 (ofLe bs)))) s

/-- The kinds of ragged update. -/
inductive Ragged where
  | append | commit | unpick
  deriving DecidableEq, Repr

/-- The entry after a ragged update, or the value that passes its limit (R214). -/
def raggedEntry (op : Ragged) (g : SegEnt) (n : Nat) : Except Nat SegEnt :=
  match op with
  | .append => if g.tlen + n > g.cap then .error (g.tlen + n) else .ok { g with tlen := g.tlen + n }
  | .commit => if g.clen + n > g.tlen then .error (g.clen + n) else .ok { g with clen := g.clen + n }
  | .unpick => if n < g.clen || n > g.tlen then .error n else .ok { g with tlen := n }

/-- RGAPND, RGCMT and RGUPK (R213 to R215): the checks and the write of the entry word. S then holds until the header word and
the record word are written too. -/
def ragged (op : Ragged) (a b c : BitVec 3) (s : State) : M State := do
  let core := s.cur.core; let k := s.cur.slot
  let ad := (getY s a).toNat % 2 ^ 20
  let i := (getY s b).toNat % 2 ^ 24
  let n := (getY s c).toNat % 2 ^ 24
  let r ← readLayout s core k ad 0
  let l := layoutOf r
  if !l.rag then layoutFault 0 ad 2 72
  let (s, ro) ← readHeader s core k l 0 ad
  if ro then layoutFault 2 0xFFFFFFFF 7 64
  if i ≥ l.nseg then illegal 6 11
  let (s, w0, w1) ← readPair s core k (l.btab + 16 + 16 * i)
  let g := segOfWords w0 w1
  match segBad l g with
  | some b => layoutFault 2 i 5 b
  | none => .ok ()
  match raggedEntry op g n with
  | .error v => trap 4 (i % 2 ^ 32 + v % 2 ^ 20 * 2 ^ 32)
  | .ok g =>
    let pe ← placeOf s core k (l.btab + 24 + 16 * i) 8 2
    let ph ← placeOf s core k l.btab 8 2
    let pr ← inAllot s core k (ad + 88) 8 (ad + 88)
    let s ← writeAt s (core, k) pe (l.btab + 24 + 16 * i) (leBytes 8 (g.tlen * 2 ^ 32 + g.clen))
    .ok (modCtl (modMe s fun t => { t with rag := some { ad := ad, btab := l.btab, gen := l.gen, head := ph, last := pr } }) .s fun c =>
      { c with st := .busy .drainWork 0, hold := some (.drainWork, 0), held := 0 })

/-- The cached words of a table whose GEN advances (R130): each holds what its word holds then. -/
def advanceCache (s : State) (r : Ragging) (gen : Nat) : State :=
  let core := s.cur.core; let k := s.cur.slot
  modCore s core fun x => { x with
    btcache := x.btcache.filterMap fun e =>
      if e.slot = k ∧ e.btab = r.btab ∧ e.gen = r.gen then
        match placeOf s core k (r.btab + e.off) 8 0 with
        | .ok p => some { e with gen := gen, val := BitVec.ofNat 64 (ofLe (bytesAt s p 8)) }
        | .error _ => none
      else some e }

/-- The next write of a ragged instruction (R215): the header's GEN advances, each write an atomic one at the home of its word;
then record word w11 takes that GEN, and S goes on once what it wrote in another module is acknowledged (R219). -/
def ragStep (s : State) : State :=
  match (me s).rag with
  | none => s
  | some r =>
    let who := (s.cur.core, s.cur.slot)
    match r.done with
    | none =>
      let h := ofLe (bytesAt s r.head 8)
      let gen := (bits h 15 0 + 1) % 2 ^ 16
      (match writeAt s who r.head r.btab (leBytes 8 (putBits h 15 0 gen)) with
        | .ok s => advanceCache (modMe s fun t => { t with rag := some { r with done := some gen } }) r gen
        | .error _ => s)
    | some gen =>
      if linkWaits s who.1 who.2 3 0 then s
      else match writeAt s who r.last (r.ad + 88) (leBytes 8 gen) with
      | .ok s => retire .s (modMe s fun t => { t with rag := none })
      | .error _ => s

/-- RGAPND. -/
def execRgapnd (t : Tok) (a b c : BitVec 3) (s : State) : Out := execS (.rgapnd t a b c) t (ragged .append a b c) s
/-- RGCMT. -/
def execRgcmt (t : Tok) (a b c : BitVec 3) (s : State) : Out := execS (.rgcmt t a b c) t (ragged .commit a b c) s
/-- RGUPK. -/
def execRgupk (t : Tok) (a b c : BitVec 3) (s : State) : Out := execS (.rgupk t a b c) t (ragged .unpick a b c) s

/-- SEND (R44). -/
def execSend (t : Tok) (s : State) : Out :=
  execS (.send t) t (fun s => .ok (modCtl s .s fun c => { c with st := .ending })) s

end Sys2Proof.Machine
end

