-- ==== Sys2Proof/Machine/EvStream.lean ====
section
/-!
DEFINITION. Events of streams, X, lock bits and remote accesses: in-stream runs and blocks (R150 to R155), drain blocks
(R208), landing and signals of X (R18, R246), lock grants (R146), and the arrival of what another core sent (R138, R256,
R309).
-/
namespace Sys2Proof.Machine

/-- The state with the cursor on a task's context. -/
def at_ (s : State) (c n : Nat) (handler : Bool := false) : State :=
  { s with cur := { core := c, slot := n, handler := handler } }

/-- A word that was busy completes, or stops. -/
def complete (q : Seq) (s : State) : M State → State
  | .ok t => finish q t
  | .error e => stopWord s q e

/-- A fault of a task that no word waits on: it becomes pending with SEQ 6 (R272). -/
def pendFault (s : State) (c n cause detail : Nat) : State :=
  modTask s c n fun t => addFault t { cause := cause, detail := BitVec.ofNat 64 detail, seq := 6, cycle := s.cycle }

/-! ## In-streams -/

/-- An in-stream of a task. -/
def inStream (s : State) (c k n : Nat) : InStream := nth (getTask s c k).ins n {}
/-- That stream changed. -/
def modIn (s : State) (c k n : Nat) (f : InStream → InStream) : State :=
  modTask s c k fun t => { t with ins := setNth {} t.ins n (f (nth t.ins n {})) }

/-- IN_STREAM_RUN (R150): the first queued run becomes active. -/
def execInStreamRun (c k n : Nat) (s : State) : Out :=
  match (inStream s c k n).runs with
  | r :: rs => .next (modIn s c k n fun i => { i with runs := { r with active := true } :: rs })
  | [] => .next s

/-- The blocks of a run along dimensions 0 and 1 (R153). -/
def runGrid (l : Layout) (xp : Bool) : Nat × Nat :=
  if xp then (ceilDiv (nth l.w 0 1) 16, ceilDiv (nth l.w 1 1) 64) else (ceilDiv (nth l.w 0 1) 64, ceilDiv (nth l.w 1 1) 16)

/-- The number of blocks of a run. -/
def runBlocks (l : Layout) (xp : Bool) : Nat :=
  let g := runGrid l xp
  g.1 * g.2 * nth l.w 2 1 * nth l.w 3 1 * nth l.w 4 1

/-- The window position of a lane of block `b` of a run, or none (R153). -/
def runPos (l : Layout) (xp : Bool) (b lane : Nat) : Option (List Nat) :=
  let g := runGrid l xp
  let b0 := b % g.1; let b1 := b / g.1 % g.2; let r := b / g.1 / g.2
  let row := lane / 64; let col := lane % 64
  let x0 := if xp then 16 * b0 + row else 64 * b0 + col
  let x1 := if xp then 64 * b1 + col else 16 * b1 + row
  if x0 ≥ nth l.w 0 1 || x1 ≥ nth l.w 1 1 then none
  else some [x0, x1, r % nth l.w 2 1, r / nth l.w 2 1 % nth l.w 3 1, r / nth l.w 2 1 / nth l.w 3 1]

/-- Delivery of an exact value into a 32-bit lane (R58): an unscaled integer as s32, all else as f32; only a finite value
saturates. -/
def deliver (l : Layout) (scaled : Bool) (flm : Nat) (x : Num) : W32 :=
  if (intFmt l.fmt).isSome && !scaled then BitVec.ofNat 32 (toInt 13 0 true x)
  else match x with
    | .inf n => BitVec.ofNat 32 (convert (.inf n) 0 0 false)
    | x => f32Of 0 true (flmBit flm 0 true) x

/-- What reads of a tensor index gather: the place's accesses so far, and the value (R54, R61, R125). -/
structure Elem where
  places : List (Place × Nat)
  inside : Bool
  scaled : Bool
  pat    : Nat
  val    : Num
  deriving DecidableEq, Repr

/-- The element that a read of a tensor index takes, with its scale; a position outside the tensor gives the value of
Table 7.4. -/
def readElem (s : State) (c n : Nat) (l : Layout) (sn : Snap) (flm : Nat) (i : List Nat) : M Elem :=
  match readIdx l sn i with
  | none =>
    match fillBook l sn i with
    | none => .ok { places := [], inside := false, scaled := false, pat := outPat l, val := outValue s l flm }
    | some j => do
      let sc ← scalePlace s c n l j true
      .ok { places := sc.toList, inside := false, scaled := false, pat := outPat l, val := valueOf s l flm (outPat l) sc }
  | some j => do
    let j := substIdx l sn j
    let ps ← elemPlaces s c n l j 0 true
    let sc ← scalePlace s c n l j true
    let pat := patAt s l j ps
    .ok { places := ps.map (fun p => (p, 1)) ++ sc.toList, inside := posAt l sn i == .inside, scaled := sc.isSome
          pat := pat, val := valueOf s l flm pat sc }

/-- One block of a run (R153): lanes, valid bits, segment indices, and the first uncorrectable error. -/
def runBlock (s : State) (c k : Nat) (r : Run) : M (State × Block) := do
  let l := layoutOf r.bind.lrec
  let flm := r.flm.toNat
  let lanes ← (List.range 1024).mapM fun lane => match runPos l r.bind.xp r.next lane with
    | none => .ok none
    | some w => do
      let i := addIdx r.bind.org w
      let e ← readElem s c k l r.snap (if posAt l r.snap i == .inside then flm else 0) i
      .ok (some (e, nth i l.sdim 0))
  let ps := lanes.flatMap fun e => match e with
    | some e => e.1.places
    | none => []
  let s ← touchGranules s (c, k) false (granulesOf ps)
  .ok (s, {
    lanes := lanes.map fun e => match e with
      | some e => deliver l e.1.scaled (if e.1.inside then flm else 0) e.1.val
      | none => 0
    valid := lanes.map fun e => match e with
      | some e => e.1.inside
      | none => false
    seg := lanes.map fun e => match e with
      | some e => if l.rag then e.2 else 0
      | none => 0
    poison := firstError s ps })

/-- A run that is over leaves its queue, and its pages are unpinned (R280). -/
def endRun (s : State) (c k n : Nat) : State :=
  match (inStream s c k n).runs with
  | r :: _ => unpin (modIn s c k n fun i => { i with runs := i.runs.drop 1 }) c r.pins
  | [] => s

/-- IN_STREAM_BLOCK (R153): the active run places its next block where there is room. A run that can no longer reach its
elements ends with a fault (R138, R219). -/
def execInStreamBlock (c k n : Nat) (s : State) : Out :=
  let i := inStream s c k n
  match i.runs with
  | r :: _ =>
    if !r.active || i.blocks.length ≥ 2 then .next s
    else match runBlock s c k r with
      | .ok (s, b) =>
        let s := modIn s c k n fun i => { i with
          blocks := i.blocks ++ [b]
          runs := match i.runs with
            | r :: rs => { r with next := r.next + 1 } :: rs
            | [] => [] }
        .next (if r.next + 1 ≥ runBlocks (layoutOf r.bind.lrec) r.bind.xp then endRun s c k n else s)
      | .error (.trap cause d) => .next (pendFault (endRun s c k n) c k cause d)
      | .error _ => .next s
  | [] => .next s

/-! ## Drains -/

/-- The cursor of a stream's binding moved on by one block (R208). -/
def stepCursor (o : OutStream) : OutStream :=
  { o with bind := o.bind.map fun b => { b with cursor := (b.cursor + 1) % blockCnt (layoutOf b.lrec) } }

/-- The word of a drain retires once what it wrote in another module is acknowledged (R208, R216). -/
def endDrain (s : State) (c k : Nat) (d : Drain) : State :=
  if linkWaits s c k 3 0 then modTask s c k fun t => { t with drain := some d }
  else retire .s (at_ (unpin (modTask s c k fun t => { t with drain := none }) c d.pins) c k)

/-- DRAIN_BLOCK (R208, R209): a drain pops one block and writes it; after the last one the word retires. It waits while the task
is stopped (R271 step 2). Where a write fails the drain stops, and what it has written stays. -/
def execDrainBlock (c k : Nat) (s : State) : Out :=
  let t := getTask s c k
  match t.drain with
  | none => .next s
  | some d =>
    let o := nth t.outs d.o {}
    if halted t s.cycle then .next s
    else if d.left = 0 then .next (endDrain s c k d)
    else match o.blocks, o.bind with
    | b :: rest, some bd =>
      match drainWrite s c k bd d b with
        | .error _ => .next s
        | .ok (s, some (cause, x)) =>
          let s := modTask s c k fun t => { t with outs := setNth {} t.outs d.o { nth t.outs d.o {} with blocks := rest }, drain := none }
          .next (raise (at_ (unpin s c d.pins) c k) .s cause x)
        | .ok (s, none) =>
          let s := modTask s c k fun t =>
            let o := { nth t.outs d.o {} with blocks := rest }
            { t with
              outs := setNth {} t.outs d.o (if d.list.isSome then o else stepCursor o)
              drain := some { d with left := d.left - 1, done := d.done + 1 } }
          .next (if d.left ≤ 1 then endDrain s c k { d with left := 0, done := d.done + 1 } else s)
    | _, _ => .next s

/-! ## X -/

/-- Is the task held in the sense of R247: stopped or about to be by a fault of an earlier cycle, waiting for a translation, or
at a word that holds? -/
def holdsX (t : Task) (cycle : Nat) : Bool := halted t cycle || t.miss.any (fun m => m.q < 4) || t.x.ctl.hold.isSome || t.x.ctl.st == .faulted

/-- X_OPERATION_LAND (R246): an operation issued in an earlier X-issue cycle writes its results; none lands while the task
holds (R247). -/
def execXOperationLand (c k j : Nat) (s : State) : Out :=
  let t := getTask s c k
  if holdsX t s.cycle then .next s
  else match t.x.ops[j]? with
    | some o => .next (if o.issued < t.x.count || t.x.ctl.st != .run then dropOps (landOp (at_ s c k) j) else s)
    | none => .next s

/-- X_SIGNAL_PUSH (R18): the oldest signal that X owes is pushed once it fits. -/
def execXSignalPush (c k : Nat) (s : State) : Out :=
  let t := getTask s c k
  match t.x.sigs with
  | q :: r =>
    if tokRoom t q then .next (modTask s c k fun t => { tokPush t q with x := { t.x with sigs := r } }) else .next s
  | [] => .next s

/-! ## Lock bits -/

/-- May a waiting request be served: a word of a stopped task stays as it is (R271 step 2)? -/
def waitReady (s : State) (w : LockWait) : Bool := w.handler || !halted (getTask s w.core w.slot) s.cycle

/-- The order of requests for a lock bit (R146). -/
def waitKey (w : LockWait) : Nat := ((w.since * 512 + w.core) * 4 + w.slot) * 2 + w.handler.toNat

/-- The oldest of some requests. -/
def oldest (l : List LockWait) : Option LockWait :=
  l.foldl (fun b w => match b with
    | none => some w
    | some x => if waitKey w < waitKey x then some w else some x) none

/-- A word that waited on another core or on a lock goes on. -/
def wake (s : State) : State := modCtl s .c fun x => { x with st := .run, hold := none, held := 0 }

/-- Is the target still the peer task of the sender (R137)? -/
def stillPeer (s : State) (core slot tcore tslot : Nat) : Bool := peerSlot s (getTask s core slot) tcore == some tslot

/-- The counts of the other waits for a lock bit start again: it has been granted (R284). -/
def lockGranted (s : State) (c bank line : Nat) : State :=
  ((getCore s c).waits.filter fun w => w.bank = bank && w.line = line).foldl (fun s w =>
    { modCtl (at_ s w.core w.slot w.handler) .c (fun x => { x with held := 0 }) with cur := s.cur }) s

/-- The request that a free lock bit is for next: the oldest whose word may go on (R146). -/
def nextGrant (s : State) (c bank line : Nat) : Option LockWait :=
  oldest ((getCore s c).waits.filter fun w => w.bank = bank && w.line = line && waitReady s w)

/-- LOCK_GRANT (R146): the oldest request for a free lock bit takes it, and its word completes. A request to another core's
scratchpad is one of its peer task as it stands then (R137, R138). -/
def execLockGrant (c bank line : Nat) (s : State) : Out :=
  if (lockHolder s c bank line).isSome then .next s
  else match nextGrant s c bank line with
    | none => .next s
    | some w =>
      let s := lockGranted (modCore s c fun k => { k with waits := k.waits.erase w }) c bank line
      let ok : Bool := w.core = c && w.tslot = w.slot || stillPeer s w.core w.slot c w.tslot
      let phys := spmBase (getTask s c w.tslot) + w.off
      let s := wake (at_ s w.core w.slot w.handler)
      .next (complete .c s (do
        need ok 8 w.acc.addr.toNat
        let _ ← inAllot s c w.tslot w.off w.acc.size w.acc.addr.toNat
        accAtBank s w.acc c w.tslot w.off (lockBank phys = bank && lockLine phys = line)))

/-! ## Arrivals from other cores -/

/-- Does a word of the context that sent a request stay as it is (R271 step 2)? -/
def senderStopped (s : State) (core slot : Nat) (handler : Bool) : Bool := !handler && halted (getTask s core slot) s.cycle

/-- A request that has been answered leaves the network. -/
def taken (s : State) (k : Nat) : State := { s with remote := s.remote.eraseIdx k }

/-- An access to another module goes on once its flit is acknowledged: its word completes, or, where the port went down, ends with
cause 0x06 (R219). -/
def linkAnswer (s : State) (k core slot : Nat) (handler : Bool) (port seq : Nat) (acc : Acc) (res : Option W64) (lost : Bool) : State :=
  if senderStopped s core slot handler || (tabGet {} s.links port).unacked.any (fun f => f.seq = seq) then s
  else
    let s := wake (at_ (taken s k) core slot handler)
    if lost then stopWord s .c (.trap 6 acc.addr.toNat)
    else finish .c (match res with
      | some v => setReg s (BitVec.ofNat 5 acc.d) v
      | none => s)

/-- REMOTE_ACCESS (R138): the target core checks the range and serves the access at its bank; one to another module is answered. -/
def execRemoteAccess (k : Nat) (s : State) : Out :=
  match s.remote[k]? with
  | some (.access core slot handler tcore tslot off acc) =>
    if senderStopped s core slot handler then .next s
    else
      let ok := stillPeer s core slot tcore tslot
      let s := wake (at_ (taken s k) core slot handler)
      .next (complete .c s (do
        need ok 8 acc.addr.toNat
        let _ ← inAllot s tcore tslot off acc.size acc.addr.toNat
        accAtBank s acc tcore tslot off))
  | some (.link core slot handler port seq acc res lost) => .next (linkAnswer s k core slot handler port seq acc res lost)
  | _ => .next s

/-- REMOTE_TOKEN_ARRIVAL (R256): the push arrives behind every local agent, and waits while it does not fit. -/
def execRemoteTokenArrival (k : Nat) (s : State) : Out :=
  match s.remote[k]? with
  | some (.token core slot handler tcore tslot q) =>
    if senderStopped s core slot handler then .next s
    else if !stillPeer s core slot tcore tslot then
      let s := wake (at_ (taken s k) core slot handler)
      .next (stopWord s .c (.trap 8 (coreNo tcore)))
    else if !tokRoom (getTask s tcore tslot) q then .next { noteHold (at_ s core slot handler) .c .push q with cur := s.cur }
    else
      let s := modTask (taken s k) tcore tslot fun t => tokPush t q
      .next (finish .c (wake (at_ s core slot handler)))
  | _ => .next s

/-- The checks of a command that a peer task would push, by its queue (R309): the command that enters. θ, β, τ and the limit of a
score command are the target task's registers as for `PRED`, whatever its w10 and w11 hold (DESIGN CHOICE, log 60). -/
def checkRemote (s : State) (c n : Nat) (q : Queue) (words : List W64) : M (State × Cmd) := do
  let ws := words.map (·.toNat)
  let w0 := nth ws 0 0
  let op := bits w0 7 0
  let plain (pins : List Nat) : Cmd :=
    { slot := n, tag := 0, idx := 0, from_ := (c, n, 0), words := words, flm := 0, gap := 0, pins := pins }
  match q with
  | .matrix => do
    let m ← checkMatrix s c n words
    let f := mcmdOf words
    if f.asrc = 0 || f.asrc = 2 then checkFail 1 6 74
    else .ok (noteRange s c n f, m)
  | .copy => do
    if op ≠ 0x10 then checkFail 1 0 0
    match reservedIn copyMask ws with
    | some p => checkFail 2 7 p
    | none => .ok ()
    checkTokens (getTask s c n) w0
    checkCopy s c n words
  | .weight => do
    if op < 0x20 || op > 0x23 then checkFail 1 0 0
    checkTokens (getTask s c n) w0
    match (layoutChecks ((words.drop 1).take 12)).find? (·.2.2) with
    | some f => layoutFault 0 0 f.1 f.2.1
    | none => .ok ()
    let pins ← checkWeight s c n 0 words
    .ok (s, plain pins)
  | .pred => do
    if op ≠ 0x30 then checkFail 1 0 0
    let all := 0xFFFFFFFFFFFFFFFF
    match reservedIn ([0x1FFFFFFFFFFFF &&& 0xFFFF0FFFFFFFFFFF] ++ List.replicate 8 all ++ [0xFFFFF, all, 0xFFFFFFFFFFFF, 0, 0, 0, 0]) ws with
    | some p => checkFail 2 7 p
    | none => .ok ()
    checkTokens (getTask s c n) w0
    let r := sampled s (getTask s c n)
    checkPred s c n ((ws.drop 1).take 8) (nth ws 9 0) (bit w0 48) [r.prth.toNat, r.prbeta.toNat, r.tau.toNat]
    .ok (s, plain [])

/-- REMQ_ARRIVAL (R309): C holds while the queue is full; then the target checks the command as one of the peer task's (R134) and
puts it behind all others. -/
def execRemqArrival (k : Nat) (s : State) : Out :=
  match s.remote[k]? with
  | some (.cmd core slot tcore tslot q rd ad words) =>
    if senderStopped s core slot false then .next s
    else
      let me' := tcore = core && tslot = slot
      let ok := me' || stillPeer s core slot tcore tslot
      let s' := at_ s core slot
      let clear (s : State) : State := modTask s tcore tslot fun t => { t with miss := t.miss.filter fun m => m.q ≠ 4 }
      let gone := wake (at_ (if ok then clear (taken s k) else taken s k) core slot)
      if ok && !queueRoom s tcore q then
        .next (noteHold (modCtl s' .c fun x => { x with st := .busy .queueFull (queueNo q) }) .c .queueFull (queueNo q))
      else match (if ok then checkRemote s tcore tslot q words else trap 8 ad) with
      | .error (.trap cause d) =>
        let g := if cause = 0x13 then modTask gone tcore tslot fun t => { t with sys := { t.sys with numfl := 1 }, rngAt := some s.cycle } else gone
        .next (raise g .c cause d)
      | .error (.miss va acc) => .next (modTask s' tcore tslot fun t =>
          if t.miss.any (fun m => m.q = 4) then t
          else { t with miss := t.miss ++ [{ q := 4, va := va, acc := acc, cycle := s.cycle }] })
      | .error _ => .next s'
      | .ok (t, m) =>
        let idx := nth (getTask s tcore tslot).cmdIdx (queueNo q) 0
        let m := { m with from_ := (core, slot, 0) }
        let t := pin (clear (taken t k)) tcore m.pins
        let t := enqueue t tcore tslot q (samplePred (sampled t (getTask t tcore tslot)) q m)
        .next (finish .c (setReg (wake (at_ t core slot)) (BitVec.ofNat 5 rd) (BitVec.ofNat 64 idx)))
  | _ => .next s

end Sys2Proof.Machine
end

