-- ==== Sys2Proof/Machine/VArith.lean ====
section
/-!
DEFINITION. Elementwise vector instructions, moves, compares, conversions and special functions (R164 to R172).
-/
namespace Sys2Proof.Machine

/-- A slot's rounding and flushes on f32 lanes, its type being f32. -/
def fmodeOf (x : Slot) (k : XIn) : FMode := { mode := x.rnd.toNat, sat := x.sat, fi := fiOf x k 0, fo := foOf x k 0 }

/-- A lane by lane instruction: its three sources and its destination under the governing predicate (R158). -/
def lanewise (i : Instr) (x : Slot) (bound : Nat) (imm : W32) (f : XIn → W32 → W32 → W32 → W32) (s : State) : Out :=
  execX i (fun s =>
    let (s, k) := readIn s x imm
    let g := f k
    .ok (writeDst s x bound k.act ((k.a.lanes.zip (k.b.lanes.zip k.c.lanes)).map fun e => g e.1 e.2.1 e.2.2))) s

/-- The latency bound of VADD and VSUB by type (Table 9.1). -/
def addBound (x : Slot) : Nat := if x.type = 0 then 4 else 2

/-- VADD. -/
def execVadd (x : Slot) (s : State) : Out :=
  lanewise (.vadd x) x (addBound x) (immLane x) (fun k a b c => arith .add (x.type = 0) (fmodeOf x k) a b c) s
/-- VSUB. -/
def execVsub (x : Slot) (s : State) : Out :=
  lanewise (.vsub x) x (addBound x) (immLane x) (fun k a b c => arith .sub (x.type = 0) (fmodeOf x k) a b c) s
/-- VMUL. -/
def execVmul (x : Slot) (s : State) : Out :=
  lanewise (.vmul x) x 4 (immLane x) (fun k a b c => arith .mul (x.type = 0) (fmodeOf x k) a b c) s
/-- VFMA. -/
def execVfma (x : Slot) (s : State) : Out :=
  lanewise (.vfma x) x 4 (immLane x) (fun k a b c => arith .fma (x.type = 0) (fmodeOf x k) a b c) s
/-- VFMS. -/
def execVfms (x : Slot) (s : State) : Out :=
  lanewise (.vfms x) x 4 (immLane x) (fun k a b c => arith .fms (x.type = 0) (fmodeOf x k) a b c) s
/-- VMIN. -/
def execVmin (x : Slot) (s : State) : Out :=
  lanewise (.vmin x) x 2 (immLane x) (fun k a b _ => minMax false (x.type = 0) (fmodeOf x k) a b) s
/-- VMAX. -/
def execVmax (x : Slot) (s : State) : Out :=
  lanewise (.vmax x) x 2 (immLane x) (fun k a b _ => minMax true (x.type = 0) (fmodeOf x k) a b) s
/-- VABS. -/
def execVabs (x : Slot) (s : State) : Out :=
  lanewise (.vabs x) x 2 0 (fun k a _ _ => signOp (· &&& 0x7FFFFFFF) (fun v => v.natAbs) (x.type = 0) (fmodeOf x k) a) s
/-- VNEG. -/
def execVneg (x : Slot) (s : State) : Out :=
  lanewise (.vneg x) x 2 0 (fun k a _ _ => signOp (· ^^^ 0x80000000) (fun v => -v) (x.type = 0) (fmodeOf x k) a) s
/-- VAND. -/
def execVand (x : Slot) (s : State) : Out := lanewise (.vand x) x 2 (immLaneInt x) (fun _ a b _ => a &&& b) s
/-- VOR. -/
def execVor (x : Slot) (s : State) : Out := lanewise (.vor x) x 2 (immLaneInt x) (fun _ a b _ => a ||| b) s
/-- VXOR. -/
def execVxor (x : Slot) (s : State) : Out := lanewise (.vxor x) x 2 (immLaneInt x) (fun _ a b _ => a ^^^ b) s
/-- VSHL. -/
def execVshl (x : Slot) (s : State) : Out := lanewise (.vshl x) x 2 (immLaneInt x) (fun _ a b _ => shiftLane 0 a b) s
/-- VSHR. -/
def execVshr (x : Slot) (s : State) : Out := lanewise (.vshr x) x 2 (immLaneInt x) (fun _ a b _ => shiftLane 1 a b) s
/-- VSRA. -/
def execVsra (x : Slot) (s : State) : Out := lanewise (.vsra x) x 2 (immLaneInt x) (fun _ a b _ => shiftLane 2 a b) s
/-- VCLAMP. -/
def execVclamp (x : Slot) (s : State) : Out :=
  lanewise (.vclamp x) x 2 (immLane x) (fun k a b c => clampLane (x.type = 0) (fmodeOf x k) a b c) s
/-- VMOV (R167). -/
def execVmov (x : Slot) (s : State) : Out := lanewise (.vmov x) x 1 (immLaneInt x) (fun _ a _ _ => a) s

/-- VSEL writes every lane (R167). -/
def execVsel (x : Slot) (s : State) : Out :=
  execX (.vsel x) (fun s =>
    let (s, k) := readIn s x (immLaneInt x)
    .ok (writeAll s x 1 ((k.act.zip (k.a.lanes.zip k.b.lanes)).map fun e => if e.1 then e.2.1 else e.2.2))) s

/-- The lanes of VLDI (R167). -/
def ldiLanes (x : Slot) : Lanes :=
  let v := immLaneInt x
  (List.range laneCount).map fun l => match x.srcB.toNat % 4 with
    | 0 => immLane x
    | 1 => v + BitVec.ofNat 32 l
    | 2 => v + BitVec.ofNat 32 (l / 64)
    | _ => v + BitVec.ofNat 32 (l % 64)

/-- VLDI; its srcB5 holds the mode. -/
def execVldi (x : Slot) (s : State) : Out :=
  execX (.vldi x) (fun s =>
    let (s, act) := readP s x.pred.toNat
    .ok (writeDst s x 1 act (ldiLanes x))) s

/-- VCMP writes a predicate, false where the lane is not active (R168). -/
def execVcmp (x : Slot) (s : State) : Out :=
  execX (.vcmp x) (fun s =>
    let (s, k) := readIn s x 0
    let fi := fiOf x k 0
    let r := (k.act.zip (k.a.lanes.zip k.b.lanes)).map fun e => e.1 && cmpLane (x.imm.toNat % 16) (x.type = 0) fi e.2.1 e.2.2
    .ok (writeP s (x.dst.toNat % 8) 2 r)) s

/-- VCVT (R170): the source format is in imm14[4:0]. -/
def execVcvt (x : Slot) (s : State) : Out :=
  let src := x.imm.toNat % 32; let dst := x.type.toNat
  lanewise (.vcvt x) x 4 0 (fun k a _ _ => cvtLane src dst x.rnd.toNat x.sat (fiOf x k src) (foOf x k dst) a) s
/-- VFLIP (R171). -/
def execVflip (x : Slot) (s : State) : Out := lanewise (.vflip x) x 4 0 (fun _ a _ _ => flipLane x.type.toNat a) s
/-- VUNFLIP. -/
def execVunflip (x : Slot) (s : State) : Out := lanewise (.vunflip x) x 4 0 (fun _ a _ _ => unflipLane x.type.toNat a) s

/-- A special function by its op8 (R172). -/
def specialOp (i : Instr) (op : Nat) (x : Slot) (s : State) : Out :=
  lanewise i x 10 0 (fun k a _ _ => special op x.rnd.toNat x.sat (fiOf x k 0) (foOf x k 0) a) s
/-- VEXP2. -/
def execVexp2 (x : Slot) (s : State) : Out := specialOp (.vexp2 x) 0x73 x s
/-- VLOG2. -/
def execVlog2 (x : Slot) (s : State) : Out := specialOp (.vlog2 x) 0x74 x s
/-- VRCP. -/
def execVrcp (x : Slot) (s : State) : Out := specialOp (.vrcp x) 0x75 x s
/-- VRSQ. -/
def execVrsq (x : Slot) (s : State) : Out := specialOp (.vrsq x) 0x76 x s
/-- VSQRT. -/
def execVsqrt (x : Slot) (s : State) : Out := specialOp (.vsqrt x) 0x77 x s
/-- VTANH. -/
def execVtanh (x : Slot) (s : State) : Out := specialOp (.vtanh x) 0x78 x s
/-- VSIG. -/
def execVsig (x : Slot) (s : State) : Out := specialOp (.vsig x) 0x79 x s

end Sys2Proof.Machine
end

