-- ==== Sys2Proof/Machine/VAxis.lean ====
section
/-!
DEFINITION. Axis operations (R173, R174), predicate instructions and votes (R175 to R177), VHIST, VCOMPR and VEXPND
(R178, R179), VTOPK (R181) and VNRM (R109).
-/
namespace Sys2Proof.Machine

/-- An instruction that moves whole lanes of srcA: `f` gives each destination lane its source lane (R173). -/
def laneMove (i : Instr) (x : Slot) (bound : Nat) (f : Nat → Nat → Nat × Nat) (s : State) : Out :=
  execX i (fun s =>
    let (s, k) := readIn s x 0
    .ok (writeDst s x bound k.act ((List.range laneCount).map fun l =>
      let p := f (l / 64) (l % 64)
      laneAt k.a.lanes p.1 p.2))) s

/-- VROTR: lanes move toward higher columns. -/
def execVrotr (x : Slot) (s : State) : Out :=
  laneMove (.vrotr x) x 2 (fun r c => (r, (c + 64 - x.imm.toNat % 64) % 64)) s
/-- VROTC: lanes move toward higher rows. -/
def execVrotc (x : Slot) (s : State) : Out :=
  laneMove (.vrotc x) x 5 (fun r c => ((r + 16 - x.imm.toNat % 16) % 16, c)) s
/-- VBCR: a column broadcast along each row. -/
def execVbcr (x : Slot) (s : State) : Out := laneMove (.vbcr x) x 2 (fun r _ => (r, x.imm.toNat % 64)) s
/-- VBCC: a row broadcast along each column. -/
def execVbcc (x : Slot) (s : State) : Out := laneMove (.vbcc x) x 5 (fun _ c => (x.imm.toNat % 16, c)) s
/-- VXPQ transposes each quarter. -/
def execVxpq (x : Slot) (s : State) : Out := laneMove (.vxpq x) x 5 (fun r c => (c % 16, c / 16 * 16 + r)) s

/-- A reduction or scan (R174): the op code, SEG and EXC stand in imm14. -/
def lineOp (i : Instr) (x : Slot) (bound : Nat) (rows scan : Bool) (s : State) : Out :=
  execX i (fun s =>
    let (s, k) := readIn s x 0
    let im := x.imm.toNat
    let f := combine (im % 8) (x.type = 0) (fmodeOf x k)
    .ok (writeDst s x bound k.act (axisOp rows scan (bit im 3) (scan && bit im 4) f k.act k.a))) s

/-- VREDR. -/
def execVredr (x : Slot) (s : State) : Out := lineOp (.vredr x) x 6 true false s
/-- VREDC. -/
def execVredc (x : Slot) (s : State) : Out := lineOp (.vredc x) x 9 false false s
/-- VSCNR. -/
def execVscnr (x : Slot) (s : State) : Out := lineOp (.vscnr x) x 8 true true s
/-- VSCNC. -/
def execVscnc (x : Slot) (s : State) : Out := lineOp (.vscnc x) x 12 false true s

/-! ## Predicates and votes -/

/-- A predicate instruction of two predicates (R175). -/
def predOp (i : Instr) (x : Slot) (f : Bool → Bool → Bool) (s : State) : Out :=
  execX i (fun s =>
    let (s, a) := readP s (x.srcA.toNat % 8)
    let (s, b) := readP s (x.srcB.toNat % 8)
    .ok (writeP s (x.dst.toNat % 8) 2 ((a.zip b).map fun e => f e.1 e.2))) s

/-- PAND. -/
def execPand (x : Slot) (s : State) : Out := predOp (.pand x) x (· && ·) s
/-- POR. -/
def execPor (x : Slot) (s : State) : Out := predOp (.por x) x (· || ·) s
/-- PXOR. -/
def execPxor (x : Slot) (s : State) : Out := predOp (.pxor x) x (· != ·) s
/-- PNOT. -/
def execPnot (x : Slot) (s : State) : Out := predOp (.pnot x) x (fun a _ => !a) s

/-- PSET (R175): false, true, the valid bits of a stream block, or the lanes below `n`. -/
def execPset (x : Slot) (s : State) : Out :=
  execX (.pset x) (fun s =>
    let im := x.imm.toNat
    let d := x.dst.toNat % 8
    match im % 4 with
    | 0 => .ok (writeP s d 2 (List.replicate laneCount false))
    | 1 => .ok (writeP s d 2 (List.replicate laneCount true))
    | 2 =>
      let (s, b) := source s x 0 x.srcA
      .ok (writeP s d 2 b.valid)
    | _ => .ok (writeP s d 2 ((List.range laneCount).map fun l => l < bits im 12 2))) s

/-- PCNT (R176): the count of both predicates, in total or by row, in every lane. -/
def execPcnt (x : Slot) (s : State) : Out :=
  execX (.pcnt x) (fun s =>
    let (s, a) := readP s (x.srcA.toNat % 8)
    let (s, g) := readP s x.pred.toNat
    let both := (a.zip g).map fun e => e.1 && e.2
    let cnt (l : List Bool) : W32 := BitVec.ofNat 32 (l.filter id).length
    if x.imm.getLsbD 0 then
      .ok (writeAll s x 6 ((List.range 16).flatMap fun r => List.replicate 64 (cnt ((both.drop (64 * r)).take 64))))
    else .ok (writeAll s x 9 (splat (cnt both)))) s

/-- A vote (R177). -/
def vote (i : Instr) (x : Slot) (f : List (Bool × Bool) → Bool) (s : State) : Out :=
  execX i (fun s =>
    let (s, a) := readP s (x.srcA.toNat % 8)
    let (s, g) := readP s x.pred.toNat
    .ok (post s (.e (x.dst.toNat % 4)) 3 [some (if f (g.zip a) then 1 else 0)])) s

/-- VOTE.ANY. -/
def execVoteAny (x : Slot) (s : State) : Out := vote (.voteAny x) x (fun l => l.any fun e => e.1 && e.2) s
/-- VOTE.ALL. -/
def execVoteAll (x : Slot) (s : State) : Out := vote (.voteAll x) x (fun l => l.all fun e => !e.1 || e.2) s

/-! ## Histograms, packing, lists, norms -/

/-- VHIST (R178). -/
def execVhist (x : Slot) (s : State) : Out :=
  execX (.vhist x) (fun s =>
    let (s, k) := readIn s x 0
    let d := x.imm.toNat % 8
    let p := (laneAt k.b.lanes 0 0).toNat
    let keys := (k.act.zip k.a.lanes).filterMap fun e =>
      if e.1 && (d = 7 || bits e.2.toNat 31 (4 * d + 4) = bits p 31 (4 * d + 4)) then some (bits e.2.toNat (4 * d + 3) (4 * d))
      else none
    let h0 := (List.range 16).map fun j => laneAt k.c.lanes 0 j + BitVec.ofNat 32 (keys.filter (· = j)).length
    let h1 := (List.range 16).map fun j => (h0.drop j).foldl (· + ·) 0
    let z (n : Nat) : List W32 := List.replicate n 0
    .ok (writeAll s x 8 (h0 ++ z 48 ++ h1 ++ z (laneCount - 80)))) s

/-- VCOMPR (R179): the selected lanes packed, then srcB's. -/
def execVcompr (x : Slot) (s : State) : Out :=
  execX (.vcompr x) (fun s =>
    let (s, k) := readIn s x (immLaneInt x)
    let sel := (k.act.zip k.a.lanes).filterMap fun e => if e.1 then some e.2 else none
    .ok (writeAll s x 6 (sel ++ k.b.lanes.drop sel.length))) s

/-- Lanes of VEXPND: srcA's in order at the selected lanes, srcB's at the others. -/
def expandLanes : List Bool → Lanes → Lanes → Lanes
  | true :: p, a :: as, _ :: bs => a :: expandLanes p as bs
  | false :: p, as, b :: bs => b :: expandLanes p as bs
  | _, _, _ => []

/-- VEXPND (R179). -/
def execVexpnd (x : Slot) (s : State) : Out :=
  execX (.vexpnd x) (fun s =>
    let (s, k) := readIn s x (immLaneInt x)
    .ok (writeAll s x 6 (expandLanes k.act k.a.lanes k.b.lanes))) s

/-- VTOPK (R181). -/
def execVtopk (x : Slot) (s : State) : Out :=
  execX (.vtopk x) (fun s =>
    let (s, k) := readIn s x 0
    let im := x.imm.toNat
    .ok (writeAll s x 12 (topk (x.type = 0) (bits im 3 0) (bits im 10 4) k.a.lanes k.act (laneAt k.b.lanes 0 0)
      (if x.srcC = 28 then none else some k.c.lanes)))) s

/-- VNRM of the active lanes and a partial result (R109): the sum of squares and the greatest magnitude. -/
def normStep (fin_ : Bool) (lanes : List W32) (s0 m0 : W32) : W32 × W32 :=
  let inf : W32 := 0x7F800000
  let fine (a : W32) : Bool := bits a.toNat 30 23 ≠ 255
  let neg (a : W32) : Bool := Num.cmp (f32 false a) .zero < 0
  let up (v : Num) : W32 := f32Of 2 false false v
  let root (a : W32) : W32 := if fin_ then sqrt 2 false false (f32 false a) else a
  if !(fine s0 && fine m0 && lanes.all fine) || neg s0 || neg m0 then (root inf, inf)
  else
    let sum := sumNum 0 (f32 false s0 :: lanes.map fun a => Num.mul (f32 false a) (f32 false a))
    let top := lanes.foldl (fun (m a : W32) => if Num.cmp (f32 false m) (f32 false (a &&& 0x7FFFFFFF)) < 0 then a &&& 0x7FFFFFFF else m) m0
    (root (up sum), top)

/-- VNRM. -/
def execVnrm (x : Slot) (s : State) : Out :=
  execX (.vnrm x) (fun s =>
    let (s, k) := readIn s x 0
    let act := (k.act.zip k.a.lanes).filterMap fun e => if e.1 then some e.2 else none
    let r := normStep (x.imm.getLsbD 0) act (laneAt k.b.lanes 0 0) (laneAt k.b.lanes 0 1)
    .ok (writeAll s x 10 (r.1 :: r.2 :: List.replicate (laneCount - 2) 0))) s

end Sys2Proof.Machine
end

