-- ==== Sys2Proof/Machine/Sampling.lean ====
section
/-!
DEFINITION. Heat (R89), VCHECK with the miss limit and staged heat (R110 to R112, R226), VRNG, VSAMPLE and VSPCHK (R220
to R227).
-/
namespace Sys2Proof.Machine

/-! ## Heat -/

/-- HeatDecay (R89). -/
def heatDecay (h : Byte) : Byte := h - h >>> 3
/-- HeatHit (R89). -/
def heatHit (h : Byte) : Byte := if h.toNat + 32 > 255 then 255 else h + 32

/-- A local byte of a task, as it stands. -/
def spmByte (s : State) (c n a : Nat) : Byte := memByte (getCore s c).spm (spmBase (getTask s c n) + a)
/-- Local bytes of a task stored. -/
def spmStore (s : State) (c n a : Nat) (bs : List Byte) : State := storeAt s (.spm c n a) bs
/-- A hit on a heat byte of a task (R111). -/
def hitAt (s : State) (c n a : Nat) : State := spmStore s c n a [heatHit (spmByte s c n a)]

/-! ## VCHECK -/

/-- The value of a gate lane (R110). -/
def gateValue (isF : Bool) (z : W32) : Num := if isF then f32 false z else .ofInt z.toInt

/-- An exact `x > y`; false where either is NaN. -/
def Num.gt (x y : Num) : Bool := x != .nan && y != .nan && x.cmp y = 1
/-- An exact `x ≤ y`; false where either is NaN. -/
def Num.le (x y : Num) : Bool := x != .nan && y != .nan && x.cmp y ≠ 1

/-- The entries that a block of gates meets: lane, row, whether its class is Q, the gate, whether it is active (R110). -/
def checkedLanes (k : CheckCtx) (isF : Bool) (z : Lanes) : List (Nat × Nat × Bool × W32 × Bool) :=
  ((((k.u.drop k.pos).take laneCount).zip z).zipIdx).map fun e =>
    (e.2, e.1.1.1, e.1.1.2, e.1.2, (gateValue isF e.1.2).gt (f32 false k.tau))

/-- HSTG as this cycle samples it (R252). -/
def hstgOf (s : State) : Nat := (sampled s (me s)).hstg.toNat

/-- HSTG's staging area, checked (R226): with CAP 0 it has no byte. -/
def checkStaging (s : State) : M Unit := do
  let h := hstgOf s
  let b := bits h 19 0
  need (b % 4 = 0) 8 b
  need (bits h 31 20 = 0 || b + 4 * bits h 31 20 ≤ spmUsable (me s)) 8 b

/-- COUNT of HSTG set by the hardware. -/
def setStaged (s : State) (n : Nat) : State :=
  modMe s (hwSys s.cycle 0x051 fun r => { r with hstg := BitVec.ofNat 64 (putBits r.hstg.toNat 63 48 n) })

/-- A staged hit: an entry where there is room, else the overflow bit (R226), which an `MTS` of the same cycle does not clear
(DEDUCED, log 33). -/
def stageHit (s : State) (spos ha : Nat) : State :=
  let h := hstgOf s
  let n := bits h 63 48
  if n < bits h 31 20 then
    setStaged (spmStore s s.cur.core s.cur.slot (bits h 19 0 + 4 * n) (leBytes 4 (spos * 2 ^ 20 + ha))) (n + 1)
  else
    let set (r : SysRegs) : SysRegs := { r with hstg := BitVec.ofNat 64 (putBits r.hstg.toNat 47 47 1) }
    modMe s fun t => let t := hwSys s.cycle 0x051 set t; { t with sys := set t.sys }

/-- An index appended to a list whose count stood at `n`. -/
def appendTo (s : State) (list n row : Nat) : State := spmStore s s.cur.core s.cur.slot (list + 4 + 4 * n) (leBytes 4 row)

/-- Indices appended in order to a list of count `n`, then its count word (R110). -/
def appendList (s : State) (list n : Nat) (rows : List Nat) : State :=
  if rows.isEmpty then s
  else
    let s := rows.zipIdx.foldl (fun s r => appendTo s list (n + r.2) r.1) s
    spmStore s s.cur.core s.cur.slot list (leBytes 4 (n + rows.length))

/-- A 32-bit float of the verify buffer. -/
def vfyWord (s : State) (a : Nat) : Num := f32 false (BitVec.ofNat 32 (spm32 s s.cur.core s.cur.slot a))

/-- Does a gate break its bound (R110, R117)? -/
def breaksBound (s : State) (k : CheckCtx) (isF : Bool) (row : Nat) (z : W32) : Bool :=
  let v := vfyWord s (k.vbase + 8 * row); let g := vfyWord s (k.vbase + 8 * row + 4)
  let x := gateValue isF z
  !((v.add 0 g.neg).le x && x.le (v.add 0 g))

/-- A violation counted in PRVIOL (R110). -/
def countViolation (cycle : Nat) (t : Task) (row : Nat) : Task :=
  hwSys cycle 0x035 (fun r =>
    let p := r.prviol.toNat
    let n := bits p 31 0
    let first := if n = 0 then row else bits p 47 32
    { r with prviol := BitVec.ofNat 64 (putBits (putBits p 31 0 (min (n + 1) (2 ^ 32 - 1))) 47 32 first) }) t

/-- The scratchpad writes and counts of a passed check, in their order. -/
def checkEffects (s : State) (k : CheckCtx) (isF stg : Bool) (spos : Nat) (ls : List (Nat × Nat × Bool × W32 × Bool)) : State :=
  let act := ls.filter (·.2.2.2.2)
  let s := if k.vfy then s else act.foldl (fun s e =>
    let ha := k.hbase + e.2.1 * k.hst
    if stg then stageHit s spos ha else hitAt s s.cur.core s.cur.slot ha) s
  let s := appendList s k.mlist k.mcnt ((act.filter (·.2.2.1)).map (·.2.1))
  let s := if k.aen then appendList s k.alist k.acnt (act.map (·.2.1)) else s
  if k.vfy then
    (ls.filter fun e => breaksBound s k isF e.2.1 e.2.2.2.1).foldl (fun s e => modMe s fun t => countViolation s.cycle t e.2.1) s
  else s

/-- An SRAM error that the heat bytes of a check would meet (R344). -/
def heatError (s : State) (k : CheckCtx) (ls : List (Nat × Nat × Bool × W32 × Bool)) : Option Nat :=
  (ls.filterMap fun e => if e.2.2.2.2 then readError s (.spm s.cur.core s.cur.slot (k.hbase + e.2.1 * k.hst)) 1 else none).head?

/-- An SRAM error that the verify buffer of a check would meet (R344). -/
def vfyError (s : State) (k : CheckCtx) (ls : List (Nat × Nat × Bool × W32 × Bool)) : Option Nat :=
  ls.findSome? fun e => readError s (.spm s.cur.core s.cur.slot (k.vbase + 8 * e.2.1)) 8

/-- VCHECK (R110 to R112). Where VALID is 0 no field of the slot is at fault, and w7 gives op8 (DESIGN CHOICE, log 67). -/
def execVcheck (x : Slot) (s : State) : Out :=
  execX (.vcheck x) (fun s => do
    let k := (me s).chk
    let im := x.imm.toNat
    let isF := x.type = 0
    let stg := bit im 6
    let spos := bits im 12 7 + (x.srcB.toNat % 2) * 64
    if !k.valid then xIllegal s 6 48
    if stg then checkStaging s
    let (s, a) := source s x 0 x.srcA
    let ls := checkedLanes k isF a.lanes
    let act := ls.filter (·.2.2.2.2)
    let m := (act.filter (·.2.2.1)).length
    if !k.vfy && !sampledMldis s (me s) && k.limit ≠ 0xFFFF && k.mcnt + m > k.limit then
      trap 9 (k.mcnt % 2 ^ 16 + m % 2 ^ 16 * 2 ^ 16 + k.limit * 2 ^ 32 + (if s.cur.slotB then 2 ^ 48 else 0))
    match if k.vfy then vfyError s k ls else if stg then none else heatError s k ls with
    | some d => trap 0x0B d
    | none =>
      let lane (f : Nat × Nat × Bool × W32 × Bool → Bool) : List Bool :=
        ls.map f ++ List.replicate (laneCount - ls.length) false
      let on := lane fun e => e.2.2.2.2
      let miss := lane fun e => e.2.2.2.2 && e.2.2.1
      let s := writeAll s x 12 ((on.zip a.lanes).map fun e => if e.1 then e.2 else 0)
      let s := if bits im 2 0 = 0 then s else writeP s (bits im 2 0) 12 on
      let s := if bits im 5 3 = 0 then s else writeP s (bits im 5 3) 12 miss
      let s := checkEffects s k isF stg spos ls
      .ok (modMe s fun t => { t with chk := { t.chk with
        pos := k.pos + ls.length, mcnt := k.mcnt + m, acnt := if k.aen then k.acnt + act.length else k.acnt } })) s

/-! ## Sampling -/

/-- `Bits(w, 31, 8)·2⁻²⁴` (R223). -/
def unitOf (w : W32) : Num := .fin false (w.toNat / 256) (-24)

/-- VRNG (R223). -/
def execVrng (x : Slot) (s : State) : Out :=
  execX (.vrng x) (fun s =>
    let (s, k) := readIn s x 0
    let key := (sampled s (me s)).rngk.toNat
    let c (i : Nat) : W32 := laneAt k.a.lanes 0 i
    let words := (List.range 256).flatMap fun g =>
      philox [c 0, c 1, c 2 + BitVec.ofNat 32 g, c 3] (BitVec.ofNat 32 key) (BitVec.ofNat 32 (key / 2 ^ 32))
    .ok (writeDst s x 12 k.act (if x.type = 13 then words else words.map fun w => f32Of 0 false false (unitOf w)))) s

/-- The weights and sums of a list under the constant `c` (R224): the sums `S[0] … S[L−1]`. -/
def sampleSums (c : Num) (v0 : Num) : List W32 → W32 → List W32
  | [], _ => []
  | v :: r, acc =>
    let rn (x : Num) : W32 := f32Of 0 false false x
    let t := rn ((f32 false v).add 0 v0.neg)
    let w : W32 :=
      if nan32 t then 0
      else
        let t := if (f32 false t).gt .zero then .zero else f32 false t
        let e := if t.isZero || c.isZero then 0 else rn (t.mul c)
        special 0x73 0 false false false e
    let acc := rn ((f32 false acc).add 0 (f32 false w))
    acc :: sampleSums c v0 r acc

/-- VSAMPLE's result (R224): index, place, number kept, status. -/
def sample (list : Lanes) (c p : Num) (rnd : W32) : W32 × Nat × Nat × Nat :=
  let len := (min (max (laneAt list 2 0).toInt 0) 64).toNat
  let idx (i : Nat) := laneAt list 1 i
  if len = 0 then (BitVec.ofInt 32 (-1), 0, 0, 1)
  else if c = .nan || Num.zero.gt c then (idx 0, 0, 1, 2)
  else if c = .inf false then (idx 0, 0, 1, 0)
  else
    let one : W32 := 0x3F800000
    let rn (x : Num) : W32 := f32Of 0 false false x
    let ss := one :: sampleSums c (f32 false (laneAt list 0 0)) ((upto 1 (len - 1)).map (laneAt list 0)) one
    let sum (i : Nat) : Num := f32 false (nth ss i 0)
    let r := if p = .nan then sum (len - 1) else f32 false (rn (p.mul (sum (len - 1))))
    let n := ((List.range len).find? fun k => r.le (sum k)).elim len (· + 1)
    let t := f32 false (rn ((unitOf rnd).mul (sum (n - 1))))
    let i := ((List.range n).find? fun k => (sum k).gt t).getD (n - 1)
    (idx i, i, n, 0)

/-- VSAMPLE (R224). -/
def execVsample (x : Slot) (s : State) : Out :=
  execX (.vsample x) (fun s =>
    let (s, a) := source s x 0 x.srcA
    let (s, b) := source s x (immLane x) x.srcB
    let (s, c) := source s x 0 x.srcC
    let r := sample a.lanes (f32 false (laneAt b.lanes 0 0)) (f32 false (laneAt b.lanes 0 1)) (laneAt c.lanes 0 0)
    let second : W32 := if r.2.2.2 = 1 then BitVec.ofInt 32 (-1) else BitVec.ofNat 32 r.2.1
    .ok (writeAll s x 24
      ([r.1, second, BitVec.ofNat 32 r.2.2.1, BitVec.ofNat 32 r.2.2.2] ++ List.replicate (laneCount - 4) 0))) s

/-- The number of accepted drafts (R225). -/
def accepted (q p rnd : Lanes) (d : Nat) : Nat :=
  ((List.range d).find? fun j =>
    let q := f32 false (laneAt q 0 j); let p := f32 false (laneAt p 0 j); let u := unitOf (laneAt rnd 0 j)
    q = .nan || p = .nan || !(q.gt (if u.isZero || p.isZero then .zero else u.mul p))).getD d

/-- The heat bytes of staged entries whose position is accepted, in staging order, checked (R227). -/
def stagedHits (s : State) (a : Nat) : M (List Nat) := do
  let c := s.cur.core; let n := s.cur.slot
  let h := hstgOf s
  let b := bits h 19 0
  let ws ← (List.range (bits h 63 48)).mapM fun i => do
    let p ← inAllot s c n (b + 4 * i) 4 (b + 4 * i)
    match readError s p 4 with
    | some d => trap 0x0B d
    | none => .ok (ofLe (bytesAt s p 4))
  let hs := (ws.filter fun w => w / 2 ^ 20 ≤ a).map (· % 2 ^ 20)
  hs.forM fun ha => do
    let p ← inAllot s c n ha 1 ha
    match readError s p 1 with
    | some d => trap 0x0B d
    | none => .ok ()
  .ok hs

/-- VSPCHK (R225, R227). -/
def execVspchk (x : Slot) (s : State) : Out :=
  execX (.vspchk x) (fun s => do
    let (s, q) := source s x 0 x.srcA
    let (s, p) := source s x 0 x.srcB
    let (s, r) := source s x 0 x.srcC
    let d := x.imm.toNat % 128
    let a := accepted q.lanes p.lanes r.lanes d
    let s := writeAll s x 24 ([BitVec.ofNat 32 a, if a < d then 1 else 0] ++ List.replicate (laneCount - 2) 0)
    if bit x.imm.toNat 7 then do
      let hs ← stagedHits s a
      let s := hs.foldl (fun s ha => hitAt s s.cur.core s.cur.slot ha) s
      .ok (setStaged s 0)
    else .ok s) s

end Sys2Proof.Machine
end

