-- ==== Sys2Proof/Machine/EvEngine.lean ====
section
/-!
DEFINITION. Events of the engine queues: dequeue (R40, R320), the copy engine (R135, R136), the weight streamer (R96 to
R101, R113), the predictor unit (R107), and retirement (R40, R108, R311).
-/
namespace Sys2Proof.Machine

/-- The GAP of a queue's next command: throttling raises that of the matrix queue (R325). -/
def effGap (s : State) (c : Nat) (q : Queue) (m : Cmd) : Nat :=
  match q with
  | .matrix => match (tabGet {} s.cols (columnOf c)).level with
    | 0 => m.gap
    | 1 => max 4 m.gap
    | _ => max 16 m.gap
  | _ => m.gap

/-- COMMAND_DEQUEUE (R40 step 1, R320): an engine takes its next command once its pacing gap has passed. -/
def execCommandDequeue (c : Nat) (q : Queue) (s : State) : Out :=
  let e := engQ (getCore s c) q
  match e.deq, e.q with
  | none, m :: r =>
    let ready : Bool := match e.lastDeq with
      | some k => k + effGap s c q m ≤ s.cycle
      | none => true
    if ready then
      .next (modCore s c fun k => modEngQ k q fun e => { e with q := r, deq := some m, waitAt := s.cycle, lastDeq := some s.cycle })
    else .next s
  | _, _ => .next s

/-- A fault that stops an engine command: cause, detail, and what it had completed (Table 16.1). -/
structure EngFault where
  cause  : Nat
  detail : Nat
  prog   : Nat := 0
  deriving DecidableEq, Repr

/-- The fault of a command becomes pending for its task (R271, R272). -/
def engineFault (s : State) (c : Nat) (q : Queue) (m : Cmd) (f : EngFault) : State :=
  let s := unpin s c m.pins
  modTask s c m.slot fun t => addFault t {
    cause := f.cause, detail := BitVec.ofNat 64 f.detail, seq := 4, eng := queueNo q, idx := m.idx, prog := f.prog
    op := cmdOp m, cycle := s.cycle }

/-- The tokens of WAITM popped in one cycle (R40 step 3). -/
def popTokens (s : State) (c : Nat) (m : Cmd) : State :=
  modTask s c m.slot fun t => (List.range 16).foldl (fun t i => if bit (cmdWait m) i then tokPop t i else t) t

/-- May a command pop its WAITM tokens now? -/
def tokensReady (s : State) (c : Nat) (m : Cmd) : Bool :=
  let t := getTask s c m.slot
  (List.range 16).all fun i => !bit (cmdWait m) i || tokAvail t i

/-- The dequeued command of an engine that runs its commands one at a time starts, and has its whole effect: it then awaits
retirement, or stops with a fault. `body` answers what the command leaves, its fault if it stops, and what it records. -/
def startCommand (c : Nat) (q : Queue) (ops : List Nat) (body : State → Cmd → M (State × Option EngFault × Running)) (s : State) : Out :=
  let e := engQ (getCore s c) q
  match e.deq with
  | none => .next s
  | some m =>
    if !ops.contains (cmdOp m) || !e.running.isEmpty || !tokensReady s c m then .next s
    else match body (popTokens s c m) m with
      | .error _ => .next s
      | .ok (t, f, r) =>
        let t := modCore t c fun k => modEngQ k q fun e => { e with deq := none, running := if f.isSome then [] else [r] }
        match f with
        | some f => .next (engineFault t c q m f)
        | none => .next t

/-! ## The copy engine -/

/-- A place as one number, so that equal bytes have equal numbers. -/
def placeKey (s : State) : Place → Nat
  | .mem pa => pa
  | .spm c n off => 2 ^ 48 + c * 2 ^ 20 + spmBase (getTask s c n) + off
  | .far m pa => 2 ^ 49 + m * 2 ^ 41 + pa

/-- One element a copy writes: its destination index and bytes, its pattern, the places it was read from. -/
structure CopyElem where
  idx : List Nat
  dst : List (Place × Nat)
  pat : Nat
  src : List (Place × Nat)
  deriving DecidableEq, Repr

/-- The e8 code of a value converted with saturation (R53, R56, R57): NaN, a power of two, the nearer of two, or the largest. None
where no rule gives one: at a tie, since e8 has no mantissa that could be even, below 2^-127, at 0, and for a negative value. -/
def e8Of : Num → Option Nat
  | .nan => some 0xFF
  | .inf neg => if neg then none else some 0xFE
  | .fin neg m e =>
    let k := m.log2
    let top : Int := (k : Int) + e
    if neg || m = 0 || top < -127 then none
    else if top ≥ 127 then some 0xFE
    else if 2 * m = 3 * 2 ^ k then none
    else some (top + 127 + (if 2 * m < 3 * 2 ^ k then 0 else 1)).toNat

/-- What a copy does at a source window position (R135); none where the position is dropped. A conversion to e8 of a value for
which no rule gives a code writes a free byte (log 56). -/
def copyElem (s : State) (c n : Nat) (m : Cmd) (w : List Nat) : M (Option CopyElem) :=
  let l := layoutOf m.lrec; let l2 := layoutOf m.lrec2
  let so := originOf (cmdW m 2) (cmdW m 3); let dorg := originOf (cmdW m 4) (cmdW m 5)
  let flm := m.flm.toNat
  let w' := if bit (cmdW m 0) 48 then (w.set 0 (nth w 1 0)).set 1 (nth w 0 0) else w
  let i2 := addIdx dorg w'
  if posAt l2 m.snap2 i2 != .inside then .ok none
  else do
    let e ← readElem s c n l m.snap flm (addIdx so w)
    let j := substIdx l2 m.snap2 i2
    let ps ← elemCells s c n l2 j 1 true
    let pat := if l.fmt = l2.fmt && l.sbase = 0 then e.pat
      else if l2.fmt = 15 then (e8Of e.val).getD (Config.freeNat s.fresh (w.foldr (fun x k => x + 2 ^ 20 * k) 0) % 256)
      else flushOut l2.fmt (flmBit flm l2.fmt true) (convert e.val l2.fmt 0 true)
    .ok (some { idx := j, dst := ps, pat := pat, src := e.places })

/-- The elements of a copy before the first that cannot be read or written, and the fault there. -/
def copyElems (s : State) (c n : Nat) (m : Cmd) : List (List Nat) → M (List CopyElem × Option (Nat × Nat))
  | [] => .ok ([], none)
  | w :: ws => match copyElem s c n m w with
    | .ok none => copyElems s c n m ws
    | .ok (some e) =>
      match firstError s e.src with
      | some d => .ok ([], some (0x0B, d))
      | none => do
        let r ← copyElems s c n m ws
        .ok (e :: r.1, r.2)
    | .error (.trap cause d) => .ok ([], some (cause, d))
    | .error e => .error e

/-- Bytes at places become undefined (R7). -/
def scramblePlaces (s : State) (ps : List Place) : State :=
  if ps.isEmpty then s
  else ps.zipIdx.foldl (fun t p => storeByte t (p.1, Config.freeByte s.fresh p.2)) (bump s)

/-- The copy (R135, R136): destination bytes that are also source bytes become undefined. `later` lists the bytes that later
copies of the queue have written, which keep those values. Answers the fault it meets and the bytes it has written. -/
def copyBody (c : Nat) (later : List Nat) (s : State) (m : Cmd) : M (State × Option EngFault × List Nat) := do
  let n := m.slot
  let l := layoutOf m.lrec; let l2 := layoutOf m.lrec2
  let (es, f) ← copyElems s c n m (boxOf l.w)
  let s := bump s
  let srcs := es.flatMap (·.src)
  let dsts := (es.flatMap (·.dst)).filter fun p => !later.contains (placeKey s p.1)
  let s ← touchGranules s (c, n) false (granulesOf srcs)
  let s := es.foldl (fun s e => storeElemIf s l2 e.idx (e.dst.map (·.1)) e.pat fun p => !later.contains (placeKey s p)) s
  let read := (srcs.flatMap fun p => upto (placeKey s p.1) p.2).eraseDups
  let s := scramblePlaces s ((dsts.map (·.1)).filter fun p => read.contains (placeKey s p))
  let s ← endStores s (c, n) 4 m.idx dsts
  let keys := (dsts.map fun p => placeKey s p.1).eraseDups
  .ok (s, f.map (fun f => { cause := f.1, detail := f.2, prog := ((keys.map (· / 64)).eraseDups).length }), keys)

/-- The dequeued copy starts, with its tokens popped (R40): up to 48 are in flight (R11). -/
def startCopy (c : Nat) (s : State) : Option State :=
  match (getCore s c).qc.deq with
  | some m =>
    if cmdOp m = 0x10 && tokensReady s c m then
      some (modCore (popTokens s c m) c fun k => { k with qc := { k.qc with deq := none, running := k.qc.running ++ [{ cmd := m, todo := true }] } })
    else none
  | none => none

/-- The started copies that are still to be made, by their places. -/
def copiesDue (e : EngQ) : List Nat := (e.running.zipIdx.filter (·.1.todo)).map (·.2)

/-- A started copy is made: it then awaits retirement, or stops with a fault, and what it has written by then the earlier copies
of the queue leave alone (R136). -/
def makeCopy (c j : Nat) (s : State) : State :=
  let e := (getCore s c).qc
  match e.running[j]? with
  | none => s
  | some r =>
    match copyBody c (r.spare ++ (e.running.drop (j + 1)).flatMap (·.wrote)) s r.cmd with
    | .error _ => s
    | .ok (t, none, keys) => modCore t c fun k => { k with qc := { k.qc with running := k.qc.running.set j { r with todo := false, wrote := keys } } }
    | .ok (t, some f, keys) =>
      let rest := (e.running.take j).map (fun x => { x with spare := x.spare ++ keys }) ++ e.running.drop (j + 1)
      engineFault (modCore t c fun k => { k with qc := { k.qc with running := rest } }) c .copy r.cmd f

/-- COPY_COMMAND (R11, R40, R135, R136): the dequeued copy starts, or one of those in flight is made; where more than one can
move, a free choice says which, since only tokens order two copies (R265, log 63). -/
def execCopyCommand (c : Nat) (s : State) : Out :=
  match copiesDue (getCore s c).qc, startCopy c s with
  | [], t => .next (t.getD s)
  | [j], none => .next (makeCopy c j s)
  | due, t =>
    match due[Config.freeNat s.fresh 0 % (due.length + t.isSome.toNat)]? with
    | some j => .next (makeCopy c j (bump s))
    | none => .next (bump (t.getD s))

/-! ## The weight streamer -/

/-- Bytes written into the weight buffers that BUF selects, at a byte offset (R90). -/
def writeBuffers (s : State) (c buf off : Nat) (bs : List Byte) : State :=
  let on (e : Nat) : Bool := (buf = 0 || buf = e + 1) && engUsable s c e
  let s := sramClear s c 1 fun w => on (w / 2 ^ 16) && off ≤ w % 2 ^ 16 * 8 && w % 2 ^ 16 * 8 + 8 ≤ off + bs.length
  modCore s c fun k => { k with
    wb0 := if on 0 then memWrite k.wb0 off bs else k.wb0
    wb1 := if on 1 then memWrite k.wb1 off bs else k.wb1 }

/-- A row's bytes written into image row `i` at `base` (R91, R98). The bytes of a resident row that was promoted under another format
or scale layout are divided anew by the lengths of the record at hand, and what they are too few for stays unwritten (DESIGN CHOICE,
log 67). -/
def writeRow (s : State) (c buf base : Nat) (l : Layout) (nm rows i : Nat) (bs : List Byte) : State :=
  let g := imageOf l nm rows
  let d := dataLen l
  let k := scaleCnt l nm * scaleLen l
  let s := writeBuffers s c buf (base + 64 * (1 + i * g.rpitch)) (bs.take d)
  let s := writeBuffers s c buf (base + 64 * (g.soff + i * g.spitch)) ((bs.drop d).take k)
  writeBuffers s c buf (base + 64 * (g.ioff + i * g.ipitch)) ((bs.drop (d + k)).take (indexLen l nm))

/-- The header, written last. -/
def writeHeader (s : State) (c buf base : Nat) (l : Layout) (nm rows : Nat) : State :=
  writeBuffers s c buf base ((imageHeader l nm rows ++ [0, 0, 0, 0, 0, 0]).flatMap (leBytes 8))

/-- Granules that one image row takes (Table 16.1's PROG, log 20). -/
def rowGranules (l : Layout) (nm rows : Nat) : Nat :=
  let g := imageOf l nm rows
  g.rpitch + g.spitch + g.ipitch

/-- A row of the table read by the streamer: its bytes, or the error it meets. -/
def fetchRow (s : State) (c : Nat) (m : Cmd) (l : Layout) (nm r : Nat) : M (State × Except (Nat × Nat) (List Byte)) :=
  match (do
    let as ← rowAddrs l nm (cmdW m 14) r
    readPlaces s c m.slot true as) with
  | .error (.trap cause d) => .ok (s, .error (cause, d))
  | .error e => .error e
  | .ok ps => do
    let pk := ps.map fun p => (p, 1)
    let s ← touchGranules s (c, m.slot) false (granulesOf pk)
    match firstError s pk with
    | some d => .ok (s, .error (0x0B, d))
    | none => .ok (s, .ok (ps.flatMap fun p => bytesAt s p 1))

/-- What a command of the streamer that stops or ends answers. -/
def streamed (s : State) (m : Cmd) (f : Option EngFault) (hits misses : Nat) : M (State × Option EngFault × Running) :=
  .ok (s, f, { cmd := m, hits := hits, misses := misses })

/-- A tile command's rows from image row `i` on (R96). -/
def tileRows (c : Nat) (m : Cmd) (l : Layout) (nm buf base row0 rows : Nat) : List Nat → State → M (State × Option EngFault)
  | [], s => .ok (writeHeader s c buf base l nm rows, none)
  | i :: is, s => do
    let (s, r) ← fetchRow s c m l nm (row0 + i)
    match r with
    | .error f => .ok (s, some { cause := f.1, detail := f.2, prog := i * rowGranules l nm rows })
    | .ok bs => tileRows c m l nm buf base row0 rows is (writeRow s c buf base l nm rows i bs)

/-- WEIGHT_TILE (R96). -/
def tileBody (c : Nat) (s : State) (m : Cmd) : M (State × Option EngFault × Running) := do
  let l := layoutOf ((m.words.drop 1).take 12)
  let nm := bits (cmdW m 0) 52 51
  let rows := nth l.w 1 0
  let (s, f) ← tileRows c m l nm (bits (cmdW m 0) 49 48) (64 * bits (cmdW m 15) 10 0) (bits (cmdW m 13) 63 48) rows (List.range rows) s
  streamed s m f 0 0

/-- WEIGHT_TILE (R96). -/
def execWeightTile (c : Nat) (s : State) : Out := startCommand c .weight [0x21] (tileBody c) s

/-- A word of a command's row list, or the fault of reading it (R96). -/
def listWord (s : State) (c n a i : Nat) : Except EngFault Nat :=
  if a + 4 > spmUsable (getTask s c n) then .error { cause := 8, detail := i + 3 * 2 ^ 32 }
  else match readError s (.spm c n a) 4 with
    | some d => .error { cause := 0x0B, detail := d }
    | none => .ok (spm32 s c n a)

/-- Heats of the slots of an airing store (R96). -/
abbrev Heats := Tab Nat

/-- The slots that an airing store has (R97). -/
def slotCount (a : Airing) : Nat := a.size * 32768 / (a.slot * 64)

/-- The first byte in its allotment of a slot of a task's airing store: R97 shows no layout, and the model's slots stand in order
(DESIGN CHOICE, log 34). -/
def slotAt (t : Task) (k : Nat) : Nat := spmUsable t + k * (t.air.slot * 64)

/-- A promoted row stored in its slot: the SRAM words it fills lose their errors (R344). -/
def storeSlot (s : State) (c n base r : Nat) : State :=
  let t := getTask s c n
  match t.air.slots.find? fun e => e.2.base = base ∧ e.2.row = r with
  | some e =>
    let a := spmBase t + slotAt t e.1
    sramClear s c 0 fun w => a ≤ w * 8 && w * 8 + 8 ≤ a + e.2.bytes.length
  | none => s

/-- Promotion of a row (R99): the store and the heats after it. -/
def promote (a : Airing) (h : Heats) (base r haddr hc : Nat) (bs : List Byte) : Airing × Heats :=
  let put (k : Nat) : Airing × Heats :=
    ({ a with slots := tabSet a.slots k { base := base, row := r, haddr := haddr, bytes := bs } }, tabSet h k hc)
  match (List.range (slotCount a)).find? fun k => (tabFind a.slots k).isNone with
  | some k => put k
  | none =>
    match a.slots.foldl (fun b e => match b with
      | none => some e
      | some v =>
        let he := tabGet 0 h e.1; let hv := tabGet 0 h v.1
        if he < hv || (he = hv && (e.2.row > v.2.row || (e.2.row = v.2.row && e.1 > v.1))) then some e else some v)
        (none : Option (Nat × AirSlot)) with
    | none => (a, h)
    | some v => if hc > tabGet 0 h v.1 || (hc = tabGet 0 h v.1 && r < v.2.row) then put v.1 else (a, h)

/-- The fixed part of a gather. -/
structure Gather where
  m    : Cmd
  l    : Layout
  nm   : Nat
  buf  : Nat
  boff : Nat
  heat : Bool
  rows : Nat
  deriving DecidableEq, Repr

/-- A gather's rows from list entry `i` on: the heats, and how many rows were not resident (R96). -/
def gatherRows (c : Nat) (g : Gather) : List Nat → Heats → Nat → State → M (State × Option EngFault × Nat)
  | [], _, miss, s => .ok (writeHeader s c g.buf (64 * g.boff) g.l g.nm g.rows, none, miss)
  | i :: is, h, miss, s => do
    let n := g.m.slot
    let prog := i * rowGranules g.l g.nm g.rows
    let stop (s : State) (f : EngFault) : M (State × Option EngFault × Nat) := .ok (s, some { f with prog := prog }, miss)
    match listWord s c n (bits (cmdW g.m 13) 19 0 + 4 + 4 * i) i with
    | .error f => stop s f
    | .ok r =>
      let ha := bits (cmdW g.m 13) 39 20 + r * bits (cmdW g.m 13) 47 40
      if r ≥ nth g.l.e 1 0 then stop s { cause := 6, detail := i + 2 * 2 ^ 32 }
      else if g.boff + (imageOf g.l g.nm g.rows).size > 2048 then stop s { cause := 6, detail := i + 2 ^ 32 }
      else if g.heat && ha ≥ spmUsable (getTask s c n) then stop s { cause := 8, detail := i + 4 * 2 ^ 32 }
      else match (if g.heat then readError s (.spm c n ha) 1 else none) with
        | some d => stop s { cause := 0x0B, detail := d }
        | none =>
          let hc := (spmByte s c n ha).toNat
          let air := (getTask s c n).air
          match air.slots.find? fun e => e.2.base = g.l.base ∧ e.2.row = r with
          | some e =>
            match readError s (.spm c n (slotAt (getTask s c n) e.1)) e.2.bytes.length with
            | some d => stop s { cause := 0x0B, detail := d }
            | none => gatherRows c g is h miss (writeRow s c g.buf (64 * g.boff) g.l g.nm g.rows i e.2.bytes)
          | none => do
            let (s, row) ← fetchRow s c g.m g.l g.nm r
            match row with
            | .error f => stop s { cause := f.1, detail := f.2 }
            | .ok bs =>
              let can := g.heat && air.size > 0 && slotCount air > 0 && hc ≥ air.pmin && rowLen g.l g.nm ≤ air.slot * 64
              let (air, h) := if can then promote air h g.l.base r ha hc bs else (air, h)
              let s := modTask s c n fun t => { t with air := air }
              let s := if can then storeSlot s c n g.l.base r else s
              gatherRows c g is h (miss + 1) (writeRow s c g.buf (64 * g.boff) g.l g.nm g.rows i bs)

/-- A gather command (R96, R113); the heat snapshot meets errors as its reads do (R344). Where the list's count word lies outside the allotment no entry is being read, and w7 gives
entry 0 (DESIGN CHOICE, log 59). -/
def gatherBody (c : Nat) (s : State) (m : Cmd) : M (State × Option EngFault × Running) :=
  let n := m.slot
  match listWord s c n (bits (cmdW m 13) 19 0) 0 with
  | .error f => streamed s m (some f) 0 0
  | .ok rows => match (getTask s c n).air.slots.findSome? fun e => readError s (.spm c n e.2.haddr) 1 with
  | some d => streamed s m (some { cause := 0x0B, detail := d }) 0 0
  | none => do
    let h : Heats := (getTask s c n).air.slots.map fun e => (e.1, (spmByte s c n e.2.haddr).toNat)
    let g : Gather := {
      m := m, l := layoutOf ((m.words.drop 1).take 12), nm := bits (cmdW m 0) 52 51, buf := bits (cmdW m 0) 49 48
      boff := bits (cmdW m 15) 10 0, heat := bit (cmdW m 0) 50, rows := rows }
    let (s, f, miss) ← gatherRows c g (List.range rows) h 0 s
    streamed s m f (rows - miss) miss

/-- WEIGHT_GATHER (R96, R99). -/
def execWeightGather (c : Nat) (s : State) : Out := startCommand c .weight [0x20] (gatherBody c) s
/-- DARN_GATHER (R113): the gather of the darn pass. -/
def execDarnGather (c : Nat) (s : State) : Out := startCommand c .weight [0x22] (gatherBody c) s

/-- The stack rows of places asked for, unheld, as `LNOPEN` asks (R74, R101). -/
def openPlaces (s : State) (ps : List Place) : State :=
  (granulesOf (ps.map fun p => (p, 1))).foldl (fun s g =>
    let l := mapAddress s (g * 64)
    askRow s l.bankNo l.row) s

/-- A prefetch's rows from list entry `i` on (R101). -/
def prefetchRows (c : Nat) (m : Cmd) (l : Layout) (air : Airing) : List Nat → State → State × Option EngFault
  | [], s => (s, none)
  | i :: is, s =>
    match listWord s c m.slot (bits (cmdW m 13) 19 0 + 4 + 4 * i) i with
    | .error f => (s, some f)
    | .ok r =>
      if r ≥ nth l.e 1 0 then (s, some { cause := 6, detail := i + 2 * 2 ^ 32 })
      else if air.slots.any fun e => e.2.base = l.base ∧ e.2.row = r then prefetchRows c m l air is s
      else match (do
          let as ← rowAddrs l (bits (cmdW m 0) 52 51) (cmdW m 14) r
          readPlaces s c m.slot true as) with
        | .ok ps => prefetchRows c m l air is (openPlaces s ps)
        | .error (.trap cause d) => (s, some { cause := cause, detail := d })
        | .error _ => prefetchRows c m l air is s

/-- A prefetch command (R101). -/
def prefetchBody (c : Nat) (s : State) (m : Cmd) : M (State × Option EngFault × Running) :=
  match listWord s c m.slot (bits (cmdW m 13) 19 0) 0 with
  | .error f => streamed s m (some f) 0 0
  | .ok rows =>
    let r := prefetchRows c m (layoutOf ((m.words.drop 1).take 12)) (getTask s c m.slot).air (List.range rows) s
    streamed r.1 m r.2 0 0

/-- PREFETCH (R101). -/
def execPrefetch (c : Nat) (s : State) : Out := startCommand c .weight [0x23] (prefetchBody c) s

/-! ## The predictor unit -/

/-- A scratchpad read of the predictor unit: bounds (cause 0x08) and errors (cause 0x0B). -/
def predRead (s : State) (c n a len : Nat) : Except (Nat × Nat) (List Byte) :=
  if a + len > spmUsable (getTask s c n) then .error (8, a)
  else match readError s (.spm c n a) len with
    | some d => .error (0x0B, d)
    | none => .ok (bytesAt s (.spm c n a) len)

/-- A scratchpad write of the predictor unit, within bounds. -/
def predWrite (s : State) (c n a : Nat) (bs : List Byte) : Except (Nat × Nat) State :=
  if a + bs.length > spmUsable (getTask s c n) then .error (8, a) else .ok (spmStore s c n a bs)

/-- A float read. -/
def predF32 (s : State) (c n a : Nat) : Except (Nat × Nat) W32 := do
  let bs ← predRead s c n a 4
  .ok (BitVec.ofNat 32 (ofLe bs))

/-- Round to nearest, and up, to f32. -/
def rn32 (x : Num) : W32 := f32Of 0 false false x
/-- RU of R107. -/
def ru32 (x : Num) : W32 := f32Of 2 false false x

/-- The magnitude of a value. -/
def Num.abs : Num → Num
  | .fin _ m e => .fin false m e
  | .inf _ => .inf false
  | .nan => .nan

/-- The class of a row (R107). -/
inductive RowClass where
  | p | q | none
  deriving DecidableEq, Repr

/-- The score `s` and the bound `G` of a row (R107). -/
def rowScore (d : PDesc) (n xi : W32) (h coef : List W32) (scale : Nat) (eps lam : W32) : W32 × W32 :=
  let acc := (coef.zip h).foldl (fun acc e => rn32 (Num.add 0 (f32 false acc) (Num.mul (Num.ofInt e.1.toInt) (f32 false e.2)))) (0 : W32)
  let s := rn32 (Num.mul (f32 false acc) (decodeNum 15 false scale))
  let a := ru32 (Num.mul (f32 false eps) (f32 false n))
  let b := ru32 (Num.mul (.fin false 1 (-12)) (f32 false s).abs)
  let k := if d.gf then ru32 (Num.mul (Num.mul (f32 false lam) (f32 false xi)) (.fin false 1 (-23))) else 0
  let ab := Num.add 2 (f32 false a) (f32 false b)
  (s, ru32 (Num.add 2 ab (f32 false k)))

/-- The class of a scored row: every comparison is exact. -/
def rowClass (s g theta beta tau : W32) (heat : Nat) : RowClass :=
  let s := f32 false s; let g := f32 false g
  let t := Num.add 0 s (Num.mul (f32 false beta) (Num.ofInt (heat : Nat)))
  let sg := Num.add 0 s g
  if t != .nan && (f32 false theta).le t then .p
  else if s == .nan || g == .nan || sg == .nan || sg.gt (f32 false tau) then .q
  else .none

/-- What a score command accumulates: the classes, and the bytes it writes with their area. -/
structure Scored where
  u    : List (Nat × Bool) := []
  p    : List Nat := []
  q    : List Nat := []
  deriving DecidableEq, Repr

/-- The heat that a score command takes of row `i`, decayed in place (R89); a verification takes none. -/
def scoreHeat (s : State) (c n : Nat) (d : PDesc) (vfy : Bool) (i : Nat) : Except (Nat × Nat) (State × Nat) :=
  if vfy then .ok (s, 0)
  else do
    let b ← predRead s c n (d.hbase + i * d.hst) 1
    let h := heatDecay (b.headD 0)
    .ok (spmStore s c n (d.hbase + i * d.hst) [h], h.toNat)

/-- The rows of a score command from `i` on: what a row does before an access of it fails stays done (R107). -/
def scoreRows (c n : Nat) (d : PDesc) (vfy : Bool) (nn xi : W32) (h : List W32) (theta beta tau : W32) :
    List Nat → Scored → State → State × Except (Nat × Nat × Nat) Scored
  | [], k, s => (s, .ok k)
  | i :: is, k, s =>
    let row (s : State) (heat : Nat) : Except (Nat × Nat) (State × RowClass) := do
      let ub ← predRead s c n (d.ubase + i * d.upitch) (d.rank / 2 + 1)
      let coef := (List.range d.rank).map fun k => BitVec.ofInt 32 (sext (elemOf 9 k (ub.drop (k / 2) |>.take 1)) 4)
      let e ← predF32 s c n (d.ebase + 4 * i)
      let l ← if d.gf then predF32 s c n (d.lbase + 4 * i) else .ok 0
      let (sc, g) := rowScore d nn xi h coef ((ub.getD (d.rank / 2) 0).toNat) e l
      if vfy then do
        let s ← predWrite s c n (d.vbase + 8 * i) (leBytes 4 sc.toNat ++ leBytes 4 g.toNat)
        .ok (s, RowClass.q)
      else .ok (s, rowClass sc g theta beta tau heat)
    match scoreHeat s c n d vfy i with
    | .error f => (s, .error (f.1, f.2, i))
    | .ok (s, heat) => match row s heat with
      | .error f => (s, .error (f.1, f.2, i))
      | .ok (s, cl) =>
        let k := match cl with
          | .p => { k with p := k.p ++ [i], u := k.u ++ [(i, false)] }
          | .q => { k with q := k.q ++ [i], u := k.u ++ [(i, true)] }
          | .none => k
        scoreRows c n d vfy nn xi h theta beta tau is k s

/-- The words of a row list at an address, as they are written: its indices, then its count (R88, R107). -/
def listWords (a : Nat) (rows : List Nat) : List (Nat × Nat) :=
  (rows.zipIdx.map fun e => (a + 4 + 4 * e.2, e.1)) ++ [(a, rows.length)]

/-- Words written until one leaves the allotment: the fault there, if one does. -/
def writeWords (c n : Nat) : List (Nat × Nat) → State → State × Option (Nat × Nat)
  | [], s => (s, none)
  | w :: ws, s => match predWrite s c n w.1 (leBytes 4 w.2) with
    | .error f => (s, some f)
    | .ok s => writeWords c n ws s

/-- An area of scratchpad: base, stride, count and bytes of each item. -/
structure Area where
  base   : Nat
  stride : Nat
  count  : Nat
  len    : Nat
  deriving DecidableEq, Repr

/-- Is a byte in the area? -/
def Area.has (r : Area) (a : Nat) : Bool :=
  r.base ≤ a && (a - r.base) / r.stride < r.count && (a - r.base) % r.stride < r.len

/-- The bytes of an area. -/
def Area.bytes (r : Area) : List Nat := (List.range r.count).flatMap fun i => upto (r.base + i * r.stride) r.len

/-- Bytes of the areas a score command writes that another area it writes or reads covers (R107). -/
def scoreOverlap (d : PDesc) (vfy : Bool) (inp : Nat) : List Nat :=
  let list (a : Nat) : Area := ⟨a, 4, d.nrow + 1, 4⟩
  let heat : Area := ⟨d.hbase, d.hst, d.nrow, 1⟩
  let wr := (if vfy then [⟨d.vbase, 8, d.nrow, 8⟩] else [heat])
    ++ [list d.plist, list d.qlist, list d.ulist, list d.mlist] ++ (if d.aen then [list d.alist] else [])
  let rd : List Area := [⟨inp, 4, d.rank + 2, 4⟩, ⟨d.ubase, d.upitch, d.nrow, d.rank / 2 + 1⟩, ⟨d.ebase, 4, d.nrow, 4⟩]
    ++ (if d.gf then [⟨d.lbase, 4, d.nrow, 4⟩] else [])
  (wr.zipIdx.flatMap fun w => w.1.bytes.filter fun a =>
    rd.any (·.has a) || wr.zipIdx.any fun x => x.2 ≠ w.2 && x.1.has a).eraseDups

/-- A score command (R107): what it writes, and the check context it leaves (R108). -/
def predictBody (c : Nat) (s : State) (m : Cmd) : M (State × Option EngFault × Running) :=
  let n := m.slot
  let d := descOf ((m.words.drop 1).take 8 |>.map (·.toNat))
  let vfy := bit (cmdW m 0) 48
  let inp := bits (cmdW m 9) 19 0
  let w32 (x h l : Nat) : W32 := BitVec.ofNat 32 (bits x h l)
  let theta := w32 (cmdW m 10) 31 0; let beta := w32 (cmdW m 10) 63 32; let tau := w32 (cmdW m 11) 31 0
  let stop (s : State) (f : Nat × Nat) (rows : Nat) : M (State × Option EngFault × Running) :=
    .ok (s, some { cause := f.1, detail := f.2, prog := rows }, { cmd := m })
  match predRead s c n inp (8 + 4 * d.rank) with
  | .error f => stop s f 0
  | .ok bs =>
    let ws := (List.range (d.rank + 2)).map fun i => BitVec.ofNat 32 (ofLe ((bs.drop (4 * i)).take 4))
    match scoreRows c n d vfy (nth ws 0 0) (nth ws 1 0) (ws.drop 2) theta beta tau (List.range d.nrow) {} s with
    | (s, .error f) => stop s (f.1, f.2.1) f.2.2
    | (s, .ok k) =>
      let lists := [(d.plist, k.p), (d.qlist, k.q), (d.ulist, k.u.map (·.1)), (d.mlist, [])] ++ (if d.aen then [(d.alist, [])] else [])
      match writeWords c n (lists.flatMap fun x => listWords x.1 x.2) s with
      | (s, some f) => stop s f d.nrow
      | (s, none) =>
        let ov := (scoreOverlap d vfy inp).map fun a => Place.spm c n a
        let chk : CheckCtx := {
          valid := true, vfy := vfy, aen := d.aen, u := k.u, hbase := d.hbase, hst := d.hst, mlist := d.mlist, alist := d.alist
          vbase := d.vbase, tau := tau, limit := bits (cmdW m 11) 47 32 }
        .ok (scramblePlaces s ov, none, { cmd := m, chk := some chk })

/-- PREDICT_SCORE (R107). -/
def execPredictScore (c : Nat) (s : State) : Out := startCommand c .pred [0x30] (predictBody c) s

/-! ## Retirement -/

/-- The MISS of a key (R311). -/
def missOf (k : Core) (key : Nat) : Nat :=
  match k.keys.find? fun e => e.1 = key with
  | some e => e.2
  | none => 255

/-- The key entries of a core after a gather of `n` rows, `m` of them not resident (R311): the entry updated last stands
last. -/
def keyUpdate (ks : List (Nat × Nat)) (key n m : Nat) : List (Nat × Nat) :=
  let old := ((ks.find? fun e => e.1 = key).map (·.2)).getD 0
  let rest := ks.filter fun e => e.1 ≠ key
  let rest := if rest.length ≥ 16 then rest.drop 1 else rest
  rest ++ [(key, min 255 (old - old / 8 + 32 * m / n))]

/-- May command `k` of a queue retire: the earlier ones are gone, or it is a matrix command that runs beside them in twin
mode (R40, R183, R201); a matrix command has passed its fixed cycles (R199), a copy has been made? -/
def mayRetire (s : State) (q : Queue) (before : List Running) (r : Running) : Bool :=
  match q with
  | .matrix =>
    (match r.last with
      | some l => s.cycle ≥ l + r.fixed
      | none => false)
    && before.all fun b => (b.cmd.twin || r.cmd.twin) && b.eng ≠ r.eng && b.eng ≠ 2 && r.eng ≠ 2
  | _ => before.isEmpty && !r.todo

/-- Do the pushes of SIGM all fit (R19, R40 step 4)? -/
def signalsFit (t : Task) (m : Cmd) : Bool :=
  (List.range 16).all fun i => !bit (cmdSig m) i || tokRoom t i

/-- COMMAND_RETIRE (R40 step 4, R108, R311): the check context and the miss key first, then the tokens together. A copy retires only
once what it wrote in another module is acknowledged (R219, R265). -/
def execCommandRetire (c : Nat) (q : Queue) (k : Nat) (s : State) : Out :=
  let e := engQ (getCore s c) q
  match e.running[k]? with
  | none => .next s
  | some r =>
    let m := r.cmd
    if !mayRetire s q (e.running.take k) r || !signalsFit (getTask s c m.slot) m || (q == .copy && linkWaits s c m.slot 4 m.idx) then .next s
    else
      let s := modCore s c fun x => modEngQ x q fun e => { e with running := e.running.eraseIdx k }
      let s := unpin s c m.pins
      let gathered := (cmdOp m = 0x20 || cmdOp m = 0x22) && m.akey ≠ 0 && r.hits + r.misses > 0
      let s := if gathered then modCore s c fun x => { x with keys := keyUpdate x.keys m.akey (r.hits + r.misses) r.misses } else s
      .next (modTask s c m.slot fun t =>
        let t := match r.chk with
          | some chk => { t with chk := chk }
          | none => t
        let t := if q == .matrix then { t with lastIdx := m.idx, lastEng := r.eng } else t
        (List.range 16).foldl (fun t i => if bit (cmdSig m) i then tokPush t i else t) t)

end Sys2Proof.Machine
end

