-- ==== Sys2Proof/Machine/EvLink.lean ====
section
/-!
DEFINITION. Events of the links: flits received (R217 to R219), port retraining (R219), and route-table changes (R336).
-/
namespace Sys2Proof.Machine

/-- A port's link. -/
def getLink (s : State) (p : Nat) : Link := tabGet {} s.links p
/-- A link changed. -/
def modLink (s : State) (p : Nat) (f : Link → Link) : State := { s with links := tabSet s.links p (f (getLink s p)) }

/-! ## Flits -/

/-- What an accepted flit does: a write or read of another module is performed, with the data of a read sent back as a flit that is
kept until it is acknowledged, compressed as every payload (R218), this module's flits are acknowledged, or those from a number on
are sent again in their order (R219). An access beyond stack memory reaches nothing. The data of this module's own reads tell it
nothing that State.farMem does not hold (log 6). -/
def acceptFlit (s : State) (p : Nat) : FlitBody → M State
  | .ack n => .ok (modLink s p fun l => { l with unacked := l.unacked.filter fun u => u.seq > n })
  | .replay n =>
    .ok { s with out := s.out ++ (((getLink s p).unacked.filter fun u => n ≤ u.seq).map fun u => .flit p u.seq u.body) }
  | .read m pa n =>
    if pa + n > 2 ^ 39 then .ok s
    else do
      let s ← touchRange s none pa n false
      .ok (sendOn s p fun k => { seq := k, m := m, body := .data (compressPayload (memRead s.mem pa n)) (poisonIn s pa n).isSome })
  | .data _ _ => .ok s
  | .write pa l =>
    let bs := expandPayload l
    if pa + bs.length > 2 ^ 39 then .ok s
    else do
      let s ← touchRange s none pa bs.length true
      .ok (storeMem s pa bs)

/-- FLIT_RECEIVE (R219): the flit next in order is accepted if its CRC holds; a failed one asks for a replay from its number, and every
other flit is discarded. After 16 failed replays of one flit the port is to retrain. -/
def execFlitReceive (p seq : Nat) (ok : Bool) (b : FlitBody) (s : State) : Out :=
  let l := getLink s p
  if !bit s.ports p || seq ≠ l.rx then .next s
  else if !ok then .next (modLink { s with out := s.out ++ [.replayFrom p seq] } p fun l => { l with fails := l.fails + 1, retrain := l.retrain || l.fails + 1 > 16 })
  else match acceptFlit s p b with
    | .ok s => .next (modLink s p fun l => { l with rx := l.rx + 1, fails := 0 })
    | .error _ => .next s

/-- PORT_RETRAIN (R219): the port retrains, which is counted (Table 22.10); where that fails it is marked down. -/
def execPortRetrain (p : Nat) (ok : Bool) (s : State) : Out :=
  if !bit s.ports p || !(getLink s p).retrain then .next s
  else
    let s := countErr (modLink s p fun l => { l with retrain := false, fails := 0 }) (.retrain p)
    .next (if ok then s else portDown s p)

/-- Is a flit to module `n` unacknowledged on the port that its entry selects (R336)? -/
def routeBusy (s : State) (n : Nat) : Bool :=
  let e := (tabGet 0 s.routes n).toNat
  bit e 7 && (getLink s (bits e 3 0)).unacked.any fun u => u.m = n

/-- A write of a route-table entry (R336): it takes effect at once where nothing is under way, and waits otherwise. -/
def writeRoute (s : State) (n : Nat) (v : W64) : State :=
  let v := v &&& 0x8F
  if n ≥ 64 then s
  else if tabGet 0 s.routes n = v then { s with rchange := tabDel s.rchange n }
  else if routeBusy s n then { s with rchange := tabSet s.rchange n v }
  else { s with routes := tabSet s.routes n v, rchange := tabDel s.rchange n }

/-- ROUTE_ENTRY_WRITE (R333, R336): by the host, unless the block is locked. -/
def execRouteEntryWrite (m : Master) (n : Nat) (v : W64) (s : State) : Out :=
  if m ≠ .host || bit s.hlock 2 then .next s else .next (writeRoute s n v)

/-- ROUTE_CHANGE_EFFECT (R336). -/
def execRouteChangeEffect (n : Nat) (s : State) : Out :=
  match tabFind s.rchange n with
  | none => .next s
  | some v =>
    if routeBusy s n then .next s
    else .next { s with routes := tabSet s.routes n v, rchange := tabDel s.rchange n }

end Sys2Proof.Machine
end

