-- ==== Sys2Proof/Machine/EvPower.lean ====
section
/-!
DEFINITION. Events of power and heat: timing-error replay (R317), the voltage controller (R318), temperature samples and
throttle levels (R324, R325) with their notifications (R327).
-/
namespace Sys2Proof.Machine

/-- A column. -/
def getCol (s : State) (c : Nat) : Column := tabGet {} s.cols c
/-- A column changed. -/
def modCol (s : State) (c : Nat) (f : Column → Column) : State := { s with cols := tabSet s.cols c (f (getCol s c)) }

/-- The throttle level that the samples, FORCE and the replay rule ask for (R325). -/
def levelOf (s : State) (col : Nat) : Nat :=
  let k := getCol s col
  let t := columnTemp s col
  let entry (n : Nat) := if n = 2 then k.tlim + 20 else k.tlim
  let hot := if t ≥ k.tlim + 20 then 2 else if t ≥ k.tlim then 1 else 0
  max (max (min 2 k.force) k.rlevel) (max hot (if t + k.thyst ≥ entry k.level then k.level else 0))

/-- A change of a column's level is posted to every resident task whose type has a notification entry, unless one
waits already (R327). -/
def notifyColumn (s : State) (col : Nat) : State :=
  (coresOf col).foldl (fun s c =>
    (getCore s c).slots.foldl (fun s t =>
      if t.2.tt.note.isNone || (getCore s c).h.waiting.any (fun e => e.slot = t.1 && e.kind = 2) then s
      else modCore s c fun k => { k with h := { k.h with waiting := k.h.waiting ++ [⟨t.1, 2, s.cycle⟩] } }) s) s

/-- The level computed again (R325); a change is notified. -/
def relevel (s : State) (col : Nat) : State :=
  let n := levelOf s col
  if n = (getCol s col).level then s else notifyColumn (modCol s col fun k => { k with level := n }) col

/-- TIMING_REPLAY (R317): the core freezes for 3 cycles, and its column counts a replay. -/
def execTimingReplay (c : Nat) (s : State) : Out :=
  if (getCore s c).freeze ≠ 0 then .next s
  else
    let s := modCore s c fun k => { k with freeze := 3 }
    .next (modCol s (columnOf c) fun k => { k with rplcnt := (k.rplcnt + 1) % 2 ^ 32, window := k.window + 1 })

/-- The voltage code at the end of a window of `n` replays (R318); the bound 2·X is 2⁵ · 2²⁴ · 2^−RTGT. -/
def nextCode (k : Column) (n : Nat) : Nat :=
  let r := 2 ^ (max 10 (min 30 k.rtgt))
  let lo := if k.vmin > k.vmax then k.vmax else k.vmin
  if k.vcur > k.vmax then k.vmax
  else if k.vcur < lo then lo
  else if n * r > 2 ^ 29 then (if k.vcur = k.vmax then k.vcur else k.vcur + 1)
  else if n * r < 2 ^ 27 then (if k.vcur = lo then k.vcur else k.vcur - 1)
  else k.vcur

/-- Does a window's count exceed 2·X? -/
def overRate (k : Column) (n : Nat) : Bool := n * 2 ^ (max 10 (min 30 k.rtgt)) > 2 ^ 29

/-- The end of a window of 2²⁴ cycles, if the present one is over (R318). -/
def windowEnd (s : State) (col : Nat) : State :=
  let k := getCol s col
  if s.cycle < k.since + 2 ^ 24 then s
  else
    let fast := overRate k k.window
    let streak := if fast && k.vcur = k.vmax then k.streak + 1 else 0
    let s := modCol s col fun k => { k with
      vcur := nextCode k k.window, window := 0, since := k.since + 2 ^ 24, streak := min 2 streak
      rlevel := if !fast then 0 else if streak ≥ 2 then 1 else k.rlevel }
    relevel s col

/-- REPLAY_WINDOW_END (R318). -/
def execReplayWindowEnd (col : Nat) (s : State) : Out := .next (windowEnd s col)

/-- The windows of every column end where 2²⁴ cycles are over: they follow one another with no gap. -/
def windowsEnd (s : State) : State := if s.cycle % 2 ^ 24 = 0 then (List.range 32).foldl windowEnd s else s

/-- TEMP_SAMPLE (R324, R325): the sensors of a core's engines and of its rest are sampled; one below −20 °C or above 125 °C
raises alarm source 1 (R342). -/
def execTempSample (c : Nat) (e0 e1 rest : Int) (s : State) : Out :=
  let s := relevel (modCore s c fun k => { k with temps := [e0, e1, rest] }) (columnOf c)
  .next (if [e0, e1, rest].any fun t => t < -80 || t > 500 then raiseAlarm s 1 else s)

end Sys2Proof.Machine
end

