-- ==== Sys2Proof/Machine/LLines.lean ====
section
/-!
DEFINITION. The line instructions LNOPEN, LNPEG, LNFREE and LNQRY (R78, R79).
-/
namespace Sys2Proof.Machine

/-- The code of a row's state for a task (Table 4.9). -/
def pegCode : Option PegSt → Nat
  | none => 0 | some .held => 1 | some .suspended => 2 | some .lost => 3

/-- The line status word (Table 4.9). -/
def lineStatus (s : State) (c n : Nat) (l : Loc) (ok : Bool) (reason : Nat) : W64 :=
  let t := getTask s c n
  let b := getBank s l.bankNo
  let line := lineOf b l.row
  BitVec.ofNat 64 (l.row * 2 ^ 29 + l.bank * 2 ^ 27 + l.bgroup * 2 ^ 25 + l.pch * 2 ^ 24 + l.channel * 2 ^ 19 + l.stack * 2 ^ 16
    + line.isSome.toNat * 2 ^ 15 + (heldRows s l.bankNo).length * 2 ^ 12 + t.pegs.length * 2 ^ 8 + line.getD 0 * 2 ^ 6
    + pegCode (pegOf t l.bankNo l.row) * 2 ^ 4 + reason * 2 + ok.toNat)

/-- The address a line instruction names. -/
def lineVa (s : State) (a : BitVec 4) (i : BitVec 32) : Nat := (getJ s a + i.signExtend 64).toNat

/-- `Translate` of a line instruction: a stack address of this module, or none (R78); an address in the aperture or of another
module is none, whatever it names there and whichever route it has. It asks for a readable page, as LNOPEN does in R78's own
words, and an address below 2^32, which no entry translates, is cause 0x06 (both DESIGN CHOICE for the other three, log 58). -/
def lineAddr (s : State) (va : Nat) : M (Option Nat) := do
  let e ← entryFor s s.cur.core s.cur.slot va 1 0
  .ok (if isRemote s e || entryPa e va ≥ 2 ^ 39 then none else some (entryPa e va))

/-- The status of a place that is no stack memory of this module: reason 3 alone. -/
def notStack : W64 := 6

/-- LNOPEN: opens the row, unheld, where the address is a readable stack address; no effect otherwise. A bank that is stopped
opens it when it resumes (R81, R82). -/
def execLnopen (t : Tok) (a : BitVec 4) (i : BitVec 32) (s : State) : Out :=
  execL (.lnopen t a i) t false (fun s =>
    match lineAddr s (lineVa s a i) with
    | .ok (some pa) =>
      let l := mapAddress s pa
      .ok (askRow s l.bankNo l.row)
    | .error (.miss va acc) => .error (.miss va acc)
    | _ => .ok s) s

/-- LNPEG: holds the row for the task, or reports why not. It waits at the controller while its region is in a swap (R72),
while requests for the bank arrived earlier (R77), while the bank is stopped, and for a line (R74). -/
def execLnpeg (t : Tok) (d a : BitVec 4) (i : BitVec 32) (s : State) : Out :=
  execL (.lnpeg t d a i) t false (fun s => do
    let c := s.cur.core; let n := s.cur.slot
    match ← lineAddr s (lineVa s a i) with
    | none => .ok (setJ s d notStack)
    | some pa =>
      let l := mapAddress s pa
      let b := l.bankNo
      let answer (s : State) (ok : Bool) (r : Nat) : M State :=
        let s := dropPegReq s c n
        .ok (setJ s d (lineStatus s c n l ok r))
      let wait (k : HoldKind) : M State := .error (.holdIn (askPeg s ⟨pa, s.cycle, c, n⟩) k 0)
      if (pegOf (me s) b l.row).isSome then answer s true 6
      else if inSwap s (bits pa 38 21) || !pegTurn s c n b then wait .peg
      else
        let r := pegReason s (me s) b l.row
        if r ≠ 0 then answer s false r
        else if (getBank s b).busy || rowSuspended s b l.row then wait .line
        else match openRow s b l.row with
          | none => wait .peg
          | some s =>
            let s := pegGranted (dropPegReq s c n) b
            answer (modMe s fun t => { t with pegs := t.pegs ++ [⟨b, l.row, lineVa s a i, .held⟩] }) true 0) s

/-- LNFREE: releases the task's hold of the row. -/
def execLnfree (t : Tok) (d a : BitVec 4) (i : BitVec 32) (s : State) : Out :=
  execL (.lnfree t d a i) t false (fun s => do
    let c := s.cur.core; let n := s.cur.slot
    match ← lineAddr s (lineVa s a i) with
    | none => .ok (setJ s d notStack)
    | some pa =>
      let l := mapAddress s pa
      if (pegOf (me s) l.bankNo l.row).isNone then .ok (setJ s d (lineStatus s c n l false 5))
      else
        let s := releasePeg s c n l.bankNo l.row
        .ok (setJ s d (lineStatus s c n l true 0))) s

/-- LNQRY: reports the row. -/
def execLnqry (t : Tok) (d a : BitVec 4) (i : BitVec 32) (s : State) : Out :=
  execL (.lnqry t d a i) t false (fun s => do
    match ← lineAddr s (lineVa s a i) with
    | none => .ok (setJ s d notStack)
    | some pa => .ok (setJ s d (lineStatus s s.cur.core s.cur.slot (mapAddress s pa) true 0))) s

end Sys2Proof.Machine
end

