-- ==== Sys2Proof/Machine/EvTrap.lean ====
section
/-!
DEFINITION. Events of traps and translation: delivery of a pending fault (R271, R272), refills and table walks (R281,
R282), notifications (R327), hold timeouts (R284), and the handler writes that act beyond their register (R104, R278,
R279, R283).
-/
namespace Sys2Proof.Machine

/-! ## The order of handler events (R270) -/

/-- The least of some numbers. -/
def least (l : List Nat) : Option Nat :=
  l.foldl (fun b x => match b with
    | none => some x
    | some y => some (min x y)) none

/-- When a task's first pending fault arose; none for a task that retires as faulted or whose type names no trap entry. -/
def faultSince (t : Task) : Option Nat := if t.faulted || t.tt.trap.isNone then none else least (t.faults.map (·.cycle))
/-- When the first miss that awaits a refill event arose. -/
def missSince (t : Task) : Option Nat :=
  if t.faulted || t.tt.refill.isNone then none else least ((t.miss.filter fun m => !m.served && !m.noMap).map (·.cycle))
/-- When a notification of a slot was posted. -/
def noteSince (k : Core) (n : Nat) : Option Nat := least ((k.h.waiting.filter fun e => e.slot = n && e.kind = 2).map (·.cycle))

/-- The events that await the handler context of a core, as arrival cycle, slot and kind. -/
def handlerEvents (k : Core) : List (Nat × Nat × Nat) :=
  k.slots.flatMap fun e =>
    ((faultSince e.2).toList.map fun c => (c, e.1, 0)) ++ ((missSince e.2).toList.map fun c => (c, e.1, 1))
      ++ ((noteSince k e.1).toList.map fun c => (c, e.1, 2))

/-- Is the event of that slot and kind the one the handler context takes next: it is free, and no other arrived earlier,
or in the same cycle for a lower slot (R270)? -/
def takesNext (k : Core) (slot kind : Nat) : Bool :=
  let key (e : Nat × Nat × Nat) := (e.1 * 4 + e.2.1) * 4 + e.2.2
  let es := handlerEvents k
  k.h.serving.isNone && match es.find? fun e => e.2.1 = slot && e.2.2 = kind with
    | some e => es.all fun x => key e ≤ key x
    | none => false

/-- TRAP_DELIVERY (R271, R272): the next pending fault of a task is delivered; where its type names no trap entry, the
task retires as faulted at once (R291). -/
def execTrapDelivery (c n : Nat) (s : State) : Out :=
  let t := getTask s c n
  match nextFault t with
  | none => .next s
  | some f =>
    if t.faulted then .next s
    else if t.tt.trap.isNone || takesNext (getCore s c) n 0 then .next (takeTrap s c n f)
    else .next s

/-- TMISS for a miss (Table 16.4). -/
def tmissOf (m : Miss) : W64 := BitVec.ofNat 64 (m.acc * 2 ^ 48 + bits m.va 47 21 * 2 ^ 21)

/-- REFILL_EVENT (R281 item 2): a miss enters the handler context at the refill entry. -/
def execRefillEvent (c n : Nat) (s : State) : Out :=
  let t := getTask s c n
  match t.tt.refill, t.miss.find? fun m => !m.served && !m.noMap with
  | some e, some m =>
    if takesNext (getCore s c) n 1 then
      let s := modTask s c n fun t => { t with miss := t.miss.map fun x => if x = m then { x with served := true } else x }
      let s := modCore s c fun k => { k with h := { k.h with tmiss := tmissOf m } }
      .next (startHandler s c n 1 e)
    else .next s
  | _, _ => .next s

/-- TABLE_WALK (R282): the walker reads the region's table for a miss of a task whose type names no refill entry, and
fills the cache or finds no mapping; it waits while a row it reads is suspended (R76) and while every entry is pinned (R280). -/
def execTableWalk (c n : Nat) (q : Seq) (s : State) : Out :=
  let t := getTask s c n
  match t.tt.refill, t.miss.find? fun m => !m.noMap && (m.q = seqCode q || (q == .c && m.q = 4)) with
  | none, some m =>
    let keep (s : State) (l : Miss → List Miss) : State := modTask s c n fun t => { t with miss := t.miss.flatMap fun x => if x = m then l x else [x] }
    match reach s (walkReads s t.eff.troot m.va), walk s t.eff.troot m.va with
    | .error _, _ => .next s
    | .ok s, none => .next (keep s fun x => [{ x with noMap := true }])
    | .ok s, some e => match cacheInsert s c t.rcb (m.va / 2 ^ 21) (BitVec.ofNat 64 e) with
      | some s => .next (keep s fun _ => [])
      | none => .next s
  | _, _ => .next s

/-- NOTIFICATION (R327): a posted notification enters the handler context; one whose task is gone or names no entry is
dropped. -/
def execNotification (c n : Nat) (s : State) : Out :=
  let k := getCore s c
  match k.h.waiting.find? fun e => e.slot = n && e.kind = 2 with
  | none => .next s
  | some e =>
    let drop (s : State) : State := modCore s c fun k => { k with h := { k.h with waiting := k.h.waiting.erase e } }
    match (if resident s c n then (getTask s c n).tt.note else none) with
    | none => .next (drop s)
    | some entry => if takesNext k n 2 then .next (startHandler (drop s) c n 2 entry) else .next s

/-! ## Hold timeouts -/

/-- The LIMIT in force (Table 16.5). -/
def holdLimit (s : State) (t : Task) : Nat := max 0x400 (bits (sampled s t).holdto.toNat 31 0)

/-- The KIND of a wait in Table 16.6, for the waits that count. -/
def holdKind : HoldKind → Option Nat
  | .token => some 0 | .push => some 1 | .queueFull => some 2 | .inEmpty => some 3 | .outFull => some 4
  | .lock => some 5 | .peg => some 6 | .waitm => some 7 | .nodeDrain => some 8
  | _ => none

/-- The detail word of Table 16.6. -/
def holdDetail (limit num kind : Nat) : Nat := limit * 2 ^ 32 + num % 16 * 16 + kind

/-- The detail of a wait that has reached the limit. -/
def timedOut (limit : Nat) (c : Ctl) : Option Nat :=
  match c.hold with
  | some (k, n) => if c.held ≥ limit then (holdKind k).map (holdDetail limit n) else none
  | none => none

/-- Must a request for the lines of a bank wait in its turn (R72, R74, R77)? -/
def pegStays (s : State) (r : PegReq) : Bool :=
  let l := mapAddress s r.pa
  inSwap s (bits r.pa 38 21) || !pegTurn s r.core r.slot l.bankNo
    || (pegReason s (getTask s r.core r.slot) l.bankNo l.row = 0 && (openRow s l.bankNo l.row).isNone)

/-- Must a lock request wait: the bit is held, or an earlier request comes first (R146)? -/
def lockStays (s : State) (c n : Nat) (handler : Bool) : Bool :=
  s.cores.any fun k => k.2.waits.zipIdx.any fun w =>
    w.1.core = c && w.1.slot = n && w.1.handler == handler
      && ((lockHolder s k.1 w.1.bank w.1.line).isSome || (k.2.waits.take w.2).any fun v => v.bank = w.1.bank && v.line = w.1.line)

/-- The core whose engine queue a context waits for: that of the command it sent away, else its own. -/
def fullCore (s : State) (c n : Nat) (q : Seq) : Nat :=
  match (if q == .c then s.remote.findSome? fun r => match r with
    | .cmd core slot tcore _ _ _ _ _ => if core = c && slot = n then some tcore else none
    | _ => none else none) with
  | some t => t
  | none => c

/-- Is what a context waits for still not there (R284)? A word whose token, room or block has come, or whose lock or line it is next
to take, waits for its turn to issue, which is no wait of Table 16.6. -/
def lacks (s : State) (c n : Nat) (handler : Bool) (q : Seq) (x : Ctl) : Bool :=
  let t := getTask s c n
  match x.hold with
  | some (.token, i) => !tokAvail t i
  | some (.push, i) => !tokRoom t i
  | some (.queueFull, i) => !queueRoom s (fullCore s c n q) (queueOf i)
  | some (.inEmpty, _) | some (.outFull, _) => match thisXWord { s with cur := { core := c, slot := n } } with
    | some w => match streamHold t [w.a, w.b] with
      | .ok _ => false
      | .error _ => true
    | none => false
  | some (.lock, _) => lockStays s c n handler
  | some (.peg, _) => s.pegReqs.any fun r => r.core = c && r.slot = n && pegStays s r
  | some (.nodeDrain, _) => !drained s c n
  | _ => false

/-- A lock request of a context leaves every bank. -/
def leaveLocks (s : State) (c n : Nat) (handler : Bool) : State :=
  { s with cores := s.cores.map fun k => (k.1, { k.2 with
    waits := k.2.waits.filter fun w => !(w.core = c && w.slot = n && w.handler == handler) }) }

/-- Who sent a request, and whether from the handler context. -/
def Remote.sender : Remote → Nat × Nat × Bool
  | .access core slot h _ _ _ _ => (core, slot, h)
  | .token core slot h _ _ _ => (core, slot, h)
  | .cmd core slot _ _ _ _ _ _ => (core, slot, false)
  | .link core slot h _ _ _ _ _ => (core, slot, h)

/-- What a context waited for at other units is withdrawn. -/
def withdraw (s : State) (c n : Nat) (handler : Bool) : State :=
  let s := leaveLocks s c n handler
  { s with remote := s.remote.filter fun r => r.sender ≠ (c, n, handler) }

/-- A checked command that waited for room is given up, its pages unpinned. -/
def dropPend (s : State) (c n : Nat) : State :=
  match (getTask s c n).pend with
  | some (_, m) => unpin (modTask s c n fun t => { t with pend := none }) c m.pins
  | none => s

/-- HOLD_TIMEOUT (R284): a wait that has lasted LIMIT cycles, and lasts still, raises cause 0x0C at its word, or is a fault of the
handler context. -/
def execHoldTimeout (c n : Nat) (q : Seq) (s : State) : Out :=
  if !resident s c n then .next s
  else
    let t := getTask s c n
    let h := (getCore s c).h
    let mine := q == .c && (h.serving.map (·.1)) == some n
    match (if mine && lacks s c n true .c h.ctx.ctl then timedOut (holdLimit s t) h.ctx.ctl else none) with
    | some d => .next (handlerFault (at_ (withdraw s c n true) c n true) 0x0C d)
    | none =>
      if halted t s.cycle || !lacks s c n false q (taskCtl t q) then .next s
      else match timedOut (holdLimit s t) (taskCtl t q) with
        | none => .next s
        | some d =>
          let s := if q == .c then withdraw s c n false else if q == .l then dropPegReq s c n else s
          let s := if (taskCtl t q).st == .busy .queueFull (((taskCtl t q).hold.map (·.2)).getD 0) then dropPend s c n else s
          .next (raise (at_ s c n) q 0x0C d)

/-- The token queues of a command's WAITM that lack a token. -/
def lackingTokens (t : Task) (m : Cmd) : List Nat :=
  (List.range 16).filter fun i => bit (cmdWait m) i && !tokAvail t i

/-- ENGINE_WAITM_TIMEOUT (R284): a command that WAITM has kept waiting for LIMIT cycles is stopped with cause 0x0C. -/
def execEngineWaitmTimeout (c : Nat) (q : Queue) (s : State) : Out :=
  let e := engQ (getCore s c) q
  match e.deq with
  | none => .next s
  | some m =>
    let t := getTask s c m.slot
    match lackingTokens t m with
    | [] => .next s
    | i :: _ =>
      if s.cycle < e.waitAt + holdLimit s t then .next s
      else
        let s := unpin (modCore s c fun k => modEngQ k q fun e => { e with deq := none }) c m.pins
        .next (modTask s c m.slot fun t => addFault t {
          cause := 0x0C, detail := BitVec.ofNat 64 (holdDetail (holdLimit s t) i 7), seq := 4, eng := queueNo q, idx := m.idx
          op := cmdOp m, cycle := s.cycle })

/-! ## Handler writes -/

/-- A write that the handler context of a core makes for the task it serves; its fault is the handler's (R273). -/
def handlerWrite (s : State) (c : Nat) (f : State → M State) : Out :=
  match (getCore s c).h.serving with
  | none => .next s
  | some (n, _) =>
    let s := at_ s c n true
    match f s with
    | .ok t => .next t
    | .error (.trap cause d) => .next (handlerFault s cause d)
    | .error (.holdIn t _ _) => .next t
    | .error _ => .next s

/-- TFILL_WRITE (R279). -/
def execTfillWrite (c : Nat) (v : W64) (s : State) : Out := handlerWrite s c (fun s => tfill s v)
/-- TINV_WRITE (R283). -/
def execTinvWrite (c : Nat) (v : W64) (s : State) : Out := handlerWrite s c (fun s => tinv s v)
/-- TRVAL_WRITE (R278). -/
def execTrvalWrite (c : Nat) (v : W64) (s : State) : Out :=
  handlerWrite s c (fun s => do
    let t ← trvalWrite (me s) (myCore s).h.trsel.toNat v
    .ok (modMe s fun _ => t))
/-- PRVIOL_WRITE (Table 6.5). -/
def execPrviolWrite (c n : Nat) (v : W64) (s : State) : Out :=
  if resident s c n then .next (prviolSet (at_ s c n) v) else .next s

end Sys2Proof.Machine
end

