-- ==== Sys2Proof/Machine/Keccak.lean ====
section
/-!
DEFINITION. SHA3-256 and KMAC256 with a 256-bit output (R288, R340, R341), of the standards the manual names.
-/
namespace Sys2Proof.Machine

/-- The round constants of Keccak-f[1600] from the degree-8 LFSR of FIPS 202: the state of the LFSR and the constant. -/
def keccakRc (r : Nat) : Nat × Nat :=
  (List.range 7).foldl (fun (a : Nat × Nat) j =>
    let rc := if a.1 % 2 = 1 then a.2 + 2 ^ (2 ^ j - 1) else a.2
    let n := 2 * a.1
    (if n ≥ 256 then n ^^^ 0x171 else n, rc)) (r, 0)

/-- The rotation offsets, by lane `x + 5·y`. -/
def keccakRot : List Nat :=
  [0, 1, 62, 28, 27, 36, 44, 6, 55, 20, 3, 10, 43, 25, 39, 41, 45, 15, 21, 8, 18, 2, 61, 56, 14]

/-- A lane of a state. -/
def lane64 (a : List W64) (i : Nat) : W64 := nth a i 0

/-- One round: θ, ρ, π, χ and ι. -/
def keccakRound (a : List W64) (rc : Nat) : List W64 :=
  let c := (List.range 5).map fun x =>
    lane64 a x ^^^ lane64 a (x + 5) ^^^ lane64 a (x + 10) ^^^ lane64 a (x + 15) ^^^ lane64 a (x + 20)
  let d := (List.range 5).map fun x => lane64 c ((x + 4) % 5) ^^^ (lane64 c ((x + 1) % 5)).rotateLeft 1
  let a := a.zipIdx.map fun e => (e.1 ^^^ lane64 d (e.2 % 5)).rotateLeft (nth keccakRot e.2 0)
  let b := (List.range 25).map fun i =>
    let x := i % 5; let y := i / 5
    lane64 a ((x + 3 * y) % 5 + 5 * x)
  (List.range 25).map fun i =>
    let x := i % 5; let y := i / 5
    let v := lane64 b i ^^^ (~~~(lane64 b ((x + 1) % 5 + 5 * y)) &&& lane64 b ((x + 2) % 5 + 5 * y))
    if i = 0 then v ^^^ BitVec.ofNat 64 rc else v

/-- `n` rounds from an LFSR state. -/
def keccakRounds : Nat → Nat → List W64 → List W64
  | 0, _, a => a
  | n + 1, r, a =>
    let k := keccakRc r
    keccakRounds n k.1 (keccakRound a k.2)

/-- Keccak-f[1600]. -/
def keccakF (a : List W64) : List W64 := keccakRounds 24 1 a

/-- Blocks of 136 bytes absorbed. -/
def absorb : Nat → List Byte → List W64 → List W64
  | 0, _, a => a
  | n + 1, bs, a =>
    let blk := bs.take 136
    let a := a.zipIdx.map fun e =>
      if e.2 < 17 then e.1 ^^^ BitVec.ofNat 64 (ofLe ((blk.drop (8 * e.2)).take 8)) else e.1
    absorb n (bs.drop 136) (keccakF a)

/-- The 256-bit output of the sponge of rate 136 over a message with its domain byte. -/
def sponge (dom : Nat) (m : List Byte) : List Byte :=
  let pad := 136 - m.length % 136
  let tail := (List.range pad).map fun i =>
    BitVec.ofNat 8 ((if i = 0 then dom else 0) + (if i + 1 = pad then 128 else 0))
  let all := m ++ tail
  ((absorb (all.length / 136) all (List.replicate 25 0)).take 4).flatMap fun w => leBytes 8 w.toNat

/-- SHA3-256 (FIPS 202). -/
def sha3 (m : List Byte) : List Byte := sponge 6 m

/-- The bytes of a number, most significant first, at least one. -/
def beBytes (n : Nat) : List Byte := (leBytes (max 1 ((n.log2 + 8) / 8)) n).reverse

/-- left_encode, right_encode and encode_string of SP 800-185, and bytepad to 136. -/
def leftEncode (n : Nat) : List Byte := BitVec.ofNat 8 (beBytes n).length :: beBytes n
/-- right_encode. -/
def rightEncode (n : Nat) : List Byte := beBytes n ++ [BitVec.ofNat 8 (beBytes n).length]
/-- encode_string. -/
def encodeString (s : List Byte) : List Byte := leftEncode (8 * s.length) ++ s
/-- bytepad. -/
def bytepad (x : List Byte) : List Byte :=
  let y := leftEncode 136 ++ x
  y ++ List.replicate ((136 - y.length % 136) % 136) 0

/-- The bytes of an ASCII string. -/
def asciiBytes (s : String) : List Byte := s.toList.map fun c => BitVec.ofNat 8 c.toNat

/-- KMAC256 with a 256-bit key and output (SP 800-185). -/
def kmac (key : BitVec 256) (custom : String) (m : List Byte) : List Byte :=
  sponge 4 (bytepad (encodeString (asciiBytes "KMAC") ++ encodeString (asciiBytes custom))
    ++ bytepad (encodeString (leBytes 32 key.toNat)) ++ m ++ rightEncode 256)

end Sys2Proof.Machine
end

