-- ==== Sys2Proof/Machine/EvTask.lean ====
section
/-!
DEFINITION. Events of tasks and scheduling: dispatch and start (R43, R302, R303), ends and retirements (R44, R291, R300),
the loader, the planes, pre-emption and restore (R286 to R290, R304 to R306), budgets (R298, R299), host launches and
counter events (R315, R316), and tenders (R311 to R313).
-/
namespace Sys2Proof.Machine

/-! ## Pools (R302, Table 19.3) -/

/-- The lowest start of a free range of `need` units, where `used` lists the ranges taken. -/
def firstFit (size need : Nat) (used : List (Nat × Nat)) : Option Nat :=
  if need = 0 then some 0
  else if need > size then none
  else (List.range (size + 1 - need)).find? fun a => !used.any fun u => overlap a need u.1 u.2

/-- The ranges of a new task in every pool but instruction memory, beside other tasks. -/
def fitPools (others : List Task) (tt : TType) : Option Allot := do
  let v ← firstFit 64 tt.nv (others.map fun t => (t.al.v, t.tt.nv))
  let z ← firstFit 16 tt.nz (others.map fun t => (t.al.z, t.tt.nz))
  let i ← firstFit 16 tt.ni (others.map fun t => (t.al.i, t.tt.ni))
  let o ← firstFit 8 tt.no (others.map fun t => (t.al.o, t.tt.no))
  let k ← firstFit 64 tt.nt (others.map fun t => (t.al.t, t.tt.nt))
  let m ← firstFit 32 tt.spm (others.map fun t => (t.al.spm, t.tt.spm))
  some { v := v, z := z, i := i, o := o, t := k, spm := m }

/-- Instruction memory of a section in units of 1 KiB. -/
def kib (bs : List Byte) : Nat := ceilDiv bs.length 1024

/-- The instruction-memory ranges of a task's code, beside the tasks of a plane. -/
def fitCode (others : List Task) (cd : Code) (al : Allot) : Option Allot := do
  let c ← firstFit 32 (kib cd.c) (others.map fun t => (t.al.imC, kib t.code.c))
  let l ← firstFit 32 (kib cd.l) (others.map fun t => (t.al.imL, kib t.code.l))
  let x ← firstFit 64 (kib cd.x) (others.map fun t => (t.al.imX, kib t.code.x))
  let y ← firstFit 16 (kib cd.s) (others.map fun t => (t.al.imS, kib t.code.s))
  some { al with imC := c, imL := l, imX := x, imS := y }

/-- The tasks of a set placed anew in the shadow plane, in slot order (R304 step 1). -/
def planeOf : List (Nat × Task) → List (Nat × Task) → Option (List (Nat × Task))
  | done, [] => some done
  | done, e :: es =>
    match fitCode (done.map (·.2)) e.2.code e.2.al with
    | some al => planeOf (done ++ [(e.1, { e.2 with al := al })]) es
    | none => none

/-- The lowest free task slot (R302). -/
def freeSlot (k : Core) : Option Nat := (List.range 4).find? fun n => (tabFind k.slots n).isNone

/-- The tasks that staged ones will be; their ranges stay reserved (R304, R305). -/
def reserved (k : Core) : List Task := (stagedTasks k).map (·.task)

/-- The live tasks of a core less some slots. -/
def lessSlots (k : Core) (gone : List Nat) : List (Nat × Task) := k.slots.filter fun e => !gone.contains e.1

/-- Does a task that takes a slot of the live plane leave the staged ones their slots, and their code a place in the shadow plane
(R304 step 3)? -/
def besideStaged (k : Core) (n : Nat) (cd : Code) : Bool :=
  match k.shadow with
  | none => true
  | some h =>
    let rest := lessSlots { k with slots := tabSet k.slots n { code := cd } } (h.victims.map (·.1))
    rest.length + h.staged.length ≤ 4 && (planeOf [] (rest ++ h.staged.map fun x => (4, x.task))).isSome

/-! ## The dispatcher queue (R303) -/

/-- The head of the highest non-empty priority queue. -/
def headTask (k : Core) : Option QTask :=
  k.dq.foldl (fun b q => match b with
    | none => some q
    | some x => if q.prio > x.prio then some q else some x) none

/-- A queued task taken out of its core's queue. -/
def unqueue (s : State) (c : Nat) (q : QTask) : State := modCore s c fun k => { k with dq := k.dq.erase q }

/-- Is dispatch of a region's tasks blocked until its period renews (R299)? -/
def overBudget (s : State) (rcb : Nat) : Bool := overrunning s rcb false ≠ 0

/-- A task with that tag has retired: those that name it as predecessor are held, or released (R303 item 2). -/
def predecessorDone (s : State) (c tag : Nat) (faulted : Bool) : State :=
  let mark (q : QTask) : QTask := if q.after = tag then { q with held := faulted } else q
  modCore s c fun k => { k with
    dq := k.dq.map mark
    shadow := k.shadow.map fun h => { h with staged := h.staged.map fun x => { x with qt := mark x.qt } } }

/-- A task enqueued again from its launch record (R300). -/
def rerun (s : State) (c : Nat) (tag rcb typeNo : Nat) (lrec : List W64) (tt : TType) (e : Eff) : State :=
  enqueueTask s c { tag := tag, rcb := rcb, lrec := lrec, typeNo := typeNo, tt := tt, prio := e.prio, since := s.time.toNat }

/-- A task that does not start: it retires as faulted with SEQ 6 (R43 item 1). -/
def failStart (s : State) (c : Nat) (q : QTask) (cause detail : Nat) : State :=
  let s := predecessorDone (unqueue s c q) c q.tag true
  let r := trapRecord { tag := q.tag } ((freeSlot (getCore s c)).getD 0) { cause := cause, detail := BitVec.ofNat 64 detail, seq := 6 }
  let s := faultLog s q.rcb r
  match effKnown s q.rcb with
  | some e => if e.rerun then rerun s c q.tag q.rcb q.typeNo q.lrec q.tt e else s
  | none => s

/-- A task as it is at dispatch (R43, R157, R182, R231). -/
def newTask (s : State) (q : QTask) (e : Eff) (al : Allot) (cd : Code) : Task :=
  let tok (n : Nat) := bits (q.lrec.getD (if n < 8 then 4 else 5) 0).toNat (8 * (n % 8) + 7) (8 * (n % 8))
  { tag := q.tag, rcb := q.rcb, typeNo := q.typeNo, tt := q.tt, eff := e, lrec := q.lrec, al := al, code := cd, since := s.cycle
    tok := (List.range 16).map fun n => if n < q.tt.nt then tok n else 0
    uid := q.uid, overrun := q.overrun, ins := List.replicate q.tt.ni {}, outs := List.replicate q.tt.no {}, needTwo := q.two
    x := {
      v := List.replicate q.tt.nv (List.replicate 1024 0), z := List.replicate q.tt.nz (List.replicate 4096 0)
      p := List.replicate 1024 true :: List.replicate 7 (List.replicate 1024 false) } }

/-- The bytes that a new task's preload image puts at the bottom of its allotment (R304 step 3). -/
def preload (s : State) (c : Nat) (q : QTask) (e : Eff) : M (State × List Byte) :=
  if q.tt.pimg = 0 then .ok (s, []) else launchBytes s c q.rcb e.troot q.tt.pimg q.tt.plen

/-- The effective values of a queued task's region, computed at its dispatch (R297). -/
def dispatchEff (s : State) (q : QTask) : M (State × Eff) := do
  let (s, _, e) ← readRegion s q.rcb
  .ok (s, e)

/-- The code of a queued task: what a pre-empted one runs, else what its launch names (R43 item 1). -/
def headCode (s : State) (c : Nat) (q : QTask) (e : Eff) : M (State × Code) :=
  match q.code with
  | some cd => .ok (s, cd)
  | none => readKernel s c q.rcb e.troot (lrecOf q.lrec).khdr (lrecOf q.lrec).param (lrecOf q.lrec).plen

/-- Bytes put at the bottom of a task's allotment. -/
def fillSpm (s : State) (c : Nat) (t : Task) (bs : List Byte) : State := putSpm s c (spmBase t) bs

/-- A head given a free slot and fitting ranges beside the live tasks and what is reserved (R302, R304), its code in the live plane
and its image; `none` where something does not fit. -/
def dispatch (s : State) (c : Nat) (q : QTask) : M (Option State) := do
  let k := getCore s c
  let (s, e) ← dispatchEff s q
  if overBudget s q.rcb then .ok none
  else match freeSlot k, fitPools (k.slots.map (·.2) ++ reserved k) q.tt with
    | some n, some al => do
      let (s, cd) ← headCode s c q e
      match fitCode (k.slots.map (·.2)) cd al with
      | none => .ok none
      | some al => if !besideStaged k n cd then .ok none else do
        let (s, bs) ← preload s c q e
        let t := newTask s q e al cd
        .ok (some (putTask (loadCode (fillSpm (unqueue s c q) c t bs) c k.plane t) c n t))
    | _, _ => .ok none

/-- TASK_DISPATCH (R303 item 3): the head takes a free slot and fitting ranges; its code and preload image are loaded. A head
that was pre-empted is left to the loader. -/
def execTaskDispatch (c : Nat) (s : State) : Out :=
  match headTask (getCore s c) with
  | none => .next s
  | some q =>
    if q.save.isSome || q.waits (getCore s c) then .next s
    else match dispatch s c q with
      | .ok (some t) => .next t
      | .error (.trap cause d) => .next (if logWaits s q.rcb q.rcb then s else failStart s c q cause d)
      | _ => .next s

/-- TASK_START (R43 item 3): all four streams of a dispatched task become able to issue. -/
def execTaskStart (c n : Nat) (s : State) : Out :=
  if resident s c n then .next (modTask s c n fun t => { t with started := true }) else .next s

/-! ## Save pools (R306) -/

/-- The address of entry `e` of a save pool. -/
def entryAt (s : State) (pool e : Nat) : Nat :=
  pool + 4096 * (1 + ceilDiv (bits (memW s pool) 31 0) 32768) + 4096 * bits (memW s pool) 47 32 * e

/-- Is entry `e` in use? -/
def entryUsed (s : State) (pool e : Nat) : Bool := bit (memNat s.mem (pool + 64 + e / 8) 1) (e % 8)

/-- An entry marked, or freed. -/
def markEntry (s : State) (pool e : Nat) (used : Bool) : State :=
  storeHw s (pool + 64 + e / 8) (leBytes 1 (putBits (memNat s.mem (pool + 64 + e / 8) 1) (e % 8) (e % 8) used.toNat))

/-- What finding an entry of a pool reads: its header and bitmap. -/
def poolReads (s : State) (pool : Nat) : List (Nat × Nat) :=
  if pool = 0 then [] else [(pool, 8), (pool + 64, ceilDiv (min 4096 (bits (memW s pool) 31 0)) 8)]

/-- The lowest free entry claimed for a task, as pool and address; none where R306 gives the task none, or the pool cannot be read
(R85; DEDUCED, log 61). -/
def claimEntry (s : State) (t : Task) : Option (State × Nat × Nat) :=
  let pool := t.eff.savep
  let h := memW s pool
  let s := readHw s (poolReads s pool)
  if pool = 0 || (poolReads s pool).any (fun r => (poisonIn s r.1 r.2).isSome) || bits h 31 0 > 4096 || t.tt.res * 32768 > 4096 * (bits h 47 32 - 1) || bits h 47 32 = 0 then none
  else match (List.range (bits h 31 0)).find? fun e => !entryUsed s pool e with
    | some e => some (markEntry s pool e true, pool, entryAt s pool e)
    | none => none

/-- The entry at an address freed. -/
def releaseEntry (s : State) (pool a : Nat) : State :=
  let s := readHw s (poolReads s pool)
  match (List.range (min 4096 (bits (memW s pool) 31 0))).find? fun e => entryAt s pool e = a with
  | some e => markEntry s pool e false
  | none => s

/-! ## Retirement (R44, R77, R130, R147, R291) -/

/-- The pages of a task's runs and drain unpinned. -/
def unpinTask (s : State) (c n : Nat) : State :=
  let t := getTask s c n
  unpin s c ((t.ins.flatMap fun i => i.runs.flatMap (·.pins)) ++ ((t.drain.map (·.pins)).getD []))

/-- The locks of a task, and of the handler context while it serves it, released; their requests withdrawn: where the task retires
(R147) and where it is pre-empted (DESIGN CHOICE, log 26). -/
def freeLocks (s : State) (c n : Nat) : State :=
  let s := dropPegReq (withdraw (withdraw s c n false) c n true) c n
  let handlers := s.cores.any fun k => k.2.locks.any fun l => l.core = c && l.slot = n && l.handler
  let s := if handlers then modCore s c fun k => { k with h := { k.h with ctx := { k.h.ctx with lock := none } } } else s
  { s with cores := s.cores.map fun k => (k.1, { k.2 with locks := k.2.locks.filter fun l => !(l.core = c && l.slot = n) }) }

/-- A victim that is gone before the flip gives its save entry back. -/
def leaveShadow (s : State) (c n : Nat) : State :=
  match (getCore s c).shadow with
  | none => s
  | some h =>
    let s := match h.victims.find? fun v => v.1 = n with
      | some v => releaseEntry s v.2.1 v.2.2
      | none => s
    modCore s c fun k => { k with shadow := some { h with victims := h.victims.filter fun v => v.1 ≠ n } }

/-- A task leaves its slot: everything it holds is released and its allotment freed. -/
def freeTask (s : State) (c n : Nat) : State :=
  let s := [Queue.matrix, .copy, .weight, .pred].foldl (fun s q => dropCmds s c n q) s
  let s := freeLocks (releasePegs (unpinTask (dropPend s c n) c n) c n) c n
  let t := getTask s c n
  let s := if t.air.size = 0 then s else scramble s c (spmBase t + spmUsable t) (t.air.size * 32768)
  modCore s c fun k => { k with
    slots := tabDel k.slots n
    btcache := k.btcache.filter fun e => e.slot ≠ n
    h := { k.h with waiting := k.h.waiting.filter fun e => e.slot ≠ n } }

/-- A task retires (R44): unfaulted, or as faulted. -/
def retireTask (s : State) (c n : Nat) (faulted : Bool) : State :=
  let tag := (getTask s c n).tag
  predecessorDone (leaveShadow (freeTask s c n) c n) c tag faulted

/-- Does a command of the task run, or does the handler context serve it? -/
def stillBusy (s : State) (c n : Nat) : Bool :=
  let k := getCore s c
  ([k.qm, k.qc, k.qw, k.qp].any fun e => e.running.any fun r => r.cmd.slot = n) || (k.h.serving.map (·.1)) == some n

/-- Is a command that the stream pushed still queued or running anywhere (R44)? -/
def pushedAlive (s : State) (c n q : Nat) : Bool := s.cores.any fun k => (coreCmds k.2).any fun m => m.from_ == (c, n, q)

/-- Is all that an end instruction waits for done (R44)? -/
def endReady (s : State) (c n : Nat) (q : Seq) : Bool :=
  let t := getTask s c n
  !pushedAlive s c n (seqCode q) && match q with
    | .x => t.x.ops.all (·.landed) && t.x.sigs.isEmpty
    | .s => t.drain.isNone
    | _ => true

/-- STREAM_END_RETIRE (R44): an end instruction retires with its signal; after the fourth the task retires. -/
def execStreamEndRetire (c n : Nat) (q : Seq) (s : State) : Out :=
  let t := getTask s c n
  if !resident s c n || halted t s.cycle || (taskCtl t q).st != .ending || !endReady s c n q then .next s
  else
    let last := [Seq.c, .l, .x, .s].all fun p => p == q || (taskCtl t p).st == .ended
    let pushed : Option Task := match (taskCtl t q).owes with
      | none => some t
      | some k => if tokRoom t k then some (tokPush t k) else none
    match pushed with
    | none => .next s
    | some t =>
      if last && stillBusy s c n then .next s
      else
        let s := putTask s c n (modTaskCtl t q fun x => { x with st := .ended, owes := none, hold := none, held := 0 })
        .next (if last then retireTask s c n false else s)

/-- FAULTED_RETIREMENT (R291, R300): unstarted commands are dropped; once the started ones have retired the task's
resources are released, its record is logged, and it is rerun where its region asks for it. -/
def execFaultedRetirement (c n : Nat) (s : State) : Out :=
  let t := getTask s c n
  if !resident s c n || !t.faulted then .next s
  else
    let s := [Queue.matrix, .copy, .weight, .pred].foldl (fun s q => dropCmds s c n q) s
    if stillBusy s c n || (t.eff.rerun && !dqRoom s c) || (!t.record.isEmpty && logWaits s t.rcb t.rcb) then .next s
    else
      let s := retireTask s c n true
      let s := if t.record.isEmpty then s else faultLog s t.rcb t.record
      .next (if t.eff.rerun then rerun s c t.tag t.rcb t.typeNo t.lrec t.tt t.eff else s)

/-! ## The save area (Table 16.7) -/

/-- A word of the save area. -/
def areaWord (off v : Nat) : Nat × List Byte := (off, leBytes 8 v)

/-- Words of the save area in a row. -/
def areaWords (off : Nat) (ws : List W64) : Nat × List Byte := (off, ws.flatMap fun w => leBytes 8 w.toNat)

/-- The system registers of the save area, in its order, and their scheduling part. -/
def savedSys (r : SysRegs) : List W64 :=
  [r.flm, r.numfl, r.prth, r.prbeta, r.tau, r.misslim, r.prviol, r.mxcfg, r.rngk, r.hstg, r.holdto, r.bidw, r.tstat, r.akey]

/-- Those registers read back; the pacing registers are at reset (R320). -/
def restoredSys (w : Nat → W64) : SysRegs :=
  { flm := w 0, numfl := w 1, prth := w 2, prbeta := w 3, tau := w 4, misslim := w 5, prviol := w 6, mxcfg := w 7, rngk := w 8
    hstg := w 9, holdto := w 10, bidw := w 11, tstat := w 12, akey := w 13 }

/-- The parts of a task's save area but its tags. -/
def areaParts (t : Task) (pegs : List Nat) (rimg : Nat) : List (Nat × List Byte) :=
  let nat (l : List Nat) : List W64 := l.map (BitVec.ofNat 64)
  [areaWord 0 (2 ^ 48 + t.tag), areaWord 8 t.rcb,
   areaWord 0x10 ((t.needTwo || t.sys.mxcfg.getLsbD 0).toNat * 2 ^ 20 + pegs.length * 2 ^ 16 + t.eff.pegpol.toNat * 2 ^ 8 + t.typeNo),
   areaWord 0x18 rimg, areaWord 0x20 (t.tt.res * 32768), areaWord 0x48 (t.lrec.getD 6 0).toNat,
   areaWord 0x50 (t.air.slot * 2 ^ 16 + t.air.pmin * 2 ^ 8 + t.air.size),
   areaWords 0xC0 (nat [t.c.ctl.pc, t.lc.pc, t.x.ctl.pc, t.sc.pc]),
   (0xE0, [BitVec.ofNat 8 (((List.range 8).map fun i => if i = 0 || nth t.c.f i false then 2 ^ i else 0).foldl (· + ·) 0)]),
   areaWords 0xE8 (nat t.c.b),
   (0x108, (List.range 16).map fun n => BitVec.ofNat 8 (if n < t.tt.nt then nth t.tok n 0 else 0)),
   areaWords 0x140 (t.c.r.set 0 0), areaWords 0x240 t.j, areaWords 0x2C0 t.y, areaWords 0x300 (savedSys t.sys),
   areaWords 0x400 (nat (pegs.map fun va => 2 ^ 63 + va % 2 ^ 48))]

/-- Parts laid into an area. -/
def layParts (m : Memory) (ps : List (Nat × List Byte)) : Memory := ps.foldl (fun m p => memWrite m p.1 p.2) m

/-- The save area of a task with both tags (R288). -/
def saveArea (key : BitVec 256) (t : Task) (pegs : List Nat) (rimg : Nat) (img : List Byte) : List Byte :=
  let m := layParts [] (areaParts t pegs rimg ++ [(0x28, kmac key "CHRODAR-RIMG" img)])
  memRead (memWrite m 0xFE0 (kmac key "CHRODAR-SAVE" (memRead m 0 0xFE0))) 0 4096

/-- PREEMPTION (R286) into a save entry: pegs recorded under the save policy and released, image and area written, the
allotment freed, and the task re-enqueued; under the drop policy its rows are lost (Table 4.7). A lock bit that the handler context
took while it served the task is released too (DESIGN CHOICE, log 26). -/
def preempt (s : State) (c n : Nat) (pool a : Nat) : State :=
  let t := tokEnd (getTask s c n)
  let pegs := if t.eff.pegpol then t.pegs.map (·.va) else []
  let img := memRead (getCore s c).spm (spmBase t) (t.tt.res * 32768)
  let s := storeHw (releasePegs s c n) (a + 4096) img
  let s := freeTask (storeHw s a (saveArea (Config.saveKey s.keys.saveNo) t pegs (a + 4096) img)) c n
  enqueueOld s c { tag := t.tag, rcb := t.rcb, lrec := t.lrec, typeNo := t.typeNo, tt := t.tt, prio := t.eff.prio, save := some (pool, a)
                   since := s.time.toNat, code := some t.code, two := t.needTwo, uid := t.uid, overrun := t.overrun
                   lost := if t.eff.pegpol then [] else t.pegs.map fun p => { p with st := .lost } }

/-! ## Restore (R287 to R290) -/

/-- The bytes of the save area that no field occupies. -/
def areaGaps : List (Nat × Nat) :=
  [(4, 2), (0x13, 5), (0x24, 4), (0x54, 0x6C), (0xE1, 7), (0x118, 0x28), (0x370, 0x90), (0x440, 0xBA0)]
  ++ (List.range 8).map fun i => (0x406 + 8 * i, 1)

/-- The checks of R290 on a save area: the image bytes, or the cause and reason of the failure. -/
def checkArea (s : State) (c : Nat) (q : QTask) (a : Nat) : Except (Nat × Nat) (List Byte) :=
  let key := Config.saveKey s.keys.saveNo
  let w (off : Nat) := memW s (a + off)
  let img := memRead s.mem (w 0x18) (bits (w 0x20) 31 0)
  let r := lrecOf (q.lrec.set 6 (BitVec.ofNat 64 (w 0x48)))
  if (poisonIn s a 4096).isSome then .error (0x10, 2)
  else if memRead s.mem (a + 0xFE0) 32 ≠ kmac key "CHRODAR-SAVE" (memRead s.mem a 0xFE0) then .error (0x10, 1)
  else if bits (w 0) 63 48 ≠ 1 || areaGaps.any (fun g => memNat s.mem (a + g.1) g.2 ≠ 0) then .error (0x10, 3)
  else if (poisonIn s (w 0x18) (bits (w 0x20) 31 0)).isSome then .error (0x10, 2)
  else if memRead s.mem (a + 0x28) 32 ≠ kmac key "CHRODAR-RIMG" img then .error (0x10, 1)
  else if bit (w 0x10) 20 && !(engUsable s c 0 && engUsable s c 1) then .error (0x11, 1)
  else if r.nrow ≠ (lrecOf q.lrec).nrow || r.ncol ≠ (lrecOf q.lrec).ncol || r.row0 + r.nrow > 15 || r.col0 + r.ncol > 15
      || (rectangle r).any (fun k => !coreUsable s k) then .error (0x11, 2)
  else .ok img

/-- A task with the state of its save area; its pegs await the flip (R287, R289). -/
def restoredTask (s : State) (t : Task) (a : Nat) : Task :=
  let w (off : Nat) : W64 := BitVec.ofNat 64 (memW s (a + off))
  let ws (off n : Nat) : List W64 := (List.range n).map fun i => w (off + 8 * i)
  let pc (i : Nat) : Ctl := { pc := memW s (a + 0xC0 + 8 * i) }
  let air := memW s (a + 0x50)
  { t with
    c := { r := ws 0x140 32, b := (ws 0xE8 4).map (·.toNat), ctl := pc 0, f := (List.range 8).map fun i => bit (memW s (a + 0xE0)) i }
    j := ws 0x240 16, y := ws 0x2C0 8, lc := pc 1, sc := pc 3, x := { t.x with ctl := pc 2 }
    tok := (memRead s.mem (a + 0x108) 16).map (·.toNat)
    sys := restoredSys fun i => w (0x300 + 8 * i)
    air := { size := bits air 4 0, slot := bits air 27 16, pmin := bits air 15 8 }
    pegs := (List.range (min 8 (bits (memW s (a + 0x10)) 19 16))).filterMap fun i =>
      let e := memW s (a + 0x400 + 8 * i)
      if bit e 63 then some ⟨0, 0, bits e 47 0, .lost⟩ else none }

/-- The parent of a region, or the region itself where it is the root. -/
def parentOf (s : State) (rcb : Nat) : Nat := if bits (memW s rcb) 63 8 = 0 then rcb else bits (memW s rcb) 63 8 * 256

/-- A restore that fails: nothing of the task becomes live, and the parent region's log receives the record (R290). -/
def failRestore (s : State) (c : Nat) (q : QTask) (a cause reason : Nat) : State :=
  let r := trapRecord { tag := q.tag } ((freeSlot (getCore s c)).getD 0)
    { cause := cause, detail := BitVec.ofNat 64 a, seq := 6, op := reason }
  faultLogIn (unqueue s c q) (parentOf s q.rcb) q.rcb r

/-! ## The loader (R304 to R306) -/

/-- The ranges that a head takes beside the continuing and the kept tasks, in the shadow plane. -/
def fitSet (k : Core) (gone : List Nat) (tt : TType) (cd : Code) : Option Allot := do
  let rest := lessSlots k gone
  if rest.length + (reserved k).length ≥ 4 then none
  let al ← fitPools (rest.map (·.2) ++ reserved k) tt
  let plane ← planeOf [] (rest ++ (reserved k).map fun t => (4, t))
  fitCode (plane.map (·.2)) cd al

/-- Tasks in the order in which the loader takes victims: lowest priority, then dispatched most recently (R306). -/
def insertVictim (e : Nat × Task) : List (Nat × Task) → List (Nat × Task)
  | [] => [e]
  | x :: xs =>
    if e.2.eff.prio < x.2.eff.prio || (e.2.eff.prio = x.2.eff.prio && e.2.since ≥ x.2.since) then e :: x :: xs
    else x :: insertVictim e xs

/-- Victims taken one by one, each with a save entry, until the head fits. -/
def takeVictims (c : Nat) (tt : TType) (cd : Code) : State → List (Nat × Nat × Nat) → List (Nat × Task) →
    Option (State × List (Nat × Nat × Nat) × Allot)
  | s, vs, cands =>
    match fitSet (getCore s c) (vs.map (·.1)) tt cd with
    | some al => some (s, vs, al)
    | none => match cands with
      | [] => none
      | e :: es => match claimEntry s e.2 with
        | some (s, pool, a) => takeVictims c tt cd s (vs ++ [(e.1, pool, a)]) es
        | none => takeVictims c tt cd s vs es

/-- Can the head be dispatched directly (R303 item 3)? -/
def direct (k : Core) (q : QTask) (cd : Code) : Bool :=
  q.save.isNone && match freeSlot k, fitPools (k.slots.map (·.2) ++ reserved k) q.tt with
    | some n, some al => (fitCode (k.slots.map (·.2)) cd al).isSome && besideStaged k n cd
    | _, _ => false

/-- The head staged with its ranges beside the tasks that the shadow plane keeps: a new task preloaded, a restored one verified
(R290, R304 step 3). A read that waits leaves it unstaged. -/
def stageHead (s0 s : State) (c : Nat) (q : QTask) (e : Eff) (vs : List (Nat × Nat × Nat)) (al : Allot) (cd : Code) : State :=
  let t := newTask s q e al cd
  let put (s : State) (t : Task) : State :=
    modCore (unqueue s c q) c fun k => { k with shadow := some { victims := vs, staged := stagedTasks k ++ [⟨q, t⟩], token := true } }
  match q.save with
  | none => match preload s c q e with
    | .ok (s, bs) => put (fillSpm s c t bs) t
    | .error (.trap cause d) => failStart s0 c q cause d
    | .error _ => s0
  | some (pool, a) => match reach s [(a, 4096), (memW s (a + 0x18), bits (memW s (a + 0x20)) 31 0)] with
    | .error _ => s0
    | .ok s => match checkArea s c q a with
      | .error (cause, reason) => failRestore s0 c q a cause reason
      | .ok img =>
        let s' := scramble s c (spmBase t + t.tt.res * 32768) ((t.tt.spm - t.tt.res) * 32768)
        put (releaseEntry (fillSpm s' c t (img.take (t.tt.res * 32768))) pool a) (restoredTask s t a)

/-- The loader's work on a head: victims, then the head itself or, where it overlaps a victim, a flip that only takes the victims
out (R304 step 2, R306); `none` where it is dispatched directly or nothing makes room. The victims of a shadow plane that is
carried on stay victims (R305). -/
def stage (s0 : State) (c : Nat) (q : QTask) : M (Option State) := do
  let (s, e) ← dispatchEff s0 q
  if overBudget s q.rcb then .ok none
  else do
    let (s, cd) ← headCode s c q e
    let k := getCore s c
    let old := (k.shadow.map (·.victims)).getD []
    let cands := ((lessSlots k (old.map (·.1))).filter fun t => t.2.eff.preempt && t.2.eff.prio < e.prio).foldl (fun l t => insertVictim t l) []
    if direct k q cd then .ok none
    else if rowsWait s (cands.flatMap fun t => poolReads s t.2.eff.savep) then hold .line
    else match takeVictims c q.tt cd s old cands with
      | none => .ok none
      | some (s', vs, al) =>
        .ok (some (if vs.any (fun v => overlap al.spm q.tt.spm (getTask s c v.1).al.spm (getTask s c v.1).tt.spm) then
            modCore s' c fun k => { k with shadow := some { victims := vs, staged := stagedTasks k, token := true, only := true } }
          else stageHead s0 s' c q e vs al cd))

/-- LOADER_STAGE (R304 to R306): the loader places the next set in the shadow plane and sets the swap token. It works while no
swap is in progress; a shadow plane that keeps held tasks is carried on (R305). -/
def execLoaderStage (c : Nat) (s : State) : Out :=
  match headTask (getCore s c) with
  | none => .next s
  | some q =>
    if tokenHolds s c || q.waits (getCore s c) then .next s
    else match stage s c q with
      | .ok (some t) => .next t
      | .error (.trap cause d) => .next (if logWaits s q.rcb q.rcb then s else failStart s c q cause d)
      | _ => .next s

/-! ## The flip -/

/-- Is the task held at a drain point (R285, R304): its NODE has found one, it is one still, and no fault stops the task? -/
def atDrain (s : State) (c n : Nat) : Bool :=
  let t := getTask s c n
  t.drainPt.isSome && drained s c n && !t.stopped && t.faults.isEmpty

/-- The entry that translates the address of a peg: a cached one, or, for a type without a refill entry, the walker's (R281). -/
def pegEntry (s : State) (c : Nat) (t : Task) (va : Nat) : Option Nat :=
  match cacheFind (getCore s c) t.rcb va with
  | some e => some e.e.toNat
  | none => if t.tt.refill.isSome then none else walk s t.eff.troot va

/-- The places in stack memory that the pegs of a restored task name. What is no readable stack memory of this module is no peg,
as for LNPEG (R78). -/
def pegPlaces (s : State) (c : Nat) (t : Task) : List (Nat × Nat) :=
  t.pegs.filterMap fun p => (pegEntry s c t p.va).bind fun e =>
    let pa := entryPa e p.va
    if !permits e 0 || isRemote s e || pa ≥ 2 ^ 39 then none else some (p.va, pa)

/-- The pegs of a restored task whose addresses have no translation yet: lost, with no row until an entry gives one (DEDUCED,
log 37). -/
def pegsOpen (s : State) (c : Nat) (t : Task) : List Peg := t.pegs.filter fun p => (pegEntry s c t p.va).isNone

/-- RESTORE_REPEG (R289) of one row: held, or lost where a limit of R77 fails. -/
def restorePeg (s : State) (c n : Nat) (p : Nat × Nat) : State :=
  let l := mapAddress s p.2
  let b := l.bankNo
  let st (s : State) (x : PegSt) : State := modTask s c n fun t => { t with pegs := t.pegs ++ [⟨b, l.row, p.1, x⟩] }
  if (pegOf (getTask s c n) b l.row).isSome then s
  else if pegReason s (getTask s c n) b l.row ≠ 0 then st s .lost
  else match openRow s b l.row with
    | some s => st s .held
    | none => st s .lost

/-- A staged task becomes live in the lowest free slot and starts (R304), with its region's effective values anew (R297); rows that it
lost when it was pre-empted stay lost until its next access to them (Table 4.7). One that finds no slot or no code memory stays
staged. -/
def startStaged (s : State) (c : Nat) (x : Staged) : State :=
  match freeSlot (getCore s c), fitCode ((getCore s c).slots.map (·.2)) x.task.code x.task.al with
  | some n, some al =>
    let ps := pegPlaces s c x.task
    let s := renewEff s x.task.rcb
    let t := { x.task with
      al := al, eff := (effNow s x.task.rcb).getD x.task.eff, started := true, since := s.cycle, pegs := x.qt.lost ++ pegsOpen s c x.task }
    ps.foldl (fun s p => restorePeg s c n p) (putTask (loadCode s c (getCore s c).plane t) c n t)
  | _, _ => modCore s c fun k => { k with shadow := some { victims := [], staged := stagedTasks k ++ [x], token := true } }

/-- What the pegs of a staged task ask the walker to read. -/
def pegReads (s : State) (c : Nat) (x : Staged) : List (Nat × Nat) :=
  x.task.pegs.flatMap fun p =>
    if (cacheFind (getCore s c) x.task.rcb p.va).isSome || x.task.tt.refill.isSome then [] else walkReads s x.task.eff.troot p.va

/-- Does a row that a restored task is to peg wait: for a swap, its bank, or earlier requests (R72, R76, R77)? -/
def pegBlocked (s : State) (c : Nat) (x : Staged) : Bool :=
  (pegPlaces s c x.task).any fun p =>
    let l := mapAddress s p.2
    inSwap s (bits p.2 38 21) || (getBank s l.bankNo).busy || rowSuspended s l.bankNo l.row || !(pegWaits s l.bankNo).isEmpty

/-- Is a task held at its drain point by a budget with BPOL 0 that it overruns (R299)? -/
def overran (s : State) (t : Task) : Bool := overrunning s t.rcb false ≠ 0

/-- Can a task that overruns its budget be pre-empted: it has a save entry, and the queue room? -/
def canLeave (s : State) (c : Nat) (t : Task) : Bool := dqRoom s c && (claimEntry s t).isSome

/-- The planes change: the continuing tasks run from the shadow plane and their NODEs retire, but for those that overrun a budget
with BPOL 0 (R299, R305); the tasks that wait stay staged. -/
def flipPlanes (s : State) (c : Nat) (kept : List Staged) : State :=
  let rest := (getCore s c).slots
  let s := modCore s c fun k => { k with
    slots := (planeOf [] rest).getD rest, plane := 1 - k.plane
    shadow := if kept.isEmpty then none else some { victims := [], staged := kept, token := true } }
  let s := (getCore s c).slots.foldl (fun s t => loadCode s c (getCore s c).plane t.2) s
  (rest.filter fun t => !overran s t.2).foldl (fun s t => retire .c (at_ (modTask s c t.1 fun t => { t with drainPt := none }) c t.1)) s

/-- PLANE_FLIP (R304, R305): once every live task is held at a drain point, victims are pre-empted, the planes change, the
continuing tasks' NODEs retire and the staged tasks that may become live start. A live task that overruns a budget with BPOL 0 is
pre-empted first (Table 19.4). -/
def execPlaneFlip (c : Nat) (s : State) : Out :=
  match (getCore s c).shadow with
  | none => .next s
  | some h =>
    let new := h.staged.filter (Staged.ready s c)
    if !canFlip s c h || new.any (pegBlocked s c) || !((getCore s c).slots.all fun t => atDrain s c t.1)
        || (getCore s c).dq.length + h.victims.length > 64
        || (lessSlots (getCore s c) (h.victims.map (·.1))).any (fun t => overran s t.2 && canLeave s c t.2) then .next s
    else match reach s (new.flatMap fun x => pegReads s c x ++ regionReads s x.task.rcb) with
      | .error _ => .next s
      | .ok s1 =>
        let s1 := h.victims.foldl (fun s v => preempt s c v.1 v.2.1 v.2.2) s1
        .next (new.foldl (fun s x => startStaged s c x) (flipPlanes s1 c (h.staged.filter fun x => !x.ready s c)))

/-! ## Budgets (R298, R299) -/

/-- What a core's flush reads. -/
def flushReads (s : State) (c : Nat) : List (Nat × Nat) := (flushed (getCore s c)).flatMap fun r => (charged s r).flatMap countReads

/-- BUDGET_FLUSH (R298): a flush of each microsecond of TIME, which waits for the rows that it reads (R76). -/
def execBudgetFlush (c : Nat) (s : State) : Out :=
  if s.time.toNat / 1000 = (getCore s c).flushAt || rowsWait s (flushReads s c) then .next s else .next (flushBudget s c)

/-- The exhausted budgets of BPOL 1 that a task has not been told of in their present period (R299). -/
def untold (s : State) (t : Task) : List Budget :=
  (charged s t.rcb).filter fun b => b.bpol && exhaustedBy s b ≠ 0 && tabFind t.overrun b.rcb ≠ some (memW s (b.rcb + 144))

/-- BUDGET_OVERRUN (R299): for an exhausted budget with BPOL 1 the task takes cause 0x0E once per period; for one with BPOL 0 it
is pre-empted at its drain point, where its save pool has room. -/
def execBudgetOverrun (c n : Nat) (s : State) : Out :=
  let t := getTask s c n
  let new := untold s t
  if !resident s c n || !t.started || t.faulted then .next s
  else if !new.isEmpty then
    let s' := modTask s c n fun t => { t with overrun := new.foldl (fun l b => tabSet l b.rcb (memW s (b.rcb + 144))) t.overrun }
    .next (pendFault s' c n 0x0E (new.foldl (fun v b => v ||| exhaustedBy s b) 0))
  else if !overran s t || !atDrain s c n || !dqRoom s c || rowsWait s (poolReads s t.eff.savep) then .next s
  else
    let leave (s : State) : State := modCore s c fun k => { k with
      shadow := k.shadow.map fun h => { h with victims := h.victims.filter fun v => v.1 ≠ n } }
    match ((getCore s c).shadow.bind fun h => h.victims.find? fun v => v.1 = n) with
    | some v => .next (leave (preempt s c n v.2.1 v.2.2))
    | none => match claimEntry s t with
      | some (s, pool, a) => .next (preempt s c n pool a)
      | none => .next s

/-! ## Host launches and counter events (R315, R316) -/

/-- Eight words at a physical address. -/
def recordAt (s : State) (a : Nat) : List W64 := (List.range 8).map fun i => BitVec.ofNat 64 (memW s (a + 8 * i))

/-- The region whose log receives the record of a failed launch: the named one, or the root where that cannot be read (R315). -/
def failedRegion (s : State) (rcb : Nat) : Nat :=
  if (regionChain s rcb).isSome && (regionReads s rcb).all (fun r => (poisonIn s r.1 r.2).isNone) then rcb else (rootRegion s).getD rcb

/-- The record of a failed launch logged (R315); none while the log waits for a row. -/
def failLaunch (s : State) (tag rcb cause d : Nat) : Option State :=
  if logWaits s rcb rcb then none
  else some (faultLog s rcb (trapRecord { tag := tag } 0 { cause := cause, detail := BitVec.ofNat 64 d, seq := 6 }))

/-- A launch by the scheduler front end: the task is enqueued, or its record logged with SEQ 6; none while a queue is full.
The front end has no translation cache: it is core 512 of the reads. Of a record that cannot be read neither the region nor TAG is
known: its trap record goes to the root region's log with a free TAG (R85, R315; DEDUCED, log 61). -/
def frontLaunch (s : State) (a : Nat) : Option State :=
  match reachGood s [(a, 64)] with
  | .error (.trap cause d) => failLaunch (bump s) (Config.freeNat s.fresh 0 % 2 ^ 32) ((rootRegion s).getD 0) cause d
  | .error _ => none
  | .ok s =>
    let r := recordAt s a
    let l := lrecOf r
    match checkLaunch s 512 a r none false with
    | .ok (s, tt, e, rcb, cores) =>
      if cores.all (dqRoom s) then some (cores.foldl (fun s c => enqueueTask s c (queued s r tt e rcb)) s) else none
    | .error (.trap cause d) => failLaunch s l.tag (failedRegion s l.rcb) cause d
    | .error (.trapIn s cause d) => failLaunch s l.tag (failedRegion s l.rcb) cause d
    | .error _ => none

/-- HOST_LAUNCH_ENTRY (R315): the front end consumes the oldest entry of the host launch queue. -/
def execHostLaunchEntry (s : State) : Out :=
  let q := s.lqbase.toNat
  let size := bits (memW s q) 31 0
  let head := memW s (q + 64)
  let n := (memW s (q + 8) + 2 ^ 64 - head) % 2 ^ 64
  if q = 0 || size = 0 || bits (memW s q) 47 32 ≠ 64 || n = 0 || n > size then .next s
  else match (reachGood s [(q, 72)]).toOption.bind fun s => frontLaunch s (q + 128 + 64 * (head % size)) with
    | some s => .next (setMemW s (q + 64) ((head + 1) % 2 ^ 64))
    | none => .next s

/-- The value that event `e` watches (R316). -/
def watched (s : State) (v : SchedEv) : Option Int :=
  let c := bits v.ctl.toNat 7 7 * 256 + bits v.ctl.toNat 15 8
  match bits v.ctl.toNat 1 0 with
  | 1 => some (((s.time.toNat - ((least ((getCore s c).dq.map (·.since))).getD s.time.toNat)) / 1000 : Nat) : Int)
  | 2 => some (coreTemp s c)
  | _ => none

/-- An event after the value it watches: a rise to THR while it is armed makes a launch due and disarms it, and it re-arms below
THR − HYST (R316). -/
def watchEvent (v : SchedEv) (x : Int) : SchedEv :=
  let thr : Int := bits v.ctl.toNat 47 16
  if x < thr then { v with below := true, armed := v.armed || x + (bits v.ctl.toNat 63 48 : Int) < thr }
  else if v.below && v.armed then { v with below := false, armed := false, due := v.due + 1 }
  else { v with below := false }

/-- An event's launch that is due made as the front end makes it: a full dispatcher queue delays it (R315, R316). -/
def launchDue (s : State) (e : Nat) (v : SchedEv) : State :=
  let put (s : State) (v : SchedEv) : State := { s with events := tabSet s.events e v }
  if v.due = 0 then put s v
  else match frontLaunch s v.erec.toNat with
    | some s => put s { v with due := v.due - 1 }
    | none => put s v

/-- COUNTER_EVENT (R316): the event's value watched, and a launch that is due made, whatever the value does meanwhile. -/
def execCounterEvent (e : Nat) (s : State) : Out :=
  let v := tabGet {} s.events e
  if e ≥ 8 then .next s
  else match watched s v with
    | none => .next (if v.due = 0 then s else launchDue s e v)
    | some x => .next (launchDue s e (watchEvent v x))

/-! ## Tenders (R311 to R313) -/

/-- The hop distance of two cores of a die. -/
def hopOf (a b : Nat) : Nat :=
  let d (x y : Nat) := (x - y) + (y - x)
  d (a % 256 / 16) (b % 256 / 16) + d (a % 16) (b % 16)

/-- Free scratchpad of a core in KiB. -/
def freeSpm (k : Core) : Nat := 1024 - ((k.slots.map (·.2) ++ reserved k).map fun t => 32 * t.tt.spm).foldl (· + ·) 0

/-- The thermal margin of a core (R324). -/
def thermalMargin (s : State) (c : Nat) : Nat := (max 0 (min 127 ((((tabGet {} s.cols (columnOf c)).tlim : Int) - coreTemp s c) / 4))).toNat

/-- The cost that a core bids (R311). -/
def bidCost (s : State) (form : List W64) (key c from_ : Nat) : Int :=
  let w0 := (form.getD 0 0).toNat
  let k := getCore s c
  let x := sext (bits w0 31 0) 32 + sext (bits w0 39 32) 8 * missOf k key + sext (bits w0 47 40) 8 * k.dq.length
    + sext (bits w0 55 48) 8 * hopOf c from_ + sext (bits w0 63 56) 8 * freeSpm k
    + sext (bits (form.getD 1 0).toNat 7 0) 8 * thermalMargin s c
  max (-(2 ^ 31)) (min (2 ^ 31 - 1) x)

/-- TENDER_BID (R311, R312): a bidder's features are computed when the tender reaches it; a bid after the window is
ignored. -/
def execTenderBid (c n b : Nat) (s : State) : Out :=
  match (getTask s c n).tender with
  | none => .next s
  | some td =>
    if td.closed || !td.cores.contains b then .next s
    else
      let td' := { td with cores := td.cores.erase b }
      let kept : Tender := match tabFind (getCore s b).forms td.cls with
        | none => td'
        | some f =>
          if s.cycle > td.start + td.win then td'
          else { td' with bids := td.bids ++ [⟨b, bidCost s f td.key b c, hopOf b c⟩], kept := td.kept + 1 }
      .next (modTask s c n fun t => { t with tender := some kept })

/-- Bids in the order of R312 step 3. -/
def insertBid (e : Bid) : List Bid → List Bid
  | [] => [e]
  | x :: xs =>
    if e.cost < x.cost || (e.cost = x.cost && (e.hop < x.hop || (e.hop = x.hop && e.core < x.core))) then e :: x :: xs
    else x :: insertBid e xs

/-- TENDER_WINDOW_CLOSE (R312): the kept bids are put in order after the window. -/
def execTenderWindowClose (c n : Nat) (s : State) : Out :=
  match (getTask s c n).tender with
  | none => .next s
  | some td =>
    if td.closed || s.cycle ≤ td.start + td.win then .next s
    else .next (modTask s c n fun t => { t with
      tender := some { td with closed := true, bids := td.bids.foldl (fun l b => insertBid b l) [] } })

/-- The tender status (R312). -/
def tenderStatus (td : Tender) (winner : Option Nat) : W64 :=
  let w := match winner with
    | some c => coreNo c + 2 ^ 8
    | none => 0
  BitVec.ofNat 64 (w + td.kept % 256 * 2 ^ 16 + td.wdrawn % 256 * 2 ^ 24)

/-- TENDER_OFFER (R312 step 4): the award is offered to the next bid; the tender ends when it commits or the bids run
out. -/
def execTenderOffer (c n : Nat) (s : State) : Out :=
  let t := getTask s c n
  match t.tender with
  | none => .next s
  | some td =>
    let gone (s : State) : State := at_ (modTask s c n fun t => { t with tender := none }) c n
    if !td.closed || halted t s.cycle || t.c.ctl.st != .busy .tender 0 then .next s
    else match td.bids with
      | b :: bs =>
        if dqRoom s b.core then
          let q := { queued s td.lrec td.tt ((effKnown s td.rcb).getD {}) td.rcb with placed := some (c, t.uid, td.must) }
          .next (finish .c (setReg (wake (gone (enqueueTask s b.core q))) (BitVec.ofNat 5 td.rd) (tenderStatus td (some b.core))))
        else .next (modTask s c n fun t => { t with tender := some { td with bids := bs, wdrawn := td.wdrawn + 1 } })
      | [] =>
        if td.must then .next (raise (gone s) .c 0x0D (lrecOf td.lrec).tag)
        else
          let s := modTask s c n fun t => { t with sys := { t.sys with tstat := t.sys.tstat ||| BitVec.ofNat 64 (2 ^ 41) } }
          .next (finish .c (setReg (wake (gone s)) (BitVec.ofNat 5 td.rd) (tenderStatus td none)))

/-- WITHDRAWAL_NOTICE (R313): the tendering task, if it is still resident, is told. -/
def execWithdrawalNotice (k : Nat) (s : State) : Out :=
  match s.notices[k]? with
  | none => .next s
  | some w =>
    let s := { s with notices := s.notices.eraseIdx k }
    match (getCore s w.core).slots.find? fun t => t.2.uid = w.uid with
    | none => .next s
    | some (n, _) =>
      if w.must then .next (pendFault s w.core n 0x0D (w.wtag + w.wcore * 2 ^ 32))
      else
        let note (v : W64) : W64 := BitVec.ofNat 64 (bits v.toNat 41 41 * 2 ^ 41 + 2 ^ 40 + w.wcore * 2 ^ 32 + w.wtag)
        .next (modTask s w.core n fun t => { t with sys := { t.sys with tstat := note t.sys.tstat } })

end Sys2Proof.Machine
end

