-- ==== Sys2Proof/Machine/EvHost.lean ====
section
/-!
DEFINITION. Events of the host, the side band and security: BAR2 accesses (R332), the control space (R333 to R336, R339),
resets and bring-up (R337, R338), firmware and attestation (R340, R341), and alarms (R342, R343).
-/
namespace Sys2Proof.Machine

/-- The module sends something out. -/
def send (s : State) (o : Output) : State := { s with out := s.out ++ [o] }

/-! ## BAR2 (R332, R342) -/

/-- A BAR2 access of the host performed: a completion, with EP set where a granule is poisoned, or a store, which clears the poison
of whole granules (R85). A halted module aborts, and an address past the window reaches nothing; a suspended row holds the
access. -/
def hostAccess (s : State) : HostReq → M State
  | .read a n =>
    if s.bootst ≠ 1 then .ok (send s .abort)
    else if n = 0 || a + n > 2 ^ 39 then .ok s
    else do
      let s ← touchRange s none a n false
      .ok (send s (.completion a (memRead s.mem a n) (poisonIn s a n).isSome))
  | .write a bs =>
    if s.bootst ≠ 1 then .ok (send s .abort)
    else if a + bs.length > 2 ^ 39 then .ok s
    else do
      let s ← touchRange s none a bs.length true
      .ok (storeMem s a bs)

/-- Accesses performed in order of arrival: behind one that waits the others wait too (R332). -/
def hostDrain : State → List HostReq → State
  | s, [] => { s with hostq := [] }
  | s, r :: rs => match hostAccess s r with
    | .ok s => hostDrain s rs
    | .error _ => { s with hostq := r :: rs }

/-- HOST_BAR2_READ. -/
def execHostBar2Read (a n : Nat) (s : State) : Out := .next (hostDrain s (s.hostq ++ [.read a n]))

/-- HOST_BAR2_WRITE. -/
def execHostBar2Write (a : Nat) (bs : List Byte) (s : State) : Out := .next (hostDrain s (s.hostq ++ [.write a bs]))

/-! ## Host reset (R337) -/

/-- A core at a host reset: no task, no queued command, no event. -/
def discardTasks (k : Core) : Core :=
  { k with
    slots := [], dq := [], shadow := none, h := { k.h.free with waiting := [] }, qm := {}, qc := {}, qw := {}, qp := {}
    e0 := .idle, e1 := .idle, locks := [], waits := [], btcache := [], charges := []
    tcache := k.tcache.map fun e => { e with pins := 0 } }

/-- Every task discarded with no trap record. -/
def discardAll (s : State) : State :=
  let s := (allTasks s).foldl (fun s t =>
    let s := releasePegs s t.1 t.2.1
    let k := t.2.2
    if k.air.size = 0 then s else scramble s t.1 (spmBase k + spmUsable k) (k.air.size * 32768)) s
  { s with cores := s.cores.map fun k => (k.1, discardTasks k.2), remote := [], notices := [], pegReqs := [], hostq := [] }

/-- The effect of a host reset. -/
def hostReset (s : State) : State :=
  { discardAll s with
    ttbase := 0, lqbase := 0, events := [], routes := [], rchange := [], domid := 0, ien := 0, ist := 0, hrstDue := false }

/-- A host reset requested: it waits while RSTHOLD is 1. -/
def requestReset (s : State) : State := if s.rsthold then { s with hrstDue := true } else hostReset s

/-- HOST_RESET: PERST# or a Function Level Reset (R331, R337). -/
def execHostReset (s : State) : Out := .next (requestReset s)

/-- HRST (Table 22.3). -/
def execHrst (_m : Master) (s : State) : Out := .next (requestReset s)

/-! ## Module control (Tables 22.3 to 22.5) -/

/-- A write of TADJ adds its value and saturates (R334). -/
def addTadj (s : State) (v : Nat) : State := { s with tadj := min (2 ^ 32 - 1) (s.tadj + v) }

/-- TADJ_WRITE. -/
def execTadjWrite (_m : Master) (v : BitVec 32) (s : State) : Out := .next (addTadj s v.toNat)

/-- A write of DOMID, dropped while any task is resident (R334). -/
def setDomid (s : State) (v : Nat) : State := if (allTasks s).isEmpty then { s with domid := v } else s

/-- Does a host write come in a cycle in which the side band has written the same register? It is performed before that one, so
that the side band's value remains (R333). -/
def hostLate (s : State) (m : Master) (off : Nat) : Bool := m = .host && tabFind s.sbAt off = some s.cycle

/-- A write of the side band to a register is noted for that cycle. -/
def noteSide (s : State) (m : Master) (off : Nat) : State :=
  match m with
  | .host => s
  | .sideBand => { s with sbAt := tabSet s.sbAt off s.cycle }

/-- DOMID_WRITE: a field of MCTL, at offset 0 of the control space. -/
def execDomidWrite (m : Master) (v : BitVec 6) (s : State) : Out :=
  .next (if hostLate s m 0 then s else setDomid (noteSide s m 0) v.toNat)

/-- A write of MCTL: HLOCK and RSTHOLD by the side band only; a host reset that waited takes effect when RSTHOLD clears. -/
def writeMctl (s : State) (m : Master) (v : Nat) : State :=
  let s := addTadj s (bits v 63 32)
  let s := if hostLate s m 0 then s else setDomid s (bits v 25 20)
  let s := match m with
    | .host => s
    | .sideBand =>
      let s := { s with hlock := bits v 11 8, rsthold := bit v 1 }
      if !s.rsthold && s.hrstDue then hostReset s else s
  if bit v 0 then requestReset s else s

/-! ## The unit map (R339) -/

/-- A write of the unit map at an offset: one that sets a bit is dropped, and every change sets IST bit 2. -/
def writeUnits (s : State) (off v : Nat) : State :=
  if off < 512 then
    let old := tabGet 7 s.units off
    if v % 8 &&& old ≠ v % 8 || v % 8 = old then s else setUnit s off v
  else if off = 0x400 then
    let v := v % 2 ^ 16
    if v &&& s.ports ≠ v || v = s.ports then s
    else (List.range 16).foldl (fun s p => if bit v p then s else portDown s p) s
  else s

/-- UNIT_MAP_WRITE: by the side band. -/
def execUnitMapWrite (m : Master) (off : Nat) (v : W64) (s : State) : Out :=
  match m with
  | .host => .next s
  | .sideBand => .next (writeUnits s off v.toNat)

/-! ## The control space (R333, Table 22.2) -/

/-- The scheduler control block (Table 19.11). -/
def writeSched (s : State) (off : Nat) (v : W64) : State :=
  let e := (off - 0x40) / 16
  if off = 0 then { s with ttbase := v &&& 0xFFFFFFFFFFFFF000 }
  else if off = 8 then { s with lqbase := v &&& 0xFFFFFFFFFFFFFF80 }
  else if 0x40 ≤ off && off < 0xC0 then
    let x := tabGet {} s.events e
    if off % 16 = 0 then { s with events := tabSet s.events e { x with erec := v } }
    else if off % 16 = 8 then { s with events := tabSet s.events e { x with ctl := v &&& 0xFFFFFFFFFFFFFF83 } }
    else s
  else s

/-- The memory-control registers of a stack (Tables 4.3 to 4.6). -/
def writeMemctl (s : State) (stack off : Nat) (v : W64) : State :=
  let k := tabGet {} s.memctl stack
  let put (k : MemCtl) : State := { s with memctl := tabSet s.memctl stack k }
  match off with
  | 0 => put { k with remapc := v &&& 0xFFFFFFFF01 }
  | 0x10 => put { k with hamctl := v &&& 0xFFFF }
  | 0x18 => put { k with scrubc := v &&& 0xFF0000FF01 }
  | _ => s

/-- A column's control block (Tables 20.1 to 20.3). -/
def writeColumn (s : State) (col off : Nat) (v : Nat) : State :=
  match off with
  | 0 => modCol s col fun k => { k with vmax := bits v 47 40, vmin := bits v 39 32, rtgt := bits v 4 0 }
  | 8 => relevel (modCol s col fun k => { k with thyst := bits v 31 24, tlim := bits v 23 12, force := bits v 9 8 }) col
  | _ => s

/-- A write of the IRQ register (Table 22.5): a bit whose event came in the same cycle stays set (R335). -/
def writeIrq (s : State) (m : Master) (v : Nat) : State :=
  { s with
    ien := if hostLate s m 0x10 then s.ien else bits v 35 32
    ist := (List.range 4).foldl (fun x n => if bit v n && tabFind s.istAt n ≠ some s.cycle then putBits x n n 0 else x) s.ist }

/-- A write into the control space by a master (R333): what the table does not permit, or a lock forbids, is dropped. -/
def writeControl (s : State) (m : Master) (off : Nat) (v : W64) : State :=
  let host := m = .host
  let s := noteSide s m off
  let late := hostLate s m off
  let free (n : Nat) : Bool := !(host && bit s.hlock n)
  let blk := off / 2 ^ 16
  let low := off % 2 ^ 16
  if off ≥ 2 ^ 24 then
    let c := (off - 2 ^ 24) / 0x1000
    if c < 512 && free 3 && !late && off % 0x1000 = 0x200 then modCore s c fun k => { k with altdt := v &&& 0xFF } else s
  else match blk with
    | 0 => if low = 0 then writeMctl s m v.toNat else if low = 0x10 then writeIrq s m v.toNat else s
    | 1 => if host && free 0 then writeSched s low v else s
    | 2 => if low / 0x100 < 8 && free 1 && !late then writeMemctl s (low / 0x100) (low % 0x100) v else s
    | 3 => if !host && low / 0x100 < 32 then writeColumn s (low / 0x100) (low % 0x100) v.toNat else s
    | 4 => if host then s else writeUnits s low v.toNat
    | 5 => if !host && low = 0 then { s with fltcfg := v &&& 0xFFFFFFFF0000FFFF } else s
    | 6 => if host && free 2 && low % 8 = 0 then writeRoute s (low / 8) v else s
    | _ => s

/-! ## Reads of the control space (R330, R333) -/

/-- The scheduler control block as it reads. -/
def readSched (s : State) (off : Nat) : W64 :=
  let x := tabGet {} s.events ((off - 0x40) / 16)
  if off = 0 then s.ttbase
  else if off = 8 then s.lqbase
  else if 0x40 ≤ off && off < 0xC0 then (if off % 16 = 0 then x.erec else if off % 16 = 8 then x.ctl else 0)
  else 0

/-- A register of the control space as it reads: reserved fields and places read as 0, HRST too. The unit map reads by its bytes
and its port word, and a route entry by what was last written (R4, R336). The rules put no register at an address of the security
block. -/
def readControl (s : State) (off : Nat) : W64 :=
  let blk := off / 2 ^ 16
  let low := off % 2 ^ 16
  let nat (v : Nat) : W64 := BitVec.ofNat 64 v
  if off ≥ 2 ^ 24 then
    let c := (off - 2 ^ 24) / 0x1000
    if c < 512 && off % 0x1000 = 0x200 then (getCore s c).altdt else 0
  else match blk with
    | 0 => match low with
      | 0 => nat (s.tadj * 2 ^ 32 + s.domid * 2 ^ 20 + s.hlock * 2 ^ 8 + s.rsthold.toNat * 2)
      | 8 => nat (s.bootst * 2 ^ 24 + s.alcnt * 2 ^ 16 + s.link.toNat)
      | 0x10 => nat (s.ien * 2 ^ 32 + s.ist)
      | _ => 0
    | 1 => readSched s low
    | 2 =>
      let k : MemCtl := tabGet {} s.memctl (low / 0x100)
      if low / 0x100 ≥ 8 then 0
      else match low % 0x100 with
        | 0 => k.remapc
        | 8 => nat (s.swaps * 2 ^ 32 + s.swap.isSome.toNat)
        | 0x10 => k.hamctl
        | 0x18 => k.scrubc
        | _ => 0
    | 3 =>
      let k := getCol s (low / 0x100)
      if low / 0x100 ≥ 32 then 0
      else match low % 0x100 with
        | 0 => nat (k.vmax * 2 ^ 40 + k.vmin * 2 ^ 32 + k.vcur * 2 ^ 24 + k.rtgt)
        | 8 => nat (k.thyst * 2 ^ 24 + k.tlim * 2 ^ 12 + k.force * 2 ^ 8 + k.level)
        | 0x10 => nat k.rplcnt
        | _ => 0
    | 4 => if low < 512 then nat (tabGet 7 s.units low) else if low = 0x400 then nat (s.ports + s.d2d.toNat * 2 ^ 16) else 0
    | 5 => if low = 0 then s.fltcfg else 0
    | 6 => if low % 8 = 0 && low / 8 < 64 then (tabFind s.rchange (low / 8)).getD (tabGet 0 s.routes (low / 8)) else 0
    | _ => 0

/-- A read of the control space by a master: a completion to the host, the answer of a type 0x7E message to the side band. -/
def controlRead (s : State) (m : Master) (off : Nat) : State := bump (send s (.control m off (readControl s off)))

/-- CONTROL_SPACE_WRITE (R333). -/
def execControlSpaceWrite (m : Master) (off : Nat) (v : W64) (s : State) : Out := .next (writeControl s m off v)

/-! ## Alarms (R342, R343) -/

/-- The alarm log as it reads: two words an entry (R343). -/
def alarmWords (s : State) : List W64 := s.alarms.flatMap fun e => [e.time, BitVec.ofNat 64 (e.cls * 2 ^ 8 + e.src)]

/-- A read of the alarm log: the side band's in every state, none of the host's (R343). -/
def alarmLogRead (s : State) (m : Master) : State :=
  match m with
  | .sideBand => send s (.alarmLog (alarmWords s))
  | .host => s

/-- ALARM (R342). -/
def execAlarm (src : Nat) (s : State) : Out := if src > 5 then .next s else .next (raiseAlarm s src)

/-- DEBUG_UNLOCK (R342): a wrong response counts and raises an alarm; a right one resets the count. -/
def execDebugUnlock (challenge response : Nat) (s : State) : Out :=
  if s.keys.present && response = Config.unlockResponse challenge then
    .next (send { s with unlockFails := 0, debug := true } (.unlock true))
  else
    let n := s.unlockFails + 1
    .next (send (raiseAlarm { s with unlockFails := n } (if n < 3 then 3 else 4)) (.unlock false))

/-! ## Module reset and bring-up (R337, R338) -/

/-- The unit map that step 4 writes: what its tests and the lasting-fault records mark (R338). -/
def testedUnits (nv : List FaultUnit) : Tab Nat :=
  nv.foldl (fun t u => match u with
    | .sramCorrected c => tabSet t c (putBits (tabGet 7 t c) 0 0 0)
    | .sramUncorrectable c => tabSet t c (putBits (tabGet 7 t c) 0 0 0)
    | .mismatch c e => tabSet t c (putBits (tabGet 7 t c) (1 + e % 2) (1 + e % 2) 0)
    | .retrain _ => t) []

/-- The port word that step 4 writes. -/
def testedPorts (nv : List FaultUnit) : Nat :=
  nv.foldl (fun w u => match u with
    | .retrain p => putBits w p p 0
    | _ => w) 0xFFFF

/-- An accepted image becomes active (FIRMWARE_ACTIVATION, R340). -/
def activate (act : List Image) (new : List Image) : List Image :=
  new.foldl (fun l i => l.filter (fun x => x.kind ≠ i.kind) ++ [i]) act

/-- The retired rows of the banks, which the records of lasting faults keep (R86, R345): those recorded while their bank had a
spare row. -/
def retiredBanks (nv : List (Nat × Nat)) : Tab Bank :=
  nv.foldl (fun t r =>
    let b := tabGet {} t r.1
    if b.spares ≥ 32 then t else tabSet t r.1 { b with spares := b.spares + 1, moved := b.moved ++ [r.2] }) []

/-- The state that a module reset keeps, all else at reset (R337): the non-volatile part, what the units and the other modules
are, and which CORE bits are 0 (R339). -/
def keptOver (s : State) : State :=
  { State.reset with
    agenda := s.agenda, fresh := s.fresh, farMem := s.farMem, svn := s.svn, images := activate s.images s.stored
    keys := s.keys, alarms := s.alarms.map (fun e => { e with at_ := none }), unlockFails := s.unlockFails, lastingNv := s.lastingNv, out := s.out
    rowsNv := s.rowsNv, banks := retiredBanks s.rowsNv, rootKey := s.rootKey, superv := s.superv, broken := s.broken, unitBack := s.unitBack
    coresOff := (s.units.filter fun u => !bit u.2 0).map (·.1) }

/-- The unit map of step 4: the tests, the records, the cores that CORE = 0 takes out (R339), then what the side band writes
back. -/
def bootUnits (s : State) : Tab Nat :=
  let u := s.coresOff.foldl (fun t c => tabSet t c (putBits (tabGet 7 t c) 0 0 0)) (testedUnits (s.lastingNv ++ s.broken))
  (s.unitBack.filter fun b => b.1 < 512).foldl (fun t b => tabSet t b.1 (tabGet 7 t b.1 ||| b.2 % 8)) u

/-- The port word of step 4. -/
def bootPortWord (s : State) : Nat :=
  (s.unitBack.filter fun b => b.1 = 0x400).foldl (fun w b => w ||| b.2 % 2 ^ 16) (testedPorts (s.lastingNv ++ s.broken))

/-- Does an image verify: its signature, and its SVN against the fuses (R340)? -/
def imageGood (s : State) (i : Image) : Bool := i.svn ≥ s.svn && Config.signatureValid s.rootKey (ofLe (sha3 i.img)) i.sig

/-- BRING_UP (R338): firmware is verified, the save key drawn, the units tested and the unit map written, the supervisor's block
and the task types loaded, and PCIe released. -/
def bringUp (s : State) : State :=
  if !s.images.all (imageGood s) then raiseAlarm { s with bootst := 4 } 2
  else if !s.keys.present then { s with bootst := 5 }
  else
    let u := bootUnits s
    let p := bootPortWord s
    let v := s.superv
    let s := storeMem (storeMem s v.rcb v.block) v.types v.table
    { s with
      keys := { s.keys with saveNo := s.keys.saveNo + 1 }, units := u, ports := p, bootPorts := p + (if s.d2d then 2 ^ 16 else 0)
      bootMap := (List.range 512).map fun c => tabGet 7 u c, itab := [], bootst := 1, unitBack := [], coresOff := [], pcie := true
      root := if v.block.isEmpty then none else some v.rcb }

/-- MODULE_RESET. -/
def execModuleReset (s : State) : Out := .next (bringUp (keptOver s))

/-- POWER_ON (R337): as a module reset. -/
def execPowerOn (s : State) : Out := .next (bringUp (keptOver s))

/-! ## Firmware and attestation (R340, R341) -/

/-- The digest of bytes as a number. -/
def digestNo (bs : List Byte) : Nat := ofLe (sha3 bs)

/-- PLDM_FIRMWARE_UPDATE (R340): an image is accepted if its signature verifies and its SVN is at least the fused SVN. -/
def execPldmFirmwareUpdate (kind svn sig : Nat) (image : List Byte) (s : State) : Out :=
  let ok := kind < 3 && imageGood s ⟨kind, svn, image, sig⟩
  .next (send (if ok then { s with stored := s.stored ++ [⟨kind, svn, image, sig⟩] } else s) (.firmware ok))

/-- SVN_RAISE (R340): a message signed by the root key raises the fused SVN. -/
def execSvnRaise (svn sig : Nat) (s : State) : Out :=
  let ok := Config.rootSigned s.rootKey (digestNo [BitVec.ofNat 8 svn]) sig && s.svn < svn && svn < 64
  .next (send (if ok then { s with svn := svn } else s) (.svn ok))

/-- PLDM_PLATFORM_MONITORING (R331): the module's status. -/
def execPldmPlatformMonitoring (s : State) : Out := .next (send s (.platform s.bootst s.alcnt s.link.toNat))

/-- Can the responder sign (R341, R342)? -/
def canSign (s : State) : Bool := s.bootst ≠ 5 && s.keys.present

/-- The five measurements (R341). -/
def measurements (s : State) : List (List Byte) :=
  let img (kind : Nat) : List Byte := ((s.images.find? fun i => i.kind = kind).map (·.img)).getD []
  [sha3 (img 0), sha3 (img 1), sha3 (img 2), sha3 (s.bootMap.map (BitVec.ofNat 8) ++ leBytes 8 s.bootPorts), sha3 [BitVec.ofNat 8 s.svn]]

/-- A signature over what a request returns, with its nonce. -/
def signed (bs : List Byte) (nonce : Nat) : Nat := Config.identitySign (digestNo (bs ++ leBytes 32 nonce))

/-- GET_VERSION: SPDM 1.2 and 1.3 (R332). -/
def execGetVersion (s : State) : Out := .next (send s (.version [0x12, 0x13]))
/-- GET_CAPABILITIES: no session messages. -/
def execGetCapabilities (s : State) : Out := .next (send s (.capabilities false))
/-- NEGOTIATE_ALGORITHMS. -/
def execNegotiateAlgorithms (s : State) : Out := .next (send s (.algorithms "ML-DSA-65" "SHA3-256"))
/-- GET_DIGESTS: the digest of the certificate chain. -/
def execGetDigests (s : State) : Out := .next (send s (.digests (sha3 s.keys.chain)))
/-- GET_CERTIFICATE. -/
def execGetCertificate (s : State) : Out := .next (send s (.certificate s.keys.chain))
/-- CHALLENGE: signed with the identity key. -/
def execChallenge (nonce : Nat) (s : State) : Out :=
  let d := sha3 s.keys.chain
  .next (send s (if canSign s then .challengeAuth d (signed d nonce) else .spdmError))
/-- GET_MEASUREMENTS. -/
def execGetMeasurements (nonce : Nat) (s : State) : Out :=
  let ms := measurements s
  .next (send s (if canSign s then .measurements ms (signed ms.flatten nonce) else .spdmError))

/-! ## TIME and the PCIe link -/

/-- One tick of TIME, slewed while TADJ is non-zero (R334). -/
def tickTime (s : State) : State :=
  if s.tadj ≠ 0 && (s.time.toNat + 1) % 1024 = 0 then { s with time := s.time + 2, tadj := s.tadj - 1 }
  else { s with time := s.time + 1 }

/-- TIME_SLEW (R334). -/
def execTimeSlew (s : State) : Out :=
  if s.tadj ≠ 0 && (s.time.toNat + 1) % 1024 = 0 then .next (tickTime s) else .next s

/-- PCIE_LINK_CHANGE (Table 22.4): the link comes up only once the bring-up has released it (R338). -/
def execPcieLinkChange (up : Bool) (s : State) : Out := .next { s with link := up && s.pcie }

end Sys2Proof.Machine
end

