-- ==== Sys2Proof/Machine/EvMatrix.lean ====
section
/-!
DEFINITION. The matrix engine pair: what a command computes (R62 to R66, R185 to R188), which engine runs it (R200 to R202),
its stops (R187, R204, R339), and the pour table (R321 to R323).
-/
namespace Sys2Proof.Machine

/-! ## B: the image (R91, R102, R187) -/

/-- An image header as a matrix command reads it (Table 5.2). -/
structure Header where
  rlen : Nat
  rows : Nat
  sbg0 : Nat
  nm   : Nat
  sfmt : Nat
  fmt  : Nat
  ipitch : Nat
  ioff : Nat
  spitch : Nat
  soff : Nat
  rpitch : Nat
  deriving DecidableEq, Repr

/-- The header words at a byte offset of a weight buffer. -/
def headWords (wb : Memory) (base : Nat) : Nat × Nat := (memNat wb base 8, memNat wb (base + 8) 8)
/-- The header of two words. -/
def headerOf (w : Nat × Nat) : Header :=
  let w0 := w.1; let w1 := w.2
  { rlen := bits w0 51 32, rows := bits w0 31 16, sbg0 := bits w0 15 12, nm := bits w0 11 10, sfmt := bits w0 9 5
    fmt := bits w0 4 0, ipitch := bits w1 54 44, ioff := bits w1 43 33, spitch := bits w1 32 22, soff := bits w1 21 11
    rpitch := bits w1 10 0 }

/-- The header at a byte offset of a weight buffer. -/
def headerAt (wb : Memory) (base : Nat) : Header := headerOf (headWords wb base)

/-- The value that the mangle gives for stored element `j` of row `n`, which stands for logical position `k` (R102). -/
def mangled (wb : Memory) (base : Nat) (h : Header) (flm : Nat) (n j k : Nat) : Num :=
  let row := base + 64 * (1 + n * h.rpitch)
  let e := elemBytes h.fmt j
  let pat := elemOf h.fmt j (memRead wb (row + e.1) e.2)
  let sc := base + 64 * (h.soff + n * h.spitch)
  if h.fmt = 12 then decodeNum 1 (flmBit flm 12 false) (memNat wb (sc + 32 * (k / 2 ^ h.sbg0) + 2 * pat) 2)
  else
    let v := decodeNum h.fmt (flmBit flm h.fmt false) pat
    if h.spitch = 0 then v
    else
      let b := fmtWidth h.sfmt / 8
      v.mul (decodeNum h.sfmt false (memNat wb (sc + b * (k / 2 ^ h.sbg0)) b))

/-- The logical position of stored element `j` of a row (R93). -/
def keptPos (wb : Memory) (base : Nat) (h : Header) (n j : Nat) : Nat :=
  let ix := elemOf 11 j (memRead wb (base + 64 * (h.ioff + n * h.ipitch) + j / 4) 1)
  match h.nm with
  | 0 => j
  | 3 => 8 * (j / 2) + 4 * (j % 2) + ix
  | nm => 4 * (j / nOf nm) + ix

/-- The operands of row `n` of B in K-block `kb`, each with its place in the block; a row or position past the image gives
none (R187). -/
def bBlock (wb : Memory) (base : Nat) (h : Header) (flm : Nat) (n kb : Nat) : List (Nat × Num) :=
  if n ≥ h.rows then []
  else
    let per := 32 * nOf h.nm / mOf h.nm
    (upto (per * kb) per).filterMap fun j =>
      let k := keptPos wb base h n j
      if k ≥ h.rlen || k / 32 ≠ kb then none else some (k % 32, mangled wb base h flm n j k)

/-- The bytes of an image, from its base, that a K-block of a pass reads: data, indices and scales (R91, R187). -/
def blockReads (h : Header) (f : MCmd) (p : Pass) (kb : Nat) : List (Nat × Nat) :=
  let k := p.bk.toNat + kb
  let per := 32 * nOf h.nm / mOf h.nm
  let j := per * k
  let n := min per (h.rlen * nOf h.nm / mOf h.nm - j)
  if n = 0 then []
  else ((upto p.bn.toNat f.n).filter (· < h.rows)).flatMap fun r =>
    let a := (elemBytes h.fmt j).1; let z := elemBytes h.fmt (j + n - 1)
    let s0 := 32 * k / 2 ^ h.sbg0; let s1 := min (32 * k + 31) (h.rlen - 1) / 2 ^ h.sbg0
    let b := if h.fmt = 12 then 32 else fmtWidth h.sfmt / 8
    [(64 * (1 + r * h.rpitch) + a, z.1 + z.2 - a)]
      ++ (if h.nm = 0 then [] else [(64 * (h.ioff + r * h.ipitch) + j / 4, (j + n - 1) / 4 + 1 - j / 4)])
      ++ (if h.spitch = 0 then [] else [(64 * (h.soff + r * h.spitch) + b * s0, b * (s1 + 1 - s0))])

/-- The products of a K-block: those of B's operands with A's, and zeros for the rest (R62, R187); an invalid lane of A gives a
zero product, whatever B holds (R188). -/
def products (a : List (Option Num)) (b : List (Nat × Num)) : List Num :=
  let ps := b.map fun e => match nth a e.1 (some .zero) with
    | some x => x.mul e.2
    | none => .zero
  ps ++ List.replicate (32 - ps.length) .zero

/-- An exact product as an integer. -/
def Num.toInt : Num → Int
  | .fin neg m e =>
    let v : Int := if e ≥ 0 then (m * 2 ^ e.toNat : Nat) else (m >>> (-e).toNat : Nat)
    if neg then -v else v
  | _ => 0

/-! ## One K-block of a pass -/

/-- What a K-block needs: the command, its FLM, the pass, the block of K within the pass, A's rows (32 values each, none
for a lane that gives zero products). -/
structure KBlock where
  f    : MCmd
  flm  : Nat
  pass : Pass
  kb   : Nat
  a    : List (List (Option Num))

/-- An element after a K-block (R62, R65). -/
def takeBlock (f : MCmd) (flm : Nat) (old : W32) (seen : Bool) (ps : List Num) : W32 :=
  if f.accm = 2 then ps.foldl (fun e p => residueAdd e p.toInt) old
  else blockStep (flmBit flm 0 true) (if f.accm = 0 && !seen then 0 else old) ps

/-- What an element's first K-block accumulates onto. One that a drain has left holds a value and no residues, so that a residue
command starts it from 0, as R346 and R347 need of the program of chapter 23 (DEDUCED, log 65). -/
def startBits (f : MCmd) (fresh : List Nat) (i : Nat) (old : W32) (seen : Bool) : W32 :=
  if f.accm = 2 && !seen && fresh.contains i then 0 else old

/-- The tile after one K-block, with an engine's buffer. -/
def stepTile (k : KBlock) (wb : Memory) (h : Header) (fresh : List Nat) (tile : Lanes) (seen : List Bool) : Lanes :=
  let base := 64 * k.f.boff
  let cols := (List.range k.f.n).map fun n => bBlock wb base h k.flm (k.pass.bn.toNat + n) (k.pass.bk.toNat + k.kb)
  (tile.zip seen).zipIdx.map fun e =>
    let r : Int := (e.2 / 64 : Nat) - k.pass.cm
    let c : Int := (e.2 % 64 : Nat) - k.pass.cn
    if 0 ≤ r && r < k.f.m && 0 ≤ c && c < k.f.n then
      takeBlock k.f k.flm (startBits k.f fresh e.2 e.1.1 e.1.2) e.1.2 (products (nth k.a r.toNat []) (nth cols c.toNat []))
    else e.1.1

/-- The elements of a pass marked. -/
def markPass (f : MCmd) (p : Pass) (l : List Bool) : List Bool :=
  l.zipIdx.map fun e =>
    let r : Int := (e.2 / 64 : Nat) - p.cm
    let c : Int := (e.2 % 64 : Nat) - p.cn
    e.1 || decide (0 ≤ r ∧ r < f.m ∧ 0 ≤ c ∧ c < f.n)

/-- The tile rows of a pass marked, where `valid` holds of their row in the window (R188). -/
def markRows (f : MCmd) (p : Pass) (valid : Nat → Bool) (l : List Bool) : List Bool :=
  l.zipIdx.map fun e =>
    let r : Int := (e.2 : Nat) - p.cm
    e.1 || (decide (0 ≤ r ∧ r < f.m) && valid r.toNat)

/-- Engine 0's or 1's buffer. -/
def wbOf (k : Core) (e : Nat) : Memory := if e = 1 then k.wb1 else k.wb0

/-- One K-block taken by a running command, on its engine and, in redundant mode, on engine 1's hidden copy as well. -/
def takeK (k : Core) (r : Running) (x : MxRun) (tile : Lanes) (b : KBlock) : MxRun × Lanes :=
  let e := if r.eng = 2 then 0 else r.eng
  let head (e : Nat) : Header := headerOf (nth x.heads e (0, 0))
  let t := stepTile b (wbOf k e) (head e) x.fresh tile x.seen
  let hid := if r.eng = 2 then stepTile b k.wb1 (head 1) x.fresh x.hid x.seen else x.hid
  ({ x with hist := t :: x.hist, hid := hid, seen := markPass b.f b.pass x.seen }, t)

/-! ## A (R186) -/

/-- A lane taken as an operand in AFMT. -/
def laneOperand (f : MCmd) (flm : Nat) (v : W32) : Num :=
  let x := if isIntFmt f.afmt then Num.ofInt v.toInt else f32 false v
  decodeNum f.afmt (flmBit flm f.afmt false) (convert x f.afmt 0 true)

/-- Row `m` of K-block `kb` of A from vector registers. -/
def aVectors (f : MCmd) (flm : Nat) (vs : List Lanes) (p : Pass) (kb m : Nat) : List Num :=
  (upto (32 * (p.ak.toNat + kb)) 32).map fun k => laneOperand f flm (laneAt (nth vs (k / 64) []) m (k % 64))

/-- Row `m` of K-block `kb` of A from a record, or the fault it meets. -/
def aRecord (s : State) (c n : Nat) (l : Layout) (flm : Nat) (p : Pass) (kb m : Nat) : Except (Nat × Nat) (List Num) :=
  (upto (32 * (p.ak.toNat + kb)) 32).mapM fun k =>
    match readElem s c n l {} flm [k, p.am.toNat + m, 0, 0, 0] with
    | .error (.trap cause d) => .error (cause, d)
    | .error _ => .error (6, l.base)
    | .ok e => match firstError s e.places with
      | some d => .error (0x0B, d)
      | none => .ok e.val

/-- The K-block `kb` of a pass from a block of an in-stream: with SEGA an invalid lane gives zero products (R188). -/
def aBlock (f : MCmd) (flm : Nat) (b : Block) (kb m : Nat) : List (Option Num) :=
  (upto (32 * (kb % 2)) 32).map fun col =>
    if f.sega && !nth b.valid (64 * m + col) false then none else some (laneOperand f flm (laneAt b.lanes m col))

/-! ## Running a command -/

/-- An uncorrectable error that a K-block meets, in the image of an engine that runs it or in the tile it adds to (R344). -/
def blockStop (s : State) (c : Nat) (r : Running) (x : MxRun) (f : MCmd) (p : Pass) (kb : Nat) : Option EngFault :=
  let on (e : Nat) : Bool := r.eng = e || r.eng = 2
  let hits (e w : Nat) : Bool := on e && w / 2 ^ 16 = e && (blockReads (headerOf (nth x.heads e (0, 0))) f p kb).any fun b =>
    overlap (w % 2 ^ 16 * 8) 8 (64 * f.boff + b.1) b.2
  if sramHit s c 1 fun w => hits 0 w || hits 1 w then some { cause := 0x0B, detail := sramLocator c 1 }
  else if (f.accm ≠ 0 || x.seen.any id) && sramHit s c 2 (fun w => w = (getTask s c r.cmd.slot).al.z + f.acct) then
    some { cause := 0x0B, detail := sramLocator c 2 }
  else none

/-- A tile of a task. -/
def tileOf (s : State) (c n z : Nat) : Lanes := nth (getTask s c n).x.z z []
/-- That tile changed by a command, with the elements of it that hold drained values from then on. -/
def setTile (s : State) (c n z : Nat) (l : Lanes) (zd : List Nat) : State :=
  modTask s c n fun t => { t with x := { t.x with z := setNth [] t.x.z z l, zd := if zd.isEmpty then tabDel t.x.zd z else tabSet t.x.zd z zd } }

/-- The elements that hold drained values while a command runs: those it has not reached. -/
def leftDrained (x : MxRun) : List Nat := x.fresh.filter fun i => !nth x.seen i false

/-- Those after its nest: of the old ones those it has not reached or restores, and those it drains (R185, R188). -/
def endDrained (f : MCmd) (x : MxRun) : List Nat :=
  (x.fresh.filter fun i => !nth x.seen i false || restored f x i) ++ if f.drn then (List.range 4096).filter (drains f x) else []

/-- Steps of a command whose A does not come from a stream: passes in order, K-blocks ascending. -/
def runPasses (s : State) (c : Nat) (r : Running) (f : MCmd) (a : Pass → Nat → Nat → Except (Nat × Nat) (List Num)) :
    List (Nat × Nat) → MxRun → Lanes → MxRun × Lanes × Option EngFault
  | [], x, t => (x, t, none)
  | (p, kb) :: l, x, t =>
    let pass := passAt f p
    match (List.range f.m).mapM (a pass kb), blockStop s c r x f pass kb with
    | .error e, _ => (x, t, some { cause := e.1, detail := e.2, prog := p })
    | .ok _, some e => (x, t, some { e with prog := p })
    | .ok rows, none =>
      let (x, t) := takeK (getCore s c) r x t
        { f := f, flm := r.cmd.flm.toNat, pass := pass, kb := kb, a := rows.map fun l => l.map some }
      runPasses s c r f a l { x with pass := p + (kb + 1) / f.kb } t

/-- The passes and K-blocks of a command, in order. -/
def nestSteps (f : MCmd) : List (Nat × Nat) :=
  (List.range (passCount f)).flatMap fun p => (List.range f.kb).map fun kb => (p, kb)

/-- The drained value of an element (R65). -/
def drained32 (f : MCmd) (v : W32) : W32 :=
  let x := residueValue v
  if f.dfmt then f32Of 0 false false (.ofInt x) else BitVec.ofInt 32 x

/-- The end of a nest: elements whose rows were invalid in every pass get their start bits (R188), the others drain. -/
def endNest (f : MCmd) (x : MxRun) (t : Lanes) : Lanes :=
  (t.zip x.start).zipIdx.map fun e =>
    if restored f x e.2 then e.1.2
    else if drains f x e.2 then drained32 f e.1.1
    else e.1.1

/-- The detail of a redundant mismatch (R202): the lowest element that differs. -/
def mismatch (f : MCmd) (x : MxRun) (t h : Lanes) : Option Nat :=
  ((List.range 4096).find? fun i => nth x.seen i false && nth t i 0 ≠ nth h i 0).map fun i =>
    f.acct + i / 64 * 2 ^ 8 + i % 64 * 2 ^ 16

/-- A running command whose nest is over: its tile's final bits, and cause 0x0A where the engines disagree. A tile written whole
has no error any more (R344). -/
def finishNest (s : State) (c : Nat) (r : Running) (f : MCmd) (x : MxRun) (t : Lanes) : State × Running × Option EngFault :=
  let t' := endNest f x t
  let h := endNest f x x.hid
  let s := setTile s c r.cmd.slot f.acct t' (endDrained f x)
  let s := if x.seen.all id then sramClear s c 2 (fun w => w = (getTask s c r.cmd.slot).al.z + f.acct) else s
  let bad := if r.eng = 2 then mismatch f x t' h else none
  let s := if bad.isSome then countErr (countErr s (.mismatch c 0)) (.mismatch c 1) else s
  (s, { r with mx := some { x with ended := true, drained := t' } }, bad.map fun d => { cause := 0x0A, detail := d, prog := passCount f })

/-! ## The rows of an engine and the work of a command (R199, R321, R322) -/

/-- An engine's state in a core. -/
def engSt (k : Core) (e : Nat) : EngSt := if e = 1 then k.e1 else k.e0
/-- That state set. -/
def setEngSt (k : Core) (e : Nat) (x : EngSt) : Core := if e = 1 then { k with e1 := x } else { k with e0 := x }

/-- Rows that filler runs in a cycle. -/
def fillerRows (l cycle : Nat) : Nat := 28 - 4 * ((cycle - l - 9) / 4)

/-- The rows an engine enables in a cycle. -/
def rowsAt (x : EngSt) (cycle : Nat) : Nat :=
  match x with
  | .idle | .request _ => 0
  | .up b r => if cycle < b then r else min 32 (r + 4 * ((cycle - b) / 4 + 1))
  | .low r _ => r
  | .warm l => if cycle ≤ l + 8 then 32 else fillerRows l cycle
  | .filler l => fillerRows l cycle

/-- Does a started command run on engine `e`? -/
def runsOn (r : Running) (e : Nat) : Bool := r.eng = e || r.eng = 2

/-- The blocks that a stream's command pops, and those it has popped. -/
def blocksDone (f : MCmd) (x : MxRun) : Nat × Nat :=
  let per := ceilDiv f.kb 2
  (passCount f * per, if x.ended then passCount f * per else x.pass * per + x.part)

/-- A running command after a cycle: work at its engines' rows, no more than its operands allow (R199, R321 step 5). -/
def workCycle (k : Core) (cycle : Nat) (r : Running) : Running :=
  if r.last.isSome || cycle < r.start then r
  else
    let f := mcmdOf r.cmd.words
    let (all, got) := blocksDone f (r.mx.getD {})
    let cap := if f.asrc = 0 then 32 * r.steady * got / all else 32 * r.steady
    let work := [0, 1].map fun e => if runsOn r e then min (max cap (nth r.work e 0)) (nth r.work e 0 + rowsAt (engSt k e) cycle) else 0
    let ended := ((r.mx.map (·.ended)).getD true) && [0, 1].all fun e => !runsOn r e || nth work e 0 ≥ 32 * r.steady
    { r with work := work, last := if ended then some cycle else none }

/-! ## Starting -/

/-- The active engine after the choice of R200 step 2. -/
def chosenActive (s : State) (c : Nat) : Nat :=
  let k := getCore s c
  let temp (e : Nat) := nth k.temps e 0
  let idle := 1 - k.active
  if engUsable s c 0 && engUsable s c 1 then
    (if temp k.active > temp idle + (bits k.altdt.toNat 7 0 : Int) then idle else k.active)
  else if engUsable s c k.active then k.active else idle

/-- The engine on which the head command may start now (2 for both), and the active engine then; none where it waits
(R200 to R202). A command whose last steady cycle this is lets the next take its first in the following one (R199). -/
def startOn (s : State) (c : Nat) (m : Cmd) : Option (Nat × Nat) :=
  let k := getCore s c
  let f := mcmdOf m.words
  let live := k.qm.running.filter fun r => (workCycle k s.cycle r).last.isNone
  if f.red then (if live.isEmpty then some (2, k.active) else none)
  else
    match live with
    | [] =>
      let a := if f.eng = 0 then chosenActive s c else k.active
      let e := if f.eng = 0 then a else f.eng - 1
      if engUsable s c e then some (e, a) else none
    | [r] =>
      let e := 1 - r.eng
      if m.twin && r.eng ≠ 2 && (r.cmd.slot ≠ m.slot || (mcmdOf r.cmd.words).acct ≠ f.acct) && !(mcmdOf r.cmd.words).red && (f.eng = 0 || f.eng - 1 = e)
          && engUsable s c e then some (e, k.active)
      else none
    | _ => none

/-- Must the head command stop because the unit map marks an engine it needs unusable (R339)? -/
def unitGone (s : State) (c : Nat) (f : MCmd) : Bool :=
  let e0 := engUsable s c 0; let e1 := engUsable s c 1
  (f.red && !(e0 && e1)) || (f.eng = 1 && !e0) || (f.eng = 2 && !e1)

/-- The stop of a command whose image does not suit it (R187). -/
def imageStop (f : MCmd) (h : Header) : Option EngFault :=
  if h.fmt ≠ f.bfmt || h.nm ≠ f.nm then some { cause := 6, detail := f.boff + 5 * 2 ^ 32 }
  else if f.accm = 2 && h.spitch ≠ 0 then some { cause := 6, detail := f.boff + 7 * 2 ^ 32 }
  else none

/-- An uncorrectable error in the image header that a command reads at its start (R344). -/
def sramStop (s : State) (c : Nat) (f : MCmd) (e : Nat) : Option EngFault :=
  if sramHit s c 1 fun w => (w / 2 ^ 16 = e || e = 2) && overlap (w % 2 ^ 16 * 8) 8 (64 * f.boff) 16 then
    some { cause := 0x0B, detail := sramLocator c 1 }
  else none

/-- The width of R199. -/
def rateWidth (fmt : Nat) : Nat :=
  match fmt with
  | 1 | 2 | 12 => 16
  | 6 | 9 | 10 | 11 => 4
  | _ => 8

/-- The steady cycles of a command (R199). -/
def steadyCycles (f : MCmd) : Nat :=
  let r := 16 / max (rateWidth f.afmt) (rateWidth f.bfmt)
  ceilDiv (f.kb * passCount f * f.m * ceilDiv f.n 32) (r * (if f.nm = 0 then 1 else 2))

/-! ## The pour table (R321, R322) -/

/-- An engine that a command starts on in a cycle (R321 step 1, R322). -/
def startEngine (x : EngSt) (cycle : Nat) : EngSt :=
  match x with
  | .idle => .request cycle
  | .warm l | .filler l =>
    if cycle ≤ l + 8 then .up cycle 32
    else if cycle ≤ l + 36 then .low (fillerRows l cycle) cycle
    else .request cycle
  | x => x

/-- The engines of a running command end their steady phase in a cycle, but for one on which the next has started (R199, R322). -/
def windDown (k : Core) (r : Running) (cycle : Nat) : Core :=
  [0, 1].foldl (fun k e =>
    if runsOn r e && !k.qm.running.any (fun x => runsOn x e && x.last.isNone) then setEngSt k e (.warm cycle) else k) k

/-- An engine whose command stops with a fault: its request goes, or it winds down from that cycle (log 21). -/
def stopEngine (x : EngSt) (cycle : Nat) : EngSt :=
  match x with
  | .request _ => .idle
  | _ => .warm cycle

/-- A started command that stops with a fault leaves its engine (R204, R271). -/
def stopRunning (s : State) (c : Nat) (r : Running) (f : EngFault) : State :=
  let s := modCore s c fun k =>
    let k := { k with qm := { k.qm with running := k.qm.running.filter fun x => x.cmd ≠ r.cmd } }
    [0, 1].foldl (fun k e => if runsOn r e then setEngSt k e (stopEngine (engSt k e) s.cycle) else k) k
  engineFault s c .matrix r.cmd f

/-- A running command as it stands in its queue replaced. -/
def putRunning (s : State) (c : Nat) (r : Running) : State :=
  modCore s c fun k => { k with qm := { k.qm with running := k.qm.running.map fun x => if x.cmd = r.cmd then r else x } }

/-- A started command of a record or of registers has its whole effect on the tile. -/
def runWhole (s : State) (c : Nat) (r : Running) : State :=
  let f := mcmdOf r.cmd.words
  let n := r.cmd.slot
  let flm := r.cmd.flm.toNat
  let a := if f.asrc = 1 then aRecord s c n (layoutOf r.cmd.lrec) flm else fun p kb m => .ok (aVectors f flm r.cmd.vregs p kb m)
  let (x, t, e) := runPasses s c r f a (nestSteps f) (r.mx.getD {}) (tileOf s c n f.acct)
  match e with
  | some e => stopRunning (setTile s c n f.acct t (leftDrained x)) c r e
  | none =>
    let (s, r, e) := finishNest s c r f x t
    match e with
    | some e => stopRunning s c r e
    | none => putRunning s c r

/-- The next block of a running command whose A is an in-stream, if the stream holds it: two K-blocks of its pass (R186). -/
def runBlockA (s : State) (c : Nat) (r : Running) (x : MxRun) : Option State :=
  let f := mcmdOf r.cmd.words
  let n := r.cmd.slot
  let i := f.asel % 8
  match (inStream s c n i).blocks with
  | [] => none
  | b :: rest =>
    match b.poison with
    | some d => some (stopRunning s c r { cause := 0x0B, detail := d, prog := x.pass })
    | none =>
      let s := modIn s c n i fun v => { v with blocks := rest }
      let pass := passAt f x.pass
      let kbs := (upto (2 * x.part) 2).filter (· < f.kb)
      let flm := r.cmd.flm.toNat
      let (y, t, stop) := kbs.foldl (fun (st : MxRun × Lanes × Option EngFault) kb =>
        if st.2.2.isSome then st
        else match blockStop s c r st.1 f pass kb with
          | some e => (st.1, st.2.1, some { e with prog := x.pass })
          | none =>
            let (y, t) := takeK (getCore s c) r st.1 st.2.1
              { f := f, flm := flm, pass := pass, kb := kb, a := (List.range f.m).map (aBlock f flm b kb) }
            (y, t, none)) (x, tileOf s c n f.acct, none)
      if let some e := stop then some (stopRunning (setTile s c n f.acct t (leftDrained y)) c r e)
      else
      let valid (m : Nat) : Bool := (List.range 64).any fun k => nth b.valid (64 * m + k) false
      let y := { y with okr := markRows f pass valid y.okr }
      let y := if 2 * (x.part + 1) ≥ f.kb then { y with pass := x.pass + 1, part := 0 } else { y with part := x.part + 1 }
      if y.pass < passCount f then some (putRunning (setTile s c n f.acct t (leftDrained y)) c { r with mx := some y })
      else
        let (s, r, e) := finishNest s c r f y t
        match e with
        | some e => some (stopRunning s c r e)
        | none => some (putRunning s c r)

/-- The head command starts, if it can (R40, R185, R200 to R202); it stops at its start where its image or the unit map
asks for it. -/
def startMatrix (s : State) (c : Nat) : State :=
  match (getCore s c).qm.deq with
  | none => s
  | some m =>
    let f := mcmdOf m.words
    let gone (s : State) : State := modCore s c fun k => { k with qm := { k.qm with deq := none } }
    if unitGone s c f then engineFault (gone s) c .matrix m { cause := 6, detail := 6 * 2 ^ 32 }
    else if !tokensReady s c m then s
    else match startOn s c m with
      | none => s
      | some (e, a) =>
        let s := modCore (gone (popTokens s c m)) c fun k => { k with active := a }
        let k := getCore s c
        let heads := (if e = 2 then [k.wb0, k.wb1] else [wbOf k e]).map fun wb => headerAt wb (64 * f.boff)
        match (sramStop s c f e).orElse fun _ => heads.findSome? (imageStop f) with
        | some stop => engineFault s c .matrix m stop
        | none =>
          let t := tileOf s c m.slot f.acct
          let none4 := List.replicate 4096 false
          let r : Running := {
            cmd := m, eng := e, start := s.cycle + 1, steady := steadyCycles f, fixed := if f.red then 56 else 40
            mx := some { start := t, hid := t, fresh := tabGet [] (getTask s c m.slot).x.zd f.acct, seen := none4, okr := List.replicate 64 false
                         heads := [headWords k.wb0 (64 * f.boff), headWords k.wb1 (64 * f.boff)] } }
          let s := modCore s c fun k =>
            let k := [0, 1].foldl (fun k i => if runsOn r i then setEngSt k i (startEngine (engSt k i) s.cycle) else k) k
            { k with qm := { k.qm with running := k.qm.running ++ [r] } }
          if f.asrc = 0 then s else runWhole s c r

/-- MATRIX_COMMAND (R185): a running command takes its next block of a stream, or the head command starts. -/
def execMatrixCommand (c : Nat) (s : State) : Out :=
  let waiting := (getCore s c).qm.running.filterMap fun r => r.mx.bind fun x => if x.ended then none else some (r, x)
  match waiting.findSome? fun e => runBlockA s c e.1 e.2 with
  | some t => .next t
  | none => .next (startMatrix s c)

/-! ## Work in the steady phase -/

/-- An engine that winds down, after a cycle: filler from the ninth cycle after the last steady one, idle from the
thirty-seventh (R322). -/
def windCycle (cycle : Nat) (x : EngSt) : EngSt :=
  match x with
  | .warm l => if cycle ≥ l + 9 then .filler l else x
  | .filler l => if cycle ≥ l + 37 then .idle else x
  | x => x

/-- The engines of a core after a cycle. -/
def engineCycle (cycle : Nat) (k : Core) : Core :=
  let run := k.qm.running.map (workCycle k cycle)
  let ended := run.filter fun r => r.last == some cycle
  ended.foldl (fun k r => windDown k r cycle)
    { k with qm := { k.qm with running := run }, e0 := windCycle cycle k.e0, e1 := windCycle cycle k.e1 }

/-- A position in the pour table a cycle later: it does not advance in a frozen cycle (R317). -/
def shiftEng (x : EngSt) : EngSt :=
  match x with
  | .up b r => .up (b + 1) r
  | .warm l => .warm (l + 1)
  | .filler l => .filler (l + 1)
  | x => x

/-- A wait for WAITM, which a frozen cycle does not count (R317). -/
def frozenWait (e : EngQ) : EngQ := { e with waitAt := e.waitAt + e.deq.isSome.toNat }

/-- The engines of a core after a frozen cycle: each running command takes a cycle more, one that has started works first a cycle
later, and the vector unit is occupied for a cycle more (R162, R199, R317). -/
def frozenCycle (cycle : Nat) (k : Core) : Core :=
  { k with
    vecUntil := if k.vecUntil > cycle then k.vecUntil + 1 else k.vecUntil
    qc := frozenWait k.qc, qw := frozenWait k.qw, qp := frozenWait k.qp
    e0 := shiftEng k.e0, e1 := shiftEng k.e1
    qm := { frozenWait k.qm with running := k.qm.running.map fun r => { r with last := r.last.map (· + 1), start := if r.start > cycle then r.start + 1 else r.start } } }

/-! ## Grants (R321 steps 2 and 3, R322 step 3) -/

/-- A request of the column for a grant: its age, its core, its engine (2 for a pair). -/
structure Req where
  since : Nat
  core  : Nat
  eng   : Nat
  deriving DecidableEq, Repr

/-- Since when an engine requests a grant. -/
def reqSince : EngSt → Option Nat
  | .request c => some c
  | .low _ c => some c
  | _ => none

/-- The requests of a core made before a boundary. -/
def coreReqs (s : State) (b c : Nat) : List Req :=
  let k := getCore s c
  let red := k.qm.running.any fun r => r.eng = 2 && r.last.isNone
  let one (e : Nat) : List Req := match reqSince (engSt k e) with
    | some t => if t < b then [⟨t, c, e⟩] else []
    | none => []
  match one 0, one 1 with
  | [x], [_] => if red then [{ x with eng := 2 }] else one 0 ++ one 1
  | x, y => x ++ y

/-- The order of grants: age, row, engine. -/
def reqKey (r : Req) : Nat := (r.since * 16 + coreNo r.core / 16) * 4 + (if r.eng = 2 then 0 else r.eng)

/-- A request put in its place. -/
def insertReq (r : Req) : List Req → List Req
  | [] => [r]
  | x :: l => if reqKey r < reqKey x then r :: x :: l else x :: insertReq r l

/-- An engine's request granted at a boundary. -/
def grantEng (b : Nat) (x : EngSt) : EngSt :=
  match x with
  | .request _ => .up b 0
  | .low r _ => .up b r
  | x => x

/-- A request granted. -/
def grantReq (s : State) (b : Nat) (r : Req) : State :=
  modCore s r.core fun k => [0, 1].foldl (fun k e => if r.eng = e || r.eng = 2 then setEngSt k e (grantEng b (engSt k e)) else k) k

/-- The requests that `n` grants serve, in order; a pair takes two, or the only one of a throttled boundary, and is never
overtaken. -/
def served (throttled : Bool) : Nat → List Req → List Req
  | 0, _ => []
  | _, [] => []
  | n + 1, r :: l =>
    if r.eng ≠ 2 then r :: served throttled n l
    else if throttled then [r]
    else match n with
      | 0 => []
      | k + 1 => r :: served throttled k l

/-- START_GRANT (R321, R325): the grants of a column at a step boundary. -/
def execStartGrant (col : Nat) (s : State) : Out :=
  let k := tabGet {} s.cols col
  let b := s.cycle
  if b % 4 ≠ 0 || b < k.noGrant then .next s
  else
    let reqs := ((coresOf col).flatMap (coreReqs s b)).foldl (fun l r => insertReq r l) []
    let got := served (k.level ≠ 0) (if k.level = 0 then 2 else 1) reqs
    let pace := if k.level = 2 then 8 else 4
    let pair := got.any fun r => r.eng = 2
    let wait := if got.isEmpty then 4 else if k.level ≠ 0 && pair then 2 * pace else pace
    let s := got.foldl (fun s r => grantReq s b r) s
    .next { s with cols := tabSet s.cols col { k with noGrant := b + wait } }

/-- WARM_WINDOW_EXPIRY (R322 steps 1 and 2): filler starts nine cycles after the last steady cycle. -/
def execWarmWindowExpiry (c e : Nat) (s : State) : Out :=
  match engSt (getCore s c) e with
  | .warm l => if s.cycle ≥ l + 9 then .next (modCore s c fun k => setEngSt k e (.filler l)) else .next s
  | _ => .next s

/-- FILLER_END (R322 step 2): the engine becomes idle. -/
def execFillerEnd (c e : Nat) (s : State) : Out :=
  match engSt (getCore s c) e with
  | .filler l => if s.cycle ≥ l + 37 then .next (modCore s c fun k => setEngSt k e .idle) else .next s
  | _ => .next s

end Sys2Proof.Machine
end

