-- ==== Sys2Proof/Machine/LArith.lean ====
section
/-!
DEFINITION. L address arithmetic (R241), branches and loops (R242 to R244), LTK (R257) and LEND (R44).
-/
namespace Sys2Proof.Machine

/-- `j[jd] ← f(j[ja], j[jb])`. -/
def jalu (f : W64 → W64 → W64) (d a b : BitVec 4) (s : State) : M State := .ok (setJ s d (f (getJ s a) (getJ s b)))

/-- JADD (R241). -/
def execJadd (t : Tok) (d a b : BitVec 4) (s : State) : Out := execL (.jadd t d a b) t false (jalu (· + ·) d a b) s
/-- JSUB. -/
def execJsub (t : Tok) (d a b : BitVec 4) (s : State) : Out := execL (.jsub t d a b) t false (jalu (· - ·) d a b) s
/-- JSHL. -/
def execJshl (t : Tok) (d a b : BitVec 4) (s : State) : Out :=
  execL (.jshl t d a b) t false (jalu (fun x y => x <<< shamt y) d a b) s
/-- JSHR, unsigned. -/
def execJshr (t : Tok) (d a b : BitVec 4) (s : State) : Out :=
  execL (.jshr t d a b) t false (jalu (fun x y => x >>> shamt y) d a b) s
/-- JAND. -/
def execJand (t : Tok) (d a b : BitVec 4) (s : State) : Out := execL (.jand t d a b) t false (jalu (· &&& ·) d a b) s
/-- JOR. -/
def execJor (t : Tok) (d a b : BitVec 4) (s : State) : Out := execL (.jor t d a b) t false (jalu (· ||| ·) d a b) s
/-- JMUL: the low half of the product. -/
def execJmul (t : Tok) (d a b : BitVec 4) (s : State) : Out := execL (.jmul t d a b) t false (jalu (· * ·) d a b) s
/-- JADDI: the immediate sign-extended. -/
def execJaddi (t : Tok) (d a : BitVec 4) (i : BitVec 32) (s : State) : Out :=
  execL (.jaddi t d a i) t false (fun s => .ok (setJ s d (getJ s a + i.signExtend 64))) s
/-- JLI: the immediate zero-extended. -/
def execJli (t : Tok) (d : BitVec 4) (i : BitVec 32) (s : State) : Out :=
  execL (.jli t d i) t false (fun s => .ok (setJ s d (i.zeroExtend 64))) s
/-- JLIH: bits [63:32] from the immediate, the others kept. -/
def execJlih (t : Tok) (d : BitVec 4) (i : BitVec 32) (s : State) : Out :=
  execL (.jlih t d i) t false (fun s => .ok (setJ s d (BitVec.ofNat 64 (putBits (getJ s d).toNat 63 32 i.toNat)))) s

/-- LLOOP: the count is `j[ja][31:0]` (R243). -/
def execLloop (t : Tok) (n : BitVec 2) (a : BitVec 4) (e : BitVec 12) (s : State) : Out :=
  execL (.lloop t n a e) t false (fun s => startLoop .l n.toNat ((getJ s a).toNat % 2 ^ 32) e.toNat 40 0 s) s

/-- LBR: a taken branch goes to `PC + 8·SignExt(imm32, 32)` and leaves the loops it jumps out of (R242, R244); as the
last word of an active loop's body it is illegal. -/
def execLbr (t : Tok) (c : BitVec 3) (a b : BitVec 4) (i : BitVec 32) (s : State) : Out :=
  execL (.lbr t c a b i) t false (fun s =>
    let k := ctl s .l
    if endsLoop k 8 0 then illegal 6 58
    else if cond c (getJ s a) (getJ s b) then
      let tgt := relTarget k.pc 8 i.toInt
      .ok (modCtl s .l fun k => { k with delay := some ⟨1, tgt⟩, loops := loopsAt tgt k.loops })
    else .ok s) s

/-- LTK: the count of a queue at the end of the previous cycle, or no effect beyond its tokens (R257). -/
def execLtk (t : Tok) (d : BitVec 4) (cnt : Bool) (q : BitVec 4) (s : State) : Out :=
  execL (.ltk t d cnt q) t false (fun s =>
    .ok (if cnt then setJ s d (BitVec.ofNat 64 (tokCount (me s) q.toNat)) else s)) s

/-- LEND (R44). -/
def execLend (t : Tok) (s : State) : Out :=
  execL (.lend t) t false (fun s => .ok (modCtl s .l fun c => { c with st := .ending })) s

end Sys2Proof.Machine
end

