-- ==== Sys2Proof/Machine/XFlow.lean ====
section
/-!
DEFINITION. The control instructions of X: NOP, XLOOP (R243, R244), XBT and XBN (R245), XTK (R257) and XEND (R44).
-/
namespace Sys2Proof.Machine

/-- NOP (R31). -/
def execNop (s : State) : Out := execX .nop (fun s => .ok s) s

/-- A control instruction may not stand in a delay word (R245). -/
def notDelayed (s : State) : M Unit := if (ctl s .x).delay.isSome then xIllegal s 6 48 else .ok ()

/-- XLOOP: the count stands in the word or in lane (0, 0) of a register (R243). -/
def execXloop (x : Slot) (s : State) : Out :=
  execX (.xloop x) (fun s => do
    notDelayed s
    let (s, n) :=
      if x.imm.getLsbD 13 then
        let (s, l) := readV s x.srcA.toNat
        (s, (laneAt l 0 0).toNat)
      else (s, x.srcA.toNat * 1024 + x.srcB.toNat * 32 + x.srcC.toNat)
    startLoop .x (x.dst.toNat % 4) n (x.imm.toNat % 2 ^ 13) 43 0 s) s

/-- An X branch: taken where its flag has the wanted value, code 4 being always true; neither it nor its delay words may
end an active loop's body (R244 item 5, R245). A taken branch leaves the loops it jumps out of. -/
def xBranch (x : Slot) (want : Bool) (s : State) : M State := do
  notDelayed s
  let c := ctl s .x
  if [0, 1, 2].any (endsLoop c 16) then xIllegal s 6 48
  else
    let f := x.dst.toNat % 8
    let (s, v) := if f = 4 then (s, true) else readE s f
    let taken := v == want
    let tgt := relTarget c.pc 16 (sext (x.imm.toNat % 2 ^ 13) 13)
    let s := modX (transfer .x taken tgt s) fun k => { k with taken := taken }
    .ok (if taken then modCtl s .x fun c => { c with loops := loopsAt tgt c.loops } else s)

/-- XBT. -/
def execXbt (x : Slot) (s : State) : Out := execX (.xbt x) (xBranch x true) s
/-- XBN. -/
def execXbn (x : Slot) (s : State) : Out := execX (.xbn x) (xBranch x false) s

/-- XTK: the count of a queue at the end of the previous cycle in every lane (R257). -/
def execXtk (x : Slot) (s : State) : Out :=
  execX (.xtk x) (fun s =>
    .ok (writeAll s x 2 (splat (BitVec.ofNat 32 (tokCount (me s) (x.imm.toNat % 16)))))) s

/-- XEND: the stream ends; it retires once its commands and operations are done (R44). -/
def execXend (x : Slot) (s : State) : Out :=
  execX (.xend x) (fun s => do
    notDelayed s
    .ok (modCtl s .x fun c => { c with st := .ending })) s

end Sys2Proof.Machine
end

