-- ==== Sys2Proof/Machine/Dispatch.lean ====
section
/-!
DEFINITION. `exec`: one instruction or event, by its meaning.
-/
namespace Sys2Proof.Machine

/-- The instruction of the cursor, or the event, runs. -/
def exec (i : Instr) (s : State) : Host.Outcome State Fault Refusal :=
  match i with
  | .add d a b => Sys2Proof.Machine.execAdd d a b s
  | .sub d a b => Sys2Proof.Machine.execSub d a b s
  | .and d a b => Sys2Proof.Machine.execAnd d a b s
  | .or d a b => Sys2Proof.Machine.execOr d a b s
  | .xor d a b => Sys2Proof.Machine.execXor d a b s
  | .shl d a b => Sys2Proof.Machine.execShl d a b s
  | .shr d a b => Sys2Proof.Machine.execShr d a b s
  | .sra d a b => Sys2Proof.Machine.execSra d a b s
  | .min d a b => Sys2Proof.Machine.execMin d a b s
  | .max d a b => Sys2Proof.Machine.execMax d a b s
  | .minu d a b => Sys2Proof.Machine.execMinu d a b s
  | .maxu d a b => Sys2Proof.Machine.execMaxu d a b s
  | .mul d a b => Sys2Proof.Machine.execMul d a b s
  | .mulh d a b => Sys2Proof.Machine.execMulh d a b s
  | .mulhu d a b => Sys2Proof.Machine.execMulhu d a b s
  | .divu d a b => Sys2Proof.Machine.execDivu d a b s
  | .remu d a b => Sys2Proof.Machine.execRemu d a b s
  | .clz d a => Sys2Proof.Machine.execClz d a s
  | .popc d a => Sys2Proof.Machine.execPopc d a s
  | .sel d a b f => Sys2Proof.Machine.execSel d a b f s
  | .addi d a i0 => Sys2Proof.Machine.execAddi d a i0 s
  | .andi d a i0 => Sys2Proof.Machine.execAndi d a i0 s
  | .ori d a i0 => Sys2Proof.Machine.execOri d a i0 s
  | .xori d a i0 => Sys2Proof.Machine.execXori d a i0 s
  | .shli d a n => Sys2Proof.Machine.execShli d a n s
  | .shri d a n => Sys2Proof.Machine.execShri d a n s
  | .srai d a n => Sys2Proof.Machine.execSrai d a n s
  | .lui d i0 => Sys2Proof.Machine.execLui d i0 s
  | .liw d i0 => Sys2Proof.Machine.execLiw d i0 s
  | .ext d a p l => Sys2Proof.Machine.execExt d a p l s
  | .ins d a p l => Sys2Proof.Machine.execIns d a p l s
  | .cmp c f a b => Sys2Proof.Machine.execCmp c f a b s
  | .cmpi c f a i0 => Sys2Proof.Machine.execCmpi c f a i0 s
  | .pbt b o => Sys2Proof.Machine.execPbt b o s
  | .bt b f => Sys2Proof.Machine.execBt b f s
  | .btn b f => Sys2Proof.Machine.execBtn b f s
  | .ba b => Sys2Proof.Machine.execBa b s
  | .call b => Sys2Proof.Machine.execCall b s
  | .mtb b a => Sys2Proof.Machine.execMtb b a s
  | .ldb d a c o => Sys2Proof.Machine.execLdb d a c o s
  | .ldh d a c o => Sys2Proof.Machine.execLdh d a c o s
  | .ldw d a c o => Sys2Proof.Machine.execLdw d a c o s
  | .ldd d a c o => Sys2Proof.Machine.execLdd d a c o s
  | .ldbu d a c o => Sys2Proof.Machine.execLdbu d a c o s
  | .ldhu d a c o => Sys2Proof.Machine.execLdhu d a c o s
  | .ldwu d a c o => Sys2Proof.Machine.execLdwu d a c o s
  | .stb d a c o => Sys2Proof.Machine.execStb d a c o s
  | .sth d a c o => Sys2Proof.Machine.execSth d a c o s
  | .stw d a c o => Sys2Proof.Machine.execStw d a c o s
  | .std d a c o => Sys2Proof.Machine.execStd d a c o s
  | .lda d a c z s0 o => Sys2Proof.Machine.execLda d a c z s0 o s
  | .stl d a c z s0 o => Sys2Proof.Machine.execStl d a c z s0 o s
  | .atomCas d a b z s0 c => Sys2Proof.Machine.execAtomCas d a b z s0 c s
  | .atomXadd d a b z s0 c => Sys2Proof.Machine.execAtomXadd d a b z s0 c s
  | .atomXchg d a b z s0 c => Sys2Proof.Machine.execAtomXchg d a b z s0 c s
  | .atomAnd d a b z s0 c => Sys2Proof.Machine.execAtomAnd d a b z s0 c s
  | .atomOr d a b z s0 c => Sys2Proof.Machine.execAtomOr d a b z s0 c s
  | .atomMin d a b z s0 c => Sys2Proof.Machine.execAtomMin d a b z s0 c s
  | .atomMax d a b z s0 c => Sys2Proof.Machine.execAtomMax d a b z s0 c s
  | .llk d a c z o => Sys2Proof.Machine.execLlk d a c z o s
  | .sul d a c z o => Sys2Proof.Machine.execSul d a c z o s
  | .fence s0 m => Sys2Proof.Machine.execFence s0 m s
  | .tksig q => Sys2Proof.Machine.execTksig q s
  | .tksigRemote a q => Sys2Proof.Machine.execTksigRemote a q s
  | .tkwait q => Sys2Proof.Machine.execTkwait q s
  | .tkcnt d q => Sys2Proof.Machine.execTkcnt d q s
  | .tkinit v q => Sys2Proof.Machine.execTkinit v q s
  | .trap c => Sys2Proof.Machine.execTrap c s
  | .eret => Sys2Proof.Machine.execEret s
  | .mfs d n => Sys2Proof.Machine.execMfs d n s
  | .mts a n => Sys2Proof.Machine.execMts a n s
  | .node => Sys2Proof.Machine.execNode s
  | .endC => Sys2Proof.Machine.execEnd s
  | .launch d a => Sys2Proof.Machine.execLaunch d a s
  | .spawn d a => Sys2Proof.Machine.execSpawn d a s
  | .remq d a b => Sys2Proof.Machine.execRemq d a b s
  | .tndr d a b => Sys2Proof.Machine.execTndr d a b s
  | .wdraw d a => Sys2Proof.Machine.execWdraw d a s
  | .bidf a b => Sys2Proof.Machine.execBidf a b s
  | .qdrop d q => Sys2Proof.Machine.execQdrop d q s
  | .qdepth d q => Sys2Proof.Machine.execQdepth d q s
  | .jadd t d a b => Sys2Proof.Machine.execJadd t d a b s
  | .jsub t d a b => Sys2Proof.Machine.execJsub t d a b s
  | .jshl t d a b => Sys2Proof.Machine.execJshl t d a b s
  | .jshr t d a b => Sys2Proof.Machine.execJshr t d a b s
  | .jand t d a b => Sys2Proof.Machine.execJand t d a b s
  | .jor t d a b => Sys2Proof.Machine.execJor t d a b s
  | .jmul t d a b => Sys2Proof.Machine.execJmul t d a b s
  | .jaddi t d a i0 => Sys2Proof.Machine.execJaddi t d a i0 s
  | .jli t d i0 => Sys2Proof.Machine.execJli t d i0 s
  | .jlih t d i0 => Sys2Proof.Machine.execJlih t d i0 s
  | .lloop t n a e => Sys2Proof.Machine.execLloop t n a e s
  | .lbr t c a b i0 => Sys2Proof.Machine.execLbr t c a b i0 s
  | .bindi t a b n xp zorg => Sys2Proof.Machine.execBindi t a b n xp zorg s
  | .istart t c n => Sys2Proof.Machine.execIstart t c n s
  | .copy t c d a b zorg xp => Sys2Proof.Machine.execCopy t c d a b zorg xp s
  | .wgath t c d a b hst nm heat buf boff => Sys2Proof.Machine.execWgath t c d a b hst nm heat buf boff s
  | .wtile t c a row0 nm buf boff => Sys2Proof.Machine.execWtile t c a row0 nm buf boff s
  | .aircfg t slot pmin size => Sys2Proof.Machine.execAircfg t slot pmin size s
  | .airq t d a b => Sys2Proof.Machine.execAirq t d a b s
  | .lnopen t a i0 => Sys2Proof.Machine.execLnopen t a i0 s
  | .lnpeg t d a i0 => Sys2Proof.Machine.execLnpeg t d a i0 s
  | .lnfree t d a i0 => Sys2Proof.Machine.execLnfree t d a i0 s
  | .lnqry t d a i0 => Sys2Proof.Machine.execLnqry t d a i0 s
  | .pred t c a b vfy => Sys2Proof.Machine.execPred t c a b vfy s
  | .darn t c d a sel hst nm heat buf boff => Sys2Proof.Machine.execDarn t c d a sel hst nm heat buf boff s
  | .pfch t c a b => Sys2Proof.Machine.execPfch t c a b s
  | .ltk t d cnt q => Sys2Proof.Machine.execLtk t d cnt q s
  | .lend t => Sys2Proof.Machine.execLend t s
  | .nop => Sys2Proof.Machine.execNop s
  | .vadd x => Sys2Proof.Machine.execVadd x s
  | .vsub x => Sys2Proof.Machine.execVsub x s
  | .vmul x => Sys2Proof.Machine.execVmul x s
  | .vfma x => Sys2Proof.Machine.execVfma x s
  | .vfms x => Sys2Proof.Machine.execVfms x s
  | .vmin x => Sys2Proof.Machine.execVmin x s
  | .vmax x => Sys2Proof.Machine.execVmax x s
  | .vabs x => Sys2Proof.Machine.execVabs x s
  | .vneg x => Sys2Proof.Machine.execVneg x s
  | .vand x => Sys2Proof.Machine.execVand x s
  | .vor x => Sys2Proof.Machine.execVor x s
  | .vxor x => Sys2Proof.Machine.execVxor x s
  | .vshl x => Sys2Proof.Machine.execVshl x s
  | .vshr x => Sys2Proof.Machine.execVshr x s
  | .vsra x => Sys2Proof.Machine.execVsra x s
  | .vsel x => Sys2Proof.Machine.execVsel x s
  | .vcmp x => Sys2Proof.Machine.execVcmp x s
  | .vmov x => Sys2Proof.Machine.execVmov x s
  | .vldi x => Sys2Proof.Machine.execVldi x s
  | .vclamp x => Sys2Proof.Machine.execVclamp x s
  | .vrotr x => Sys2Proof.Machine.execVrotr x s
  | .vrotc x => Sys2Proof.Machine.execVrotc x s
  | .vbcr x => Sys2Proof.Machine.execVbcr x s
  | .vbcc x => Sys2Proof.Machine.execVbcc x s
  | .vredr x => Sys2Proof.Machine.execVredr x s
  | .vredc x => Sys2Proof.Machine.execVredc x s
  | .vscnr x => Sys2Proof.Machine.execVscnr x s
  | .vscnc x => Sys2Proof.Machine.execVscnc x s
  | .vxpq x => Sys2Proof.Machine.execVxpq x s
  | .pand x => Sys2Proof.Machine.execPand x s
  | .por x => Sys2Proof.Machine.execPor x s
  | .pxor x => Sys2Proof.Machine.execPxor x s
  | .pnot x => Sys2Proof.Machine.execPnot x s
  | .pset x => Sys2Proof.Machine.execPset x s
  | .pcnt x => Sys2Proof.Machine.execPcnt x s
  | .voteAny x => Sys2Proof.Machine.execVoteAny x s
  | .voteAll x => Sys2Proof.Machine.execVoteAll x s
  | .vcvt x => Sys2Proof.Machine.execVcvt x s
  | .vflip x => Sys2Proof.Machine.execVflip x s
  | .vunflip x => Sys2Proof.Machine.execVunflip x s
  | .vexp2 x => Sys2Proof.Machine.execVexp2 x s
  | .vlog2 x => Sys2Proof.Machine.execVlog2 x s
  | .vrcp x => Sys2Proof.Machine.execVrcp x s
  | .vrsq x => Sys2Proof.Machine.execVrsq x s
  | .vsqrt x => Sys2Proof.Machine.execVsqrt x s
  | .vtanh x => Sys2Proof.Machine.execVtanh x s
  | .vsig x => Sys2Proof.Machine.execVsig x s
  | .vtopk x => Sys2Proof.Machine.execVtopk x s
  | .vhist x => Sys2Proof.Machine.execVhist x s
  | .vcompr x => Sys2Proof.Machine.execVcompr x s
  | .vexpnd x => Sys2Proof.Machine.execVexpnd x s
  | .vnrm x => Sys2Proof.Machine.execVnrm x s
  | .vcheck x => Sys2Proof.Machine.execVcheck x s
  | .vrng x => Sys2Proof.Machine.execVrng x s
  | .vsample x => Sys2Proof.Machine.execVsample x s
  | .vspchk x => Sys2Proof.Machine.execVspchk x s
  | .vrdacc x => Sys2Proof.Machine.execVrdacc x s
  | .vrdaccPeek x => Sys2Proof.Machine.execVrdaccPeek x s
  | .vwracc x => Sys2Proof.Machine.execVwracc x s
  | .mclr x => Sys2Proof.Machine.execMclr x s
  | .mldc x => Sys2Proof.Machine.execMldc x s
  | .msetf sel v => Sys2Proof.Machine.execMsetf sel v s
  | .mgo x => Sys2Proof.Machine.execMgo x s
  | .mqry x => Sys2Proof.Machine.execMqry x s
  | .xloop x => Sys2Proof.Machine.execXloop x s
  | .xbt x => Sys2Proof.Machine.execXbt x s
  | .xbn x => Sys2Proof.Machine.execXbn x s
  | .xtk x => Sys2Proof.Machine.execXtk x s
  | .xend x => Sys2Proof.Machine.execXend x s
  | .bindo t o a => Sys2Proof.Machine.execBindo t o a s
  | .drain t o n => Sys2Proof.Machine.execDrain t o n s
  | .drainx t o b n => Sys2Proof.Machine.execDrainx t o b n s
  | .sloop t c a e => Sys2Proof.Machine.execSloop t c a e s
  | .saddi t d a i0 => Sys2Proof.Machine.execSaddi t d a i0 s
  | .sli t d i0 => Sys2Proof.Machine.execSli t d i0 s
  | .rgapnd t a b c => Sys2Proof.Machine.execRgapnd t a b c s
  | .rgcmt t a b c => Sys2Proof.Machine.execRgcmt t a b c s
  | .rgupk t a b c => Sys2Proof.Machine.execRgupk t a b c s
  | .stk t d q => Sys2Proof.Machine.execStk t d q s
  | .send t => Sys2Proof.Machine.execSend t s
  | .sld t d a i0 => Sys2Proof.Machine.execSld t d a i0 s
  | .taskDispatch core => Sys2Proof.Machine.execTaskDispatch core s
  | .taskStart core slot => Sys2Proof.Machine.execTaskStart core slot s
  | .streamEndRetire core slot q => Sys2Proof.Machine.execStreamEndRetire core slot q s
  | .loaderStage core => Sys2Proof.Machine.execLoaderStage core s
  | .planeFlip core => Sys2Proof.Machine.execPlaneFlip core s
  | .faultedRetirement core slot => Sys2Proof.Machine.execFaultedRetirement core slot s
  | .hostLaunchEntry => Sys2Proof.Machine.execHostLaunchEntry s
  | .counterEvent e => Sys2Proof.Machine.execCounterEvent e s
  | .budgetFlush core => Sys2Proof.Machine.execBudgetFlush core s
  | .budgetOverrun core slot => Sys2Proof.Machine.execBudgetOverrun core slot s
  | .tenderBid core slot bidder => Sys2Proof.Machine.execTenderBid core slot bidder s
  | .tenderWindowClose core slot => Sys2Proof.Machine.execTenderWindowClose core slot s
  | .tenderOffer core slot => Sys2Proof.Machine.execTenderOffer core slot s
  | .withdrawalNotice k => Sys2Proof.Machine.execWithdrawalNotice k s
  | .trapDelivery core slot => Sys2Proof.Machine.execTrapDelivery core slot s
  | .refillEvent core slot => Sys2Proof.Machine.execRefillEvent core slot s
  | .tableWalk core slot q => Sys2Proof.Machine.execTableWalk core slot q s
  | .notification core slot => Sys2Proof.Machine.execNotification core slot s
  | .holdTimeout core slot q => Sys2Proof.Machine.execHoldTimeout core slot q s
  | .engineWaitmTimeout core q => Sys2Proof.Machine.execEngineWaitmTimeout core q s
  | .tfillWrite core v => Sys2Proof.Machine.execTfillWrite core v s
  | .tinvWrite core v => Sys2Proof.Machine.execTinvWrite core v s
  | .trvalWrite core v => Sys2Proof.Machine.execTrvalWrite core v s
  | .prviolWrite core slot v => Sys2Proof.Machine.execPrviolWrite core slot v s
  | .commandDequeue core q => Sys2Proof.Machine.execCommandDequeue core q s
  | .matrixCommand core => Sys2Proof.Machine.execMatrixCommand core s
  | .copyCommand core => Sys2Proof.Machine.execCopyCommand core s
  | .weightGather core => Sys2Proof.Machine.execWeightGather core s
  | .weightTile core => Sys2Proof.Machine.execWeightTile core s
  | .darnGather core => Sys2Proof.Machine.execDarnGather core s
  | .prefetch core => Sys2Proof.Machine.execPrefetch core s
  | .predictScore core => Sys2Proof.Machine.execPredictScore core s
  | .commandRetire core q k => Sys2Proof.Machine.execCommandRetire core q k s
  | .startGrant col => Sys2Proof.Machine.execStartGrant col s
  | .warmWindowExpiry core eng => Sys2Proof.Machine.execWarmWindowExpiry core eng s
  | .fillerEnd core eng => Sys2Proof.Machine.execFillerEnd core eng s
  | .inStreamRun core slot n => Sys2Proof.Machine.execInStreamRun core slot n s
  | .inStreamBlock core slot n => Sys2Proof.Machine.execInStreamBlock core slot n s
  | .drainBlock core slot => Sys2Proof.Machine.execDrainBlock core slot s
  | .xOperationLand core slot k => Sys2Proof.Machine.execXOperationLand core slot k s
  | .xSignalPush core slot => Sys2Proof.Machine.execXSignalPush core slot s
  | .lockGrant core bank line => Sys2Proof.Machine.execLockGrant core bank line s
  | .remoteAccess k => Sys2Proof.Machine.execRemoteAccess k s
  | .remoteTokenArrival k => Sys2Proof.Machine.execRemoteTokenArrival k s
  | .remqArrival k => Sys2Proof.Machine.execRemqArrival k s
  | .epochEnd => Sys2Proof.Machine.execEpochEnd s
  | .swapFlip => Sys2Proof.Machine.execSwapFlip s
  | .refresh bank => Sys2Proof.Machine.execRefresh bank s
  | .rowHammerAlert bank => Sys2Proof.Machine.execRowHammerAlert bank s
  | .lineReopen bank bad => Sys2Proof.Machine.execLineReopen bank bad s
  | .patrolScrub bank row f => Sys2Proof.Machine.execPatrolScrub bank row f s
  | .hotListScrub bank row f => Sys2Proof.Machine.execHotListScrub bank row f s
  | .rowRetirement bank row => Sys2Proof.Machine.execRowRetirement bank row s
  | .errorWindowEnd => Sys2Proof.Machine.execErrorWindowEnd s
  | .lastingFault u => Sys2Proof.Machine.execLastingFault u s
  | .timingReplay core => Sys2Proof.Machine.execTimingReplay core s
  | .replayWindowEnd col => Sys2Proof.Machine.execReplayWindowEnd col s
  | .tempSample core e0 e1 rest => Sys2Proof.Machine.execTempSample core e0 e1 rest s
  | .flitReceive port seq ok b => Sys2Proof.Machine.execFlitReceive port seq ok b s
  | .portRetrain port ok => Sys2Proof.Machine.execPortRetrain port ok s
  | .routeEntryWrite m n v => Sys2Proof.Machine.execRouteEntryWrite m n v s
  | .routeChangeEffect n => Sys2Proof.Machine.execRouteChangeEffect n s
  | .hostBar2Read a n => Sys2Proof.Machine.execHostBar2Read a n s
  | .hostBar2Write a bs => Sys2Proof.Machine.execHostBar2Write a bs s
  | .controlSpaceWrite m off v => Sys2Proof.Machine.execControlSpaceWrite m off v s
  | .hrst m => Sys2Proof.Machine.execHrst m s
  | .tadjWrite m v => Sys2Proof.Machine.execTadjWrite m v s
  | .domidWrite m v => Sys2Proof.Machine.execDomidWrite m v s
  | .unitMapWrite m off v => Sys2Proof.Machine.execUnitMapWrite m off v s
  | .hostReset => Sys2Proof.Machine.execHostReset s
  | .moduleReset => Sys2Proof.Machine.execModuleReset s
  | .powerOn => Sys2Proof.Machine.execPowerOn s
  | .alarm src => Sys2Proof.Machine.execAlarm src s
  | .debugUnlock challenge response => Sys2Proof.Machine.execDebugUnlock challenge response s
  | .pldmFirmwareUpdate kind svn sig image => Sys2Proof.Machine.execPldmFirmwareUpdate kind svn sig image s
  | .svnRaise svn sig => Sys2Proof.Machine.execSvnRaise svn sig s
  | .pldmPlatformMonitoring => Sys2Proof.Machine.execPldmPlatformMonitoring s
  | .getVersion => Sys2Proof.Machine.execGetVersion s
  | .getCapabilities => Sys2Proof.Machine.execGetCapabilities s
  | .negotiateAlgorithms => Sys2Proof.Machine.execNegotiateAlgorithms s
  | .getDigests => Sys2Proof.Machine.execGetDigests s
  | .getCertificate => Sys2Proof.Machine.execGetCertificate s
  | .challenge nonce => Sys2Proof.Machine.execChallenge nonce s
  | .getMeasurements nonce => Sys2Proof.Machine.execGetMeasurements nonce s
  | .timeSlew => Sys2Proof.Machine.execTimeSlew s
  | .pcieLinkChange up => Sys2Proof.Machine.execPcieLinkChange up s

end Sys2Proof.Machine
end

