-- ==== Sys2Proof/Machine/Late.lean ====
section
/-!
DEFINITION. Results of C and L that come later than the next cycle, and the words that wait for them (R232, Table 13.1, R241,
R242). The times of memory accesses, which are typical (R144), are left open (log 52).
-/
namespace Sys2Proof.Machine

/-- The registers of C that an instruction reads. -/
def cReads : Instr → List (BitVec 5)
  | .add _ a b | .sub _ a b | .and _ a b | .or _ a b | .xor _ a b | .shl _ a b | .shr _ a b | .sra _ a b | .min _ a b | .max _ a b
  | .minu _ a b | .maxu _ a b | .mul _ a b | .mulh _ a b | .mulhu _ a b | .divu _ a b | .remu _ a b | .sel _ a b _
  | .cmp _ _ a b => [a, b]
  | .clz _ a | .popc _ a | .addi _ a _ | .andi _ a _ | .ori _ a _ | .xori _ a _ | .shli _ a _ | .shri _ a _ | .srai _ a _
  | .ext _ a _ _ | .cmpi _ _ a _ | .mtb _ a => [a]
  | .liw d _ => [d]
  | .ins d a _ _ => [d, a]
  | .ldb _ a _ _ | .ldh _ a _ _ | .ldw _ a _ _ | .ldd _ a _ _ | .ldbu _ a _ _ | .ldhu _ a _ _ | .ldwu _ a _ _
  | .lda _ a _ _ _ _ | .llk _ a _ _ _ => [a]
  | .stb d a _ _ | .sth d a _ _ | .stw d a _ _ | .std d a _ _ | .stl d a _ _ _ _ | .sul d a _ _ _ => [d, a]
  | .atomCas d a b _ _ _ => [d, a, b]
  | .atomXadd _ a b _ _ _ | .atomXchg _ a b _ _ _ | .atomAnd _ a b _ _ _ | .atomOr _ a b _ _ _ | .atomMin _ a b _ _ _
  | .atomMax _ a b _ _ _ => [a, b]
  | .tksigRemote a _ | .mts a _ | .launch _ a | .spawn _ a | .wdraw _ a => [a]
  | .remq _ a b | .tndr _ a b | .bidf a b => [a, b]
  | _ => []

/-- The registers of L that an instruction reads. -/
def jReads : Instr → List (BitVec 4)
  | .jadd _ _ a b | .jsub _ _ a b | .jshl _ _ a b | .jshr _ _ a b | .jand _ _ a b | .jor _ _ a b | .jmul _ _ a b | .lbr _ _ a b _
  | .airq _ _ a b | .pfch _ _ a b | .pred _ _ a b _ => [a, b]
  | .jaddi _ _ a _ | .lloop _ _ a _ | .wtile _ _ a _ _ _ _ | .lnopen _ a _ | .lnpeg _ _ a _ | .lnfree _ _ a _ | .lnqry _ _ a _ => [a]
  | .jlih _ d _ => [d]
  | .bindi _ a b _ _ zorg => if zorg then [a] else [a, b]
  | .copy _ _ d a b zorg _ => if zorg then [a, b] else [d, a, b]
  | .wgath _ _ d a b _ _ heat _ _ => if heat then [d, a, b] else [a, b]
  | .darn _ _ d a _ _ _ heat _ _ => if heat then [d, a] else [a]
  | _ => []

/-- A result of C that is ready in a later cycle than the next: its register, and after how many cycles (Table 13.1). -/
def cLate (s : State) : Instr → Option (BitVec 5 × Nat)
  | .mul d _ _ | .mulh d _ _ | .mulhu d _ _ => some (d, 3)
  | .divu d a _ | .remu d a _ => some (d, 2 + max 1 (64 - leadingZeros (reg s a)))
  | _ => none

/-- The place of the word after a taken LBR among what L waits for. -/
def bubbleNo : Nat := 16

/-- What L waits for after an instruction: JMUL's register for 3 cycles (R241), the target of a taken LBR for 2 (R242). -/
def jLate (s : State) : Instr → Option (Nat × Nat)
  | .jmul _ d _ _ => some (d.toNat, 3)
  | .lbr _ c a b _ => if cond c (getJ s a) (getJ s b) then some (bubbleNo, 2) else none
  | _ => none

/-- Does L wait for the target of a taken LBR? -/
def bubble (s : State) : Bool := (tabFind (me s).jlate bubbleNo).isSome

/-- Is everything there that a word of C or L reads? -/
def ready (s : State) (q : Seq) (i : Instr) : Bool :=
  match q with
  | .c => (cReads i).all fun r => (tabFind (ctx s).late r.toNat).isNone
  | .l => !bubble s && (jReads i).all fun r => (tabFind (me s).jlate r.toNat).isNone
  | _ => true

/-- A result under way for `n` cycles; one for the same register that takes longer still counts. -/
def addLate (l : Tab Nat) (r n : Nat) : Tab Nat := tabSet l r (max n (tabGet 0 l r))

/-- A word that has issued in state `s` and led to `t`: its result is under way. A write to g0 is none (R21), and a word that traps
writes nothing (R270). -/
def noteLate (s : State) (q : Seq) (i : Instr) (t : State) : State :=
  if nth (getCore t s.cur.core).issued (seqCode q) false && (ctl t q).st != .faulted then
    match q with
    | .c => match cLate s i with
      | some (d, n) => if d = 0 ∧ s.cur.handler = false then t else modCtx t fun c => { c with late := addLate c.late d.toNat n }
      | none => t
    | .l => match jLate s i with
      | some (r, n) => modMe t fun k => { k with jlate := addLate k.jlate r n }
      | none => t
    | _ => t
  else t

/-- What is under way, a cycle later. -/
def passed (l : Tab Nat) : Tab Nat := l.filterMap fun e => if e.2 ≤ 1 then none else some (e.1, e.2 - 1)

end Sys2Proof.Machine
end

