-- ==== Sys2Proof/Machine/Issue.lean ====
section
/-!
DEFINITION. What an agent does when it moves: a sequencer issues its next word (R12, R15, R36), an X word with its two slots
(R27, R30, R34, R162, R246 to R249), the handler context (R12 rule 4), an event, a cycle of the core clock, a tick of TIME.
-/
namespace Sys2Proof.Machine

/-- The state an instruction leads to; its meaning never stops the machine. -/
def after (s : State) : Out → State
  | .next t => t
  | _ => s

/-- The fault of a word, as a failure. -/
def raiseFail (s : State) (q : Seq) (f : Fail) : State := raise s q f.cause (illDetail f)

/-- A fetch that does not give a word: past the end of the section, or an uncorrectable error (R15, R344). -/
def fetch (s : State) (q : Seq) : Except State Nat :=
  match fetchWord (me s) q (ctl s q).pc with
  | none => .error (raiseFail s q ⟨1, 4, 0, false⟩)
  | some w => if fetchBad s q then .error (raise s q 0x0B (sramLocator s.cur.core 4)) else .ok w

/-- A word of C, L or S: its decode checks together (R36), then its instruction, once what it reads is there (R232, R241). -/
def issueWord (s : State) (q : Seq) : State :=
  if q == .l && bubble s then s
  else match fetch s q with
  | .error t => t
  | .ok w =>
    let r : Read := match q with
      | .c => decodeC w
      | .l => decodeL w
      | _ => decodeS w
    match r with
    | (none, fs) =>
      let tokFs := match q with
        | .c => []
        | .l => tokFails (ctxOf s .l) w 49 44
        | _ => tokFails (ctxOf s .s) w 22 17
      raiseFail s q ((pickFail (fs ++ tokFs)).getD ⟨1, 0, 0, false⟩)
    | (some i, []) => if ready s q i then noteLate s q i (after s (exec i s)) else s
    | (some i, fs) =>
      let ctxFs := match q with
        | .c => cFails (ctxOf s .c) i
        | .l => lFails (ctxOf s .l) i
        | _ => sFails (ctxOf s .s) i
      raiseFail s q ((pickFail (fs ++ ctxFs)).getD ⟨1, 0, 0, false⟩)

/-! ## The X stream -/

/-- An X-issue cycle in which no word issues: a gap or an interlock, one core cycle long (R34, R162, R246). -/
def idleX (s : State) : State := settle (modX s fun x => { x with count := x.count + 1, until_ := s.cycle + 1 })

/-- The queue that the signal of an earlier word does not fit, which is a hold of the task (R18). -/
def owedPush (t : Task) : Option Nat :=
  match t.x.sigs with
  | q :: _ => if tokRoom t q then none else some q
  | [] => none

/-- Is this a cycle of the gap of X's next word, or one in which it waits for an interlock (R34, R248, R249)? Such a cycle
takes no issue slot of the core. -/
def idling (s : State) : Bool :=
  let x := xOf' s
  s.cycle ≥ x.until_ && (owedPush (me s)).isNone && match fetch s .x with
    | .error _ => false
    | .ok n => x.count < x.next + bits n 127 125 || match decodeX n with
      | (some w, []) => (xFails (ctxOf s .x) w).isEmpty && interlocked x (slotItems w.a ++ slotItems w.b)
      | _ => false

/-- Does a slot carry vector work (R162)? -/
def vectorWork (i : Instr) : Bool :=
  match xParts i with
  | some (op, _) => (0x01 ≤ op && op ≤ 0x5F) || (0x70 ≤ op && op ≤ 0x88)
  | none => false

/-- What keeps a word from issuing: its wait (R17), its streams (R30), the vector unit (R162). -/
def holdWord (s : State) (w : XWord) : M Unit := do
  match tokQueue w.tok.wait with
  | some n => if tokAvail (me s) n then .ok () else hold .token n
  | none => .ok ()
  streamHold (me s) [w.a, w.b]
  if (vectorWork w.a || vectorWork w.b) && s.cycle < (myCore s).vecUntil then hold .line else .ok ()

/-- Has a slot's instruction stopped: at a trap or a hold? -/
def stoppedAt (s : State) : Bool :=
  let c := ctl s .x
  c.hold.isSome || c.st == .faulted

/-- Both slots of a word, slot B after slot A; a slot that stops stops the word. -/
def runSlots (s : State) (w : XWord) : State :=
  let at' (s : State) (b : Bool) : State := { s with cur := { s.cur with slotB := b } }
  let s := after s (exec w.a (at' s false))
  at' (if stoppedAt s then s else after s (exec w.b (at' s true))) false

/-- A word that stopped: neither slot has taken effect (R32, R36, R155). A held word pops nothing; a trapped one keeps what
its fault sets. -/
def undoWord (s0 s1 r : State) : State :=
  let c := ctl r .x
  match c.hold with
  | some (k, n) =>
    let s := noteHold { s0 with fresh := r.fresh } .x k n
    modMe s fun t => { t with miss := (me r).miss }
  | none =>
    modMe (markIssue { s1 with fresh := r.fresh } .x) fun t => { t with
      x := { t.x with ctl := c }, faults := (me r).faults, miss := (me r).miss, rngAt := (me r).rngAt
      chk := { t.chk with mldis := (me r).chk.mldis }, sys := { t.sys with numfl := (me r).sys.numfl } }

/-- Does a word push a command, which takes its signal (R18)? -/
def pushesCommand (w : XWord) : Bool :=
  match w.b with
  | .mgo _ => true
  | _ => false

/-- The results not yet due of operations become pending (R248). -/
def markOps (x : XCtx) : XCtx :=
  { x with
    taken := false
    ops := x.ops.map fun o => match o.item with
      | .z _ => o
      | _ => if o.passed x.count then o else { o with marked := true } }

/-- A word has issued: its signal is owed, the count goes on, control goes to the next word, and the unit is occupied. -/
def finishWord (pc : Nat) (s : State) (w : XWord) : State :=
  let s := markIssue s .x
  let ending := (ctl s .x).st == .ending
  let skipped := (ctl s .x).pc ≠ pc
  let sig := tokQueue w.tok.sig
  let work := (vectorWork w.a).toNat + (vectorWork w.b).toNat
  let lastDelay := ((ctl s .x).delay.map fun d => decide (d.left ≤ 1)).getD false
  let s := modX s fun x => { x with
    count := x.count + 1, next := x.count + 1, until_ := s.cycle + max 1 (16 * work)
    sigs := if pushesCommand w then x.sigs else x.sigs ++ sig.toList }
  let s := if skipped || (lastDelay && (xOf' s).taken) then modX s markOps else s
  let s := if work = 0 then s else modMyCore s fun k => { k with vecUntil := s.cycle + 16 * work }
  if ending then modCtl s .x fun c => { c with hold := none, held := 0 }
  else modCtl s .x fun c => (advance 16 c).clear

/-- X moves: the task holds for an earlier word's signal, or an idle X-issue cycle of the word's gap or of an interlock goes
by, or the word issues, holds or traps. -/
def issueX (s : State) : State :=
  if s.cycle < (xOf' s).until_ then s
  else match owedPush (me s), fetch s .x with
    | some q, _ => noteHold s .x .push q
    | none, .error t => t
    | none, .ok n =>
      let x := xOf' s
      let d := decodeX n
      if x.count < x.next + bits n 127 125 then idleX s
      else match pickFail (d.2 ++ (d.1.map (xFails (ctxOf s .x))).getD (xRawFails (ctxOf s .x) n)), d.1 with
        | some f, _ => raiseFail s .x f
        | none, none => raiseFail s .x ⟨1, 0, 0, false⟩
        | none, some w =>
          if interlocked x (slotItems w.a ++ slotItems w.b) then idleX s
          else
            let s := settle s
            match holdWord s w with
            | .error (.hold k n) => noteHold s .x k n
            | .error _ => s
            | .ok _ =>
              let s0 := modCtl s .x fun c => { c with hold := none }
              let s1 := match tokQueue w.tok.wait with
                | some n => modMe s0 fun t => tokPop t n
                | none => s0
              let r := runSlots s1 w
              if stoppedAt r then undoWord s s1 r else finishWord (ctl s .x).pc r w

/-! ## Whose turn it is (R12) -/

/-- Is the core not frozen by a replay (R317), and compute not halted (R338, R342)? -/
def coreRuns (s : State) (c : Nat) : Bool := s.bootst = 1 && (getCore s c).freeze = 0

/-- May a sequencer of a task issue its next word: the task has started and is not stopped, no fault of an earlier cycle
is pending (R271, R272), and no translation it waits for is under way (R281)? -/
def mayIssue (s : State) (c n : Nat) (q : Seq) : Bool :=
  let t := getTask s c n
  resident s c n && t.started && !halted t s.cycle && (taskCtl t q).st == .run
    && t.miss.all fun m => m.noMap || m.q ≥ 4 || (q != .x && m.q ≠ seqCode q)

/-- The word of a sequencer of a task tried. -/
def tryWord (s : State) (c n : Nat) (q : Seq) : State :=
  let s := { s with cur := { core := c, slot := n } }
  match q with
  | .x => issueX s
  | q => issueWord s q

/-- Would the next word of that sequencer issue now? -/
def canIssue (s : State) (c n : Nat) (q : Seq) : Bool :=
  mayIssue s c n q && nth (getCore (tryWord s c n q) c).issued (seqCode q) false

/-- The order of the tasks of a core for a sequencer kind: priority, then round-robin after the last that issued (R12
rule 3). DESIGN CHOICE: the last is that of any priority, one for each sequencer kind (log 54). -/
def turn (k : Core) (q : Seq) (n : Nat) : Nat :=
  (15 - (tabGet {} k.slots n).eff.prio) * 4 + (n + 3 - nth k.lastSlot (seqCode q) 3) % 4

/-- Does another task come first for that sequencer kind? -/
def outranked (s : State) (c n : Nat) (q : Seq) : Bool :=
  let k := getCore s c
  k.slots.any fun e => e.1 ≠ n && turn k q e.1 < turn k q n && canIssue s c e.1 q

/-- The word of the handler context tried. -/
def tryHandler (s : State) (c : Nat) : State :=
  match (getCore s c).h.serving with
  | some (n, _) =>
    if (getCore s c).h.ctx.ctl.st == .run then issueWord { s with cur := { core := c, slot := n, handler := true } } .c else s
  | none => s

/-- Would the handler context issue now? -/
def handlerReady (s : State) (c : Nat) : Bool := nth (getCore (tryHandler s c) c).issued 0 false

/-- Is this the cycle of its group that is reserved for the handler context (R12 rule 4)? -/
def reservedCycle (k : Core) : Bool := k.cyc.toNat % 8 = 0

/-- Does throttle level 2 withhold the cycle from the tasks (R325)? -/
def withheld (s : State) (c : Nat) : Bool := (tabGet {} s.cols (columnOf c)).level = 2 && (getCore s c).cyc.toNat % 2 = 0

/-- A sequencer of a task moves, unless an earlier agent has a prior claim on a token. -/
def moveSeqFree (s : State) (c n : Nat) (q : Seq) : State :=
  let at' : State := { s with cur := { core := c, slot := n } }
  let t := getTask s c n
  if !coreRuns s c || !resident s c n || !t.started || halted t s.cycle then s
  else match (taskCtl t q).st with
    | .busy .push _ => retire q at'
    | .busy .queueFull _ => if q == .c then s else retryPush at' q
    | .busy .drainWork _ => if q == .s then ragStep at' else s
    | .run =>
      let k := getCore s c
      if q == .x && mayIssue s c n .x && idling at' then idleX at'
      else if !mayIssue s c n q || nth k.issued (seqCode q) false || withheld s c || outranked s c n q
          || (q == .c && reservedCycle k && handlerReady s c) then s
      else tryWord s c n q
    | _ => s

/-- The handler context of a core moves. -/
def moveHandler (s : State) (c : Nat) : State :=
  let k := getCore s c
  if !coreRuns s c || nth k.issued 0 false then s
  else if !reservedCycle k && !withheld s c && k.slots.any (fun e => canIssue s c e.1 .c) then s
  else tryHandler s c

/-! ## Events -/

/-- What an event concerns: whether it is compute, which stops while the module is halted (R342), the core whose replay
freezes it (R317), that of a word of C which it completes among them, and whether the units it names exist (R8, R9, R67). None for an
instruction. -/
def eventInfo (s : State) : Instr → Option (Bool × Option Nat × Bool)
  | .taskDispatch c | .loaderStage c | .budgetFlush c => some (true, none, c < 512)
  | .planeFlip c | .tfillWrite c _ | .tinvWrite c _ | .trvalWrite c _ => some (true, some c, c < 512)
  | .taskStart c n | .faultedRetirement c n | .budgetOverrun c n | .tenderWindowClose c n | .tableWalk c n _ =>
    some (true, none, c < 512 && n < 4)
  | .tenderOffer c n | .trapDelivery c n | .refillEvent c n | .notification c n | .prviolWrite c n _ | .streamEndRetire c n _
  | .holdTimeout c n _ => some (true, some c, c < 512 && n < 4)
  | .tenderBid c n b => some (true, none, c < 512 && n < 4 && b < 512)
  | .hostLaunchEntry => some (true, none, true)
  | .counterEvent e => some (true, none, e < 8)
  | .withdrawalNotice _ => some (true, none, true)
  | .engineWaitmTimeout c _ | .commandDequeue c _ | .commandRetire c _ _ => some (true, some c, c < 512)
  | .matrixCommand c | .copyCommand c | .weightGather c | .weightTile c | .darnGather c | .prefetch c | .predictScore c =>
    some (true, some c, c < 512)
  | .startGrant col => some (true, none, col < 32)
  | .warmWindowExpiry c e | .fillerEnd c e => some (true, some c, c < 512 && e < 2)
  | .inStreamRun c n _ | .inStreamBlock c n _ | .xOperationLand c n _ => some (true, some c, c < 512 && n < 4)
  | .drainBlock c n | .xSignalPush c n => some (true, some c, c < 512 && n < 4)
  | .lockGrant c b l =>
    some (true, (nextGrant s c b l).map (·.core), c < 512 && b < 32 && l < 8)
  | .remoteAccess k | .remoteTokenArrival k | .remqArrival k => some (true, (s.remote[k]?).map fun r => r.sender.1, true)
  | .epochEnd | .swapFlip | .errorWindowEnd => some (false, none, true)
  | .refresh b | .rowHammerAlert b => some (false, none, b < 8192)
  | .lineReopen b _ => some (false, none, b < 8192)
  | .patrolScrub b r _ | .hotListScrub b r _ => some (false, none, b < 8192 && r < 65536)
  | .rowRetirement b r => some (false, none, b < 8192 && r < 65536)
  | .lastingFault _ => some (false, none, true)
  | .timingReplay c => some (false, none, c < 512)
  | .replayWindowEnd col => some (false, none, col < 32)
  | .tempSample c _ _ _ => some (false, none, c < 512)
  | .flitReceive p _ _ _ => some (false, none, p < 16)
  | .portRetrain p _ => some (false, none, p < 16)
  | .routeEntryWrite _ n _ => some (false, none, n < 64)
  | .routeChangeEffect n => some (false, none, n < 64)
  | .hostBar2Read _ _ | .hostBar2Write _ _ | .controlSpaceWrite _ _ _ | .hrst _ | .tadjWrite _ _ | .domidWrite _ _
  | .unitMapWrite _ _ _ | .hostReset | .moduleReset | .powerOn | .alarm _ | .debugUnlock _ _ | .pldmFirmwareUpdate _ _ _ _
  | .svnRaise _ _ | .pldmPlatformMonitoring | .getVersion | .getCapabilities | .negotiateAlgorithms | .getDigests
  | .getCertificate | .challenge _ | .getMeasurements _ | .timeSlew | .pcieLinkChange _ => some (false, none, true)
  | _ => none

/-- An event comes about: one of compute waits while the module does not run, one of a frozen core while it is frozen. -/
def moveEventFree (s : State) (i : Instr) : Out :=
  match eventInfo s i with
  | none => .refused .notAnEvent
  | some (compute, core, ok) =>
    if !ok then .fault .noSuchUnit
    else
      let frozen : Bool := match core with
        | some c => (getCore s c).freeze ≠ 0
        | none => false
      if (compute && s.bootst ≠ 1) || frozen then .next s else exec i s

/-! ## The order of the agents of a task at its token queues (R19) -/

/-- How far each token queue of a task has been popped and pushed in this cycle. -/
def tokUses (s : State) (c n : Nat) : List (Nat × Nat) :=
  let t := getTask s c n
  (List.range 16).map fun i => (nth t.tpop i 0, nth t.tpush i 0)

/-- What the agents of a task that come before rank `r` would lead to if each moved now: C with the handler context, L, X,
S, then the matrix, copy, weight-streamer and predictor engines. -/
def earlierMoves (s : State) (c n r : Nat) : List State :=
  let ev (i : Instr) : State := after s (moveEventFree s i)
  let seqs : List (Seq × Nat) := [(.c, 0), (.l, 1), (.x, 2), (.s, 3)]
  (seqs.filter (·.2 < r)).flatMap (fun p => [moveSeqFree s c n p.1, ev (.streamEndRetire c n p.1)])
    ++ (if 0 < r then [moveHandler s c] else [])
    ++ (if 2 < r then [ev (.xSignalPush c n)] else [])
    ++ (if 4 < r then [ev (.matrixCommand c), ev (.commandRetire c .matrix 0), ev (.commandRetire c .matrix 1)] else [])
    ++ (if 5 < r then [ev (.copyCommand c), ev (.commandRetire c .copy 0)] else [])
    ++ (if 6 < r then [ev (.weightGather c), ev (.weightTile c), ev (.darnGather c), ev (.prefetch c), ev (.commandRetire c .weight 0)] else [])
    ++ (if 7 < r then [ev (.predictScore c), ev (.commandRetire c .pred 0)] else [])

/-- Does the move of an agent of rank `r` from `s` to `s'` take a token, or the room for one, that earlier agents of the
task which wait for it now are granted first (R19 items 2, 3 and 5)? -/
def yields (s s' : State) (c n r : Nat) : Bool :=
  let t := getTask s c n
  let now := tokUses s c n
  let mine := tokUses s' c n
  mine != now && (
    let others := (earlierMoves s c n r).map fun u => tokUses u c n
    (List.range 16).any fun i =>
      let was := nth now i (0, 0); let is := nth mine i (0, 0)
      let pops := (others.map fun u => (nth u i (0, 0)).1 - was.1).sum
      let pushes := (others.map fun u => (nth u i (0, 0)).2 - was.2).sum
      (is.1 > was.1 && is.1 + pops > nth t.tok i 0) || (is.2 > was.2 && nth t.tok i 0 + is.2 + pushes > 255))

/-- The task and the rank of an event that may pop or push tokens (R19). -/
def eventRank (s : State) : Instr → Option (Nat × Nat × Nat)
  | .streamEndRetire c n q => some (c, n, seqCode q)
  | .xSignalPush c n => some (c, n, 2)
  | .matrixCommand c => engineRank s c .matrix none
  | .copyCommand c => engineRank s c .copy none
  | .weightGather c | .weightTile c | .darnGather c | .prefetch c => engineRank s c .weight none
  | .predictScore c => engineRank s c .pred none
  | .commandRetire c q k => engineRank s c q (some k)
  | .remoteTokenArrival k => match s.remote[k]? with
    | some (.token _ _ _ tcore tslot _) => some (tcore, tslot, 8)
    | _ => none
  | _ => none
where
  /-- The task of the command that an engine would start, or of the one that would retire. -/
  engineRank (s : State) (c : Nat) (q : Queue) (k : Option Nat) : Option (Nat × Nat × Nat) :=
    let e := engQ (getCore s c) q
    let m : Option Cmd := match k with
      | none => e.deq
      | some k => (e.running[k]?).map fun r => r.cmd
    m.map fun m => (c, m.slot, 4 + queueNo q)

/-- A sequencer of a task moves. One that yields to an earlier agent tries again later. -/
def moveSeq (s : State) (c n : Nat) (q : Seq) : State :=
  let s' := moveSeqFree s c n q
  if yields s s' c n (seqCode q) then s else s'

/-- An event comes about. One that yields to an earlier agent comes about later. -/
def moveEvent (s : State) (i : Instr) : Out :=
  match moveEventFree s i with
  | .next s' => match eventRank s i with
    | some (c, n, r) => .next (if yields s s' c n r then s else s')
    | none => .next s'
  | o => o

/-! ## Cycles -/

/-- A wait a cycle longer (R284): the grant of a token, or of the room for one, in this cycle starts the count again. -/
def waited (t : Task) (c : Ctl) : Ctl :=
  match c.hold with
  | none => c
  | some (.token, n) => { c with held := if nth t.tpop n 0 > 0 then 0 else c.held + 1 }
  | some (.push, n) => { c with held := if nth t.tpush n 0 > 0 then 0 else c.held + 1 }
  | some _ => { c with held := c.held + 1 }

/-- A task after a cycle: its token counts (R19), its results under way (R232) and its waits; the waits of a task that holds for a trap do not
count (R271, R284), and in a frozen cycle an X-issue cycle under way lasts a cycle more (R162, R317). -/
def taskCycle (frozen : Bool) (cycle : Nat) (t : Task) : Task :=
  let u := tokEnd t
  if frozen then { u with x := { u.x with until_ := if u.x.until_ > cycle then u.x.until_ + 1 else u.x.until_ } }
  else
    let u := { u with c := { u.c with late := passed u.c.late }, jlate := passed u.jlate }
    if halted u cycle then u
    else { u with
      c := { u.c with ctl := waited t u.c.ctl }, lc := waited t u.lc, x := { u.x with ctl := waited t u.x.ctl }, sc := waited t u.sc }

/-- An engine that waits for its WAITM tokens: a token granted to another agent of the task starts the count of its wait again
(R284). -/
def engineWaited (k : Core) (cycle : Nat) (e : EngQ) : EngQ :=
  match e.deq with
  | none => e
  | some m =>
    let t := tabGet {} k.slots m.slot
    if (List.range 16).any fun i => bit (cmdWait m) i && nth t.tok i 0 ≤ nth t.tpop i 0 && nth t.tpop i 0 > 0 then
      { e with waitAt := cycle + 1 } else e

/-- A core after a cycle (R12, R254, R317). -/
def coreCycle (cycle : Nat) (k : Core) : Core :=
  let frozen := k.freeze ≠ 0
  let w := engineWaited k cycle
  let k := { k with qm := w k.qm, qc := w k.qc, qw := w k.qw, qp := w k.qp }
  let k := if frozen then frozenCycle cycle k else engineCycle cycle k
  let served := tabGet {} k.slots ((k.h.serving.map (·.1)).getD 0)
  { k with
    cyc := k.cyc + 1, freeze := k.freeze - 1, issued := [false, false, false, false, false]
    slots := k.slots.map fun e => (e.1, taskCycle frozen cycle e.2)
    h := if frozen then k.h
      else { k.h with ctx := { k.h.ctx with ctl := waited served k.h.ctx.ctl, late := passed k.h.ctx.late } } }

/-- The X-issue cycles of gaps and interlocks that go by in this core cycle and that no move has taken yet: each lasts one
core cycle, whoever else issues (R34, R162). -/
def idleRest (s : State) : State :=
  let one (s : State) (c n : Nat) : State :=
    let a : State := { s with cur := { core := c, slot := n } }
    if mayIssue s c n .x && idling a then { idleX a with cur := s.cur } else s
  s.cores.foldl (fun s k => if coreRuns s k.1 then k.2.slots.foldl (fun s e => one s k.1 e.1) s else s) s

/-- The grants of a step boundary that no event has made yet, at the end of its cycle (R321). -/
def boundaryGrants (s : State) : State :=
  if s.cycle % 4 ≠ 0 || s.bootst ≠ 1 then s
  else ((s.cores.map fun k => columnOf k.1).eraseDups).foldl (fun s col => after s (execStartGrant col s)) s

/-- The matrix commands whose fixed cycles end with this cycle retire in it, if no event has retired them (R199). -/
def dueRetirements (s : State) : State :=
  (s.cores.filter fun k => !k.2.qm.running.isEmpty).foldl (fun s k =>
    [0, 1, 0].foldl (fun s j => after s (moveEvent s (.commandRetire k.1 .matrix j))) s) s

/-- One cycle of the core clock. -/
def clockCycle (s : State) : State :=
  let s := dueRetirements (boundaryGrants (idleRest s))
  windowsEnd { s with cycle := s.cycle + 1, cores := s.cores.map fun k => (k.1, coreCycle s.cycle k.2) }

/-- An error of an SRAM word (R344): corrected ones are counted, uncorrectable ones are met by the next read. -/
def sramError (s : State) (c array word : Nat) (corrected : Bool) : State :=
  if corrected then countErr s (.sramCorrected c)
  else countErr (modCore s c fun k => { k with
    sramBad := if k.sramBad.contains (array, word) then k.sramBad else k.sramBad ++ [(array, word)] }) (.sramUncorrectable c)

/-! ## A word placed where the next step fetches -/

/-- A task that may run one word: every pool as large as a task may have, no trap entry. -/
def probeTask (q : Seq) (code : List Byte) : Task :=
  let tt : TType := { spm := 32, nt := 16, no := 4, ni := 8, nz := 8, nv := 16 }
  let cd : Code := match q with
    | .c => { c := code }
    | .l => { l := code }
    | .x => { x := code }
    | .s => { s := code }
  { newTask {} { tag := 0, rcb := 0, lrec := List.replicate 8 0, typeNo := 0, tt := tt, prio := 0 } {} {} cd with started := true }

/-- The stream that runs a word of the opcode table, and its bytes: an X word is the two slots and header as they stand. -/
def probeStream (nbits w : Nat) : Seq :=
  if nbits = 64 then .l
  else if nbits = 128 then .x
  else match readC w with
    | .ok _ => .c
    | .error _ => .s

/-- The core with the word at the start of a section of its task 0. -/
def probeCore (s : State) (nbits w : Nat) : Core :=
  let q := probeStream nbits w
  let t := probeTask q (leBytes (nbits / 8) w)
  let t := { t with x := { t.x with count := bits w 127 125, until_ := s.cycle } }
  { getCore s 0 with
    slots := [(0, t)], issued := [false, false, false, false, false], freeze := 0, vecUntil := 0
    h := (getCore s 0).h.free, sramBad := [] }

/-- The state in which the word is the next that step fetches: the module runs, core 0 holds one started task whose section is
the word, and its sequencer moves next. -/
def probe (s : State) (nbits w : Nat) : State :=
  { s with
    agenda := .seq 0 0 (probeStream nbits w) :: s.agenda, bootst := 1, cores := tabSet s.cores 0 (probeCore s nbits w)
    cols := tabSet s.cols 0 { tabGet {} s.cols 0 with level := 0 } }

end Sys2Proof.Machine
end

