-- ==== Sys2Proof/Machine/Order.lean ====
section
/-!
DEFINITION. Agents, classes and scopes (R258, R259), what program order keeps (R261), and the stores of C that reach other agents
later than their step (R260 to R264, R266). Such a store is held apart from the memories until it performs; an agent that sees it
before reads memory with it. `moveAgent`: the move of each agent under these rules. What the model leaves unordered is less than
what the manual allows (log 9).
-/
namespace Sys2Proof.Machine

/-! ## Scopes and classes -/

/-- Is agent `b` within a scope of agent `a` (Table 14.4)? The module and the domain hold every agent of the model. -/
def inScope (sc : Nat) (a b : Viewer) : Bool :=
  let x := viewerTask a; let y := viewerTask b
  match sc with
  | 0 => x == y
  | 1 => x.1 == y.1
  | 2 => dieOf x.1 == dieOf y.1
  | _ => true

/-- What a word of C is for the order of accesses (Table 14.3, R262, R263): no access, a load, a plain store or an atomic of a class,
an `STL` of a class at a scope, a fence, a token pushed at a scope, or any other access or effect, which follows everything its agent
has seen. -/
inductive Order where
  | free
  | load (cls : Nat)
  | store (cls : Nat)
  | atomic (cls : Nat)
  | release (cls sc : Nat)
  | fence (mask sc : Nat)
  | push (sc : Nat)
  | strong
  deriving DecidableEq, Repr

/-- The order of a word of C. `SUL` and the words that act outside the task order at least as much as the manual asks (log 9). -/
def orderOf : Instr → Order
  | .ldb _ _ c _ | .ldh _ _ c _ | .ldw _ _ c _ | .ldd _ _ c _ | .ldbu _ _ c _ | .ldhu _ _ c _ | .ldwu _ _ c _
  | .lda _ _ c _ _ _ | .llk _ _ c _ _ => .load c.toNat
  | .stb _ _ c _ | .sth _ _ c _ | .stw _ _ c _ | .std _ _ c _ => .store c.toNat
  | .fence sc m => .fence m.toNat sc.toNat
  | .atomCas _ _ _ _ _ c | .atomXadd _ _ _ _ _ c | .atomXchg _ _ _ _ _ c | .atomAnd _ _ _ _ _ c | .atomOr _ _ _ _ _ c
  | .atomMin _ _ _ _ _ c | .atomMax _ _ _ _ _ c => .atomic c.toNat
  | .stl _ _ c _ sc _ => .release c.toNat sc.toNat
  | .tksig _ => .push 0
  | .tksigRemote _ _ => .push 2
  | .add .. | .sub .. | .and .. | .or .. | .xor .. | .shl .. | .shr .. | .sra .. | .min .. | .max .. | .minu .. | .maxu .. | .mul ..
  | .mulh .. | .mulhu .. | .divu .. | .remu .. | .clz .. | .popc .. | .sel .. | .addi .. | .andi .. | .ori .. | .xori .. | .shli ..
  | .shri .. | .srai .. | .lui .. | .liw .. | .ext .. | .ins .. | .cmp .. | .cmpi .. | .pbt .. | .bt .. | .btn .. | .ba .. | .call ..
  | .mtb .. | .tkwait _ | .tkcnt .. | .tkinit .. | .mfs .. | .qdepth .. => .free
  | _ => .strong

/-- The address and the size of what `STB` to `STD`, `STL` or an `ATOM` stores. -/
def storeSpan (s : State) : Instr → Option (W64 × Nat)
  | .stb _ a _ o => some (cmAddr s a o 1, 1)
  | .sth _ a _ o => some (cmAddr s a o 2, 2)
  | .stw _ a _ o => some (cmAddr s a o 4, 4)
  | .std _ a _ o => some (cmAddr s a o 8, 8)
  | .stl _ a _ z _ o => some (reg s a + BitVec.ofNat 64 (o.toNat * 2 ^ z.toNat), 2 ^ z.toNat)
  | .atomCas _ a _ z _ _ | .atomXadd _ a _ z _ _ | .atomXchg _ a _ z _ _ | .atomAnd _ a _ z _ _ | .atomOr _ a _ z _ _
  | .atomMin _ a _ z _ _ | .atomMax _ a _ z _ _ => some (reg s a, if z = 1 then 8 else 4)
  | _ => none

/-- Where the word stores, if its address leads anywhere now. -/
def storePlace (s : State) (i : Instr) : Option (Place × Nat) :=
  (storeSpan s i).bind fun a => match resolve s a.1.toNat a.2 1 with
    | .ok p => some (p, a.2)
    | .error _ => none

/-! ## Stores held apart -/

/-- Do two ranges share a location (R260 item 1)? -/
def Place.meets (p : Place) (n : Nat) (q : Place) (m : Nat) : Bool :=
  match p, q with
  | .spm c i a, .spm d j b => c = d && i = j && overlap a n b m
  | .mem a, .mem b => overlap a n b m
  | _, _ => false

/-- Does an agent see a held store: its own (R260 item 4), one that has reached it, or a scope that it is in (R264)? -/
def Held.sees (w : Viewer) (e : Held) : Bool :=
  e.who == w || e.seen.contains w || match e.upTo with
    | some sc => inScope sc e.who w
    | none => false

/-- Does a held store touch one of the bytes? -/
def Held.meets (e : Held) (at_ : Option (Place × Nat)) : Bool :=
  match at_ with
  | some (p, n) => e.place.meets e.bytes.length p n
  | none => false

/-- Does `e`, held before `f`, reach every agent before `f` does: one agent's stores of one class (R261 item 1), its stores before an
`STL` (R263 item 2), or stores to one location (R260 items 2 and 3)? -/
def Held.before (e f : Held) : Bool :=
  (e.who == f.who && (e.cls = f.cls || f.rel.isSome)) || e.meets (some (f.place, f.bytes.length))

/-- The held stores that satisfy `p` with all that come before them, and the rest. -/
def parted (p : Held → Bool) : List Held → List Held × List Held
  | [] => ([], [])
  | e :: r =>
    let (now, rest) := parted p r
    if p e || now.any e.before then (e :: now, rest) else (now, e :: rest)

/-- Held stores laid over the memories, in order, as an agent that sees them reads. -/
def layHeld (s : State) (l : List Held) : State := l.foldl (fun s e => storeAt s e.place e.bytes) s

/-- A held store reaches memory: a granule of a region in a swap is recorded then (R71). -/
def landHeld (s : State) (e : Held) : State :=
  match e.place with
  | .mem pa => storeAt (recordWrite s pa) e.place e.bytes
  | _ => storeAt s e.place e.bytes

/-- Held stores performed, in order. -/
def putHeld (s : State) (l : List Held) : State := l.foldl landHeld s

/-- The held stores that satisfy `p` perform, and those that come before them. -/
def perform (p : Held → Bool) (s : State) : State :=
  let (now, rest) := parted p s.held
  putHeld { s with held := rest } now

/-- The stores of an agent that satisfy `p`, and those that come before them, reach every agent in a scope of it (R262, R263); an
`STL` among them reaches its own whole scope at that moment (R264). What other agents held behind an `STL` performs first, so that
none sees more before its release has performed than what the release orders (R263 item 6). -/
def publish (w : Viewer) (p : Held → Bool) (sc : Nat) (s : State) : State :=
  let s := perform (fun e => e.rel.isSome && e.who != w) s
  let now := (parted (fun e => e.who == w && p e) s.held).1
  let sc := now.foldl (fun k e => max k (e.rel.getD 0)) sc
  { s with held := s.held.map fun e => if now.contains e then { e with upTo := some (max sc (e.upTo.getD 0)) } else e }

/-- The memories of `t` as they were in `s`. -/
def withMemories (s t : State) : State :=
  { t with
    mem := s.mem, poison := s.poison
    cores := t.cores.map fun k => (k.1, { k.2 with spm := (getCore s k.1).spm, sramBad := (getCore s k.1).sramBad }) }

/-- A move that only reads memory, of an agent that sees some held stores: it reads memory with them, and they stay held. -/
def viewed (w : Viewer) (f : State → State) (s : State) : State :=
  if s.held.any (·.sees w) then withMemories s (f (layHeld s (s.held.filter (·.sees w)))) else f s

/-! ## The words of C in order (R261 to R263) -/

/-- Is a held store one of the agent's own that an access of a class follows (R261 items 1 and 3)? -/
def Held.sameClass (w : Viewer) (c : Nat) (e : Held) : Bool := e.who == w && (c = 15 || e.cls = c)

/-- Does an agent see a store of another agent that is still held? -/
def Held.others (w : Viewer) (e : Held) : Bool := e.sees w && e.who != w

/-- Does a `CAS` find another value than it compares with (R148), as its agent reads? -/
def casFails (w : Viewer) (s : State) : Instr → Bool
  | .atomCas d a _ z _ _ =>
    let n := if z = 1 then 8 else 4
    match resolve s (reg s a).toNat n 2 with
    | .ok p => ofLe (bytesAt (layHeld s (s.held.filter (·.sees w))) p n) ≠ (reg s d).toNat % 2 ^ (8 * n)
    | .error _ => false
  | _ => false

/-- A word of C moves by `f` after the held stores that it must follow. A load follows its agent's stores of its class and sees
the others; a plain store follows those of its class and those to its location; an atomic is a load followed by a store of its class,
or, as a failed CAS, a load alone (R264); class 15 follows every class. An `STL` follows the stores of its class wholly and every
other of its agent in its scope (R263). -/
def inOrder (w : Viewer) (s : State) (i : Instr) (f : State → State) : State :=
  let at_ := storePlace s i
  match orderOf i with
  | .free => f s
  | .load c => viewed w f (perform (Held.sameClass w c) s)
  | .store c => f (perform (fun e => e.sees w && (e.sameClass w c || e.meets at_)) s)
  | .atomic c =>
    let s := perform (Held.sameClass w c) s
    if casFails w s i then viewed w f s else f (perform (fun e => e.sees w && e.meets at_) s)
  | .release c sc => f (publish w (fun _ => true) sc (perform (fun e => e.others w || (e.sees w && (e.sameClass w c || e.meets at_))) s))
  | .fence m sc => f (publish w (fun e => bit m e.cls) sc s)
  | .push sc => f (publish w (fun _ => true) sc (perform (Held.others w) s))
  | .strong => f (perform (·.sees w) s)

/-- Has the plain store of the word that moved from `s` to `t` performed: did the word issue and go on? -/
def storeDone (s t : State) : Bool :=
  let c := ctl t .c
  !nth (myCore s).issued 0 false && nth (myCore t).issued 0 false && c.st == .run && c.hold.isNone

/-- The class of a word that may be held apart, and its scope where it is an `STL`. -/
def holdable (i : Instr) : Option (Nat × Option Nat) :=
  match orderOf i with
  | .store c => some (c, none)
  | .release c sc => some (c, some sc)
  | _ => none

/-- May a plain store or an `STL` be held apart: one of another class than 15, to this core's scratchpad or to stack memory, at a place
where no other agent's store is held? -/
def heldStore (w : Viewer) (s : State) (i : Instr) : Option Held :=
  match holdable i, storePlace s i, storeSpan s i with
  | some (c, rel), some (p, n), some (a, _) =>
    let near : Bool := match p with
      | .spm d _ _ => d = s.cur.core
      | .mem _ => true
      | .far _ _ => false
    if c ≠ 15 && near && !s.held.any (fun e => e.who != w && e.meets (some (p, n))) then
      some { who := w, cls := c, place := p, bytes := [], rel := rel, addr := a.toNat, page := usedPage s a.toNat, rcb := (me s).rcb }
    else none
  | _, _, _ => none

/-- A word of C moves by `f`, and the store it makes reaches the other agents later. What an `STL` saw of others performs first. -/
def held (w : Viewer) (s : State) (i : Instr) (f : State → State) : State :=
  match heldStore w s i, storePlace s i with
  | some e, some (p, n) =>
    let s := if e.rel.isSome then perform (Held.others w) s else s
    let t := f s
    if storeDone s t then { withMemories s t with held := s.held ++ [{ e with bytes := bytesAt t p n }] } else inOrder w s i f
  | _, _ => inOrder w s i f

/-- The C context of a task or the handler context of a core, as an agent and with the state in which it runs; none where there
is none. -/
def contextOf (s : State) (c : Nat) : Option Nat → Option (Viewer × State)
  | some n => some (.seq c n .c, { s with cur := { core := c, slot := n } })
  | none => (getCore s c).h.serving.map fun v => (.handler c v.1, { s with cur := { core := c, slot := v.1, handler := true } })

/-- The next word of the C context that `s` runs. -/
def nextC (s : State) : Option Instr := (fetchWord (me s) .c (ctl s .c).pc).bind fun w => (decodeC w).1

/-- A C context moves by `f`, its next word in order; `late` holds apart a store that it makes. -/
def moveC (s : State) (c : Nat) (n : Option Nat) (late : Bool) (f : State → State) : State :=
  match contextOf s c n with
  | none => f s
  | some (w, a) => match nextC a with
    | none => f s
    | some i => if late then held w a i f else inOrder w a i f

/-! ## The moves of all agents -/

/-- The run at the head of an in-stream, as an agent. -/
def runViewer (s : State) (c n k : Nat) : Viewer := .run c n k (((inStream s c n k).runs.head?.map (·.no)).getD 0)

/-- The commands of a queue, of any task, as agents. -/
def cmdViewers (s : State) (c : Nat) (q : Queue) : List Viewer := (allCmds (engQ (getCore s c) q)).map fun m => .cmd c m.slot q m.idx

/-- Whose accesses an event may make: those agents' stores and every store that has reached them perform first. None where every
held store performs first. -/
def eventViewers (s : State) : Instr → Option (List Viewer)
  | .inStreamRun c n k => some [runViewer s c n k]
  | .drainBlock c n | .streamEndRetire c n .s => some [.seq c n .s]
  | .xOperationLand c n _ | .xSignalPush c n | .streamEndRetire c n .x => some [.seq c n .x]
  | .streamEndRetire c n .l => some [.seq c n .l]
  | .matrixCommand c => some (cmdViewers s c .matrix)
  | .copyCommand c => some (cmdViewers s c .copy)
  | .weightGather c | .weightTile c | .darnGather c | .prefetch c => some (cmdViewers s c .weight)
  | .predictScore c => some (cmdViewers s c .pred)
  | .commandDequeue c q | .commandRetire c q _ => some (cmdViewers s c q)
  | .startGrant _ | .warmWindowExpiry _ _ | .fillerEnd _ _ => some []
  | _ => none

/-- What the agents that move see performs first. -/
def afterSeen (l : Option (List Viewer)) (s : State) : State :=
  perform (fun e => match l with
    | none => true
    | some l => l.any fun w => e.sees w) s

/-- The matrix commands at work, which read their A operands as cycles go by (R185). -/
def atWork (s : State) : List Viewer :=
  s.cores.flatMap fun k => k.2.qm.running.map fun r => .cmd k.1 r.cmd.slot .matrix r.cmd.idx

/-- Is a word of S one that only reads memory: `SLD` without a signal? -/
def onlyReads : Option Instr → Bool
  | some (.sld t _ _ _) => (tokQueue t.sig).isNone
  | _ => false

/-- The next word of S of a task. -/
def nextS (s : State) (c n : Nat) : Option Instr :=
  (fetchWord (getTask s c n) .s (taskCtl (getTask s c n) .s).pc).bind fun w => (decodeS w).1

/-- A sequencer of a task moves under the rules of order. -/
def moveOrdered (s : State) (c n : Nat) (q : Seq) : State :=
  let f (s : State) : State := moveSeq s c n q
  match q with
  | .c => moveC s c (some n) false f
  | .s => if onlyReads (nextS s c n) then viewed (.seq c n .s) f s else f (afterSeen (some [.seq c n .s]) s)
  | q => f (afterSeen (some [.seq c n q]) s)

/-- A held store performs, if nothing that comes before it is still held. An `STL` that performs is the last of its agent's stores
before it (R263). -/
def performOne (s : State) (k : Nat) : State :=
  match s.held[k]? with
  | some e => if (s.held.take k).any (·.before e) then s else putHeld { s with held := s.held.eraseIdx k } [e]
  | none => s

/-- A held store reaches one more agent (R264), if what comes before it has reached that agent and no `STL` of that agent is held; an
`STL` reaches every agent of its scope at one moment. -/
def showTo (s : State) (k : Nat) (w : Viewer) : State :=
  match s.held[k]? with
  | some e =>
    if (e.rel.map fun sc => inScope sc e.who w).getD false then publish e.who (· == e) 0 s
    else if (s.held.take k).any (fun d => d.before e && !d.sees w) || s.held.any (fun d => d.who == w && d.rel.isSome) then s
    else { s with held := s.held.set k { e with seen := e.seen ++ [w] } }
  | none => s

/-- An agent moves under the rules of order. -/
def moveAny (s : State) : Config.Agent → Out
  | .seq c n q => if c < 512 && n < 4 then .next (moveOrdered s c n q) else .fault .noSuchUnit
  | .handler c => if c < 512 then .next (moveC s c none false fun s => moveHandler s c) else .fault .noSuchUnit
  | .late c n h =>
    if c < 512 && n < 4 then
      .next (if h then moveC s c none true fun s => moveHandler s c else moveC s c (some n) true fun s => moveSeq s c n .c)
    else .fault .noSuchUnit
  | .perform k => .next (performOne s k)
  | .showTo k w => .next (showTo s k w)
  | .ev (.inStreamBlock c n k) =>
    match moveEvent s (.inStreamBlock c n k) with
    | .next _ => .next (viewed (runViewer s c n k) (fun s => after s (moveEvent s (.inStreamBlock c n k))) s)
    | o => o
  | .ev i => moveEvent (afterSeen (eventViewers s i) s) i
  | .clock => .next (clockCycle (afterSeen (some (atWork s)) s))
  | .tick => .next (tickTime s)
  | .sram c array word corrected => if c < 512 && array < 5 then .next (sramError s c array word corrected) else .fault .noSuchUnit
  | .dram b r f => if b < 8192 && r < 65536 then .next (readErrors s b r f) else .fault .noSuchUnit
  | .read m off => .next (controlRead s m off)
  | .alarmLog m => .next (alarmLogRead s m)
  | .hostPort => .next (let s := afterSeen none s; hostDrain s s.hostq)
  | .broken u => .next { s with broken := s.broken ++ [u] }
  | .unitBack off v => .next { s with unitBack := tabSet s.unitBack off v }

/-- An agent moves, and what it wrote over a table's GEN empties that table's cached words (R130). -/
def moveAgent (s : State) (a : Config.Agent) : Out :=
  match moveAny s a with
  | .next t => .next (dropStale t)
  | o => o

end Sys2Proof.Machine
end

