-- ==== Sys2Proof/Machine/Step.lean ====
section
/-!
DEFINITION. `step`: the next agent of the agenda moves. `State.withFetchWord`: a word placed where the next step fetches.
-/
namespace Sys2Proof.Machine

/-- One step: the first agent of the agenda moves; where the agenda is empty, which one moves is a free value (log 1). -/
def step (s : State) : Host.Outcome State Fault Refusal :=
  match s.agenda with
  | a :: rest => moveAgent { s with agenda := rest } a
  | [] => match Config.freeAgent s.fresh with
    | some a => moveAgent (bump s) a
    | none => .next (bump s)

/-- The state with a word of the opcode table stored where `step` fetches next (log 13). -/
def State.withFetchWord (s : State) (nbits w : Nat) : State := probe s nbits w

end Sys2Proof.Machine
end

