-- ==== Sys2Proof/Safety.lean ====
section
/-!
DEFINITION. The terms in which the claims speak: memories in canonical form, what a word leaves behind beside its effect,
and a word that completes.
-/
namespace Sys2Proof.Machine

/-- A core's memories are in canonical form. -/
def Core.memoriesWf (k : Core) : Bool := k.spm.wf && k.wb0.wf && k.wb1.wf

/-- Every memory of the state is in canonical form: stack memory, other modules' memory, and each core's scratchpad and
weight buffers. -/
def State.memoriesWf (s : State) : Bool := s.mem.wf && s.farMem.wf && s.cores.all fun k => k.2.memoriesWf

/-- A core without its local charges and without the record of which sequencer kinds issued (R12, R298). -/
def Core.uncounted (k : Core) : Core := { k with charges := [], issued := [], lastSlot := [] }

/-- The state without what every word of a sequencer leaves behind beside its effect: the control part of that sequencer,
the translations the task waited for (R281), and the core's counting of issued words. All else is compared as it stands. -/
def bare (q : Seq) (s : State) : State :=
  let s := modCtl (modMyCore s Core.uncounted) q fun _ => {}
  if s.cur.handler then s else modMe s fun t => { t with miss := [] }

/-- The outcome is a next state in which the sequencer has stopped at its word with that fault pending (R271, R272), and
nothing else has changed: a word that fails a check of its decoding, which takes no issue slot (log 54). -/
def Traps (q : Seq) (o : Out) (s : State) (cause detail : Nat) : Prop := o = .next (raise s q cause detail)

/-- The outcome is a next state in which the sequencer's word has issued (R12, R17) and stopped with that fault pending, and nothing
else has changed. -/
def TrapsIssued (q : Seq) (o : Out) (s : State) (cause detail : Nat) : Prop := o = .next (raise (markIssue s q) q cause detail)

/-- The sequencer is at the start of a word, and the word passes every check of its decoding in this context. -/
def FitC (s : State) (i : Instr) : Prop := (ctl s .c).st = .run ∧ legalC s i = none

/-- A word of L is at its start and passes its checks. -/
def FitL (s : State) (i : Instr) : Prop :=
  (ctl s .l).st = .run ∧ pickFail ((decodeL ((encodeL i).getD 0)).2 ++ lFails (ctxOf s .l) i) = none

/-- A word of S is at its start and passes its checks. -/
def FitS (s : State) (i : Instr) : Prop :=
  (ctl s .s).st = .run ∧ pickFail ((decodeS ((encodeS i).getD 0)).2 ++ sFails (ctxOf s .s) i) = none

/-- An instruction of X passes its checks, its streams hold enough blocks and room, and no error is met (R30, R344). -/
def FitX (s : State) (i : Instr) : Prop :=
  legalX s i = none ∧ slotReady s i = .ok () ∧ sramReady s (slotReads i) = .ok ()

/-- The token a word waits for is there (R17), and the token it signals fits (R18, R19). -/
def TokensReady (q : Seq) (t : Tok) (s : State) : Prop :=
  (∀ n, tokQueue t.wait = some n → (ctl s q).popped = true ∨ tokAvail (me s) n = true)
    ∧ ∀ n, tokQueue t.sig = some n → tokRoom (me s) n = true

/-- The state after the word's wait has popped its token (R17). -/
def waitPopped (q : Seq) (w : BitVec 5) (s : State) : State :=
  match tokQueue w with
  | none => s
  | some n => if (ctl s q).popped then s else modMe s fun t => tokPop t n

/-- The state after a word's signal has been pushed (R18). -/
def signalPushed (sig : BitVec 5) (s : State) : State :=
  match tokQueue sig with
  | none => s
  | some n => modMe s fun t => tokPush t n

/-- HOW A COMPLETED WORD GOES ON, whatever its effect `s` was: the translations it waited for are done with (R281), its
signal is pushed (R18), and control moves to the next word in order (R238, R240, R244), which is at rest. -/
def onward (q : Seq) (sig : BitVec 5) (s : State) : State :=
  modCtl (signalPushed sig (dropMiss s q)) q fun c => (advance (wordSize q) c).clear

end Sys2Proof.Machine
end

