-- ==== Sys2Proof/WellFormed.lean ====
section
/-!
DEFINITION. Well-formed instructions: the operands that an encoding admits (R16 to R35), said of the fields alone. What
depends on the task that issues a word (its allotment, its section, the handler context) is checked at issue (R36).
-/
namespace Sys2Proof

/-- A wait or signal field (R16): a clear flag goes with queue number 0. -/
def tokFieldWf (f : BitVec 5) : Bool := f.getLsbD 4 || f = 0

/-- The wait and signal fields of a word. -/
def Tok.wf (t : Tok) : Bool := tokFieldWf t.wait && tokFieldWf t.sig

/-- A memory scope (R24). -/
def scopeWf (s : BitVec 3) : Bool := s.toNat < 5

/-- A bit field of `l + 1` bits from `p` ends within the register (R235). -/
def fieldWf (p l : BitVec 6) : Bool := p.toNat + l.toNat + 1 ≤ 64

/-- A compare has one of six conditions and writes a flag other than f0 (R236). -/
def cmpWf (c f : BitVec 3) : Bool := c.toNat < 6 && f ≠ 0

/-- The heat fields of a gather (Tables 5.4, 6.8): HST, and a heat base only with H. -/
def heatWf (heat : Bool) (hst : BitVec 8) (d : BitVec 4) : Bool := if heat then hst ≠ 0 else hst = 0 && d = 0

/-- The airing store's configuration (R100). -/
def airWf (slot : BitVec 12) (size : BitVec 5) : Bool :=
  size.toNat ≤ 16 && (size = 0 || (slot ≠ 0 && slot.toNat * 64 ≤ size.toNat * 32768))

/-! ## Slots of X -/

/-- A code that an operand field of this use admits (R29, R157, R159, R181). -/
def useWf (u : Use) (v : BitVec 5) : Bool :=
  let n := v.toNat
  match u with
  | .no => n = 0
  | .src | .vi28 => n < 24 || n = 28
  | .srcImm => n < 24 || n = 28 || n = 29
  | .dst => n < 16 || (24 ≤ n && n ≤ 28)
  | .vOnly => n < 16
  | .vOr28 => n < 16 || n = 28
  | .iOnly => true
  | .pd => 0 < n && n < 8
  | .pr => n < 8
  | .ed => n < 4
  | .raw k => n < 2 ^ k

/-- An op's own value rules (R110, R167, R168, R170, R174, R175, R181, R222, R225, R243, R245). -/
def ownWf (op : Nat) (x : Slot) : Bool :=
  let i := x.imm.toNat; let f32 := x.type = 0
  let stream := isStream x.srcA.toNat
  match op with
  | 0x11 => i % 16 < 12 && (if f32 then i % 16 < 6 || 10 ≤ i % 16 else i % 16 < 10)
  | 0x13 => !f32 || x.srcB = 0
  | 0x44 | 0x45 => i % 8 < (if f32 then 3 else 5) && (!i.testBit 3 || stream)
  | 0x46 | 0x47 => i % 8 < 3 && (!i.testBit 3 || stream)
  | 0x64 =>
    if i % 4 = 2 then stream && i / 4 % 2 ^ 11 = 0
    else x.srcA = 0 && (i % 4 = 3 || i / 4 % 2 ^ 11 = 0)
  | 0x70 => i % 32 ≤ 11 || i % 32 = 13 || i % 32 = 15
  | 0x80 => 1 ≤ i / 16 % 128 && i / 16 % 128 ≤ 64
  | 0x85 =>
    (if i.testBit 6 then i / 128 % 64 + 64 * (x.srcB.toNat % 2) ≤ 64 else i / 128 % 64 = 0 && x.srcB.toNat % 2 = 0)
      && (i % 8 = 0 || i % 8 ≠ i / 8 % 8)
  | 0x88 => 1 ≤ i % 128 && i % 128 ≤ 64
  | 0x90 => i.testBit 5 || i / 64 % 8 = 0
  | 0xA0 => 0 < i % 2 ^ 13 && (!i.testBit 13 || (x.srcA.toNat < 16 && x.srcB = 0 && x.srcC = 0))
  | 0xA1 | 0xA2 => x.dst.toNat % 8 < 5 && !i.testBit 13
  | _ => true

/-- Rounding, saturation and flushes where an op has them (R28, R159, R174). -/
def numWf (op : Nat) (u : OpUse) (x : Slot) : Bool :=
  let f32 := x.type = 0
  let sums := !(0x44 ≤ op && op ≤ 0x47) || x.imm.toNat % 8 = 0
  x.rnd.toNat < 5
    && (match u.rs with
      | .arith => if sums then f32 || x.rnd = 0 else x.rnd = 0 && !x.sat
      | .satS => x.rnd = 0 && (!f32 || !x.sat)
      | .both => true
      | _ => x.rnd = 0 && !x.sat)
    && (match u.ff with
      | .f32 => f32 || (!x.fi && !x.fo)
      | .fiOnly => !x.fo && (f32 || !x.fi)
      | .both => true
      | _ => !x.fi && !x.fo)

/-- A slot of an op: each field holds what the op's row admits, an unused field 0 (R163). -/
def slotWf (op : Nat) (x : Slot) : Bool :=
  match opUse op with
  | none => false
  | some u =>
    let srcs := [(u.a, x.srcA), (u.b, x.srcB), (u.c, x.srcC)]
    let imm29 := srcs.any fun s => s.1 == .srcImm && s.2 == 29
    let streams := srcs.any fun s => takesStream s.1 && isStream s.2.toNat
    useWf u.d x.dst && useWf u.a x.srcA && useWf u.b x.srcB && useWf u.c x.srcC
      && (u.pr || x.pred = 0)
      && (match u.ty with
        | none => x.type = 0
        | some ts => ts.contains x.type.toNat)
      && numWf op u x
      && (imm29 || (List.range 13).all fun k => !x.imm.getLsbD k || u.imm.testBit k)
      && (op = 0xA0 || op = 0xA1 || op = 0xA2 || streams || !x.imm.getLsbD 13)
      && ownWf op x

/-- Is an instruction one that only slot B may hold (R31)? -/
def slotBOnly (i : Instr) : Bool :=
  match xParts i with
  | some (op, _) => ((opUse op).map (·.bOnly)).getD false
  | none => match i with
    | .msetf _ _ => true
    | _ => false

/-! ## Instructions -/

/-- Are the fields of an instruction such that its word decodes to it; of an event, are the parts it names in the module? -/
def Instr.wf (i : Instr) : Bool :=
  (match lsTok i with
    | some t => t.wf
    | none => true) &&
  (match i with
  | .ext _ _ p l | .ins _ _ p l => fieldWf p l
  | .cmp c f _ _ | .cmpi c f _ _ => cmpWf c f
  | .lda _ _ _ _ s _ | .stl _ _ _ _ s _ | .atomCas _ _ _ _ s _ | .atomXadd _ _ _ _ s _ | .atomXchg _ _ _ _ s _
  | .atomAnd _ _ _ _ s _ | .atomOr _ _ _ _ s _ | .atomMin _ _ _ _ s _ | .atomMax _ _ _ _ s _ | .fence s _ => scopeWf s
  | .lloop _ _ _ e | .sloop _ _ _ e => e ≠ 0
  | .lbr _ c _ _ _ => c.toNat < 6
  | .bindi _ _ b _ _ zorg => !zorg || b = 0
  | .copy _ _ d _ _ zorg _ => !zorg || d = 0
  | .wgath _ _ d _ _ hst _ heat buf _ | .darn _ _ d _ _ hst _ heat buf _ => buf ≠ 3 && heatWf heat hst d
  | .wtile _ _ _ _ _ buf _ => buf ≠ 3
  | .aircfg _ slot _ size => airWf slot size
  | .ltk _ d cnt q => cnt || (d = 0 && q = 0)
  | .drain _ _ n | .drainx _ _ _ n => n ≠ 0
  | .msetf which v => match msetfWidth which.toNat with
    | some n => v.toNat < 2 ^ n
    | none => false
  | .vrdacc x => slotWf 0x90 x && !x.imm.getLsbD 5
  | .vrdaccPeek x => slotWf 0x90 x && x.imm.getLsbD 5
  | .counterEvent e => e < 8
  | .alarm src => src ≤ 5
  | .startGrant col | .replayWindowEnd col => col < 32
  | .warmWindowExpiry c e | .fillerEnd c e => c < 512 && e < 2
  | .lockGrant c b l => c < 512 && b < 32 && l < 8
  | .refresh b | .rowHammerAlert b | .lineReopen b _ => b < 8192
  | .patrolScrub b r _ | .hotListScrub b r _ | .rowRetirement b r => b < 8192 && r < 65536
  | .flitReceive p _ _ _ | .portRetrain p _ => p < 16
  | .routeEntryWrite _ n _ | .routeChangeEffect n => n < 64
  | .taskDispatch c | .loaderStage c | .planeFlip c | .budgetFlush c | .tfillWrite c _ | .tinvWrite c _ | .trvalWrite c _
  | .engineWaitmTimeout c _ | .commandDequeue c _ | .commandRetire c _ _ | .matrixCommand c | .copyCommand c
  | .weightGather c | .weightTile c | .darnGather c | .prefetch c | .predictScore c | .timingReplay c
  | .tempSample c _ _ _ => c < 512
  | .taskStart c n | .streamEndRetire c n _ | .faultedRetirement c n | .budgetOverrun c n | .tenderWindowClose c n
  | .tenderOffer c n | .trapDelivery c n | .refillEvent c n | .tableWalk c n _ | .notification c n | .holdTimeout c n _
  | .prviolWrite c n _ | .inStreamRun c n _ | .inStreamBlock c n _ | .drainBlock c n | .xOperationLand c n _
  | .xSignalPush c n => c < 512 && n < 4
  | .tenderBid c n b => c < 512 && n < 4 && b < 512
  | i => match xParts i with
    | some (op, x) => slotWf op x
    | none => true)

/-- A well-formed X word: its token fields, a gap of 3 bits, `MSETF` alone in long form, slot-B instructions in slot B, and
no destination shared (R27, R31 to R33, R160). -/
def XWord.wf (w : XWord) : Bool :=
  w.tok.wf && w.gap < 8 && w.a.wf && w.b.wf && !slotBOnly w.a && !sameDest w.a w.b
    && (match w.a, w.b with
      | .nop, .msetf _ _ => w.long
      | a, b => !w.long && (a = .nop || (xParts a).isSome) && (b = .nop || (xParts b).isSome))

end Sys2Proof
end

