-- ==== Sys2Proof/Certificates/Slice0/Terms.lean ====
section
/-!
DEFINITION. What the rules of the spec give for the instructions, as tables that the obligations state the model by: values
in natural numbers and integers, apart from the model's own operations.
-/
namespace Sys2Proof.Rule

open Sys2Proof.Machine

/-! ## C: registers, flags and targets -/

/-- A natural number as a 64-bit value, modulo 2^64. -/
def nat64 (n : Nat) : W64 := BitVec.ofNat 64 n
/-- An integer as a 64-bit value, modulo 2^64. -/
def int64 (n : Int) : W64 := BitVec.ofInt 64 n

/-- The register and the value that an arithmetic instruction of C gives (R233 to R235); none for the others, and for a
division by 0. -/
def aluValue (s : State) : Instr → Option (BitVec 5 × W64)
  | .add d a b => some (d, nat64 ((reg s a).toNat + (reg s b).toNat))
  | .sub d a b => some (d, int64 ((reg s a).toNat - (reg s b).toNat))
  | .and d a b => some (d, nat64 ((reg s a).toNat &&& (reg s b).toNat))
  | .or d a b => some (d, nat64 ((reg s a).toNat ||| (reg s b).toNat))
  | .xor d a b => some (d, nat64 ((reg s a).toNat ^^^ (reg s b).toNat))
  | .shl d a b => some (d, nat64 ((reg s a).toNat * 2 ^ ((reg s b).toNat % 64)))
  | .shr d a b => some (d, nat64 ((reg s a).toNat / 2 ^ ((reg s b).toNat % 64)))
  | .sra d a b => some (d, int64 ((reg s a).toInt / 2 ^ ((reg s b).toNat % 64)))
  | .min d a b => some (d, int64 (min (reg s a).toInt (reg s b).toInt))
  | .max d a b => some (d, int64 (max (reg s a).toInt (reg s b).toInt))
  | .minu d a b => some (d, nat64 (min (reg s a).toNat (reg s b).toNat))
  | .maxu d a b => some (d, nat64 (max (reg s a).toNat (reg s b).toNat))
  | .mul d a b => some (d, nat64 ((reg s a).toNat * (reg s b).toNat))
  | .mulh d a b => some (d, int64 ((reg s a).toInt * (reg s b).toInt / 2 ^ 64))
  | .mulhu d a b => some (d, nat64 ((reg s a).toNat * (reg s b).toNat / 2 ^ 64))
  | .divu d a b => if (reg s b).toNat = 0 then none else some (d, nat64 ((reg s a).toNat / (reg s b).toNat))
  | .remu d a b => if (reg s b).toNat = 0 then none else some (d, nat64 ((reg s a).toNat % (reg s b).toNat))
  | .clz d a => some (d, nat64 (((List.range 64).find? fun n => (reg s a).getLsbD (63 - n)).getD 64))
  | .popc d a => some (d, nat64 ((List.range 64).countP fun n => (reg s a).getLsbD n))
  | .sel d a b f => some (d, if flag s f then reg s a else reg s b)
  | .addi d a i => some (d, int64 ((reg s a).toNat + i.toInt))
  | .andi d a i => some (d, nat64 ((reg s a).toNat &&& i.toNat))
  | .ori d a i => some (d, nat64 ((reg s a).toNat ||| i.toNat))
  | .xori d a i => some (d, nat64 ((reg s a).toNat ^^^ i.toNat))
  | .shli d a n => some (d, nat64 ((reg s a).toNat * 2 ^ n.toNat))
  | .shri d a n => some (d, nat64 ((reg s a).toNat / 2 ^ n.toNat))
  | .srai d a n => some (d, int64 ((reg s a).toInt / 2 ^ n.toNat))
  | .lui d i => some (d, int64 (i.toInt * 2 ^ 16))
  | .liw d i => some (d, nat64 ((reg s d).toNat % 2 ^ 43 + i.toNat * 2 ^ 43))
  | .ext d a p l => some (d, nat64 ((reg s a).toNat / 2 ^ p.toNat % 2 ^ (l.toNat + 1)))
  | .ins d a p l =>
    let old := (reg s d).toNat
    let top := p.toNat + l.toNat + 1
    some (d, nat64 (old / 2 ^ top * 2 ^ top + (reg s a).toNat % 2 ^ (l.toNat + 1) * 2 ^ p.toNat + old % 2 ^ p.toNat))
  | _ => none

/-- The truth of a compare's condition on two values (R236). -/
def holds (cc : BitVec 3) (a b : W64) : Bool :=
  (cc = 0 && a.toNat = b.toNat) || (cc = 1 && a.toNat ≠ b.toNat) || (cc = 2 && a.toInt < b.toInt)
    || (cc = 3 && ¬ a.toInt < b.toInt) || (cc = 4 && a.toNat < b.toNat) || (cc = 5 && ¬ a.toNat < b.toNat)

/-- The flag and the value that a compare gives (R236); none for a condition code that is not allocated. -/
def compareValue (s : State) : Instr → Option (BitVec 3 × Bool)
  | .cmp c f a b => if c.toNat < 6 then some (f, holds c (reg s a) (reg s b)) else none
  | .cmpi c f a i => if c.toNat < 6 then some (f, holds c (reg s a) (int64 i.toInt)) else none
  | _ => none

/-- Whether a branch of C is taken, and its target (R238). -/
def branchOf (s : State) : Instr → Option (Bool × Nat)
  | .bt b f => some (flag s f, getB s b)
  | .btn b f => some (!flag s f, getB s b)
  | .ba b => some (true, getB s b)
  | _ => none

/-- The arithmetic, compare and branch instructions of C (R233 to R239). -/
def registerOnly : Instr → Bool
  | .add .. | .sub .. | .and .. | .or .. | .xor .. | .shl .. | .shr .. | .sra .. | .min .. | .max .. | .minu .. | .maxu ..
  | .mul .. | .mulh .. | .mulhu .. | .divu .. | .remu .. | .clz .. | .popc .. | .sel .. | .addi .. | .andi .. | .ori ..
  | .xori .. | .shli .. | .shri .. | .srai .. | .lui .. | .liw .. | .ext .. | .ins .. | .cmp .. | .cmpi .. | .pbt .. | .bt ..
  | .btn .. | .ba .. | .call .. | .mtb .. => true
  | _ => false

/-- The register of C that one of them writes; of CALL, the link register of the context (R238). -/
def writesReg (handler : Bool) : Instr → Option (BitVec 5)
  | .add d _ _ | .sub d _ _ | .and d _ _ | .or d _ _ | .xor d _ _ | .shl d _ _ | .shr d _ _ | .sra d _ _ | .min d _ _
  | .max d _ _ | .minu d _ _ | .maxu d _ _ | .mul d _ _ | .mulh d _ _ | .mulhu d _ _ | .divu d _ _ | .remu d _ _
  | .clz d _ | .popc d _ | .sel d _ _ _ | .addi d _ _ | .andi d _ _ | .ori d _ _ | .xori d _ _ | .shli d _ _ | .shri d _ _
  | .srai d _ _ | .lui d _ | .liw d _ | .ext d _ _ _ | .ins d _ _ _ => some d
  | .call _ => some (if handler then 15 else 31)
  | _ => none
/-- The flag that one of them writes. -/
def writesFlag : Instr → Option (BitVec 3)
  | .cmp _ f _ _ | .cmpi _ f _ _ => some f
  | _ => none
/-- The branch target that one of them writes. -/
def writesTarget : Instr → Option (BitVec 2)
  | .pbt b _ | .mtb b _ => some b
  | _ => none

/-- The result latencies of C above one cycle (Table 13.1): the register, and the cycles to the earliest issue of a word that reads it. -/
def delayOf (s : State) : Instr → Option (BitVec 5 × Nat)
  | .mul d _ _ | .mulh d _ _ | .mulhu d _ _ => some (d, 3)
  | .divu d a _ | .remu d a _ => some (d, 2 + max 1 (((List.range 64).find? fun n => decide ((reg s a).toNat < 2 ^ n)).getD 64))
  | _ => none

/-! ## C: memory -/

/-- The register, the size, the sign extension and the address of a load of C (Table 8.1, R143). -/
def loadOf (s : State) : Instr → Option (BitVec 5 × Nat × Bool × W64)
  | .ldb d a _ o => some (d, 1, true, int64 ((reg s a).toNat + o.toInt))
  | .ldh d a _ o => some (d, 2, true, int64 ((reg s a).toNat + o.toInt * 2))
  | .ldw d a _ o => some (d, 4, true, int64 ((reg s a).toNat + o.toInt * 4))
  | .ldd d a _ o => some (d, 8, false, int64 ((reg s a).toNat + o.toInt * 8))
  | .ldbu d a _ o => some (d, 1, false, int64 ((reg s a).toNat + o.toInt))
  | .ldhu d a _ o => some (d, 2, false, int64 ((reg s a).toNat + o.toInt * 2))
  | .ldwu d a _ o => some (d, 4, false, int64 ((reg s a).toNat + o.toInt * 4))
  | .lda d a _ z _ o => some (d, 2 ^ z.toNat, false, nat64 ((reg s a).toNat + o.toNat * 2 ^ z.toNat))
  | _ => none

/-- The value stored, the size and the address of a store of C (Table 8.1, R143). -/
def storeOf (s : State) : Instr → Option (W64 × Nat × W64)
  | .stb d a _ o => some (reg s d, 1, int64 ((reg s a).toNat + o.toInt))
  | .sth d a _ o => some (reg s d, 2, int64 ((reg s a).toNat + o.toInt * 2))
  | .stw d a _ o => some (reg s d, 4, int64 ((reg s a).toNat + o.toInt * 4))
  | .std d a _ o => some (reg s d, 8, int64 ((reg s a).toNat + o.toInt * 8))
  | .stl d a _ z _ o => some (reg s d, 2 ^ z.toNat, nat64 ((reg s a).toNat + o.toNat * 2 ^ z.toNat))
  | _ => none

/-- The value of little-endian bytes (R2). -/
def valueOfBytes (bs : List Byte) : Nat := bs.foldr (fun b v => b.toNat + 256 * v) 0

/-- Byte `k` of a value (R2). -/
def byteOf (v k : Nat) : Byte := BitVec.ofNat 8 (v / 256 ^ k)

/-- A value of `n` bytes as a 64-bit register: sign-extended, or zero-extended. -/
def extended (signed : Bool) (n v : Nat) : W64 :=
  if signed && 2 ^ (8 * n - 1) ≤ v then int64 ((v : Int) - 2 ^ (8 * n)) else nat64 v

/-- What reaching a place does before its bytes are read or written: the rows of stack memory it touches; the flit to
another module, with the bytes `put` that the access at address `ad` writes, or the request to read. None where the place lies in
another core's scratchpad, or stack memory is not ready. -/
def reached (s : State) (p : Place) (n : Nat) (wr : Bool) (put : Option (List Byte)) (ad : W64) : Option State :=
  match p with
  | .spm c _ _ => if c = s.cur.core then some s else none
  | .mem pa => (touchRange s (some (s.cur.core, s.cur.slot)) pa n wr).toOption
  | .far m pa => some (sendFlit s m (match put with
      | some bs => .write pa (compressPayload bs)
      | none => .read m pa n) (s.cur.core, s.cur.slot) 0 ad.toNat)

/-- The operation of an atomic on the old value and the operand, both of `w` bits (R148): what it writes, if it does. -/
def atomWrite (old v cmp w : Nat) : Instr → Option Nat
  | .atomCas .. => if old = cmp then some v else none
  | .atomXadd .. => some ((old + v) % 2 ^ w)
  | .atomXchg .. => some v
  | .atomAnd .. => some (old &&& v)
  | .atomOr .. => some (old ||| v)
  | .atomMin .. => some (if (if old < 2 ^ (w - 1) then (old : Int) else old - 2 ^ w) ≤ (if v < 2 ^ (w - 1) then (v : Int) else v - 2 ^ w) then old else v)
  | .atomMax .. => some (if (if old < 2 ^ (w - 1) then (old : Int) else old - 2 ^ w) ≥ (if v < 2 ^ (w - 1) then (v : Int) else v - 2 ^ w) then old else v)
  | _ => none

/-- The registers and the size of an atomic (R148). -/
def atomOf : Instr → Option (BitVec 5 × BitVec 5 × BitVec 5 × Nat)
  | .atomCas d a b z _ _ | .atomXadd d a b z _ _ | .atomXchg d a b z _ _ | .atomAnd d a b z _ _ | .atomOr d a b z _ _
  | .atomMin d a b z _ _ | .atomMax d a b z _ _ => some (d, a, b, if z = 1 then 8 else 4)
  | _ => none

/-- The operation of an atomic. -/
def atomOp : Instr → AccOp
  | .atomCas .. => .cas
  | .atomXadd .. => .xadd
  | .atomXchg .. => .xchg
  | .atomAnd .. => .and
  | .atomOr .. => .or
  | .atomMin .. => .min
  | _ => .max

/-- Is the instruction an LLK? -/
def isLlk : Instr → Bool
  | .llk .. => true
  | _ => false

/-- The kind (0 read, 1 write, 2 both), the size and the address of a memory instruction of C. -/
def accessOf (s : State) : Instr → Option (Nat × Nat × W64)
  | .llk _ a _ z o => let n := if z = 1 then 8 else 4; some (0, n, nat64 ((reg s a).toNat + o.toNat * n))
  | .sul _ a _ z o => let n := if z = 1 then 8 else 4; some (1, n, nat64 ((reg s a).toNat + o.toNat * n))
  | i => match loadOf s i, storeOf s i, atomOf i with
    | some (_, n, _, ad), _, _ => some (0, n, ad)
    | _, some (_, n, ad), _ => some (1, n, ad)
    | _, _, some (_, a, _, n) => some (2, n, reg s a)
    | _, _, _ => none

/-- The register that a memory instruction of C writes. -/
def memoryTarget : Instr → Option (BitVec 5)
  | .ldb d _ _ _ | .ldh d _ _ _ | .ldw d _ _ _ | .ldd d _ _ _ | .ldbu d _ _ _ | .ldhu d _ _ _ | .ldwu d _ _ _
  | .lda d _ _ _ _ _ | .llk d _ _ _ _ | .atomCas d _ _ _ _ _ | .atomXadd d _ _ _ _ _ | .atomXchg d _ _ _ _ _
  | .atomAnd d _ _ _ _ _ | .atomOr d _ _ _ _ _ | .atomMin d _ _ _ _ _ | .atomMax d _ _ _ _ _ => some d
  | _ => none

/-- The byte of scratchpad, stack memory or another module's memory that place `p` names, and the `k`-th after it. -/
def byteAt (s : State) (p : Place) (k : Nat) : Byte :=
  match p with
  | .spm c slot off => memByte (getCore s c).spm (spmBase (getTask s c slot) + off + k)
  | .mem pa => memByte s.mem (pa + k)
  | .far m pa => memByte s.farMem (m * 2 ^ 41 + pa + k)

/-- Does a store of `n` bytes at `p` reach the scratchpad byte at physical offset `a` of core `c`? -/
def hitsSpm (s : State) (p : Place) (n c a : Nat) : Prop :=
  match p with
  | .spm k slot off => c = k ∧ spmBase (getTask s k slot) + off ≤ a ∧ a < spmBase (getTask s k slot) + off + n
  | _ => False
/-- Does it reach the byte of stack memory at `a`? -/
def hitsMem (p : Place) (n a : Nat) : Prop :=
  match p with
  | .mem pa => pa ≤ a ∧ a < pa + n
  | _ => False
/-- Does it reach the byte at `a` of other modules' memory? -/
def hitsFar (p : Place) (n a : Nat) : Prop :=
  match p with
  | .far m pa => m * 2 ^ 41 + pa ≤ a ∧ a < m * 2 ^ 41 + pa + n
  | _ => False

/-- The lock bit of a physical scratchpad offset: its bank and its number in the bank (R145). -/
def lockOf (a : Nat) : Nat × Nat := (a / 64 % 32, (a / 2 ^ 11 % 8) ^^^ (a / 2 ^ 14 % 8) ^^^ (a / 2 ^ 17 % 8))

/-- Is the lock bit of a byte of a core's own scratchpad neither held nor waited for? -/
def lockFree (s : State) (slot off : Nat) : Prop :=
  let l := lockOf (spmBase (getTask s s.cur.core slot) + off)
  (∀ h ∈ (myCore s).locks, ¬(h.bank = l.1 ∧ h.line = l.2)) ∧ ∀ w ∈ (myCore s).waits, ¬(w.bank = l.1 ∧ w.line = l.2)

/-- Does the running context hold it in its slot? -/
def lockMine (s : State) (slot off : Nat) : Prop :=
  let l := lockOf (spmBase (getTask s s.cur.core slot) + off)
  (ctx s).lock = some ⟨s.cur.core, l.1, l.2⟩

/-- Does one request for a lock bit go before another: it is older, or of the same cycle and of the lower core, then slot, then of the
task context (R146)? -/
def arrivesBefore (v w : LockWait) : Prop :=
  v.since < w.since ∨ (v.since = w.since ∧ (v.core < w.core ∨ (v.core = w.core ∧ (v.slot < w.slot ∨
    (v.slot = w.slot ∧ v.handler = false ∧ w.handler = true)))))

/-! ## C: tokens and system registers -/

/-- The value that `MFS` reads, by register number (Table 13.7, Table 13.5, Table 6.4, R278, R326). -/
def sysValue (s : State) (n : Nat) : Option W64 :=
  let t := me s; let h := (myCore s).h
  let flag (b : Bool) : Nat := if b then 1 else 0
  match n with
  | 0x001 => some s.time
  | 0x002 => some (myCore s).cyc
  | 0x003 => some t.cfst
  | 0x020 => some t.sys.flm
  | 0x021 => some t.sys.numfl
  | 0x030 => some t.sys.prth
  | 0x031 => some t.sys.prbeta
  | 0x032 => some t.sys.tau
  | 0x033 => some t.sys.misslim
  | 0x034 => some (nat64 (t.chk.mcnt + 2 ^ 16 * t.chk.pos + 2 ^ 32 * flag t.chk.valid + 2 ^ 33 * flag t.chk.mldis
      + 2 ^ 34 * flag t.chk.aen + 2 ^ 35 * flag t.chk.vfy))
  | 0x035 => some t.sys.prviol
  | 0x041 => some t.sys.mxcfg
  | 0x050 => some t.sys.rngk
  | 0x051 => some t.sys.hstg
  | 0x060 => some (nth h.trec 0 0) | 0x061 => some (nth h.trec 1 0) | 0x062 => some (nth h.trec 2 0)
  | 0x063 => some (nth h.trec 3 0) | 0x064 => some (nth h.trec 4 0) | 0x065 => some (nth h.trec 5 0)
  | 0x066 => some (nth h.trec 6 0) | 0x067 => some (nth h.trec 7 0)
  | 0x068 => some (nat64 (h.kind + 256 * flag h.retire))
  | 0x069 => some h.trsel
  | 0x06B => some t.sys.holdto
  | 0x06C => some h.tmiss
  | 0x06D | 0x06E => some 0
  | 0x080 => some t.sys.bidw
  | 0x081 => some t.sys.tstat
  | 0x082 => some t.sys.akey
  | 0x0A0 => some t.sys.pacem
  | 0x0A1 => some t.sys.pacec
  | 0x0A2 => some t.sys.pacew
  | 0x0A3 => some t.sys.pacep
  | 0x0A4 => some (pwrst s s.cur.core)
  | _ => none

/-- The register of the trapped task that TRSEL names, as `TRVAL` reads it (R278, Table 16.3). -/
def trappedValue (s : State) : Option W64 :=
  let t := me s; let sel := (myCore s).h.trsel.toNat
  let i := sel % 32
  match sel / 32 % 4 with
  | 0 => some (if i = 0 then 0 else nth t.c.r i 0)
  | 1 => if i < 16 then some (nth t.j i 0) else none
  | 2 => if i < 8 then some (nth t.y i 0) else none
  | _ => if i = 0 then some 1 else if i < 8 then some (if nth t.c.f i false then 1 else 0)
      else if i < 12 then some (nat64 (nth t.c.b (i - 8) 0)) else none

/-- What `MTS` makes of the registers, by register number: fields that the map assigns take the written bits, a read-only
register keeps its value (R4, R5, Table 13.7). TRVAL, TFILL and TINV act on more than a register. -/
def sysWritten (s : State) (n : Nat) (v : W64) : Option State :=
  let low (k : Nat) : W64 := nat64 (v.toNat % 2 ^ k)
  let sys (f : SysRegs → SysRegs) : Option State := some (modMe s fun t => { t with sys := f t.sys })
  let handler (f : Handler → Handler) : Option State := some (modMyCore s fun k => { k with h := f k.h })
  match n with
  | 0x001 | 0x002 | 0x060 | 0x061 | 0x062 | 0x067 | 0x06C => some s
  | 0x003 => some (modMe s fun t => { t with cfst := v &&& 0x0003F0000FFF1FFF })
  | 0x020 => sys fun r => { r with flm := low 6 }
  | 0x021 => if (me s).rngAt = some s.cycle then some s else sys fun r => { r with numfl := r.numfl &&& ~~~(v &&& 1) }
  | 0x030 => sys fun r => { r with prth := low 32 }
  | 0x031 => sys fun r => { r with prbeta := low 32 }
  | 0x032 => sys fun r => { r with tau := low 32 }
  | 0x033 => sys fun r => { r with misslim := low 16 }
  | 0x034 => some (modMe s fun t => { t with chk := { t.chk with mldis := v.getLsbD 33 } })
  | 0x035 => sys fun r => { r with prviol := nat64 (v.toNat % 2 ^ 32 + 0xFFFF * 2 ^ 32) }
  | 0x041 => sys fun r => { r with mxcfg := low 1 }
  | 0x050 => sys fun r => { r with rngk := v }
  | 0x051 => sys fun r => { r with hstg := ((r.hstg &&& 0x0000FFFF00000000) ||| (v &&& 0xFFFF0000FFFFFFFF)) &&& ~~~(v &&& 0x0000800000000000) }
  | 0x063 => handler fun h => { h with trec := setNth 0 h.trec 3 v }
  | 0x064 => handler fun h => { h with trec := setNth 0 h.trec 4 v }
  | 0x065 => handler fun h => { h with trec := setNth 0 h.trec 5 v }
  | 0x066 => handler fun h => { h with trec := setNth 0 h.trec 6 v }
  | 0x068 => handler fun h => { h with retire := v.getLsbD 8 }
  | 0x069 => handler fun h => { h with trsel := low 7 }
  | 0x06B => sys fun r => { r with holdto := low 32 }
  | 0x080 => sys fun r => { r with bidw := low 16 }
  | 0x081 => sys fun r => { r with tstat := r.tstat &&& ~~~(v &&& 0x0000030000000000) }
  | 0x082 => sys fun r => { r with akey := low 32 }
  | 0x0A0 => sys fun r => { r with pacem := low 16 }
  | 0x0A1 => sys fun r => { r with pacec := low 16 }
  | 0x0A2 => sys fun r => { r with pacew := low 16 }
  | 0x0A3 => sys fun r => { r with pacep := low 16 }
  | _ => none

/-- The numbers of the registers of the handler context alone (Table 13.7). -/
def handlerNumber (n : Nat) : Prop := (0x060 ≤ n ∧ n ≤ 0x06A) ∨ n = 0x06C ∨ n = 0x06D ∨ n = 0x06E
/-- The numbers of the registers that a task names as well. -/
def taskNumber (n : Nat) : Prop :=
  n ∈ [0x001, 0x002, 0x003, 0x020, 0x021, 0x030, 0x031, 0x032, 0x033, 0x034, 0x035, 0x041, 0x050, 0x051, 0x06B, 0x080, 0x081,
    0x082, 0x0A0, 0x0A1, 0x0A2, 0x0A3, 0x0A4]

/-- Does a word of the sequencer hold inside its effect (R271): it is busy, waits at a `NODE`, or has popped its token? -/
def insideEffect (c : Ctl) : Bool :=
  (match c.st with
    | .busy _ _ => true
    | _ => false) || c.popped || (match c.hold with
    | some (.nodeDrain, _) | some (.kept, _) => true
    | _ => false)

/-- The pending transfer that a trap finds: a delay word that holds inside its effect has issued (R240). -/
def pendingAt (c : Ctl) : Option Delay :=
  match c.delay with
  | none => none
  | some d => if insideEffect c then (if d.left ≤ 1 then c.more else some ⟨d.left - 1, d.tgt⟩) else some d

/-- The word after one that holds inside its effect: the target after the last delay word, else the next word. -/
def onwardAt (q : Seq) (c : Ctl) : Nat :=
  match c.delay with
  | some ⟨0, tgt⟩ | some ⟨1, tgt⟩ => tgt
  | _ => c.pc + wordSize q

/-- The program counter of a sequencer in a record (R240, R271): with a transfer pending, the first delay word that has not
issued. -/
def pcAt (q : Seq) (c : Ctl) : W64 := nat64 (if insideEffect c && (pendingAt c).isSome then onwardAt q c else c.pc)

/-- The eight words of a trap record (Table 16.1). -/
def recordOf (t : Task) (slot : Nat) (f : PFault) : List W64 :=
  [nat64 (f.cause + f.seq * 2 ^ 8 + f.eng * 2 ^ 16 + slot * 2 ^ 18 + t.tag * 2 ^ 32), nat64 f.idx, nat64 (f.op + f.prog * 2 ^ 8),
   pcAt .c t.c.ctl, pcAt .l t.lc, pcAt .x t.x.ctl, pcAt .s t.sc, f.detail]

/-- Does a fault arise before another: in an earlier cycle, or in the same cycle earlier in the order C, L, X, S, matrix, copy,
weight, predictor (R272)? -/
def precedes (f g : PFault) : Prop := f.cycle < g.cycle ∨ (f.cycle = g.cycle ∧ f.seq * 8 + f.eng < g.seq * 8 + g.eng)

/-- CFST shows the pending transfers of C and X (R240, Table 13.5): PEND, the words left and the target of each. -/
def cfstShows (v : W64) (c x : Option Delay) : Prop :=
  v.getLsbD 48 = c.isSome ∧ v.getLsbD 49 = x.isSome ∧
  (∀ d, c = some d → v.toNat / 2 ^ 44 % 4 = d.left % 4 ∧ v.toNat % 2 ^ 13 = d.tgt / 4 % 2 ^ 13) ∧
  ∀ d, x = some d → v.toNat / 2 ^ 46 % 4 = d.left % 4 ∧ v.toNat / 2 ^ 16 % 2 ^ 12 = d.tgt / 16 % 2 ^ 12

/-- The transfer that CFST leaves pending for a sequencer: the words left and the target. -/
def cfstPending (v : W64) : Seq → Option (Nat × Nat)
  | .c => if v.getLsbD 48 then some (v.toNat / 2 ^ 44 % 4, v.toNat % 2 ^ 13 * 4) else none
  | .x => if v.getLsbD 49 then some (v.toNat / 2 ^ 46 % 4, v.toNat / 2 ^ 16 % 2 ^ 12 * 16) else none
  | _ => none

/-- Does a sequencer stay where it is when its task goes on: it holds inside its effect, ends or has ended (R277)? -/
def keepsPlace (c : Ctl) : Prop := insideEffect c = true ∨ c.st = .ending ∨ c.st = .ended

/-- What is pending behind a word that holds inside its effect, once its task goes on (R240, R277): with PEND 1 control comes from
it to the sequencer's program counter `pc` (where the record shows the word itself, to the word after it), issues LEFT words and goes on
at TGT; with PEND 0 nothing is pending but what had wholly issued. The first part counts that word; the second is what `pc` leaves pending
when it is not the next word. -/
def keptDelay (v : W64) (q : Seq) (pc : W64) (c : Ctl) : Option Delay × Option Delay :=
  if c.st = .ending ∨ c.st = .ended then (c.delay, c.more)
  else
    let first := if pc = pcAt q c then onwardAt q c else pc.toNat
    match cfstPending v q with
    | none => if pendingAt c = none then (c.delay, c.more) else (none, none)
    | some (n, tgt) =>
      if first = c.pc + wordSize q then (some ⟨n + 1, tgt⟩, none)
      else if n = 0 then (some ⟨1, tgt⟩, none)
      else (some ⟨1, first⟩, some ⟨n, tgt⟩)

/-- The word that a sequencer issues first when its task goes on (R240, R277). -/
def resumePc (v : W64) (q : Seq) (pc : W64) : Nat :=
  match cfstPending v q with
  | some (0, tgt) => tgt
  | _ => pc.toNat

/-- The transfer that is pending then. -/
def resumeDelay (v : W64) (q : Seq) : Option Delay :=
  match cfstPending v q with
  | some (n + 1, tgt) => some ⟨n + 1, tgt⟩
  | _ => none

/-- A write through TRVAL (R278): the register of the trapped task that TRSEL names takes the value; g0 and f0 discard it, a
branch target must be a multiple of 4 below 32,768. -/
def trappedWritten (s : State) (v : W64) : Option State :=
  let sel := (myCore s).h.trsel.toNat
  let i := sel % 32
  match sel / 32 % 4 with
  | 0 => some (if i = 0 then modMe s id else modMe s fun t => { t with c := { t.c with r := setNth 0 t.c.r i v } })
  | 1 => if i < 16 then some (modMe s fun t => { t with j := setNth 0 t.j i v }) else none
  | 2 => if i < 8 then some (modMe s fun t => { t with y := setNth 0 t.y i v }) else none
  | _ =>
    if i = 0 then some (modMe s id)
    else if i < 8 then some (modMe s fun t => { t with c := { t.c with f := setNth false t.c.f i (v.getLsbD 0) } })
    else if i < 12 ∧ v.toNat % 4 = 0 ∧ v.toNat < 32768 then
      some (modMe s fun t => { t with c := { t.c with b := setNth 0 t.c.b (i - 8) v.toNat } })
    else none

/-! ## L and S -/

/-- The state in which a word of L or S has its effect: its wait has popped its token, and it has issued. -/
def begun (q : Seq) (t : Tok) (s : State) : State := markIssue (waitPopped q t.wait s) q

/-- The register and the value that an instruction of L gives (R241, R257). -/
def jValue (s : State) : Instr → Option (Tok × BitVec 4 × W64)
  | .jadd t d a b => some (t, d, nat64 ((getJ s a).toNat + (getJ s b).toNat))
  | .jsub t d a b => some (t, d, int64 ((getJ s a).toNat - (getJ s b).toNat))
  | .jshl t d a b => some (t, d, nat64 ((getJ s a).toNat * 2 ^ ((getJ s b).toNat % 64)))
  | .jshr t d a b => some (t, d, nat64 ((getJ s a).toNat / 2 ^ ((getJ s b).toNat % 64)))
  | .jand t d a b => some (t, d, nat64 ((getJ s a).toNat &&& (getJ s b).toNat))
  | .jor t d a b => some (t, d, nat64 ((getJ s a).toNat ||| (getJ s b).toNat))
  | .jmul t d a b => some (t, d, nat64 ((getJ s a).toNat * (getJ s b).toNat))
  | .jaddi t d a i => some (t, d, int64 ((getJ s a).toNat + i.toInt))
  | .jli t d i => some (t, d, nat64 i.toNat)
  | .jlih t d i => some (t, d, nat64 ((getJ s d).toNat % 2 ^ 32 + i.toNat * 2 ^ 32))
  | .ltk t d true q => some (t, d, nat64 (nth (me s).tok q.toNat 0))
  | _ => none

/-- The register and the value that an instruction of S gives (R211). -/
def yValue (s : State) : Instr → Option (Tok × BitVec 3 × W64)
  | .saddi t d a i => some (t, d, int64 ((getY s a).toNat + i.toInt))
  | .sli t d i => some (t, d, nat64 (i.toNat * 64))
  | .stk t d q => some (t, d, nat64 (nth (me s).tok q.toNat 0))
  | _ => none

/-- No active loop uses the counter, and the new body ends no later than any that encloses it (R244). -/
def loopFits (c : Ctl) (n last : Nat) : Prop := ∀ l ∈ c.loops, l.n ≠ n ∧ last ≤ l.last

/-- The state with a loop set up: its counter holds the count; a count of 0 leaves control at the end of the body (R244). -/
def looping (q : Seq) (s : State) (n count last : Nat) : State :=
  modCtl s q fun c =>
    if count = 0 then { c with cnt := setNth 0 c.cnt n 0, pc := last }
    else { c with cnt := setNth 0 c.cnt n count, loops := ⟨n, c.pc + wordSize q, last⟩ :: c.loops }

/-- The command of an instruction of L, as its checks leave it: the queue it goes to, the state and the command. -/
def commandOf (u : State) : Instr → Option (Tok × Queue × M (State × Cmd))
  | .copy t cls d a b zorg xp => some (t, .copy, do
      let org ← if zorg then .ok [0, 0, 0, 0] else readBlock u u.cur.core u.cur.slot ((getJ u d).toNat % 2 ^ 20) 4 32
      match org with
      | [o0, o1, o2, o3] =>
        if o0 < 2 ^ 60 ∧ o1 < 2 ^ 40 ∧ o2 < 2 ^ 60 ∧ o3 < 2 ^ 40 then
          checkCopy u u.cur.core u.cur.slot (([withSig t.sig (0x10 + cls.toNat * 2 ^ 8 + (if xp then 2 ^ 48 else 0)),
            (getJ u b).toNat % 2 ^ 20 * 2 ^ 20 + (getJ u a).toNat % 2 ^ 20, o0, o1, o2, o3] ++ List.replicate 10 0).map nat64)
        else trap 2 0
      | _ => trap 2 0)
  | .wtile t cls a row0 nm buf boff => some (t, .weight, weightCommand u 0x21 t.sig cls.toNat nm.toNat buf.toNat 0 row0.toNat 0 0 0
      boff.toNat (getJ u a).toNat)
  | .wgath t cls d a b hst nm heat buf boff => some (t, .weight, weightCommand u 0x20 t.sig cls.toNat nm.toNat buf.toNat heat.toNat 0
      hst.toNat (if heat then (getJ u d).toNat % 2 ^ 20 else 0) ((getJ u b).toNat % 2 ^ 20) boff.toNat (getJ u a).toNat)
  | .darn t cls d a sel hst nm heat buf boff => some (t, .weight,
      if (me u).chk.valid = true ∧ (sel = true → (me u).chk.aen = true) then
        weightCommand u 0x22 t.sig cls.toNat nm.toNat buf.toNat heat.toNat 0 hst.toNat (if heat then (getJ u d).toNat % 2 ^ 20 else 0)
          (if sel then (me u).chk.alist else (me u).chk.mlist) boff.toNat (getJ u a).toNat
      else illegal 6 24)
  | .pfch t cls a b => some (t, .weight, weightCommand u 0x23 t.sig cls.toNat 0 0 0 0 0 0 ((getJ u b).toNat % 2 ^ 20) 0 (getJ u a).toNat)
  | .pred t cls a b vfy => some (t, .pred, do
      let ws ← readBlock u u.cur.core u.cur.slot ((getJ u a).toNat % 2 ^ 20) 8 64
      let r := sampled u (me u)
      let inp := (getJ u b).toNat % 2 ^ 20
      checkPred u u.cur.core u.cur.slot ws inp vfy [r.prth.toNat, r.prbeta.toNat, r.tau.toNat]
      .ok (u, { slot := u.cur.slot, tag := 0, idx := 0, from_ := (u.cur.core, u.cur.slot, 1), flm := 0, gap := 0
                words := (withSig t.sig (0x30 + cls.toNat * 2 ^ 8 + (if vfy then 2 ^ 48 else 0)) :: (ws ++ [inp, 0, 0, 0, 0, 0, 0])).map nat64 }))
  | _ => none
where
  /-- A command of the weight streamer by its fields (Table 5.3). -/
  weightCommand (u : State) (op : Nat) (sig : BitVec 5) (cls nm buf heat row0 hst hbase list boff addr : Nat) : M (State × Cmd) := do
    let r ← readLayout u u.cur.core u.cur.slot addr 0
    let words := nat64 (withSig sig (op + cls * 2 ^ 8 + buf * 2 ^ 48 + heat * 2 ^ 50 + nm * 2 ^ 51)) :: (r ++
      [row0 * 2 ^ 48 + hst * 2 ^ 40 + hbase * 2 ^ 20 + list, if nm = 0 then 0 else ibaseOf (layoutOf r), boff].map nat64)
    let pins ← checkWeight u u.cur.core u.cur.slot addr words
    .ok (u, { slot := u.cur.slot, tag := 0, idx := 0, from_ := (u.cur.core, u.cur.slot, 1), words := words, flm := 0, gap := 0, pins := pins })

/-- S inside a drain: its pages are in flight, and S holds until its last block is written. -/
def draining (v : State) (t : Tok) (d : Drain) : State :=
  modCtl (modMe (pin v v.cur.core d.pins) fun k => { k with drain := some d }) .s fun c =>
    { c with st := .busy .drainWork d.o, hold := some (.drainWork, d.o), held := 0, owes := tokQueue t.sig }

/-- The list of 32-bit words at a local address: a count, then that many words; none where a byte of it is outside the
allotment or has an error. -/
def local32s (s : State) (a : Nat) : Option (List Nat) :=
  let word (a : Nat) := valueOfBytes (bytesAt s (.spm s.cur.core s.cur.slot a) 4)
  let n := word a
  if a + 4 + 4 * n ≤ spmUsable (me s) ∧ readError s (.spm s.cur.core s.cur.slot a) (4 + 4 * n) = none then
    some ((List.range n).map fun i => word (a + 4 + 4 * i))
  else none

/-- A segment's lengths after RGAPND, RGCMT or RGUPK; none where the new length breaks its limit (R213 to R215). -/
def raggedAfter (op : Ragged) (g : SegEnt) (n : Nat) : Option SegEnt :=
  match op with
  | .append => if g.tlen + n ≤ g.cap then some { g with tlen := g.tlen + n } else none
  | .commit => if g.clen + n ≤ g.tlen then some { g with clen := g.clen + n } else none
  | .unpick => if g.clen ≤ n ∧ n ≤ g.tlen then some { g with tlen := n } else none

/-- The register of L that a word of L writes. -/
def jTarget : Instr → Option (BitVec 4)
  | .jadd _ d _ _ | .jsub _ d _ _ | .jshl _ d _ _ | .jshr _ d _ _ | .jand _ d _ _ | .jor _ d _ _ | .jmul _ d _ _ | .jaddi _ d _ _
  | .jli _ d _ | .jlih _ d _ | .ltk _ d true _ | .airq _ d _ _ | .lnpeg _ d _ _ | .lnfree _ d _ _ | .lnqry _ d _ _ => some d
  | _ => none

/-- The register of S that a word of S writes. -/
def yTarget : Instr → Option (BitVec 3)
  | .saddi _ d _ _ | .sli _ d _ | .stk _ d _ | .sld _ d _ _ => some d
  | _ => none

/-- The words of L and S that change a byte of memory themselves. -/
def writesMemory : Instr → Bool
  | .rgapnd .. | .rgcmt .. | .rgupk .. | .aircfg .. => true
  | _ => false

/-! ## X -/

/-- The offsets in its task's allotment that a `VCHECK` stores to (R110, R226): the heat bytes of the active entries, or with STG the staged
entries; and in the lists M and A the new indices and the count word. -/
def checkStores (s : State) (x : Slot) (off : Nat) : Prop :=
  let k := (me s).chk
  let act := (checkedLanes k (x.type = 0) (source s x 0 x.srcA).2.lanes).filter (·.2.2.2.2)
  let h := (sampled s (me s)).hstg.toNat
  let inList (base cnt n : Nat) : Prop := 0 < n ∧ ((base ≤ off ∧ off < base + 4) ∨ (base + 4 + 4 * cnt ≤ off ∧ off < base + 4 + 4 * (cnt + n)))
  (k.vfy = false ∧ x.imm.getLsbD 6 = false ∧ ∃ e ∈ act, off = k.hbase + e.2.1 * k.hst) ∨
  (k.vfy = false ∧ x.imm.getLsbD 6 = true ∧ h % 2 ^ 20 + 4 * (h / 2 ^ 48) ≤ off ∧
    off < h % 2 ^ 20 + 4 * min (h / 2 ^ 20 % 2 ^ 12) (h / 2 ^ 48 + act.length)) ∨
  inList k.mlist k.mcnt (act.filter (·.2.2.1)).length ∨ (k.aen = true ∧ inList k.alist k.acnt act.length)

/-- The offsets that a `VSPCHK` with APPLY stores to: the heat bytes of the staged entries whose position is accepted (R227). -/
def acceptStores (s : State) (x : Slot) (off : Nat) : Prop :=
  let q := source s x 0 x.srcA; let p := source q.1 x 0 x.srcB; let r := source p.1 x 0 x.srcC
  let h := (sampled s (me s)).hstg.toNat
  x.imm.getLsbD 7 = true ∧ ∃ j < h / 2 ^ 48,
    let w := valueOfBytes (bytesAt s (.spm s.cur.core s.cur.slot (h % 2 ^ 20 + 4 * j)) 4)
    w / 2 ^ 20 ≤ accepted q.2.lanes p.2.lanes r.2.lanes (x.imm.toNat % 128) ∧ off = w % 2 ^ 20

/-- An exact integer as a 32-bit lane: clamped with saturation, else modulo 2^32 (R164). -/
def lane32 (sat : Bool) (v : Int) : W32 :=
  BitVec.ofInt 32 (if sat ∧ v > 2 ^ 31 - 1 then 2 ^ 31 - 1 else if sat ∧ v < -(2 ^ 31) then -(2 ^ 31) else v)

/-- A lane operation: on f32 the exact result of `g` rounded, with input and output flushes in force; on s32 the exact integer
of `h` (R28, R164). -/
def arithmetic (x : Slot) (g : Machine.Num → Machine.Num → Machine.Num → Machine.Num) (h : Int → Int → Int → Int) (k : XIn) (a b c : W32) : W32 :=
  if x.type = 0 then
    f32Of x.rnd.toNat x.sat (foOf x k 0) (g (f32 (fiOf x k 0) a) (f32 (fiOf x k 0) b) (f32 (fiOf x k 0) c))
  else lane32 x.sat (h a.toInt b.toInt c.toInt)

/-- An elementwise instruction: its slot, its bound in X-issue cycles, what code 29 stands for, and the value of a lane (Tables
9.1 and 9.5, R164 to R172). -/
def laneRule : Instr → Option (Slot × Nat × W32 × (XIn → W32 → W32 → W32 → W32))
  | .vadd x => some (x, if x.type = 0 then 4 else 2, immLane x, arithmetic x (fun a b _ => Machine.Num.add x.rnd.toNat a b) (fun a b _ => a + b))
  | .vsub x => some (x, if x.type = 0 then 4 else 2, immLane x, arithmetic x (fun a b _ => Machine.Num.add x.rnd.toNat a b.neg) (fun a b _ => a - b))
  | .vmul x => some (x, 4, immLane x, arithmetic x (fun a b _ => Machine.Num.mul a b) (fun a b _ => a * b))
  | .vfma x => some (x, 4, immLane x, arithmetic x (fun a b c => Machine.Num.add x.rnd.toNat (Machine.Num.mul a b) c) (fun a b c => a * b + c))
  | .vfms x => some (x, 4, immLane x, arithmetic x (fun a b c => Machine.Num.add x.rnd.toNat (Machine.Num.mul a b) c.neg) (fun a b c => a * b - c))
  | .vmin x => some (x, 2, immLane x, fun k a b _ =>
      if x.type = 0 then minMax false true (fmodeOf x k) a b else BitVec.ofInt 32 (min a.toInt b.toInt))
  | .vmax x => some (x, 2, immLane x, fun k a b _ =>
      if x.type = 0 then minMax true true (fmodeOf x k) a b else BitVec.ofInt 32 (max a.toInt b.toInt))
  | .vabs x => some (x, 2, 0, fun k a _ _ =>
      if x.type = 0 then signOp (· &&& 0x7FFFFFFF) (·) true (fmodeOf x k) a else lane32 x.sat a.toInt.natAbs)
  | .vneg x => some (x, 2, 0, fun k a _ _ =>
      if x.type = 0 then signOp (· ^^^ 0x80000000) (·) true (fmodeOf x k) a else lane32 x.sat (-a.toInt))
  | .vand x => some (x, 2, immLaneInt x, fun _ a b _ => BitVec.ofNat 32 (a.toNat &&& b.toNat))
  | .vor x => some (x, 2, immLaneInt x, fun _ a b _ => BitVec.ofNat 32 (a.toNat ||| b.toNat))
  | .vxor x => some (x, 2, immLaneInt x, fun _ a b _ => BitVec.ofNat 32 (a.toNat ^^^ b.toNat))
  | .vshl x => some (x, 2, immLaneInt x, fun _ a b _ => BitVec.ofNat 32 (a.toNat * 2 ^ (b.toNat % 64)))
  | .vshr x => some (x, 2, immLaneInt x, fun _ a b _ => BitVec.ofNat 32 (a.toNat / 2 ^ (b.toNat % 64)))
  | .vsra x => some (x, 2, immLaneInt x, fun _ a b _ => BitVec.ofInt 32 (a.toInt / 2 ^ (b.toNat % 64)))
  | .vclamp x => some (x, 2, immLane x, fun k a b c =>
      if x.type = 0 then minMax false true (fmodeOf x k) (minMax true true (fmodeOf x k) a b) c
      else BitVec.ofInt 32 (min (max a.toInt b.toInt) c.toInt))
  | .vmov x => some (x, 1, immLaneInt x, fun _ a _ _ => a)
  | .vcvt x => some (x, 4, 0, fun k a _ _ => cvtLane (x.imm.toNat % 32) x.type.toNat x.rnd.toNat x.sat (fiOf x k (x.imm.toNat % 32))
      (foOf x k x.type.toNat) a)
  | .vflip x => some (x, 4, 0, fun _ a _ _ => flipLane x.type.toNat a)
  | .vunflip x => some (x, 4, 0, fun _ a _ _ => unflipLane x.type.toNat a)
  | .vexp2 x => some (x, 10, 0, fun k a _ _ => special 0x73 x.rnd.toNat x.sat (fiOf x k 0) (foOf x k 0) a)
  | .vlog2 x => some (x, 10, 0, fun k a _ _ => special 0x74 x.rnd.toNat x.sat (fiOf x k 0) (foOf x k 0) a)
  | .vrcp x => some (x, 10, 0, fun k a _ _ => special 0x75 x.rnd.toNat x.sat (fiOf x k 0) (foOf x k 0) a)
  | .vrsq x => some (x, 10, 0, fun k a _ _ => special 0x76 x.rnd.toNat x.sat (fiOf x k 0) (foOf x k 0) a)
  | .vsqrt x => some (x, 10, 0, fun k a _ _ => special 0x77 x.rnd.toNat x.sat (fiOf x k 0) (foOf x k 0) a)
  | .vtanh x => some (x, 10, 0, fun k a _ _ => special 0x78 x.rnd.toNat x.sat (fiOf x k 0) (foOf x k 0) a)
  | .vsig x => some (x, 10, 0, fun k a _ _ => special 0x79 x.rnd.toNat x.sat (fiOf x k 0) (foOf x k 0) a)
  | _ => none

/-- A condition of VCMP on f32 values (Table 9.3): a NaN is unordered. -/
def floatHolds (cc : Nat) (a b : Machine.Num) : Bool :=
  let un := a = .nan ∨ b = .nan
  match cc with
  | 0 => ¬un ∧ a.cmp b = 0 | 1 => un ∨ a.cmp b ≠ 0 | 2 => ¬un ∧ a.cmp b < 0 | 3 => ¬un ∧ a.cmp b ≤ 0
  | 4 => ¬un ∧ a.cmp b > 0 | 5 => ¬un ∧ a.cmp b ≥ 0 | 10 => un | _ => ¬un

/-- A condition of VCMP on integers. -/
def intHolds (cc : Nat) (a b : W32) : Bool :=
  match cc with
  | 0 => a.toNat = b.toNat | 1 => a.toNat ≠ b.toNat | 2 => a.toInt < b.toInt | 3 => a.toInt ≤ b.toInt | 4 => a.toInt > b.toInt
  | 5 => a.toInt ≥ b.toInt | 6 => a.toNat < b.toNat | 7 => a.toNat ≤ b.toNat | 8 => a.toNat > b.toNat | _ => a.toNat ≥ b.toNat

/-- A move of whole lanes: its slot, its bound, and the row and column that the lane at a row and column takes (R173). -/
def moveRule : Instr → Option (Slot × Nat × (Nat → Nat → Nat × Nat))
  | .vrotr x => some (x, 2, fun r c => (r, (((c : Int) - x.imm.toNat) % 64).toNat))
  | .vrotc x => some (x, 5, fun r c => ((((r : Int) - x.imm.toNat) % 16).toNat, c))
  | .vbcr x => some (x, 2, fun r _ => (r, x.imm.toNat % 64))
  | .vbcc x => some (x, 5, fun _ c => (x.imm.toNat % 16, c))
  | .vxpq x => some (x, 5, fun r c => (c % 16, c / 16 * 16 + r))
  | _ => none

/-- A reduction or scan: its slot, its bound, whether along rows, whether a scan (R174). -/
def lineRule : Instr → Option (Slot × Nat × Bool × Bool)
  | .vredr x => some (x, 6, true, false)
  | .vredc x => some (x, 9, false, false)
  | .vscnr x => some (x, 8, true, true)
  | .vscnc x => some (x, 12, false, true)
  | _ => none

/-- The lanes that contribute to lane `l` of a reduction or scan, in the order of its line (R174): active, with SEG also valid and
of its segment, and in a scan before it, or it too without EXC. -/
def lineLanes (rows scan exc seg : Bool) (act : List Bool) (b : Block) (l : Nat) : List W32 :=
  ((List.range 1024).filter fun m => (if rows then decide (m / 64 = l / 64) else decide (m % 64 = l % 64)) && nth act m false
    && (!seg || (nth b.valid m false && decide (nth b.seg m 0 = nth b.seg l 0))) && (!scan || decide (m < l) || (decide (m = l) && !exc))).map
    fun m => nth b.lanes m 0

/-- An instruction of two predicates (R175). -/
def predRule : Instr → Option (Slot × (Bool → Bool → Bool))
  | .pand x => some (x, fun a b => a && b)
  | .por x => some (x, fun a b => a || b)
  | .pxor x => some (x, fun a b => decide (a ≠ b))
  | .pnot x => some (x, fun a _ => !a)
  | _ => none

/-- The lanes of a register that a predicate selects, in order. -/
def chosen (act : List Bool) (l : Lanes) : Lanes := ((act.zip l).filter (·.1)).map (·.2)

/-- A word with its bits `[h:l]` replaced. -/
def field (w : W64) (h l : Nat) (v : W64) : W64 :=
  nat64 (w.toNat / 2 ^ (h + 1) * 2 ^ (h + 1) + v.toNat % 2 ^ (h + 1 - l) * 2 ^ l + w.toNat % 2 ^ l)

/-- The configuration registers after MSETF (Table 10.3). -/
def configured (cfg : List W64) (sel : Nat) (v : W64) : List W64 :=
  let put (w h l : Nat) := setNth 0 cfg w (field (nth cfg w 0) h l v)
  if sel < 16 then setNth 0 cfg sel v
  else match sel with
    | 0x10 => put 0 63 48 | 0x11 => put 0 43 28 | 0x12 => put 0 27 12 | 0x13 => put 0 11 8 | 0x14 => put 3 27 12 | 0x15 => put 2 10 0
    | _ => cfg

/-! ## Numbers -/

/-- An exact value: no number, an infinity, or `num / den` with a sign, which a zero has too. -/
inductive Value where
  | nan
  | inf (neg : Bool)
  | fin (neg : Bool) (num den : Nat)
  deriving DecidableEq, Repr

/-- The exponent bits, the mantissa bits, the bias of a floating format, and whether it is an IEEE format (Table 3.2); kl4 decodes as
bf16. -/
def shape : Nat → Option (Nat × Nat × Nat × Bool)
  | 0 => some (8, 23, 127, true)
  | 1 | 12 => some (8, 7, 127, true)
  | 2 => some (5, 10, 15, true)
  | 3 => some (4, 3, 8, false)
  | 4 => some (5, 2, 16, false)
  | 5 => some (3, 2, 3, false)
  | 6 => some (2, 1, 1, false)
  | _ => none

/-- The width of an integer format, and whether it is signed (R51). -/
def intShape : Nat → Option (Nat × Bool)
  | 7 => some (8, true)
  | 8 => some (8, false)
  | 9 => some (4, true)
  | 10 => some (4, false)
  | 11 => some (2, true)
  | 13 => some (32, true)
  | _ => none

/-- The width in bits of a format's elements (Table 3.1). -/
def widthOf (code : Nat) : Nat :=
  if code ∈ [0, 13, 14] then 32 else if code ∈ [1, 2] then 16 else if code ∈ [3, 4, 7, 8, 15] then 8 else if code = 5 then 6
  else if code = 11 then 2 else 4

/-- The magnitude of a floating encoding `p` without its sign, in units of the smallest subnormal (R48); beyond the format's exponents
it goes on as if they had no bound. -/
def units (mb p : Nat) : Nat := if p / 2 ^ mb = 0 then p else (2 ^ mb + p % 2 ^ mb) * 2 ^ (p / 2 ^ mb - 1)

/-- The value of a pattern of a format, its subnormals taken as zeros where `on` (R48 to R53, R61). -/
def valueOf (code : Nat) (on : Bool) (b : Nat) : Value :=
  match shape code, intShape code with
  | some (eb, mb, bias, ieee), _ =>
    let p := b % 2 ^ (eb + mb)
    let neg := b.testBit (eb + mb)
    let top := (2 ^ eb - 1) * 2 ^ mb
    if ieee ∧ top < p then .nan
    else if ieee ∧ p = top then .inf neg
    else if ¬ieee ∧ neg ∧ p = 0 then .nan
    else if on ∧ p < 2 ^ mb then .fin (ieee && neg) 0 (2 ^ (bias + mb - 1))
    else .fin neg (units mb p) (2 ^ (bias + mb - 1))
  | none, some (w, signed) =>
    if signed ∧ 2 ^ (w - 1) ≤ b % 2 ^ w then .fin true (2 ^ w - b % 2 ^ w) 1 else .fin false (b % 2 ^ w) 1
  | none, none => if b % 256 = 255 then .nan else .fin false (2 ^ (b % 256)) (2 ^ 127)

/-- Rounding in a mode (R56): of the values `grid 0, grid 1, …` with the sign `neg`, the one that the `root`-th root of `num / den`
rounds to is `grid p`. A tie goes to the even `p`, or in RNA away from zero. -/
def Rounded (mode : Nat) (neg : Bool) (root num den : Nat) (grid : Nat → Nat) (p : Nat) : Prop :=
  let exceeds (a : Nat) : Prop := a ^ root * den < num * 2 ^ root     -- twice the value lies above a
  let least (a : Nat) : Prop := a ^ root * den ≤ num * 2 ^ root    -- or is a
  let up := grid p + grid (p + 1)
  let dn := grid (p - 1) + grid p
  let toward : Prop := least (2 * grid p) ∧ ¬least (2 * grid (p + 1))
  let away : Prop := ¬exceeds (2 * grid p) ∧ (p = 0 ∨ exceeds (2 * grid (p - 1)))
  match mode with
  | 0 => ¬exceeds up ∧ (least up → p % 2 = 0) ∧ (p = 0 ∨ (least dn ∧ (¬exceeds dn → p % 2 = 0)))
  | 1 => toward
  | 2 => if neg then toward else away
  | 3 => if neg then away else toward
  | _ => ¬least up ∧ (p = 0 ∨ least dn)

/-- Convert (R57): the pattern `r` of format `code` is what the `root`-th root of `x` converts to. -/
def Converts (code mode : Nat) (sat : Bool) (root : Nat) (x : Value) (r : Nat) : Prop :=
  match shape code, intShape code with
  | some (eb, mb, bias, ieee), _ =>
    let sign (n : Bool) : Nat := if n then 2 ^ (eb + mb) else 0
    let top := (2 ^ eb - 1) * 2 ^ mb
    let most := if ieee then top - 1 else 2 ^ (eb + mb) - 1
    let nan := if ieee then top + 2 ^ (mb - 1) else 2 ^ (eb + mb)
    match x with
    | .nan => r = nan
    | .inf n => r = if sat then sign n + most else if ieee then sign n + top else nan
    | .fin n num den =>
      if num = 0 then r = (if ieee then sign n else 0)
      else ∃ p, Rounded mode n root (num * 2 ^ (root * (bias + mb - 1))) den (units mb) p ∧
        r = if most < p then
              (if sat then sign n + most else if ¬ieee then nan
               else if mode = 1 ∨ (mode = 2 ∧ n) ∨ (mode = 3 ∧ ¬n) then sign n + most else sign n + top)
            else if p = 0 ∧ ¬ieee then 0 else sign n + p
  | none, some (w, signed) =>
    let hi : Int := if signed then 2 ^ (w - 1) - 1 else 2 ^ w - 1
    let lo : Int := if signed then -(2 ^ (w - 1)) else 0
    let pat (v : Int) : Nat := (v % 2 ^ w).toNat
    match x with
    | .nan => r = 0
    | .inf n => r = pat (if n then lo else hi)
    | .fin n num den => ∃ p, Rounded mode n root num den (fun k => k) p ∧
        let v : Int := if n then -(p : Int) else p
        r = pat (if sat ∧ v > hi then hi else if sat ∧ v < lo then lo else v)
  | none, none => False

/-- An output flush (R61): a subnormal pattern becomes a zero, with its sign in an IEEE format. -/
def flushed (code : Nat) (on : Bool) (r : Nat) : Nat :=
  match shape code with
  | some (eb, mb, _, ieee) =>
    let p := r % 2 ^ (eb + mb)
    if on ∧ 0 < p ∧ p < 2 ^ mb then (if ieee then r - p else 0) else r
  | none => r

/-- An f32 lane is the rounded result of a value, flushed where `fo` (R57, R61). -/
def RoundsTo (mode : Nat) (sat fo : Bool) (root : Nat) (x : Value) (r : W32) : Prop :=
  ∃ q, Converts 0 mode sat root x q ∧ r = BitVec.ofNat 32 (flushed 0 fo q)

/-- A value's sign changed. -/
def Value.neg : Value → Value
  | .nan => .nan
  | .inf n => .inf !n
  | .fin n a d => .fin (!n) a d

/-- The exact sum of two values (R164): an exact zero of addends that are not both +0 or both −0 is +0, and −0 in mode RD. -/
def Value.add (mode : Nat) : Value → Value → Value
  | .nan, _ | _, .nan => .nan
  | .inf m, .inf n => if m = n then .inf m else .nan
  | .inf m, _ | _, .inf m => .inf m
  | .fin m a d, .fin n b e =>
    let z : Int := (if m then -(a * e : Int) else a * e) + (if n then -(b * d : Int) else b * d)
    .fin (if z = 0 then (if a = 0 ∧ b = 0 ∧ m = n then m else mode = 3) else z < 0) z.natAbs (d * e)

/-- The exact product of two values (R54, R164). -/
def Value.mul : Value → Value → Value
  | .nan, _ | _, .nan => .nan
  | .inf m, .inf n => .inf (m != n)
  | .inf m, .fin n a _ | .fin n a _, .inf m => if a = 0 then .nan else .inf (m != n)
  | .fin m a d, .fin n b e => .fin (m != n) (a * b) (d * e)

/-- The exact result of an arithmetic instruction (R164). -/
def exactly (mode : Nat) (op : Arith) (a b c : Value) : Value :=
  match op with
  | .add => a.add mode b
  | .sub => a.add mode b.neg
  | .mul => a.mul b
  | .fma => (a.mul b).add mode c
  | .fms => (a.mul b).add mode c.neg

/-- Is an f32 pattern a NaN? -/
def isNan (b : Nat) : Bool := decide (0x7F800000 < b % 2 ^ 31)
/-- The place of an f32 pattern that is no NaN in the order of the values, −0 below +0. -/
def rank (b : Nat) : Int := if b < 2 ^ 31 then b else -1 - (b % 2 ^ 31 : Nat)
/-- The order of two values that are no NaN, zeros alike: is the first the lesser? -/
def Value.below : Value → Value → Bool
  | .inf m, .inf n => m && !n
  | .inf m, .fin _ _ _ => m
  | .fin _ _ _, .inf n => !n
  | .fin m a d, .fin n b e => decide ((if m then -(a * e : Int) else a * e) < (if n then -(b * d : Int) else b * d))
  | _, _ => false

/-- The lesser or the greater of two f32 lanes (R165): no rounding, flushes in force, NaN for a NaN. -/
def extremum (greater fi fo : Bool) (a b : W32) : W32 :=
  let a := flushed 0 fi a.toNat
  let b := flushed 0 fi b.toNat
  if isNan a || isNan b then 0x7FC00000
  else BitVec.ofNat 32 (flushed 0 fo (if (rank a < rank b) = (greater = true) then b else a))

/-- A value that a special function returns exactly (Table 9.5, R172): its special values, 2^x at whole numbers, and the logarithm of a
power of 2. -/
def specialExact (op : Nat) (x y : Value) : Prop :=
  match op, x with
  | 0x73, .inf n => y = if n then .fin false 0 1 else .inf false
  | 0x73, .fin n a d => ∃ k, a = k * d ∧ y = if n then .fin false 1 (2 ^ k) else .fin false (2 ^ k) 1
  | 0x74, .inf n => y = if n then .nan else .inf false
  | 0x74, .fin n a d => (a = 0 ∧ y = .inf true) ∨ (a ≠ 0 ∧ n = true ∧ y = .nan) ∨
      (n = false ∧ ∃ k, (a = 2 ^ k * d ∧ y = .fin false k 1) ∨ (0 < k ∧ a * 2 ^ k = d ∧ y = .fin true k 1))
  | 0x78, .inf n => y = .fin n 1 1
  | 0x78, .fin n a _ => a = 0 ∧ y = .fin n 0 1
  | 0x79, .inf n => y = if n then .fin false 0 1 else .fin false 1 1
  | 0x79, .fin _ a _ => a = 0 ∧ y = .fin false 1 2
  | _, .nan => y = .nan
  | _, _ => False

/-- The value and the root of it that a reciprocal or square root rounds (Table 9.5): 0x75 1/x, 0x76 1/√x, 0x77 √x. -/
def rootOf (op : Nat) : Value → Value × Nat
  | .nan => (.nan, 1)
  | .inf n => (if op = 0x75 then .fin n 0 1 else if n then .nan else if op = 0x76 then .fin false 0 1 else .inf false, 1)
  | .fin n a d =>
    if a = 0 then (if op = 0x77 then .fin n 0 1 else .inf n, 1)
    else if op = 0x75 then (.fin n d a, 1)
    else if n then (.nan, 1)
    else if op = 0x76 then (.fin false d a, 2)
    else (.fin false a d, 2)

/-- The bits of a lane of format `code` from a pattern of it (R169). -/
def laneOf (code r : Nat) : W32 :=
  match intShape code with
  | some (w, true) => BitVec.ofInt 32 (if 2 ^ (w - 1) ≤ r then (r : Int) - 2 ^ w else r)
  | _ => BitVec.ofNat 32 r

/-- The key of a pattern of `w` bits (R171). -/
def keyOf (code w x : Nat) : Nat :=
  match valueOf code false x with
  | .nan => 0
  | .fin _ 0 _ => 2 ^ (w - 1)
  | _ => if x < 2 ^ (w - 1) then x + 2 ^ (w - 1) else 2 ^ w - 1 - x

/-- The pattern of a key (R171). -/
def ofKey (code w k : Nat) : Nat :=
  let x := if k < 2 ^ (w - 1) then 2 ^ w - 1 - k else k - 2 ^ (w - 1)
  if valueOf code false x = .nan then (if code = 0 then 0x7FC00000 else if code = 1 then 0x7FC0 else 0x7E00) else x

/-- The value `r` of a lane of an elementwise instruction whose sources hold `a`, `b` and `c` (R164, R165, R170 to R172), beside what
`laneRule` writes out. -/
def LaneHolds (i : Instr) (k : XIn) (a b c r : W32) : Prop :=
  let v (x : Slot) (a : W32) := valueOf 0 (fiOf x k 0) a.toNat
  let out (x : Slot) (root : Nat) (y : Value) : Prop := RoundsTo x.rnd.toNat x.sat (foOf x k 0) root y r
  let op (x : Slot) (o : Arith) : Prop := x.type = 0 → out x 1 (exactly x.rnd.toNat o (v x a) (v x b) (v x c))
  let signed (x : Slot) (f : Nat → Nat) : Prop := x.type = 0 →
    let p := flushed 0 (fiOf x k 0) a.toNat
    r = if isNan p then 0x7FC00000 else BitVec.ofNat 32 (flushed 0 (foOf x k 0) (f p))
  let most (x : Slot) (g : Bool) := extremum g (fiOf x k 0) (foOf x k 0)
  let root (x : Slot) (o : Nat) : Prop := out x (rootOf o (v x a)).2 (rootOf o (v x a)).1
  let exact (x : Slot) (o : Nat) : Prop := ∀ y, specialExact o (v x a) y → out x 1 y
  match i with
  | .vadd x => op x .add
  | .vsub x => op x .sub
  | .vmul x => op x .mul
  | .vfma x => op x .fma
  | .vfms x => op x .fms
  | .vmin x => x.type = 0 → r = most x false a b
  | .vmax x => x.type = 0 → r = most x true a b
  | .vclamp x => x.type = 0 → r = most x false (most x true a b) c
  | .vabs x => signed x (· % 2 ^ 31)
  | .vneg x => signed x fun p => (p + 2 ^ 31) % 2 ^ 32
  | .vcvt x =>
    let src := x.imm.toNat % 32
    let dst := x.type.toNat
    (src < 12 ∨ src = 13 ∨ src = 15) → (dst < 12 ∨ dst = 13) →
      ∃ q, Converts dst x.rnd.toNat x.sat 1 (valueOf src (fiOf x k src) (a.toNat % 2 ^ widthOf src)) q ∧
        r = laneOf dst (flushed dst (foOf x k dst) q)
  | .vflip x => x.type.toNat < 3 →
    r = BitVec.ofNat 32 (keyOf x.type.toNat (widthOf x.type.toNat) (a.toNat % 2 ^ widthOf x.type.toNat))
  | .vunflip x => x.type.toNat < 3 →
    r = BitVec.ofNat 32 (ofKey x.type.toNat (widthOf x.type.toNat) (a.toNat % 2 ^ widthOf x.type.toNat))
  | .vrcp x => root x 0x75
  | .vrsq x => root x 0x76
  | .vsqrt x => root x 0x77
  | .vexp2 x => exact x 0x73
  | .vlog2 x => exact x 0x74
  | .vtanh x => exact x 0x78
  | .vsig x => exact x 0x79
  | _ => True

/-- The exact sum of f32 lanes (R174), `fi` flushing them: a zero sum is −0 where every lane is −0, and in mode RD where not every lane
is +0. -/
def sumOf (mode : Nat) (fi : Bool) (l : List W32) : Value :=
  let vs := l.map fun a => valueOf 0 fi a.toNat
  let z : Int := (vs.map fun v => match v with
    | .fin n a _ => if n then -(a : Int) else a
    | _ => (0 : Int)).foldl (· + ·) 0
  let zero (n : Bool) : Bool := vs.all fun v => match v with
    | .fin m 0 _ => m = n
    | _ => false
  if .nan ∈ vs ∨ (.inf true ∈ vs ∧ .inf false ∈ vs) then .nan
  else if .inf true ∈ vs then .inf true
  else if .inf false ∈ vs then .inf false
  else .fin (z < 0 || (z = 0 && l ≠ [] && (zero true || (mode = 3 && !zero false)))) z.natAbs (2 ^ 149)

/-- The combination of lanes by an op code (R174). -/
def Combines (op : Nat) (isF : Bool) (m : FMode) (l : List W32) (r : W32) : Prop :=
  let fl := l.map fun a => flushed 0 m.fi a.toNat
  match op, isF with
  | 0, true => RoundsTo m.mode m.sat m.fo 1 (sumOf m.mode m.fi l) r
  | 0, false => r = lane32 m.sat ((l.map (·.toInt)).foldl (· + ·) 0)
  | 1, true => if l = [] then r = 0xFF800000 else if fl.any isNan then r = 0x7FC00000
      else ∃ b ∈ fl, (∀ c ∈ fl, rank c ≤ rank b) ∧ r = BitVec.ofNat 32 (flushed 0 m.fo b)
  | 1, false => if l = [] then r = 0x80000000 else r ∈ l ∧ ∀ c ∈ l, c.toInt ≤ r.toInt
  | 2, true => if l = [] then r = 0x7F800000 else if fl.any isNan then r = 0x7FC00000
      else ∃ b ∈ fl, (∀ c ∈ fl, rank b ≤ rank c) ∧ r = BitVec.ofNat 32 (flushed 0 m.fo b)
  | 2, false => if l = [] then r = 0x7FFFFFFF else r ∈ l ∧ ∀ c ∈ l, r.toInt ≤ c.toInt
  | 3, _ => ∀ i < 32, (r.getLsbD i = true ↔ ∀ a ∈ l, a.getLsbD i = true)
  | _, _ => ∀ i < 32, (r.getLsbD i = true ↔ ∃ a ∈ l, a.getLsbD i = true)

/-- Ten rounds of Philox on natural numbers (R221). -/
def philoxWords : Nat → Nat × Nat × Nat × Nat → Nat → Nat → List Nat
  | 0, (c0, c1, c2, c3), _, _ => [c0, c1, c2, c3]
  | n + 1, (c0, c1, c2, c3), k0, k1 =>
    let p0 := 0xD2511F53 * c0
    let p1 := 0xCD9E8D57 * c2
    philoxWords n (p1 / 2 ^ 32 ^^^ c1 ^^^ k0, p1 % 2 ^ 32, p0 / 2 ^ 32 ^^^ c3 ^^^ k1, p0 % 2 ^ 32)
      ((k0 + 0x9E3779B9) % 2 ^ 32) ((k1 + 0xBB67AE85) % 2 ^ 32)

/-- Does an entry of a top-k list (its value, its index, whether it is a candidate) stand before another (R181)? -/
def entryBefore (isF : Bool) (a b : W32 × Int × Bool) : Prop :=
  let worse (x y : W32) : Prop := if isF then (valueOf 0 false x.toNat).below (valueOf 0 false y.toNat) else x.toInt < y.toInt
  worse b.1 a.1 ∨ (¬worse a.1 b.1 ∧ (a.2.1 < b.2.1 ∨ (a.2.1 = b.2.1 ∧ a.2.2 = false ∧ b.2.2 = true)))

/-- The entries that a merge orders (R181): those of the list and the candidates of row `row`, without NaN. -/
def topEntries (isF : Bool) (row : Nat) (a : Lanes) (act : List Bool) (base : W32) (list : Option Lanes) : List (W32 × Int × Bool) :=
  ((match list with
    | none => []
    | some l => (List.range (min (max (nth l 128 0).toInt 0) 64).toNat).map fun i => (nth l i 0, (nth l (64 + i) 0).toInt, false)) ++
   ((List.range 64).filter fun c => nth act (64 * row + c) false).map fun c =>
     (nth a (64 * row + c) 0, (BitVec.ofInt 32 (base.toInt + (64 * row + c : Nat))).toInt, true)).filter
    fun e => !(isF && isNan e.1.toNat)

/-- The list of R180 in a register: entries, count and `k`. -/
def listLane (es : List (W32 × Int × Bool)) (k l : Nat) : W32 :=
  if l < 64 then (if l < es.length then (nth es l (0, 0, false)).1 else 0)
  else if l < 128 then (if l - 64 < es.length then BitVec.ofInt 32 (nth es (l - 64) (0, 0, false)).2.1 else 0)
  else if l = 128 then BitVec.ofNat 32 es.length else if l = 129 then BitVec.ofNat 32 k else 0

/-- The result of VSAMPLE (R224): index, place, number kept, status; `len` entries of a list, the constant `c`, p, and a random word. -/
def Samples (list : Lanes) (c p : Nat) (rnd : Nat) (r : W32 × Nat × Nat × Nat) : Prop :=
  let len := (min (max (nth list 128 0).toInt 0) 64).toNat
  let v (i : Nat) := valueOf 0 false (nth list i 0).toNat
  let f (b : W32) := valueOf 0 false b.toNat
  let cv := valueOf 0 false c
  let pv := valueOf 0 false p
  let zero := Value.fin false 0 1
  let near (x : Value) (b : W32) : Prop := RoundsTo 0 false false 1 x b
  if len = 0 then r = (BitVec.ofInt 32 (-1), 0, 0, 1)
  else if cv = .nan then r = (nth list 64 0, 0, 1, 2)
  else (cv.below zero → r = (nth list 64 0, 0, 1, 2)) ∧ (cv = .inf false → r = (nth list 64 0, 0, 1, 0)) ∧
    (¬cv.below zero → cv ≠ .inf false → ∃ (w sum t e : Nat → W32) (top draw : W32) (n i : Nat),
      sum 0 = 0x3F800000 ∧
      (∀ j, 0 < j → j < len → near ((v j).add 0 (v 0).neg) (t j) ∧
        (if f (t j) = .nan then w j = 0
         else
           let t0 := ¬(f (t j)).below zero
           ((t0 ∨ ¬zero.below cv) → e j = 0) ∧ (¬t0 → zero.below cv → near ((f (t j)).mul cv) (e j)) ∧
           w j = special 0x73 0 false false false (e j)) ∧
        near ((f (sum (j - 1))).add 0 (f (w j))) (sum j)) ∧
      (if pv = .nan then top = sum (len - 1) else near (pv.mul (f (sum (len - 1)))) top) ∧
      1 ≤ n ∧ n ≤ len ∧ (∀ k, 0 < k → k < n → (f (sum (k - 1))).below (f top)) ∧ (n < len → ¬(f (sum (n - 1))).below (f top)) ∧
      near ((Value.fin false (rnd / 2 ^ 8) (2 ^ 24)).mul (f (sum (n - 1)))) draw ∧
      i < n ∧ (∀ k < i, ¬(f draw).below (f (sum k))) ∧ (i + 1 < n → (f draw).below (f (sum i))) ∧
      r = (nth list (64 + i) 0, i, n, 0))

/-- The result of VNRM (R109) on the lanes `l` that take part and a partial result: the sum of squares and the greatest magnitude. -/
def Norms (last : Bool) (l : List W32) (s0 m0 : W32) (r : W32 × W32) : Prop :=
  let f (b : W32) := valueOf 0 false b.toNat
  let zero := Value.fin false 0 1
  let num (b : W32) : Nat := match f b with
    | .fin _ a _ => a
    | _ => 0
  let sum := num s0 * 2 ^ 149 + (l.map fun a => num a * num a).foldl (· + ·) 0
  let most := m0 :: l.map fun a => BitVec.ofNat 32 (a.toNat % 2 ^ 31)
  if (s0 :: m0 :: l).any (fun b => b.toNat / 2 ^ 23 % 2 ^ 8 = 255) || (f s0).below zero || (f m0).below zero then r = (0x7F800000, 0x7F800000)
  else r.2 ∈ most ∧ (∀ b ∈ most, ¬(f r.2).below (f b)) ∧
    ∃ q, (sum = 0 → q.toNat % 2 ^ 31 = 0) ∧ (sum ≠ 0 → RoundsTo 2 false false 1 (.fin false sum (2 ^ 298)) q) ∧
      if last then RoundsTo 2 false false 2 (f q) r.1 else r.1 = q

/-! ## Matrix commands -/

/-- The value of a number that the model holds as `±m·2^e`. -/
def value : Machine.Num → Value
  | .nan => .nan
  | .inf n => .inf n
  | .fin n m e => .fin n (m * 2 ^ e.toNat) (2 ^ (-e).toNat)

/-- Are two values the same, whatever fraction they are written as? -/
def Value.same : Value → Value → Prop
  | .nan, .nan => True
  | .inf m, .inf n => m = n
  | .fin m a d, .fin n b e => m = n ∧ a * e = b * d
  | _, _ => False

/-- The products of a K-block (R62, R188): those of the operands `b` of B, each at its place, with A's, a zero for a lane of A that gives
none, and zeros for the places that are left of 32. -/
def blockProducts (a : List (Option Machine.Num)) (b : List (Nat × Machine.Num)) : List Value :=
  (b.map fun e => match nth a e.1 (some .zero) with
    | some x => (value x).mul (value e.2)
    | none => .fin false 0 1) ++ List.replicate (32 - b.length) (.fin false 0 1)

/-- A block sum and the accumulator after it (R62): `r` from `acc` and the products `ps`, where `sfo` flushes. An infinite or NaN
accumulator has no part in the choice of `E` (log 56). -/
def BlockStep (sfo : Bool) (acc : W32) (ps : List Value) (r : W32) : Prop :=
  let av := valueOf 0 false acc.toNat
  let under (E : Int) (v : Value) : Prop := match v with
    | .fin _ a d => a * 2 ^ (-E - 1).toNat < d * 2 ^ (E + 1).toNat
    | _ => True
  let most (E : Int) (v : Value) : Prop := match v with
    | .fin _ a d => a ≠ 0 ∧ d * 2 ^ E.toNat ≤ a * 2 ^ (-E).toNat
    | _ => False
  let part (E : Int) (v : Value) : Int := match v with
    | .fin n a d => let k : Int := (a * 2 ^ (40 - E).toNat / (d * 2 ^ (E - 40).toNat) : Nat); if n then -k else k
    | _ => 0
  let zeros : Prop := ∀ v ∈ av :: ps, ∀ n a d, v = .fin n a d → a = 0
  let minus : Prop := ∀ v ∈ ps, ∃ d, v = .fin true 0 d
  ∃ blk : W32,
    (.nan ∈ ps ∨ (.inf true ∈ ps ∧ .inf false ∈ ps) → blk = 0x7FC00000) ∧
    (.nan ∉ ps → ∀ n, .inf n ∈ ps → .inf (!n) ∉ ps → blk = if n then 0xFF800000 else 0x7F800000) ∧
    (.nan ∉ ps → (∀ n, .inf n ∉ ps) →
      (zeros → (minus → blk = 0x80000000) ∧ (¬minus → blk = 0)) ∧
      (¬zeros → ∃ E : Int, (∀ v ∈ av :: ps, under E v) ∧ (∃ v ∈ av :: ps, most E v) ∧
        let z := (ps.map (part E)).foldl (· + ·) 0
        (z = 0 → minus → blk = 0x80000000) ∧ (z = 0 → ¬minus → blk = 0) ∧
        (z ≠ 0 → RoundsTo 0 false sfo 1 (.fin (z < 0) (z.natAbs * 2 ^ (E - 40).toNat) (2 ^ (40 - E).toNat)) blk))) ∧
    RoundsTo 0 false sfo 1 (av.add 0 (valueOf 0 false blk.toNat)) r

/-- The three residue fields of an element, by field and modulus (Table 3.6). -/
def residuesOf (v : W32) : List (Nat × Nat) :=
  [(v.toNat % 2 ^ 10, 1024), (v.toNat / 2 ^ 10 % 2 ^ 10, 1023), (v.toNat / 2 ^ 20 % 2 ^ 11, 1025)]

/-- The integer of a value. -/
def Value.int : Value → Int
  | .fin n a d => if n then -(a / d : Nat) else (a / d : Nat)
  | _ => 0

/-- An accumulator element after a K-block (R62, R64, R65): `r` from `old`, where `seen` says that the command has taken a block before. -/
def Taken (f : MCmd) (flm : Nat) (old : W32) (seen : Bool) (ps : List Value) (r : W32) : Prop :=
  if f.accm = 2 then
    let sum := (ps.map Value.int).foldl (· + ·) 0
    (∀ e ∈ (residuesOf old).zip (residuesOf r), (e.2.1 : Int) = ((e.1.1 : Int) + sum) % (e.1.2 : Int)) ∧ r.toNat < 2 ^ 31
  else BlockStep (flm.testBit 1) (if f.accm = 0 ∧ seen = false then 0 else old) ps r

/-- The drained value of residues (R65): the number with those residues between −M/2 and M/2, as s32 or f32. -/
def Drained (dfmt : Bool) (v r : W32) : Prop :=
  ∃ x : Int, (∀ e ∈ residuesOf v, x % (e.2 : Int) = (e.1 : Int) % (e.2 : Int)) ∧ -536870400 ≤ x ∧ x ≤ 536870399 ∧
    if dfmt then RoundsTo 0 false false 1 (.fin (x < 0) x.natAbs 1) r else r = BitVec.ofInt 32 x

/-- Where pass `p` of a loop nest stands in a dimension (R185): level 0 is innermost, each level adds its advance once for each of its
iterations done. -/
def passPos (f : MCmd) (p : Nat) (base : Nat) (adv : Level → Int) : Int :=
  (f.lv.zipIdx.map fun l =>
    ((p / ((f.lv.take l.2).map (·.count)).foldl (· * ·) 1 % l.1.count : Nat) : Int) * adv l.1).foldl (· + ·) base

/-- Pass `p` of a loop nest. -/
def passOf (f : MCmd) (p : Nat) : Pass :=
  { am := passPos f p f.am0 (·.am), ak := passPos f p f.ak0 (·.ak), bn := passPos f p f.bn0 (·.bn), bk := passPos f p f.bk0 (·.bk)
    cm := passPos f p f.cm0 (·.cm), cn := passPos f p f.cn0 (·.cn) }

/-- Does pass `p` reach element `i` of the tile? -/
def reaches (f : MCmd) (p i : Nat) : Bool :=
  let q := passOf f p
  decide (q.cm ≤ (i / 64 : Nat) ∧ ((i / 64 : Nat) : Int) < q.cm + f.m ∧ q.cn ≤ (i % 64 : Nat) ∧ ((i % 64 : Nat) : Int) < q.cn + f.n)

/-- The row of the window that element `i` of the tile has in pass `p`, and its column. -/
def windowAt (f : MCmd) (p i : Nat) : Nat × Nat :=
  ((((i / 64 : Nat) : Int) - (passOf f p).cm).toNat, (((i % 64 : Nat) : Int) - (passOf f p).cn).toNat)

/-- The operands of B that element `i` takes in K-block `kb` of pass `p`, from the image in a weight buffer. -/
def columnOf (f : MCmd) (flm : Nat) (wb : Memory) (h : Header) (p kb i : Nat) : List (Nat × Machine.Num) :=
  bBlock wb (64 * f.boff) h flm ((passOf f p).bn.toNat + (windowAt f p i).2) ((passOf f p).bk.toNat + kb)

/-- An element after the K-blocks that a command takes for it, in their order (R62, R185); `fresh` says that it holds a drained value and no
residues (log 65). -/
def accumulated (f : MCmd) (flm : Nat) (fresh : Bool) (blocks : List (List (Option Machine.Num) × List (Nat × Machine.Num))) (e : W32 × Bool) :
    W32 × Bool :=
  blocks.foldl (fun e b => (takeBlock f flm (if f.accm = 2 && !e.2 && fresh then 0 else e.1) e.2 (products b.1 b.2), true)) e

/-- The K-blocks that element `i` takes in a whole nest, `rows` giving the rows of A. -/
def nestBlocks (f : MCmd) (flm : Nat) (wb : Memory) (h : Header) (rows : Nat → Nat → Nat → List Machine.Num) (i : Nat) :
    List (List (Option Machine.Num) × List (Nat × Machine.Num)) :=
  ((List.range ((f.lv.map (·.count)).foldl (· * ·) 1)).filter fun p => reaches f p i).flatMap fun p =>
    (List.range f.kb).map fun kb => ((rows p kb (windowAt f p i).1).map some, columnOf f flm wb h p kb i)

/-! ## The effects of commands -/

/-- The bits of the element at a substituted index, in order, each as the place of its byte and its number there (R52). -/
def elementBits (s : State) (c n : Nat) (l : Layout) (i : List Nat) (acc : Nat) : List (Place × Nat) :=
  match elemCells s c n l i acc true with
  | .ok ps => (List.range (widthOf l.fmt)).map fun b =>
    let k := (elemOff l i * (widthOf l.fmt : Int) % 8).toNat + b
    (nth (ps.map (·.1)) (k / 8) (.mem 0), k % 8)
  | .error _ => []

/-- A bit of a byte as it stands. -/
def bitAt (s : State) (p : Place × Nat) : Bool := (valueOfBytes (bytesAt s p.1 1)).testBit p.2

/-- A bit of a byte, by the number of its byte. -/
def keyed (s : State) (p : Place × Nat) : Nat × Nat := (placeKey s p.1, p.2)

/-- The number of bits, the lowest first. -/
def patternOf (bs : List Bool) : Nat := (bs.zipIdx.map fun b => if b.1 then 2 ^ b.2 else 0).foldl (· + ·) 0

/-- Is a format's input (`o = 0`) or output (`o = 1`) flushed by a value of FLM (R60, R61)? A kl4 codebook holds bf16. -/
def flushes (code flm o : Nat) : Bool :=
  (decide (code = 0) && flm.testBit o) || (decide (code ∈ [1, 2, 12]) && flm.testBit (2 + o)) ||
    (decide (code ∈ [3, 4, 5, 6]) && flm.testBit (4 + o))

/-- The window position of a copy's destination for that of its source: XP exchanges dimensions 0 and 1 (R135). -/
def copyInto (m : Cmd) (w : List Nat) : List Nat :=
  let o := originOf (cmdW m 4) (cmdW m 5)
  if (nth m.words 0 0).getLsbD 48 then
    addIdx o (match w with
      | x :: y :: r => y :: x :: r
      | w => w)
  else addIdx o w

/-- The bits that a copy writes for a position of its source window: none where it is dropped. -/
def copyTarget (s : State) (c : Nat) (m : Cmd) (w : List Nat) : List (Place × Nat) :=
  let l := layoutOf m.lrec2
  if posAt l m.snap2 (copyInto m w) = .inside then elementBits s c m.slot l (substIdx l m.snap2 (copyInto m w)) 1 else []

/-- The index of the source element that a copy reads for a position of its window, by Table 7.4. -/
def copyFrom (m : Cmd) (w : List Nat) : Option (List Nat) :=
  (readIdx (layoutOf m.lrec) m.snap (addIdx (originOf (cmdW m 2) (cmdW m 3)) w)).map (substIdx (layoutOf m.lrec) m.snap)

/-- The pattern and the value that a copy takes for a position of its source window (R54, R55, R135, Table 7.4). -/
def copied (s : State) (c : Nat) (m : Cmd) (w : List Nat) : Nat × Value :=
  let l := layoutOf m.lrec
  let v (p : Nat) : Value := valueOf l.fmt (flushes l.fmt m.flm.toNat 0) p
  match copyFrom m w with
  | none =>
    let p := if l.fpol = 1 then (if widthOf l.fmt = 32 then l.fill * 2 ^ 16 else l.fill % 2 ^ widthOf l.fmt) else if l.fmt = 15 then 0x7F else 0
    (p, v p)
  | some j =>
    let p := patternOf ((elementBits s c m.slot l j 0).map (bitAt s))
    (p, match scalePlace s c m.slot l j true with
      | .ok (some (x, k)) =>
        if l.fmt = 12 then valueOf 1 (flushes 12 m.flm.toNat 0) (valueOfBytes (((bytesAt s x k).drop (2 * p)).take 2))
        else (v p).mul (valueOf l.sfmt false (valueOfBytes (bytesAt s x k)))
      | _ => v p)

/-- The bytes that a copy reads for a position of its source window, scales with them, by their numbers. -/
def copySource (s : State) (c : Nat) (m : Cmd) (w : List Nat) : List Nat :=
  let l := layoutOf m.lrec
  let scale (j : List Nat) : List Nat := match scalePlace s c m.slot l j true with
    | .ok (some (x, k)) => (List.range k).map (placeKey s x + ·)
    | _ => []
  match copyFrom m w with
  | none => ((fillBook l m.snap (addIdx (originOf (cmdW m 2) (cmdW m 3)) w)).map scale).getD []
  | some j => (elementBits s c m.slot l j 0).map (fun p => placeKey s p.1) ++ scale j

/-- The header of an image of `rows` rows (R91, Table 5.2): its pitches and sections in units of 64 bytes. -/
def headerFor (l : Layout) (nm rows : Nat) : Header :=
  let w := nth l.w 0 0
  let up (x : Nat) := (x + 511) / 512
  let rlen := if nm = 0 then w else if nm = 1 then w * 4 / 2 else if nm = 2 then w * 4 else w * 8 / 2
  let sp := if l.sbase = 0 then 0
    else up ((rlen + 2 ^ l.sbg0 - 1) / 2 ^ l.sbg0 * if l.fmt = 12 then 256 else widthOf l.sfmt)
  { rlen := rlen, rows := rows, nm := nm, fmt := l.fmt
    sbg0 := if l.sbase = 0 then 0 else l.sbg0, sfmt := if l.sbase = 0 then 0 else l.sfmt
    rpitch := up (w * widthOf l.fmt), spitch := sp, ipitch := if nm = 0 then 0 else up (2 * w)
    soff := if l.sbase = 0 then 0 else 1 + rows * up (w * widthOf l.fmt)
    ioff := if nm = 0 then 0 else 1 + rows * up (w * widthOf l.fmt) + rows * sp }

/-- The units that an image takes. -/
def imageUnits (h : Header) : Nat := 1 + h.rows * (h.rpitch + h.spitch + h.ipitch)

/-- The scales of a row, and the bytes of one (R91). -/
def scalesOf (l : Layout) (h : Header) : Nat × Nat :=
  if l.sbase = 0 then (0, 0) else ((h.rlen + 2 ^ l.sbg0 - 1) / 2 ^ l.sbg0, if l.fmt = 12 then 32 else widthOf l.sfmt / 8)

/-- A byte of a weight buffer. -/
def bufByte (wb : Memory) (a : Nat) : Nat := valueOfBytes (memRead wb a 1)

/-- Image row `i` holds table row `r` as memory has it (R88, R91, R93): its elements in order from element 0, packed, its scales, and its
two-bit indices from the index table at `ibase`. -/
def RowOfTable (s : State) (c n : Nat) (l : Layout) (ibase r : Nat) (wb : Memory) (base : Nat) (h : Header) (i : Nat) : Prop :=
  let byte (a : Nat) : Nat := match placeOf s c n a 1 0 true with
    | .ok p => valueOfBytes (bytesAt s p 1)
    | .error _ => 0
  let sc := scalesOf l h
  (∀ j < nth l.w 0 0, ∀ b < widthOf l.fmt,
    let k := j * widthOf l.fmt + b
    (bufByte wb (base + 64 * (1 + i * h.rpitch) + k / 8)).testBit (k % 8) =
      bitAt s (nth (elementBits s c n l [j, r, 0, 0, 0] 0) b (.mem 0, 0))) ∧
  (∀ q < sc.1, ∀ x < sc.2, ∃ a, scaleAddr l [q * 2 ^ l.sbg0, r, 0, 0, 0] = .ok (some (a, sc.2)) ∧
    bufByte wb (base + 64 * (h.soff + i * h.spitch) + q * sc.2 + x) = byte (a + x)) ∧
  (h.nm ≠ 0 → ∀ j < nth l.w 0 0, ∀ b < 2,
    let k := j * 2 + b
    (bufByte wb (base + 64 * (h.ioff + i * h.ipitch) + k / 8)).testBit (k % 8) =
      (byte (ibase + r * (64 * ((nth l.e 0 0 + 255) / 256)) + k / 8)).testBit (k % 8))

/-- Image row `i` holds a promoted row's bytes (R98): its data, then its scales, then its indices. -/
def RowOfSlot (l : Layout) (bs : List Byte) (wb : Memory) (base : Nat) (h : Header) (i : Nat) : Prop :=
  let d := (nth l.w 0 0 * widthOf l.fmt + 7) / 8
  let k := (scalesOf l h).1 * (scalesOf l h).2
  let has (a o len : Nat) : Prop := ∀ x < len, o + x < bs.length → bufByte wb (a + x) = (nth bs (o + x) 0).toNat
  has (base + 64 * (1 + i * h.rpitch)) 0 d ∧ has (base + 64 * (h.soff + i * h.spitch)) d k ∧
    (h.nm ≠ 0 → has (base + 64 * (h.ioff + i * h.ipitch)) (d + k) ((2 * nth l.w 0 0 + 7) / 8))

/-- The weight buffers after a command that writes an image with the header `h` at byte `base` (R90, R91): `row e wb` says of the rows in a
buffer what they hold; only the buffers that BUF selects change, and of those only the image. -/
def ImageIn (s t : State) (c buf base : Nat) (h : Header) (row : Memory → Prop) : Prop :=
  let word (wb : Memory) (k : Nat) : Nat := valueOfBytes (memRead wb (base + 8 * k) 8)
  let holds (e : Nat) (wb wb' : Memory) : Prop :=
    if (buf = 0 ∨ buf = e + 1) ∧ (tabGet 7 s.units c).testBit (1 + e) = true then
      row wb' ∧
      (word wb' 0 = h.rlen * 2 ^ 32 + h.rows * 2 ^ 16 + h.sbg0 * 2 ^ 12 + h.nm * 2 ^ 10 + h.sfmt * 2 ^ 5 + h.fmt ∧
       word wb' 1 = h.ipitch * 2 ^ 44 + h.ioff * 2 ^ 33 + h.spitch * 2 ^ 22 + h.soff * 2 ^ 11 + h.rpitch ∧ ∀ k, 2 ≤ k → k < 8 → word wb' k = 0) ∧
      ∀ a, a < base ∨ base + 64 * imageUnits h ≤ a → bufByte wb' a = bufByte wb a
    else wb' = wb
  holds 0 (getCore s c).wb0 (getCore t c).wb0 ∧ holds 1 (getCore s c).wb1 (getCore t c).wb1

/-- The score `sc` and the bound `g` of a row (R107), from N, XI, the inputs and the coefficients, the e8 scale, ε and λ. -/
def Scores (gf : Bool) (n xi : Nat) (h u : List Value) (scale eps lam : Nat) (sc g : W32) : Prop :=
  let f (b : Nat) := valueOf 0 false b
  let up := RoundsTo 2 false false 1
  let zero := Value.fin false 0 1
  ∃ (acc : Nat → W32) (a b k : W32),
    acc 0 = 0 ∧ (∀ i < u.length, RoundsTo 0 false false 1 ((f (acc i).toNat).add 0 ((nth u i zero).mul (nth h i zero))) (acc (i + 1))) ∧
    RoundsTo 0 false false 1 ((f (acc u.length).toNat).mul (valueOf 15 false scale)) sc ∧
    up ((f eps).mul (f n)) a ∧ up ((Value.fin false 1 (2 ^ 12)).mul (f (sc.toNat % 2 ^ 31))) b ∧
    (if gf then up (((f lam).mul (f xi)).mul (.fin false 1 (2 ^ 23))) k else k = 0) ∧
    up (((f a.toNat).add 2 (f b.toNat)).add 2 (f k.toNat)) g

/-- The class of a scored row (R107): 0 is P, 1 is Q, 2 neither. Every comparison is exact. -/
def ClassOf (sc g : W32) (theta beta tau heat : Nat) (cls : Nat) : Prop :=
  let f (b : Nat) := valueOf 0 false b
  let t := (f sc.toNat).add 0 ((f beta).mul (.fin false heat 1))
  let sg := (f sc.toNat).add 0 (f g.toNat)
  let p : Prop := t ≠ .nan ∧ f theta ≠ .nan ∧ ¬t.below (f theta)
  let q : Prop := f sc.toNat = .nan ∨ f g.toNat = .nan ∨ sg = .nan ∨ (f tau).below sg
  (p → cls = 0) ∧ (¬p → q → cls = 1) ∧ (¬p → ¬q → cls = 2)

/-- A row list of a task at a local address (R88): its count, then its rows. -/
def ListAt (s : State) (c n a : Nat) (rows : List Nat) : Prop :=
  spm32 s c n a = rows.length ∧ ∀ k < rows.length, spm32 s c n (a + 4 + 4 * k) = nth rows k 0

/-! ## Events -/

/-- The detail word of a hold timeout (Table 16.6): LIMIT, the number of what is waited for, and the kind of the wait. -/
def holdWord (limit num kind : Nat) : Nat := limit * 2 ^ 32 + num % 16 * 16 + kind

/-- LIMIT of HOLDTO as the cycle samples it: values below 0x400 act as 0x400 (Table 16.5). -/
def limitOf (r : SysRegs) : Nat := if r.holdto.toNat % 2 ^ 32 < 0x400 then 0x400 else r.holdto.toNat % 2 ^ 32

/-- The kinds of Table 16.6. -/
def waitNo : HoldKind → Option Nat
  | .token => some 0 | .push => some 1 | .queueFull => some 2 | .inEmpty => some 3 | .outFull => some 4
  | .lock => some 5 | .peg => some 6 | .waitm => some 7 | .nodeDrain => some 8
  | _ => none

/-- The fault of an engine's command (Table 16.1): SEQ 4, the engine by its queue, and the command. -/
def commandFault (q : Queue) (m : Cmd) (cause detail prog cycle : Nat) : PFault :=
  { cause := cause, detail := nat64 detail, seq := 4, eng := queueNo q, idx := m.idx, prog := prog, op := cmdOp m, cycle := cycle }

/-- The event of a command that an engine runs whole: its core, its queue, its OP and its effect (R39, R96, R101, R107,
R113). -/
def commandEvent : Instr → Option (Nat × Queue × Nat × (State → Cmd → M (State × Option EngFault × Running)))
  | .weightGather c => some (c, .weight, 0x20, gatherBody c)
  | .weightTile c => some (c, .weight, 0x21, tileBody c)
  | .darnGather c => some (c, .weight, 0x22, gatherBody c)
  | .prefetch c => some (c, .weight, 0x23, prefetchBody c)
  | .predictScore c => some (c, .pred, 0x30, predictBody c)
  | _ => none

/-- The gap that a queue's next command keeps (R320, R325). -/
def gapOf (level : Nat) (q : Queue) (gap : Nat) : Nat :=
  if q = .matrix then (if level = 0 then gap else if level = 1 then max 4 gap else max 16 gap) else gap

/-- The voltage code after a window of `n` replays, where VCUR lies between VMIN and VMAX and RTGT in its range (R318): X is
`2^(28 - RTGT)`. -/
def nextVoltage (k : Column) (n : Nat) : Nat :=
  if n * 2 ^ k.rtgt > 2 * 2 ^ 28 then (if k.vcur = k.vmax then k.vcur else k.vcur + 1)
  else if 2 * (n * 2 ^ k.rtgt) < 2 ^ 28 then (if k.vcur = k.vmin then k.vcur else k.vcur - 1)
  else k.vcur

/-- The throttle level at a sample (R325): the greatest of FORCE, the level of the replay rule, the level of the hottest sample
`t`, and the level as it stands while `t` has not fallen below its entry threshold by THYST. -/
def throttle (k : Column) (t : Int) : Nat :=
  let now := if t ≥ k.tlim + 20 then 2 else if t ≥ k.tlim then 1 else 0
  let entry := if k.level = 2 then k.tlim + 20 else k.tlim
  max (max (if k.force > 2 then 2 else k.force) k.rlevel) (max now (if (entry : Int) ≤ t + k.thyst then k.level else 0))

/-! ## Encodings -/

/-- The decoder of a stream's words, as the step uses it. -/
def decoded (q : Seq) (w : Nat) : Option Instr × List Fail :=
  match q with
  | .c => decodeC w
  | .l => decodeL w
  | _ => decodeS w

/-- A slot that names only some of its fields. -/
def slot (dst a b c p type imm : Nat) : Slot :=
  { dst := BitVec.ofNat 5 dst, srcA := BitVec.ofNat 5 a, srcB := BitVec.ofNat 5 b, srcC := BitVec.ofNat 5 c, pred := BitVec.ofNat 3 p
    fi := false, fo := false, rnd := 0, sat := false, type := BitVec.ofNat 5 type, imm := BitVec.ofNat 14 imm }

/-- Words of C that the spec writes out, with what it says they are (Tables 2.15, 12.8, 13.10, 16.8, R140, R148, R262). -/
def writtenC : List (Nat × Instr) :=
  [(0x90005000, .endC), (0x00000030, .or 0 0 0), (0x7CA431A0, .atomXadd 5 4 6 1 2 0), (0x18E30000, .lui 7 0x30000), (0x31000002, .pbt 1 2),
   (0x32000005, .pbt 2 5), (0x2A95A800, .cmp 5 1 11 10), (0x75840D88, .lda 12 4 0 3 3 8), (0x2EA68004, .cmpi 5 2 13 4),
   (0x36400000, .bt 2 2), (0x01CE2931, .sel 14 14 5 1), (0x39200000, .btn 1 1), (0x88020006, .fence 2 6), (0x8C000006, .tksig 6),
   (0x8C004007, .tkwait 7), (0x79040D81, .stl 8 4 0 3 3 1), (0x90103033, .mts 16 0x033), (0x90202060, .mfs 1 0x060),
   (0x90001000, .eret), (0x6CC30000, .stw 6 3 0 0), (0x0FA0FF80, .ori 29 0 0xFF80), (0x247D040F, .ins 3 29 16 15),
   (0x71610001, .std 11 1 0 1), (0x014950A0, .minu 10 9 10) ]

/-- Words of L (Tables 2.15, 8.4, R78, R100, R134, R263). -/
def writtenL : List (Nat × Instr) :=
  [(0x2C01001000000000, .wtile ⟨0, 16⟩ 0 1 0 0 0 0), (0x3C00023000000000, .lnpeg ⟨0, 0⟩ 2 3 0), (0x3000000000AA1001, .aircfg ⟨0, 0⟩ 170 16 1),
   (0x2801051400012000, .wgath ⟨0, 16⟩ 0 5 1 4 1 0 true 0 0), (0x3400061700000000, .airq ⟨0, 0⟩ 6 1 7),
   (0x4829808900000000, .pred ⟨20, 24⟩ 0 8 9 false), (0x4C26051000012100, .darn ⟨19, 0⟩ 0 5 1 false 1 0 true 0 0x100),
   (0x200000AB00000002, .copy ⟨0, 0⟩ 0 0 10 11 true false), (0x08000C0000000100, .jli ⟨0, 0⟩ 12 0x100),
   (0x180000C000000010, .bindi ⟨0, 0⟩ 12 0 0 false true), (0x1C00000000000000, .istart ⟨0, 0⟩ 0 0),
   (0x5400030000000014, .ltk ⟨0, 0⟩ 3 true 4), (0x5800000000000000, .lend ⟨0, 0⟩)]

/-- Words of S (Tables 2.15, 11.5, 14.7). -/
def writtenS : List (Nat × Instr) :=
  [(0x2800400C, .sli ⟨0, 0⟩ 1 0xC), (0x28008031, .sli ⟨0, 0⟩ 2 0x31), (0x20019001, .saddi ⟨0, 0⟩ 6 2 1), (0x00006000, .bindo ⟨0, 0⟩ 0 6),
   (0x08000001, .drain ⟨0, 0⟩ 0 1), (0x30009C00, .rgapnd ⟨0, 0⟩ 2 3 4), (0x38009C00, .rgcmt ⟨0, 0⟩ 2 3 4), (0x0DAE0001, .drain ⟨22, 23⟩ 0 1)]

/-- Words of X (Tables 2.15, 8.4, 9.7, 10.5, 11.5, 12.8, R245, R264). -/
def writtenX : List (Nat × XWord) :=
  [(0x10000000000000000095000000000000, ⟨0, ⟨16, 0⟩, false, .nop, .mgo (slot 0 0 0 0 0 0 0)⟩),
   (0x00001204000000000000000000000000, ⟨0, ⟨0, 0⟩, false, .vmov (slot 0 16 0 0 0 0 0), .nop⟩),
   (0x00008410380000000100000000000000, ⟨0, ⟨0, 0⟩, false, .vnrm (slot 2 0 28 0 0 0 1), .nop⟩),
   (0xA09885E0400000000079184000000000, ⟨5, ⟨0, 19⟩, false, .vcheck (slot 28 1 0 0 0 0 0), .vsig (slot 3 1 0 0 0 0 0)⟩),
   (0x20000318460000000000000000000000, ⟨1, ⟨0, 0⟩, false, .vmul (slot 3 1 3 0 0 0 0), .nop⟩),
   (0x000194030000000000000000000027CF, ⟨0, ⟨0, 0⟩, true, .nop, .msetf 3 0x27CF⟩),
   (0x600012C0C00000000000000000000000, ⟨3, ⟨0, 0⟩, false, .vmov (slot 24 3 0 0 0 0 0), .nop⟩),
   (0x00006408000000001300000000000000, ⟨0, ⟨0, 0⟩, false, .pset (slot 1 0 0 0 0 0 19), .nop⟩),
   (0x2000863700020340008028F9C0000040, ⟨1, ⟨0, 0⟩, false, .vrng (slot 6 28 0 0 1 13 0), .vtopk (slot 5 3 28 28 0 0 0x40)⟩),
   (0x600087C17A600007F000000000000000, ⟨3, ⟨0, 0⟩, false, .vsample (slot 24 5 29 6 0 0 0x7F0), .nop⟩),
   (0x000000000000000000A3100000000008, ⟨0, ⟨0, 0⟩, false, .nop, .xtk (slot 2 0 0 0 0 0 8)⟩),
   (0x400073204000000000A1000000000007, ⟨2, ⟨0, 0⟩, false, .vexp2 (slot 4 1 0 0 0 0 0), .xbt (slot 0 0 0 0 0 0 7)⟩)]

end Sys2Proof.Rule
end

