-- ==== Sys2Proof/Certificates/Slice0/Obligations.lean ====
section
/-!
DEFINITION. The obligations: what the numbered rules of the spec say of this machine, stated of the model.
-/
open Sys2Proof Sys2Proof.Machine

/-! ## C: registers, flags, targets and branches -/

/-- R233 to R236, Table 13.2: an arithmetic instruction of C puts the value of its table row into its register, and nothing else; a
division by 0 raises cause 0x0F with the dividend and writes no register; a compare writes its flag with the truth of its condition. -/
def Obligations.ArithmeticOfC : Prop :=
  ((∀ (s : State) (i : Instr) (d : BitVec 5) (v : W64), Rule.aluValue s i = some (d, v) → FitC s i →
      exec i s = .next (onward .c 0 (setReg (markIssue s .c) d v))) ∧
   (∀ (s : State) (d a b : BitVec 5), reg s b = 0 →
      (FitC s (.divu d a b) → TrapsIssued .c (exec (.divu d a b) s) s 0x0F (reg s a).toNat) ∧
      (FitC s (.remu d a b) → TrapsIssued .c (exec (.remu d a b) s) s 0x0F (reg s a).toNat))) ∧
  (∀ (s : State) (i : Instr) (f : BitVec 3) (v : Bool), Rule.compareValue s i = some (f, v) → FitC s i →
     exec i s = .next (onward .c 0 (setFlag (markIssue s .c) f v)))

/-- R237: PBT and MTB set a branch target within the 32 KiB of a section, and trap where the target is none; that the detail of an MTB
whose target lies past the section names the register's field, bit 16, is the model's choice (log 17). R238, R239: a branch of C leaves a
transfer pending, to its target or past its two delay words; CALL also writes the return address to g31, or to h15 in the handler context. -/
def Obligations.BranchesOfC : Prop :=
  (∀ (s : State) (b : BitVec 2) (a : BitVec 5) (o : BitVec 21),
     (FitC s (.pbt b o) → ∀ k : Nat, (k : Int) = (ctl s .c).pc + 4 * o.toInt → k < 32768 →
       exec (.pbt b o) s = .next (onward .c 0 (setB (markIssue s .c) b k))) ∧
     (FitC s (.pbt b o) → ((ctl s .c).pc + 4 * o.toInt < 0 ∨ (ctl s .c).pc + 4 * o.toInt ≥ 32768) →
       TrapsIssued .c (exec (.pbt b o) s) s 1 6) ∧
     (FitC s (.mtb b a) → (reg s a).toNat % 4 = 0 → (reg s a).toNat < 32768 →
       exec (.mtb b a) s = .next (onward .c 0 (setB (markIssue s .c) b (reg s a).toNat))) ∧
     (FitC s (.mtb b a) → (reg s a).toNat % 4 ≠ 0 → TrapsIssued .c (exec (.mtb b a) s) s 7 (reg s a).toNat) ∧
     (FitC s (.mtb b a) → (reg s a).toNat % 4 = 0 → (reg s a).toNat ≥ 32768 →
       TrapsIssued .c (exec (.mtb b a) s) s 1 (6 + 16 * 512))) ∧
  ((∀ (s : State) (i : Instr) (taken : Bool) (tgt : Nat), Rule.branchOf s i = some (taken, tgt) → FitC s i →
     exec i s = .next (onward .c 0 (modCtl (markIssue s .c) .c fun c =>
       { c with delay := some ⟨3, if taken then tgt else c.pc + 12⟩ }))) ∧
   ∀ (s : State) (b : BitVec 2), FitC s (.call b) →
     exec (.call b) s = .next (onward .c 0 (modCtl
       (setReg (markIssue s .c) (if s.cur.handler then 15 else 31) (Rule.nat64 ((ctl s .c).pc + 12))) .c fun c =>
         { c with delay := some ⟨3, getB s b⟩ })))

/-- R238, R244: after a transfer of C or X the two words that follow issue, and then the target; after the last word of the innermost body
its counter is one less, and control goes back to the first word while it is not 0; at 0 the loop is over. R232, R241, R242, Table 13.1: a
word of C that reads the register of a multiplication or division that has issued, and no other, may not issue before its latency has
passed; so with JMUL of L, and after a taken LBR no word of L issues in the next cycle. -/
def Obligations.ControlAdvances : Prop :=
  ((∀ (s t : State) (i j : Instr) (d : BitVec 5) (n k : Nat), Rule.delayOf s i = some (d, n) → (d ≠ 0 ∨ s.cur.handler = true) →
      t.cur = s.cur → (ctx t).late = [] → nth (myCore t).issued 0 false = true → (ctl t .c).st ≠ .faulted → (myCore t).freeze = 0 →
      (ready (Nat.repeat clockCycle k (noteLate s .c i t)) .c j = false ↔ k < n ∧ d ∈ cReads j)) ∧
   (∀ (s t : State) (w : Tok) (d a b : BitVec 4) (j : Instr) (k : Nat),
      t.cur = s.cur → (me t).jlate = [] → nth (myCore t).issued 1 false = true → (ctl t .l).st ≠ .faulted → (myCore t).freeze = 0 →
      (ready (Nat.repeat clockCycle k (noteLate s .l (.jmul w d a b) t)) .l j = false ↔ k < 3 ∧ d ∈ jReads j)) ∧
   ∀ (s t : State) (w : Tok) (c : BitVec 3) (a b : BitVec 4) (o : BitVec 32) (j : Instr) (k : Nat),
      t.cur = s.cur → (me t).jlate = [] → nth (myCore t).issued 1 false = true → (ctl t .l).st ≠ .faulted → (myCore t).freeze = 0 →
      c.toNat < 6 →
      (ready (Nat.repeat clockCycle k (noteLate s .l (.lbr w c a b o) t)) .l j = false ↔
        k < 2 ∧ Rule.holds c (getJ s a) (getJ s b) = true)) ∧
  (∀ (w : Nat) (c : Ctl) (tgt : Nat), c.delay = some ⟨3, tgt⟩ →
     (advance w c).pc = c.pc + w ∧ (advance w (advance w c)).pc = c.pc + 2 * w ∧
       (advance w (advance w (advance w c))).pc = tgt ∧ (advance w (advance w (advance w c))).delay = none) ∧
  (∀ (w : Nat) (c : Ctl) (tgt : Nat) (d : Delay), c.delay = some ⟨1, tgt⟩ → c.more = some d →
     (advance w c).pc = tgt ∧ (advance w c).delay = some d ∧ (advance w c).more = none) ∧
  (∀ (w : Nat) (c : Ctl) (l : Loop) (rest : List Loop), c.loops = l :: rest → c.delay = none → l.last = c.pc →
     (∀ m ∈ rest, m.last ≠ c.pc) →
     (1 < nth c.cnt l.n 0 → (advance w c).pc = l.first ∧ (advance w c).loops = c.loops ∧
       nth (advance w c).cnt l.n 0 = nth c.cnt l.n 0 - 1) ∧
     (nth c.cnt l.n 0 = 1 → (advance w c).pc = c.pc + w ∧ (advance w c).loops = rest ∧ nth (advance w c).cnt l.n 0 = 0))

/-- R21, R17, R241: a register reads what was written last; g0 reads as zero and discards writes, h0, j0 and y0 are ordinary registers. A
word of L waits for its token before it does anything else, and a signalled token counts from the end of the cycle. -/
def Obligations.RegistersReadWhatWasWritten : Prop :=
  (∀ (s : State) (n m : BitVec 5) (v : W64),
     reg (setReg s n v) m = (if m = n ∧ ¬(n = 0 ∧ s.cur.handler = false) then v else reg s m) ∧
     (s.cur.handler = false → reg s 0 = 0)) ∧
  ((∀ (s : State) (n m : BitVec 4) (v : W64), getJ (setJ s n v) m = if m = n then v else getJ s m) ∧
   (∀ (s : State) (n m : BitVec 3) (v : W64), getY (setY s n v) m = if m = n then v else getY s m) ∧
   (∀ (s : State) (i : Instr) (t : Tok) (d : BitVec 4) (v : W64) (n : Nat), Rule.jValue s i = some (t, d, v) → FitL s i →
     tokQueue t.wait = some n → (ctl s .l).popped = false → tokAvail (me s) n = false →
     exec i s = .next (noteHold s .l .token n)) ∧
   ∀ (s : State) (q : Seq) (sig : BitVec 5) (n : Nat), tokQueue sig = some n → (me s).tset = [] →
     nth (tokEnd (me (onward q sig s))).tok n 0 = nth (tokEnd (me s)).tok n 0 + 1)

/-- R142, R143, Table 8.1: an aligned load puts the little-endian value of its bytes, sign- or zero-extended, into its register, and an
aligned store writes the low bytes of its register in little-endian order, wherever the address lies but in another core's scratchpad.
R142, R148: a load, store or atomic whose address is not a multiple of its size raises cause 0x07 with the address. -/
def Obligations.LoadsAndStoresOfC : Prop :=
  ((∀ (s t : State) (i : Instr) (d : BitVec 5) (n : Nat) (signed : Bool) (ad : W64) (p : Place),
      Rule.loadOf s i = some (d, n, signed, ad) → FitC s i → ad.toNat % n = 0 →
      resolve (markIssue s .c) ad.toNat n 0 = .ok p → Rule.reached (markIssue s .c) p n false none ad = some t →
      readError t p n = none →
      exec i s = .next (onward .c 0 (setReg t d (Rule.extended signed n (Rule.valueOfBytes (bytesAt t p n)))))) ∧
   (∀ (s t : State) (i : Instr) (v : W64) (n : Nat) (ad : W64) (p : Place),
      Rule.storeOf s i = some (v, n, ad) → FitC s i → ad.toNat % n = 0 →
      resolve (markIssue s .c) ad.toNat n 1 = .ok p →
      Rule.reached (markIssue s .c) p n true (some ((List.range n).map (Rule.byteOf v.toNat))) ad = some t →
      exec i s = .next (onward .c 0 (storeAt t p ((List.range n).map (Rule.byteOf v.toNat)))))) ∧
  ((∀ (s : State) (i : Instr) (d : BitVec 5) (n : Nat) (signed : Bool) (ad : W64), Rule.loadOf s i = some (d, n, signed, ad) →
     FitC s i → ad.toNat % n ≠ 0 → TrapsIssued .c (exec i s) s 7 ad.toNat) ∧
   (∀ (s : State) (i : Instr) (v : W64) (n : Nat) (ad : W64), Rule.storeOf s i = some (v, n, ad) →
     FitC s i → ad.toNat % n ≠ 0 → TrapsIssued .c (exec i s) s 7 ad.toNat) ∧
   ∀ (s : State) (i : Instr) (d a b : BitVec 5) (n : Nat), Rule.atomOf i = some (d, a, b, n) →
     FitC s i → (reg s a).toNat % n ≠ 0 → TrapsIssued .c (exec i s) s 7 (reg s a).toNat)

/-- What a place's bytes read as after a store there: each byte of the store, and every other byte of every memory as before (R2, R142). -/
def Obligations.StoredBytesAndNoOthers : Prop :=
  ∀ (s : State) (p : Place) (bs : List Byte),
    (∀ (k : Nat) (h : k < bs.length), Rule.byteAt (storeAt s p bs) p k = bs[k]) ∧
    (∀ c a, ¬ Rule.hitsSpm s p bs.length c a → memByte (getCore (storeAt s p bs) c).spm a = memByte (getCore s c).spm a) ∧
    (∀ a, ¬ Rule.hitsMem p bs.length a → memByte (storeAt s p bs).mem a = memByte s.mem a) ∧
    (∀ a, ¬ Rule.hitsFar p bs.length a → memByte (storeAt s p bs).farMem a = memByte s.farMem a)

/-- The frame of the memory instructions of C (loads, stores, LDA, STL, ATOM, LLK, SUL): when one leads to a next state, every register
but its destination, every flag and target, the registers of L and S and the system registers are as before; one that only reads leaves
every byte as it was, and one that writes leaves every byte that the place of its address does not hold. -/
def Obligations.MemoryInstructionFrame : Prop :=
  ∀ (s t : State) (i : Instr) (k n : Nat) (ad : W64), Rule.accessOf s i = some (k, n, ad) → exec i s = .next t →
    (∀ m, Rule.memoryTarget i ≠ some m → reg t m = reg s m) ∧ (∀ m, flag t m = flag s m) ∧ (∀ m, getB t m = getB s m) ∧
    (∀ m, getJ t m = getJ s m) ∧ (∀ m, getY t m = getY s m) ∧ (me t).sys = (me s).sys ∧
    (∀ p, k ≠ 0 → resolve (markIssue s .c) ad.toNat n k = .ok p →
      (∀ c a, ¬ Rule.hitsSpm s p n c a → memByte (getCore t c).spm a = memByte (getCore s c).spm a) ∧
      (∀ a, ¬ Rule.hitsMem p n a → memByte t.mem a = memByte s.mem a) ∧
      (∀ a, ¬ Rule.hitsFar p n a → memByte t.farMem a = memByte s.farMem a)) ∧
    ((k = 0 ∨ ∀ p, resolve (markIssue s .c) ad.toNat n k ≠ .ok p) →
      (∀ c a, memByte (getCore t c).spm a = memByte (getCore s c).spm a) ∧ t.mem = s.mem ∧ t.farMem = s.farMem)

/-- The frame of the arithmetic, compare and branch instructions of C: when one leads to a next state, every register but its destination
(and the link register of CALL), every flag but a compare's, the registers of L and S, the system registers and every byte of memory are
as before. -/
def Obligations.RegisterInstructionFrame : Prop :=
  ∀ (s t : State) (i : Instr), Rule.registerOnly i = true → exec i s = .next t →
    (∀ m, Rule.writesReg s.cur.handler i ≠ some m → reg t m = reg s m) ∧
    (∀ m, Rule.writesFlag i ≠ some m → flag t m = flag s m) ∧
    (∀ m, Rule.writesTarget i ≠ some m → getB t m = getB s m) ∧
    (∀ m, getJ t m = getJ s m) ∧ (∀ m, getY t m = getY s m) ∧ (me t).sys = (me s).sys ∧ (me t).x.v = (me s).x.v ∧
    (me t).x.z = (me s).x.z ∧ (∀ c a, memByte (getCore t c).spm a = memByte (getCore s c).spm a) ∧
    (∀ a, memByte t.mem a = memByte s.mem a) ∧ ∀ a, memByte t.farMem a = memByte s.farMem a

/-- R148: an atomic at a place whose lock bit is free, or held by its own context, writes what its operation gives and puts the old value,
sign-extended, into its register. -/
def Obligations.AtomicsOfC : Prop :=
  ∀ (s t : State) (i : Instr) (d a b : BitVec 5) (n : Nat) (p : Place),
    Rule.atomOf i = some (d, a, b, n) → FitC s i → (reg s a).toNat % n = 0 →
    let u := markIssue s .c
    let old := Rule.valueOfBytes (bytesAt u p n)
    let put : Option (List Byte) :=
      (Rule.atomWrite old ((reg s b).toNat % 2 ^ (8 * n)) ((reg s d).toNat % 2 ^ (8 * n)) (8 * n) i).map fun v =>
        (List.range n).map (Rule.byteOf v)
    resolve u (reg s a).toNat n 2 = .ok p → Rule.reached u p n true put (reg s a) = some t →
    (∀ c slot off, p = .spm c slot off → Rule.lockFree s slot off ∨ Rule.lockMine s slot off) →
    readError t p n = none →
    exec i s = .next (onward .c 0 (setReg (match put with
      | some bs => storeAt t p bs
      | none => t) d (Rule.extended true n old)))

/-- R145, R146: LLK takes a free lock bit of its own core's scratchpad and loads, SUL stores and gives the bit back; a second LLK while a
lock is held, and a SUL without it, raise cause 0x01 with reason 6. -/
def Obligations.LockPairOfC : Prop :=
  ∀ (s : State) (d a : BitVec 5) (c : BitVec 4) (z : BitVec 1) (o : BitVec 11) (slot off : Nat),
    let n := if z = 1 then 8 else 4
    let ad : W64 := Rule.nat64 ((reg s a).toNat + o.toNat * n)
    let p : Place := .spm s.cur.core slot off
    let l := Rule.lockOf (spmBase (getTask s s.cur.core slot) + off)
    let u := markIssue s .c
    (FitC s (.llk d a c z o) → (ctx s).lock = none → ad.toNat % n = 0 → resolve u ad.toNat n 0 = .ok p →
      Rule.lockFree s slot off → readError u p n = none →
      exec (.llk d a c z o) s = .next (onward .c 0
        (takeLock (setReg u d (Rule.nat64 (Rule.valueOfBytes (bytesAt u p n)))) s.cur.core l.1 l.2))) ∧
    (FitC s (.llk d a c z o) → (ctx s).lock ≠ none → TrapsIssued .c (exec (.llk d a c z o) s) s 1 6) ∧
    (FitC s (.sul d a c z o) → ad.toNat % n = 0 → resolve u ad.toNat n 1 = .ok p → Rule.lockMine s slot off →
      exec (.sul d a c z o) s = .next (onward .c 0
        (dropLock (storeAt u p ((List.range n).map (Rule.byteOf (reg s d).toNat))) s.cur.core l.1 l.2))) ∧
    (FitC s (.sul d a c z o) → ad.toNat % n = 0 → resolve u ad.toNat n 1 = .ok p → ¬ Rule.lockMine s slot off →
      TrapsIssued .c (exec (.sul d a c z o) s) s 1 6)

/-- R256, R262: a token is pushed or popped where that can be granted, TKCNT reads the count of the cycle before, TKINIT sets the count at
the cycle's end, and a fence only goes on. -/
def Obligations.TokensOfC : Prop :=
  ∀ (s : State) (q : BitVec 4) (v : BitVec 8) (d : BitVec 5) (sc : BitVec 3) (m : BitVec 16),
    (FitC s (.tksig q) → tokRoom (me s) q.toNat = true →
      exec (.tksig q) s = .next (onward .c 0 (modMe (markIssue s .c) fun t => tokPush t q.toNat))) ∧
    (FitC s (.tkwait q) → tokAvail (me s) q.toNat = true →
      exec (.tkwait q) s = .next (onward .c 0 (modMe (markIssue s .c) fun t => tokPop t q.toNat))) ∧
    (FitC s (.tkcnt d q) →
      exec (.tkcnt d q) s = .next (onward .c 0 (setReg (markIssue s .c) d (Rule.nat64 (nth (me s).tok q.toNat 0))))) ∧
    (FitC s (.tkinit v q) → ∃ t, exec (.tkinit v q) s = .next t ∧ nth (tokEnd (me t)).tok q.toNat 0 = v.toNat) ∧
    (FitC s (.fence sc m) → exec (.fence sc m) s = .next (onward .c 0 (markIssue s .c)))

/-- R137, R138, R256, R309: a push to a peer task, a command for a peer task and an access of another core's scratchpad (a load, LDA, a
store, STL, ATOM, LLK or SUL) leave as a request, and C waits for its answer; without a peer task there the instruction raises cause 0x08.
A push that names the own core is a local one, and a command that names it goes to the own task's queue. The push completes when it
arrives and fits, the command when it arrives and the queue has room: C goes on, with the command's index in its register. -/
def Obligations.RequestsToOtherCores : Prop :=
  ∀ (s : State) (d a b : BitVec 5) (q : BitVec 4),
    let u := markIssue s .c
    let core := s.cur.core; let slot := s.cur.slot
    let wait (v : State) (r : Remote) : State :=
      modCtl { v with remote := v.remote ++ [r] } .c fun x => { x with st := .busy .remote 0, owes := none }
    let other := core / 256 * 256 + (reg s a).toNat % 256
    let target := core / 256 * 256 + (reg s b).toNat % 256
    ((FitC s (.tksigRemote a q) → other = core → tokRoom (me s) q.toNat = true →
       exec (.tksigRemote a q) s = .next (onward .c 0 (modMe u fun t => tokPush t q.toNat))) ∧
     (FitC s (.tksigRemote a q) → other ≠ core → ∀ p, peerSlot u (me s) other = some p →
       let t := wait u (.token core slot s.cur.handler other p q.toNat)
       exec (.tksigRemote a q) s = .next t ∧
       ((s.cur.handler = true ∨ halted (me s) s.cycle = false) → tokRoom (getTask s other p) q.toNat = true →
         exec (.remoteTokenArrival s.remote.length) t =
           .next (onward .c 0 (at_ (modTask u other p fun k => tokPush k q.toNat) core slot s.cur.handler)))) ∧
     (FitC s (.tksigRemote a q) → other ≠ core → peerSlot u (me s) other = none →
       TrapsIssued .c (exec (.tksigRemote a q) s) s 8 ((reg s a).toNat % 256))) ∧
    (FitC s (.remq d a b) → (reg s b).toNat < 1024 → (reg s a).toNat % 64 = 0 → ∀ t ws,
      readWords u (reg s a).toNat 16 0 = .ok (t, ws) →
      let k := queueOf ((reg s b).toNat / 256)
      (∀ p, ((target = core ∧ p = slot) ∨ (target ≠ core ∧ peerSlot t (me t) target = some p)) →
        let v := wait t (.cmd core slot target p k d.toNat (reg s a).toNat ws)
        exec (.remq d a b) s = .next v ∧
        ∀ w m, halted (me s) s.cycle = false → s.cur.handler = false → checkRemote v target p k ws = .ok (w, m) →
          queueRoom v target k = true → d ≠ 0 →
          ∃ x c, exec (.remqArrival t.remote.length) v = .next x ∧ x.remote = t.remote ∧
            (engQ (getCore x target) k).q = (engQ (getCore v target) k).q ++ [c] ∧ c.slot = p ∧
            c.from_ = (core, slot, 0) ∧ c.idx = nth (getTask v target p).cmdIdx (queueNo k) 0 ∧
            nth (getTask x core slot).c.r d.toNat 0 = Rule.nat64 c.idx ∧ (getTask x core slot).c.ctl.st = .run ∧
            (getTask x core slot).c.ctl.pc = (advance 4 (ctl s .c)).pc) ∧
      (target ≠ core → peerSlot t (me t) target = none → exec (.remq d a b) s = .next (raise u .c 8 (reg s a).toNat))) ∧
    (∀ (i : Instr) (n : Nat) (ad : W64) (c tn off : Nat) (r : Acc),
      r.addr = ad → r.size = n → r.page = usedPage u ad.toNat → FitC s i → ad.toNat % n = 0 → c ≠ core →
      let asks (k : Nat) : Prop := resolve u ad.toNat n k = .ok (.spm c tn off) →
        exec i s = .next (wait u (.access core slot s.cur.handler c tn off r))
      (∀ signed, Rule.loadOf s i = some (d, n, signed, ad) → r.op = .load signed → r.d = d.toNat → r.val = 0 → r.cmpv = 0 → asks 0) ∧
      (∀ v, Rule.storeOf s i = some (v, n, ad) → r.op = .store → r.d = 0 → r.val = v → r.cmpv = 0 → asks 1) ∧
      (Rule.atomOf i = some (d, a, b, n) → ad = reg s a → r.op = Rule.atomOp i → r.d = d.toNat → r.val = reg s b →
        r.cmpv = reg s d → asks 2) ∧
      (∀ cl z o, i = .llk d a cl z o → Rule.accessOf s i = some (0, n, ad) → (ctx s).lock = none → r.op = .llk → r.d = d.toNat →
        r.val = 0 → r.cmpv = 0 → asks 0) ∧
      (∀ cl z o, i = .sul d a cl z o → Rule.accessOf s i = some (1, n, ad) → r.op = .sul → r.d = 0 → r.val = reg s d → r.cmpv = 0 →
        asks 1)) ∧
    (∀ (i : Instr) (k n : Nat) (ad : W64), Rule.accessOf s i = some (k, n, ad) → FitC s i → ad.toNat % n = 0 →
      (Rule.isLlk i = true → (ctx s).lock = none) → 2 ^ 28 ≤ ad.toNat → ad.toNat < 2 ^ 29 →
      let c := core / 256 * 256 + ad.toNat / 2 ^ 20 % 256
      c ≠ core → peerSlot u (me s) c = none → TrapsIssued .c (exec i s) s 8 ad.toNat)

/-! ## C: system registers, traps, scheduling -/

/-- R252, R278, R4, R5, Table 13.7: MFS puts the register's value into its destination; through TRVAL it reads the register of the trapped
task that TRSEL names. MTS gives the assigned fields of the register the written bits, clears the bits that a 1 clears, and leaves
read-only registers as they are; TFILL and TINV have the effect of R279 and R283, TRVAL writes the register that TRSEL names. What samples
registers in this cycle still sees the values before it (R60). -/
def Obligations.SystemRegisters : Prop :=
  (∀ (s : State) (d : BitVec 5) (n : BitVec 12), FitC s (.mfs d n) →
     (∀ v, Rule.sysValue s n.toNat = some v → exec (.mfs d n) s = .next (onward .c 0 (setReg (markIssue s .c) d v))) ∧
     (n = 0x06A → ∀ v, Rule.trappedValue s = some v → exec (.mfs d n) s = .next (onward .c 0 (setReg (markIssue s .c) d v))) ∧
     (n = 0x06A → Rule.trappedValue s = none → TrapsIssued .c (exec (.mfs d n) s) s 1 6)) ∧
  (∀ (s t : State) (a : BitVec 5) (n : BitVec 12), FitC s (.mts a n) →
     let u := markIssue s .c
     (Rule.sysWritten u n.toNat (reg s a) = some t ∨ (n = 0x06D ∧ tfill u (reg s a) = .ok t) ∨ (n = 0x06E ∧ tinv u (reg s a) = .ok t)
       ∨ (n = 0x06A ∧ Rule.trappedWritten u (reg s a) = some t)) →
     exec (.mts a n) s = .next (onward .c 0 (modMe t fun k => { k with sysOld := some ⟨s.cycle, n.toNat, (me s).sys, (me s).chk.mldis⟩ })))

/-- R36, R252, R276, R277, R285, R307: what a context may not issue raises cause 0x01: a register of the handler context in a task (reason
6) and a number of no register (reason 0), ERET in a task, TRAP, NODE, END and scheduling in the handler. R271, R272: TRAP stops C after
its word with cause 0x12 and its code as a pending fault; the other sequencers and the registers are as before. R326: an MTS to PWRST raises cause 0x01 with reason 0. That the detail of a word in the wrong context names the lowest bit of its sub-code field is the model's choice (log 14). -/
def Obligations.ContextRulesAndTrap : Prop :=
  (∀ (s : State) (d a b : BitVec 5) (n c : BitVec 12),
     (s.cur.handler = false → Rule.handlerNumber n.toNat →
       Traps .c (exec (.mfs d n) s) s 1 6 ∧ Traps .c (exec (.mts a n) s) s 1 6) ∧
     (s.cur.handler = false → ¬ Rule.handlerNumber n.toNat → ¬ Rule.taskNumber n.toNat →
       Traps .c (exec (.mfs d n) s) s 1 0 ∧ Traps .c (exec (.mts a n) s) s 1 0) ∧
     Traps .c (exec (.mts a 0x0A4) s) s 1 0 ∧
     (s.cur.handler = false → Traps .c (exec .eret s) s 1 (6 + 12 * 512)) ∧
     (s.cur.handler = true → ∀ i, i = .trap c ∨ i = .node ∨ i = .endC → Traps .c (exec i s) s 1 (6 + 12 * 512)) ∧
     (s.cur.handler = true → ∀ i, i = .launch d a ∨ i = .spawn d a ∨ i = .remq d a b ∨ i = .tndr d a b ∨ i = .wdraw d a ∨
       i = .bidf a b → Traps .c (exec i s) s 1 (6 + 4 * 512))) ∧
  (∀ (s : State) (c : BitVec 12), FitC s (.trap c) → s.cur.handler = false →
     ∃ t, exec (.trap c) s = .next t ∧ (ctl t .c).st = .faulted ∧ (ctl t .c).pc = (advance 4 (ctl s .c)).pc ∧
       (me t).faults = (me s).faults ++ [{ cause := 0x12, detail := Rule.nat64 c.toNat, seq := 0, cycle := s.cycle }] ∧
       (∀ q, q ≠ .c → ctl t q = ctl s q) ∧ (∀ m, reg t m = reg s m) ∧ (me t).sys = (me s).sys ∧ t.mem = s.mem)

/-- R270 to R272, Tables 16.1 and 13.5: the fault that arose first is delivered; the task stops, the handler context starts at the trap
entry of its type with KIND 0 and RETIRE 0, TREC and CFST show where the task stands, and nothing else changes. A task whose type names no
trap entry is to retire as faulted with that record (R291). -/
def Obligations.TrapDelivery : Prop :=
  ∀ (s : State) (c n : Nat) (f : PFault),
    let t := getTask s c n
    f ∈ t.faults → (∀ g ∈ t.faults, g.seq < 8 ∧ g.eng < 8) → (∀ g ∈ t.faults, g = f ∨ Rule.precedes f g) → t.faulted = false →
    ∃ u, exec (.trapDelivery c n) s = .next u ∧
      ((∃ e, t.tt.trap = some e ∧ takesNext (getCore s c) n 0 = true) →
        (getTask u c n).stopped = true ∧ (getTask u c n).faulted = false ∧ (getTask u c n).faults = t.faults.erase f ∧
        (getCore u c).h.trec = Rule.recordOf t n f ∧ (getCore u c).h.kind = 0 ∧ (getCore u c).h.retire = false ∧
        (getCore u c).h.serving = some (n, 0) ∧ some ((getCore u c).h.ctx.ctl.pc) = t.tt.trap.map (4 * ·) ∧
        (getCore u c).h.ctx.ctl.st = .run ∧ (getCore u c).h.ctx.r = (getCore s c).h.ctx.r ∧
        Rule.cfstShows (getTask u c n).cfst (Rule.pendingAt t.c.ctl) (Rule.pendingAt t.x.ctl) ∧ (getTask u c n).c = t.c ∧ (getTask u c n).j = t.j ∧
        (getTask u c n).x = t.x ∧ (getTask u c n).y = t.y ∧ (getTask u c n).sys = t.sys) ∧
      (t.tt.trap = none → (getTask u c n).faulted = true ∧ (getTask u c n).stopped = true ∧
        (getTask u c n).record = Rule.recordOf t n f ∧ (getCore u c).h = (getCore s c).h) ∧
      (∀ m, m ≠ n → getTask u c m = getTask s c m) ∧ (∀ k, k ≠ c → getCore u k = getCore s k) ∧ u.mem = s.mem ∧
      (getCore u c).spm = (getCore s c).spm

/-- R277, R240: ERET with RETIRE 0 after a trap frees the handler context, and the task goes on: a sequencer that held inside its effect,
ends or has ended stays as it is, but for what CFST and the record's program counter leave pending behind it; every other issues next the
word of the record's program counter, or after the delay words that CFST leaves pending. The PEND bits of CFST return to 0. With RETIRE 1
the task is to retire as faulted with the record, where a trap has filled it (log 25); a record's program counter that its stream has no
word at is cause 0x01 with reason 6, in the handler context. -/
def Obligations.ReturnFromHandler : Prop :=
  ∀ (s : State), FitC s .eret →
    let h := (myCore s).h
    (h.retire = false → h.kind = 0 → (∀ q, (nth h.trec (3 + seqCode q) 0).toNat % wordSize q = 0) →
      ∃ t, exec .eret s = .next t ∧ (me t).stopped = false ∧ (myCore t).h.serving = none ∧
        (me t).cfst.getLsbD 48 = false ∧ (me t).cfst.getLsbD 49 = false ∧ (me t).j = (me s).j ∧ (me t).y = (me s).y ∧
        (me t).c.r = (me s).c.r ∧ (me t).sys = (me s).sys ∧ t.mem = s.mem ∧
        ∀ q, let c := taskCtl (me s) q; let d := taskCtl (me t) q
          (Rule.keepsPlace c → let k := Rule.keptDelay (me s).cfst q (nth h.trec (3 + seqCode q) 0) c
            d = { c with delay := k.1, more := k.2 }) ∧
          (¬ Rule.keepsPlace c → d.st = (if (me s).faults.any (fun f => f.seq = seqCode q) then .faulted else .run) ∧
            d.pc = Rule.resumePc (me s).cfst q (nth h.trec (3 + seqCode q) 0) ∧
            d.delay = Rule.resumeDelay (me s).cfst q ∧ d.more = none ∧ d.cnt = c.cnt ∧ d.loops = c.loops)) ∧
    (h.retire = false → h.kind = 0 → (∃ q, (nth h.trec (3 + seqCode q) 0).toNat % wordSize q ≠ 0) →
      TrapsIssued .c (exec .eret s) s 1 6) ∧
    (h.retire = false → (h.kind = 1 ∨ h.kind = 2) → ∃ t, exec .eret s = .next t ∧ (myCore t).h.serving = none ∧
      (∀ q, taskCtl (me t) q = taskCtl (me s) q) ∧ (me t).stopped = (me s).stopped) ∧
    (h.retire = true → ∃ t, exec .eret s = .next t ∧ (me t).faulted = true ∧ (me t).stopped = true ∧
      (myCore t).h.serving = none ∧ (me t).record = if (nth h.trec 0 0).toNat % 2 ^ 8 = 0 then [] else h.trec)

/-- R285, R147, R44: NODE holds until its task is at a drain point; there it flushes the core's charges and goes on in a later cycle (log
46) unless the dispatcher keeps the task; END stops the issue of C; with a lock held both raise cause 0x01 with reason 6. R250: QDEPTH
counts the task's commands that are queued or running in an engine queue; QDROP takes the unstarted ones that entered before this cycle
out of it and counts them. -/
def Obligations.NodeEndAndQueueCounts : Prop :=
  (∀ (s : State),
     (FitC s .node → (ctx s).lock = none → drained (markIssue s .c) s.cur.core s.cur.slot = true →
       ∀ k, (me s).drainPt = some k → k ≠ s.cycle → keptAtDrain (markIssue s .c) s.cur.core s.cur.slot = false →
       exec .node s = .next (onward .c 0 (modMe (markIssue s .c) fun t => { t with drainPt := none }))) ∧
     (FitC s .node → (ctx s).lock = none → drained (markIssue s .c) s.cur.core s.cur.slot = false →
       exec .node s = .next (noteHold (modMe (markIssue s .c) fun t => { t with drainPt := none }) .c .nodeDrain 0)) ∧
     (FitC s .node → (ctx s).lock = none → drained (markIssue s .c) s.cur.core s.cur.slot = true → (me s).drainPt = none →
       exec .node s = .next (noteHold (modMe (flushBudget (markIssue s .c) s.cur.core) fun t => { t with drainPt := some s.cycle })
         .c .kept 0)) ∧
     (FitC s .endC → (ctx s).lock = none →
       exec .endC s = .next (modCtl (markIssue s .c) .c fun c => { c with st := .ending, owes := none })) ∧
     ((ctx s).lock ≠ none → (FitC s .node → TrapsIssued .c (exec .node s) s 1 6) ∧ (FitC s .endC → TrapsIssued .c (exec .endC s) s 1 6))) ∧
  (∀ (s : State) (d : BitVec 5) (q : BitVec 2),
     let mine (l : List Cmd) := l.filter fun m => m.slot = s.cur.slot
     let old (l : List Cmd) := l.filter fun m => m.slot = s.cur.slot && m.entered ≠ s.cycle
     let e := engQ (myCore s) (queueOf q.toNat)
     (FitC s (.qdepth d q) → exec (.qdepth d q) s = .next (onward .c 0
       (setReg (markIssue s .c) d (Rule.nat64 (mine (e.q ++ e.deq.toList ++ e.running.map (·.cmd))).length)))) ∧
     (FitC s (.qdrop d q) → exec (.qdrop d q) s = .next (onward .c 0
       (setReg (dropThose (markIssue s .c) s.cur.core (queueOf q.toNat) fun m => m.slot = s.cur.slot && m.entered ≠ s.cycle) d
         (Rule.nat64 (old (e.q ++ e.deq.toList)).length)))) ∧
     (FitC s (.qdrop d q) → ∀ t, exec (.qdrop d q) s = .next t →
       old (engQ (myCore t) (queueOf q.toNat)).q = [] ∧ old (engQ (myCore t) (queueOf q.toNat)).deq.toList = [] ∧
       (engQ (myCore t) (queueOf q.toNat)).running = e.running))

/-- R42, R303, R308: a checked LAUNCH or SPAWN enters the dispatcher queue of every core it names and writes 0, or, where one of them has
no room, enters none and writes 1. -/
def Obligations.LaunchesFromC : Prop :=
  ∀ (s t v : State) (d a : BitVec 5) (r : List W64) (tt : TType) (e : Eff) (rcb : Nat) (cores : List Nat) (i : Instr) (spawn : Bool),
    (i = .launch d a ∧ spawn = false) ∨ (i = .spawn d a ∧ spawn = true) → FitC s i → (reg s a).toNat % 64 = 0 →
    readWords (markIssue s .c) (reg s a).toNat 8 0 = .ok (t, r) →
    checkLaunch t s.cur.core (reg s a).toNat r (some (me s).rcb) spawn = .ok (v, tt, e, rcb, cores) →
    ((∀ c ∈ cores, (getCore v c).dq.length < 64) → exec i s = .next (onward .c 0
      (setReg (cores.foldl (fun u c => enqueueTask u c (queued v r tt e rcb)) v) d 0))) ∧
    ((∃ c ∈ cores, ¬ (getCore v c).dq.length < 64) → exec i s = .next (onward .c 0 (setReg v d 1)))

/-- R310 to R313: TNDR records the checked tender and waits for its award; WDRAW takes the first undispatched task of that tag that a
tender placed out of the queue, tells the tendering task and writes 1, or writes 0 where there is none; BIDF sets or removes the core's
formula of a class. WDRAW and BIDF need SCTL. -/
def Obligations.TendersFromC : Prop :=
  ∀ (s t v : State) (d a b : BitVec 5),
    let u := markIssue s .c
    (∀ (r : List W64) (tt : TType) (e : Eff) (rcb : Nat) (cores : List Nat), FitC s (.tndr d a b) →
      (reg s b).toNat < 2 ^ 41 → (reg s b).toNat / 2 ^ 38 % 4 = 0 → (reg s a).toNat % 64 = 0 →
      readWords u (reg s a).toNat 8 0 = .ok (t, r) →
      checkLaunch t s.cur.core (reg s a).toNat r (some (me s).rcb) false = .ok (v, tt, e, rcb, cores) →
      (lrecOf r).die = s.cur.core / 256 → ∃ T : Tender,
      exec (.tndr d a b) s = .next (modCtl (modMe v fun x => { x with tender := some T }) .c fun x =>
        { x with st := .busy .tender 0, owes := none }) ∧
      T.lrec = r ∧ T.tt = tt ∧ T.rcb = rcb ∧ T.cls = (reg s b).toNat / 2 ^ 32 % 64 ∧ T.key = (reg s b).toNat % 2 ^ 32 ∧
      T.must = (reg s b).getLsbD 40 ∧ T.start = s.cycle ∧ T.win = max 8 ((sampled v (me v)).bidw.toNat % 2 ^ 16) ∧ T.rd = d.toNat ∧
      T.bids = [] ∧ T.closed = false) ∧
    (FitC s (.wdraw d a) → (me s).eff.sctl = true →
      (∀ q ∈ (myCore s).dq, ¬(q.tag = (reg s a).toNat % 2 ^ 32 ∧ q.placed.isSome)) →
      exec (.wdraw d a) s = .next (onward .c 0 (setReg u d 0))) ∧
    (∀ (l1 l2 : List QTask) (q : QTask) (core uid : Nat) (must : Bool), FitC s (.wdraw d a) → (me s).eff.sctl = true →
      (myCore s).dq = l1 ++ q :: l2 → (∀ x ∈ l1, ¬(x.tag = (reg s a).toNat % 2 ^ 32 ∧ x.placed.isSome)) →
      q.tag = (reg s a).toNat % 2 ^ 32 → q.placed = some (core, uid, must) →
      exec (.wdraw d a) s = .next (onward .c 0 (setReg (modMyCore
        { u with notices := s.notices ++ [⟨core, uid, must, q.tag, s.cur.core % 256⟩] } fun k => { k with dq := l1 ++ l2 }) d 1))) ∧
    (∀ ws, FitC s (.bidf a b) → (me s).eff.sctl = true → (reg s b).toNat < 64 → (reg s a).toNat % 16 = 0 →
      readWords u (reg s a).toNat 2 0 = .ok (t, ws) → exec (.bidf a b) s = .next (onward .c 0 (modMyCore t fun k =>
        { k with forms := if (nth ws 1 0).getLsbD 8 then tabSet k.forms (reg s b).toNat ws else tabDel k.forms (reg s b).toNat }))) ∧
    ((me s).eff.sctl = false → (FitC s (.wdraw d a) → TrapsIssued .c (exec (.wdraw d a) s) s 6 (reg s a).toNat) ∧
      (FitC s (.bidf a b) → TrapsIssued .c (exec (.bidf a b) s) s 6 (reg s a).toNat))

/-! ## L and S -/

/-- R211, R241, R257: an arithmetic or count instruction of L or S puts the value of its rule into its register. R31, R44, R257: an end
instruction stops the issue of its stream, and one of L or S keeps its signal until it retires; XTK puts a count into every lane; NOP and
LTK without a count change nothing but what every word does. -/
def Obligations.ArithmeticOfLAndS : Prop :=
  ((∀ (s : State) (i : Instr) (t : Tok) (d : BitVec 4) (v : W64), Rule.jValue s i = some (t, d, v) → FitL s i → TokensReady .l t s →
     exec i s = .next (onward .l t.sig (setJ (Rule.begun .l t s) d v))) ∧
   ∀ (s : State) (i : Instr) (t : Tok) (d : BitVec 3) (v : W64), Rule.yValue s i = some (t, d, v) → FitS s i → TokensReady .s t s →
     exec i s = .next (onward .s t.sig (setY (Rule.begun .s t s) d v))) ∧
  (∀ (s : State) (t : Tok) (d q : BitVec 4) (x : Slot),
     (FitL s (.lend t) → TokensReady .l t s → exec (.lend t) s =
       .next (modCtl (Rule.begun .l t s) .l fun c => { c with st := .ending, owes := tokQueue t.sig })) ∧
     (FitS s (.send t) → TokensReady .s t s → exec (.send t) s =
       .next (modCtl (Rule.begun .s t s) .s fun c => { c with st := .ending, owes := tokQueue t.sig })) ∧
     (FitX s (.xend x) → (ctl s .x).delay = none → exec (.xend x) s = .next (modCtl s .x fun c => { c with st := .ending })) ∧
     (FitL s (.ltk t d false q) → TokensReady .l t s → exec (.ltk t d false q) s = .next (onward .l t.sig (Rule.begun .l t s))) ∧
     (FitX s (.xtk x) → exec (.xtk x) s = .next (writeAll s x 2 (List.replicate 1024
       (BitVec.ofNat 32 (nth (me s).tok (x.imm.toNat % 16) 0))))) ∧
     (FitX s .nop → exec .nop s = .next s))

/-- R211, R243, R244: a loop set up on a free counter with a count above 0 is active with its body, its first word issues next; one with a
count of 0 goes on after its body. The count of XLOOP stands in the word, or with VSRC = 1 in lane (0, 0) of a register, and is any where
a result under way may stand there (R34). On all three an end of 0, a body past the section, a counter of an active enclosing loop, and an
end past an enclosing body's are cause 0x01 with reason 6. -/
def Obligations.LoopsStart : Prop :=
  (∀ (s : State) (t : Tok) (n : BitVec 2) (a : BitVec 4) (e : BitVec 12),
    let c := ctl s .l
    let u := Rule.begun .l t s
    let last := c.pc + 8 * e.toNat
    (e.toNat = 0 ∨ (sectionOf (me s) .l).length / 8 ≤ c.pc / 8 + e.toNat → exec (.lloop t n a e) s = .next (raise s .l 1 6)) ∧
    (FitL s (.lloop t n a e) → TokensReady .l t s →
      (Rule.loopFits c n.toNat last →
        exec (.lloop t n a e) s = .next (onward .l t.sig (Rule.looping .l u n.toNat ((getJ s a).toNat % 2 ^ 32) last))) ∧
      ((∃ l ∈ c.loops, l.n = n.toNat) → exec (.lloop t n a e) s = .next (raise u .l 1 (6 + 40 * 512))) ∧
      ((∀ l ∈ c.loops, l.n ≠ n.toNat) → (∃ l ∈ c.loops, l.last < last) → exec (.lloop t n a e) s = .next (raise u .l 1 6)))) ∧
  (∀ (s : State) (t : Tok) (n : BitVec 2) (a : BitVec 3) (e : BitVec 12),
    let c := ctl s .s
    let u := Rule.begun .s t s
    let last := c.pc + 4 * e.toNat
    (e.toNat = 0 ∨ (sectionOf (me s) .s).length / 4 ≤ c.pc / 4 + e.toNat → exec (.sloop t n a e) s = .next (raise s .s 1 6)) ∧
    (FitS s (.sloop t n a e) → TokensReady .s t s →
      (Rule.loopFits c n.toNat last →
        exec (.sloop t n a e) s = .next (onward .s t.sig (Rule.looping .s u n.toNat ((getY s a).toNat % 2 ^ 32) last))) ∧
      ((∃ l ∈ c.loops, l.n = n.toNat) → exec (.sloop t n a e) s = .next (raise u .s 1 (6 + 15 * 512))) ∧
      ((∀ l ∈ c.loops, l.n ≠ n.toNat) → (∃ l ∈ c.loops, l.last < last) → exec (.sloop t n a e) s = .next (raise u .s 1 6)))) ∧
  ∀ (s : State) (x : Slot),
    let c := ctl s .x
    let n := x.dst.toNat % 4
    let e := x.imm.toNat % 2 ^ 13
    let last := c.pc + 16 * e
    (s.cur.slotB = true → e = 0 ∨ (sectionOf (me s) .x).length / 16 ≤ c.pc / 16 + e →
      exec (.xloop x) s = .next (raise s .x 1 (6 + 256))) ∧
    (FitX s (.xloop x) → c.delay = none →
      (Rule.loopFits c n last →
        (x.imm.getLsbD 13 = false →
          exec (.xloop x) s = .next (Rule.looping .x s n (x.srcA.toNat * 1024 + x.srcB.toNat * 32 + x.srcC.toNat) last)) ∧
        (x.imm.getLsbD 13 = true → unsettled (xOf' s) (.v x.srcA.toNat) = false → (nth (xOf' s).v x.srcA.toNat []).length = 1024 →
          exec (.xloop x) s = .next (Rule.looping .x s n (nth (nth (xOf' s).v x.srcA.toNat []) 0 0).toNat last)) ∧
        (x.imm.getLsbD 13 = true → unsettled (xOf' s) (.v x.srcA.toNat) = true →
          ∃ k : BitVec 32, exec (.xloop x) s = .next (Rule.looping .x (bump s) n k.toNat last))) ∧
      ((∃ l ∈ c.loops, l.n = n) → exec (.xloop x) s = .next (raise s .x 1 (6 + 256 + 43 * 512))) ∧
      ((∀ l ∈ c.loops, l.n ≠ n) → (∃ l ∈ c.loops, l.last < last) → exec (.xloop x) s = .next (raise s .x 1 (6 + 256))))

/-- R242, R244, R245: LBR goes on at its target where its condition holds, or at the next word; XBT and XBN take effect after their two
delay words; a taken branch ends the loops whose body the target lies outside. -/
def Obligations.BranchesOfLAndX : Prop :=
  (∀ (s : State) (t : Tok) (c : BitVec 3) (a b : BitVec 4) (i : BitVec 32), FitL s (.lbr t c a b i) → TokensReady .l t s →
    (∀ l ∈ (ctl s .l).loops, l.last ≠ (ctl s .l).pc) →
    let u := Rule.begun .l t s
    let tgt := relTarget (ctl s .l).pc 8 i.toInt
    (Rule.holds c (getJ s a) (getJ s b) = false → exec (.lbr t c a b i) s = .next (onward .l t.sig u)) ∧
    (Rule.holds c (getJ s a) (getJ s b) = true → exec (.lbr t c a b i) s = .next (onward .l t.sig (modCtl u .l fun k =>
      { k with delay := some ⟨1, tgt⟩, loops := loopsAt tgt k.loops })))) ∧
  ∀ (s : State) (x : Slot) (want v : Bool) (i : Instr), (i = .xbt x ∧ want = true) ∨ (i = .xbn x ∧ want = false) → FitX s i →
    (ctl s .x).delay = none → (∀ k < 3, ∀ l ∈ (ctl s .x).loops, l.last ≠ (ctl s .x).pc + 16 * k) →
    (if x.dst.toNat % 8 = 4 then v = true
      else unsettled (xOf' s) (.e (x.dst.toNat % 8)) = false ∧ v = nth (xOf' s).e (x.dst.toNat % 8) false) →
    let tgt := relTarget (ctl s .x).pc 16 ((BitVec.ofNat 13 x.imm.toNat).toInt)
    exec i s = .next (modX (modCtl s .x fun c => { c with
        delay := some ⟨3, if v = want then tgt else c.pc + 48⟩
        loops := if v = want then loopsAt tgt c.loops else c.loops }) fun k => { k with taken := decide (v = want) })

/-- R151, R152, R206: BINDI and BINDO bind a checked record to a stream, with its origin or its cursor at 0; ISTART puts a checked run of
the binding into the stream's run queue. -/
def Obligations.StreamBindings : Prop :=
  (∀ (s : State) (t : Tok) (a b : BitVec 4) (n : BitVec 3) (xp zorg : Bool) (r : List W64) (o : List Nat),
    FitL s (.bindi t a b n xp zorg) → TokensReady .l t s →
    let u := Rule.begun .l t s
    let c := s.cur.core; let k := s.cur.slot
    readLayout u c k ((getJ s a).toNat % 2 ^ 20) 0 = .ok r →
    ((zorg = true ∧ o = [0, 0, 0, 0, 0]) ∨ (zorg = false ∧ ∃ w0 w1, readBlock u c k ((getJ s b).toNat % 2 ^ 20) 2 16 = .ok [w0, w1] ∧
      w0 < 2 ^ 60 ∧ w1 < 2 ^ 40 ∧
      o = [w0 % 2 ^ 20, w0 / 2 ^ 20 % 2 ^ 20, w0 / 2 ^ 40 % 2 ^ 20, w1 % 2 ^ 20, w1 / 2 ^ 20])) →
    exec (.bindi t a b n xp zorg) s = .next (onward .l t.sig (modIn u c k n.toNat fun i =>
      { i with bind := some { addr := (getJ s a).toNat % 2 ^ 20, lrec := r, org := o, xp := xp } }))) ∧
  (∀ (s v : State) (t : Tok) (cls : BitVec 4) (n : BitVec 3) (b : InBind) (sn : Snap) (pins : List Nat),
    FitL s (.istart t cls n) → TokensReady .l t s →
    let u := Rule.begun .l t s
    let c := s.cur.core; let k := s.cur.slot
    let l := layoutOf b.lrec
    (inStream s c k n.toNat).bind = some b → (inStream s c k n.toNat).runs.length < 2 →
    snapshot u c k l 0 b.addr (coveredSegs l b.org) = .ok (v, sn) →
    checkPositions l 0 b.addr ((windowAt l b.org).map (posAt l sn)) = .ok () →
    footprint v c k l false (readIdxs l sn b.org) (bookIdxs l sn b.org) = .ok pins →
    exec (.istart t cls n) s = .next (onward .l t.sig (modIn (pin v c pins) c k n.toNat fun i => { i with made := i.made + 1, runs := i.runs ++
      [{ bind := b, cls := cls.toNat, flm := (sampled s (me s)).flm, snap := sn, pins := pins, active := i.runs.isEmpty, no := i.made }] }))) ∧
  ∀ (s : State) (t : Tok) (o : BitVec 2) (a : BitVec 3) (r : List W64), FitS s (.bindo t o a) → TokensReady .s t s →
    let u := Rule.begun .s t s
    let v := (getY s a).toNat
    let l := layoutOf r
    v / 2 % 16 = 0 → readLayout u s.cur.core s.cur.slot (v % 2 ^ 20 / 32 * 32) 0 = .ok r → l.sbase = 0 → l.fmt ≠ 12 → l.fmt ≠ 15 →
    (v.testBit 0 = true → l.rag = true) →
    exec (.bindo t o a) s = .next (onward .s t.sig (modMe u fun t => { t with outs := setNth {} t.outs o.toNat { nth t.outs o.toNat {} with
      bind := some { addr := v % 2 ^ 20 / 32 * 32, lrec := r, app := v.testBit 0, cursor := 0, flm := (sampled s (me s)).flm } } }))

/-- R95, R105, R134, R183, R190: a checked command of L or X enters its queue where there is room, with the word's signal in its SIGM; the
word goes on. -/
def Obligations.CommandsArePushed : Prop :=
  (∀ (s v : State) (i : Instr) (t : Tok) (q : Queue) (m : Cmd), FitL s i → TokensReady .l t s →
    Rule.commandOf (Rule.begun .l t s) i = some (t, q, .ok (v, m)) → queueRoom v s.cur.core q = true →
    exec i s = .next (onward .l 0 (enqueue (pin v s.cur.core m.pins) s.cur.core s.cur.slot q
      (samplePred (sampled s (me s)) q m)))) ∧
  ∀ (s : State) (x : Slot) (m : Cmd), FitX s (.mgo x) →
    let c := s.cur.core; let n := s.cur.slot
    let words := (xOf' s).cfg.set 0 (BitVec.ofNat 64
      (withSig (((thisXWord s).map fun w => w.tok.sig).getD 0) (nth (xOf' s).cfg 0 0).toNat))
    let f := mcmdOf words
    let v := if f.asrc = 2 then readARegs s f else (s, [])
    inSlotB (checkMatrix s c n words) = .ok m → queueRoom s c .matrix = true →
    sramReady s (if f.asrc = 2 then (aRegs f).map .v else []) = .ok () →
    exec (.mgo x) s = .next (enqueue (pin (noteRange (landTile v.1 f.acct) c n f) c m.pins) c n .matrix { m with vregs := v.2 })

/-- R60, R183, R201, R320: a command stands at the tail of its queue with its task, its index there, and the flush mode, pacing gap, TWIN
and key as the registers stand; the task's next index is one more. That it captures AKEY then, for which R311 and R314 give no moment, is
the model's choice (log 68). -/
def Obligations.CommandsEnterQueues : Prop :=
  ∀ (s : State) (c n : Nat) (q p : Queue) (m : Cmd),
    let u := enqueue s c n q m
    let t := getTask s c n
    let r := sampled s t
    let i := nth t.cmdIdx (queueNo q) 0
    (engQ (getCore u c) q).q = (engQ (getCore s c) q).q ++ [{ m with
      slot := n, tag := t.tag, idx := i, flm := r.flm, gap := pacing r q, twin := r.mxcfg.getLsbD 0, akey := r.akey.toNat
      entered := s.cycle }] ∧
    (engQ (getCore u c) q).running = (engQ (getCore s c) q).running ∧
    (p ≠ q → engQ (getCore u c) p = engQ (getCore s c) p) ∧
    nth (getTask u c n).cmdIdx (queueNo q) 0 = (i + 1) % 2 ^ 32 ∧ (getTask u c n).c.r = t.c.r ∧ u.mem = s.mem ∧
    (getCore u c).spm = (getCore s c).spm

/-- R100: once no streamer command that the task pushed is there, AIRCFG completes where no range in use would lie in the new store: it
empties the store and sets it up, and bytes that leave it are undefined (R7); AIRQ completes with the status word of Table 5.6: the number
of slots in use, which a store of 8,192 leaves open (log 53), the slot and the heat of a row that is there, and whether it is. -/
def Obligations.AiringStore : Prop :=
  (∀ (s : State) (t : Tok) (slot : BitVec 12) (pmin : BitVec 8) (size : BitVec 5), FitL s (.aircfg t slot pmin size) →
    TokensReady .l t s →
    let u := Rule.begun .l t s
    let old := (me s).air.size
    let v := if size.toNat < old then
      scramble u s.cur.core (spmBase (me s) + ((me s).tt.spm - old) * 32768) ((old - size.toNat) * 32768) else u
    ownWeight u s.cur.core s.cur.slot = false → old ≤ (me s).tt.spm →
    (size ≠ 0 → wordError u s.cur.core s.cur.slot (namedReads u s.cur.core s.cur.slot) = none ∧
      ∀ r ∈ namedRanges u s.cur.core s.cur.slot, overlap r.1 r.2 (((me s).tt.spm - size.toNat) * 32768) (size.toNat * 32768) = false) →
    exec (.aircfg t slot pmin size) s = .next (onward .l t.sig (modMe v fun k =>
      { k with air := { size := size.toNat, slot := slot.toNat, pmin := pmin.toNat, slots := [] } }))) ∧
  ∀ (s : State) (t : Tok) (d a b : BitVec 4) (r : List W64), FitL s (.airq t d a b) → TokensReady .l t s →
    let u := Rule.begun .l t s
    let air := (me s).air
    ownWeight u s.cur.core s.cur.slot = false → readLayout u s.cur.core s.cur.slot (getJ s a).toNat 0 = .ok r →
    weightBad (layoutOf r) 0 none = none →
    let here (x : Nat × AirSlot) : Prop := x.2.base = (nth r 0 0).toNat ∧ x.2.row = (getJ s b).toNat % 2 ^ 32
    (∀ x ∈ air.slots, here x → readError u (.spm s.cur.core s.cur.slot x.2.haddr) 1 = none) → ∃ v : W64,
    exec (.airq t d a b) s = .next (onward .l t.sig (setJ (bump u) d v)) ∧
    ((∀ x ∈ air.slots, x.1 < 2 ^ 16) → v.toNat < 2 ^ 45 ∧
      (air.slots.length < 2 ^ 13 → v.toNat / 2 ^ 32 = air.slots.length) ∧
      ((∀ x ∈ air.slots, ¬ here x) → v.toNat % 2 ^ 32 = 0) ∧
      ∀ l1 x l2, air.slots = l1 ++ x :: l2 → (∀ y ∈ l1, ¬ here y) → here x →
        v.toNat % 2 ^ 32 = x.1 * 2 ^ 16 + (memByte (myCore s).spm (spmBase (me s) + x.2.haddr)).toNat * 2 ^ 8 + 1)

/-- R74, R75, R77, R78: LNQRY reports the row of a stack address; LNPEG holds it where R77 allows, in its turn and out of a swap (R72),
LNFREE releases it, LNOPEN opens it unheld, in a stopped bank once that resumes; an address that is no stack memory of this module gives
reason 3 alone. -/
def Obligations.LineInstructions : Prop :=
  ∀ (s : State) (t : Tok) (d a : BitVec 4) (i : BitVec 32), TokensReady .l t s →
    let u := Rule.begun .l t s
    let va := (getJ s a + i.signExtend 64).toNat
    let status (v : State) (l : Loc) (ok : Bool) (r : Nat) : W64 := lineStatus v s.cur.core s.cur.slot l ok r
    let idle (v : State) : State := dropPegReq v s.cur.core s.cur.slot
    (lineAddr u va = .ok none → ∀ j, j = .lnpeg t d a i ∨ j = .lnfree t d a i ∨ j = .lnqry t d a i → FitL s j →
      exec j s = .next (onward .l t.sig (setJ u d 6))) ∧
    ∀ pa, lineAddr u va = .ok (some pa) →
      let l := mapAddress s pa
      let b := l.bankNo
      (FitL s (.lnqry t d a i) → exec (.lnqry t d a i) s = .next (onward .l t.sig (setJ u d (status u l true 0)))) ∧
      (FitL s (.lnopen t a i) → exec (.lnopen t a i) s = .next (onward .l t.sig (if (getBank s b).busy then
        modBank u b fun k => { k with wanted := k.wanted ++ [l.row] } else (openRow u b l.row).getD u))) ∧
      (FitL s (.lnfree t d a i) → (pegOf (me s) b l.row).isSome = true → exec (.lnfree t d a i) s = .next (onward .l t.sig
        (let v := releasePeg u s.cur.core s.cur.slot b l.row; setJ v d (status v l true 0)))) ∧
      (FitL s (.lnfree t d a i) → pegOf (me s) b l.row = none →
        exec (.lnfree t d a i) s = .next (onward .l t.sig (setJ u d (status u l false 5)))) ∧
      (FitL s (.lnpeg t d a i) → (pegOf (me s) b l.row).isSome = true →
        exec (.lnpeg t d a i) s = .next (onward .l t.sig (let v := idle u; setJ v d (status v l true 6)))) ∧
      (pegOf (me s) b l.row = none → inSwap s (pa / 2 ^ 21 % 2 ^ 18) = false → pegTurn u s.cur.core s.cur.slot b = true →
        (FitL s (.lnpeg t d a i) → pegReason u (me s) b l.row ≠ 0 →
          exec (.lnpeg t d a i) s = .next (onward .l t.sig
            (let v := idle u; setJ v d (status v l false (pegReason u (me s) b l.row))))) ∧
        (FitL s (.lnpeg t d a i) → (me s).pegs.length < 8 →
          ((heldRows u b).length < 2 ∨ l.row ∈ heldRows u b) → l.row ∉ (getBank s b).stuck →
          (getBank s b).busy = false → rowSuspended u b l.row = false → ∀ v, openRow u b l.row = some v →
          exec (.lnpeg t d a i) s = .next (onward .l t.sig
            (let v := idle (modMe (pegGranted (idle v) b) fun k => { k with pegs := k.pegs ++ [⟨b, l.row, va, .held⟩] })
             setJ v d (status v l true 0)))))

/-- R207 to R209: DRAIN and DRAINX check the blocks they will write, and S holds inside them until the last block is written. -/
def Obligations.DrainsStart : Prop :=
  (∀ (s v : State) (t : Tok) (o : BitVec 2) (n : BitVec 9) (b : OutBind) (sn : Snap) (pins : List Nat),
    FitS s (.drain t o n) → TokensReady .s t s →
    let u := Rule.begun .s t s
    let c := s.cur.core; let k := s.cur.slot
    let l := layoutOf b.lrec
    let ws := drainPositions l b.cursor n.toNat
    (nth (me s).outs o.toNat {}).bind = some b → snapshot u c k l 0 b.addr (coveredSegs l [0, 0, 0, 0, 0] true) = .ok (v, sn) →
    checkPositions l 0 b.addr (ws.map (outPosAt l sn b.app)) = .ok () →
    footprint v c k l true ((ws.filter fun w => outPosAt l sn b.app w == .inside).map fun w => substIdx l sn (outIdx l sn b.app w))
      = .ok pins →
    exec (.drain t o n) s = .next (Rule.draining v t { o := o.toNat, left := n.toNat, snap := sn, pins := pins })) ∧
  ∀ (s : State) (t : Tok) (o : BitVec 2) (b : BitVec 3) (n : BitVec 9) (ob : OutBind) (rows : List Nat) (pins : List Nat),
    FitS s (.drainx t o b n) → TokensReady .s t s →
    let u := Rule.begun .s t s
    let c := s.cur.core; let k := s.cur.slot
    let l := layoutOf ob.lrec
    let a := (getY s b).toNat % 2 ^ 20
    (nth (me s).outs o.toNat {}).bind = some ob → l.rag = false → nth l.w 0 0 ≤ 64 → a % 4 = 0 →
    Rule.local32s u a = some rows → rows.length ≤ 16 * n.toNat → (∀ r ∈ rows, r < nth l.e 1 0) →
    let is := rows.eraseDups.flatMap fun r => (List.range (nth l.w 0 0)).map fun x => [x, r, 0, 0, 0]
    checkPositions l 0 ob.addr (is.map (posAt l {})) = .ok () →
    footprint u c k l true (is.filter fun i => posAt l {} i == .inside) = .ok pins →
    exec (.drainx t o b n) s = .next (Rule.draining u t { o := o.toNat, left := n.toNat, list := some rows, pins := pins })

/-- R212 to R215: SLD loads eight local bytes; RGAPND, RGCMT and RGUPK write the changed lengths of a segment, then the next generation
into its table, then into its record, and S goes on. -/
def Obligations.LocalLoadAndRaggedUpdates : Prop :=
  (∀ (s : State) (t : Tok) (d a : BitVec 3) (i : BitVec 11), FitS s (.sld t d a i) → TokensReady .s t s →
    let u := Rule.begun .s t s
    let ad := ((getY s a).toNat + 8 * i.toNat) % 2 ^ 64
    let p : Place := .spm s.cur.core s.cur.slot ad
    ad % 8 = 0 → ad + 8 ≤ spmUsable (me s) → ad < 2 ^ 20 → readError u p 8 = none →
    exec (.sld t d a i) s = .next (onward .s t.sig (setY u d (Rule.nat64 (Rule.valueOfBytes (bytesAt u p 8)))))) ∧
  ∀ (s v w : State) (t : Tok) (a b c : BitVec 3) (i : Instr) (op : Ragged) (r : List W64) (w0 w1 : Nat) (pe ph : Place),
    (i = .rgapnd t a b c ∧ op = .append) ∨ (i = .rgcmt t a b c ∧ op = .commit) ∨ (i = .rgupk t a b c ∧ op = .unpick) →
    FitS s i → TokensReady .s t s →
    let u := Rule.begun .s t s
    let core := s.cur.core; let k := s.cur.slot
    let ad := (getY s a).toNat % 2 ^ 20; let seg := (getY s b).toNat % 2 ^ 24; let n := (getY s c).toNat % 2 ^ 24
    let l := layoutOf r
    let g := segOfWords w0 w1
    readLayout u core k ad 0 = .ok r → l.rag = true → readHeader u core k l 0 ad = .ok (v, false) → seg < l.nseg →
    readPair v core k (l.btab + 16 + 16 * seg) = .ok (w, w0, w1) → segBad l g = none →
    placeOf w core k (l.btab + 24 + 16 * seg) 8 2 = .ok pe → placeOf w core k l.btab 8 2 = .ok ph → ad + 96 ≤ spmUsable (me s) →
    (∀ g', Rule.raggedAfter op g n = some g' → ∀ x,
      writeAt w (core, k) pe (l.btab + 24 + 16 * seg) (leBytes 8 (g'.tlen * 2 ^ 32 + g'.clen)) = .ok x →
      exec i s = .next (modCtl (modMe x fun q =>
          { q with rag := some { ad := ad, btab := l.btab, gen := l.gen, head := ph, last := .spm core k (ad + 88) } }) .s fun q =>
        { q with st := .busy .drainWork 0, hold := some (.drainWork, 0), held := 0, owes := tokQueue t.sig })) ∧
    (∀ (z y : State) (r : Ragging), (me z).rag = some r →
      (r.done = none → let h := Rule.valueOfBytes (bytesAt z r.head 8)
        let gen := (h + 1) % 2 ^ 16
        writeAt z (z.cur.core, z.cur.slot) r.head r.btab (leBytes 8 (h / 2 ^ 16 * 2 ^ 16 + gen)) = .ok y →
        ragStep z = modCore (modMe y fun q => { q with rag := some { r with done := some gen } }) z.cur.core fun q =>
          { q with btcache := (getCore (ragStep z) z.cur.core).btcache }) ∧
      (∀ gen, r.done = some gen → linkWaits z z.cur.core z.cur.slot 3 0 = false →
        writeAt z (z.cur.core, z.cur.slot) r.last (r.ad + 88) (leBytes 8 gen) = .ok y → ragStep z = retire .s (modMe y fun q => { q with rag := none }))) ∧
    (Rule.raggedAfter op g n = none → exec i s = .next (raise u .s 4
      (seg + (match op with | .append => g.tlen + n | .commit => g.clen + n | .unpick => n) % 2 ^ 20 * 2 ^ 32)))

/-- The frame of L and S: when a word leads to a next state, every register of L and S but its destination, the registers, flags and
targets of C, the system registers, and the vector registers and tiles are as before; only RGAPND, RGCMT, RGUPK and AIRCFG change a byte
of memory: the first three at first the lengths of the segment they name, AIRCFG the bytes that leave the store. -/
def Obligations.FrameOfLAndS : Prop :=
  ∀ (s t : State) (i : Instr), (lsTok i).isSome = true → exec i s = .next t →
    (∀ m, Rule.jTarget i ≠ some m → getJ t m = getJ s m) ∧ (∀ m, Rule.yTarget i ≠ some m → getY t m = getY s m) ∧
    (∀ m, reg t m = reg s m) ∧ (∀ m, flag t m = flag s m) ∧ (∀ m, getB t m = getB s m) ∧ (me t).sys = (me s).sys ∧
    (me t).x.v = (me s).x.v ∧ (me t).x.z = (me s).x.z ∧
    (Rule.writesMemory i = false → (∀ c a, memByte (getCore t c).spm a = memByte (getCore s c).spm a) ∧ t.mem = s.mem ∧
      t.farMem = s.farMem) ∧
    (∀ tok slot pmin size, i = .aircfg tok slot pmin size → t.mem = s.mem ∧ t.farMem = s.farMem ∧
      let old := (me s).air.size
      let freed := spmBase (me s) + ((me s).tt.spm - old) * 32768
      ∀ c a, c ≠ s.cur.core ∨ old ≤ BitVec.toNat (w := 5) size ∨ a < freed ∨ freed + (old - size.toNat) * 32768 ≤ a →
        memByte (getCore t c).spm a = memByte (getCore s c).spm a) ∧
    ∀ tok a b c, i = .rgapnd tok a b c ∨ i = .rgcmt tok a b c ∨ i = .rgupk tok a b c →
      let u := Rule.begun .s tok s
      let ad := (getY s a).toNat % 2 ^ 20
      let home (p : Place) : Prop := ∃ r, readLayout u s.cur.core s.cur.slot ad 0 = .ok r ∧
        placeOf u s.cur.core s.cur.slot ((layoutOf r).btab + 24 + 16 * ((getY s b).toNat % 2 ^ 24)) 8 2 = .ok p
      (∀ x, (∀ pa, home (.mem pa) → x < pa ∨ pa + 8 ≤ x) → memByte t.mem x = memByte s.mem x) ∧
      (∀ d x, (∀ n off, home (.spm d n off) → x < spmBase (getTask s d n) + off ∨ spmBase (getTask s d n) + off + 8 ≤ x) →
        memByte (getCore t d).spm x = memByte (getCore s d).spm x) ∧
      ∀ x, (∀ m pa, home (.far m pa) → x < m * 2 ^ 41 + pa ∨ m * 2 ^ 41 + pa + 8 ≤ x) → memByte t.farMem x = memByte s.farMem x

/-! ## X -/

/-- R158, R164 to R172: an elementwise instruction of X posts, for each active lane, the value of its rule on the lanes of its sources, to
be written within its bound. -/
def Obligations.LanewiseOfX : Prop :=
  ∀ (s : State) (i : Instr) (x : Slot) (n : Nat) (imm : W32) (f : XIn → W32 → W32 → W32 → W32),
    Rule.laneRule i = some (x, n, imm, f) → FitX s i →
    let r := readIn s x imm
    exec i s = .next (writeDst r.1 x n r.2.act
      ((r.2.a.lanes.zip (r.2.b.lanes.zip r.2.c.lanes)).map fun e => f r.2 e.1 e.2.1 e.2.2))

/-- R48 to R57, R61, R164, R165, R169 to R172: what the lanes that `LanewiseOfX` names hold. An f32 result of an arithmetic instruction is
the exact one rounded, conversions round the value of the pattern, a reciprocal or a root is correctly rounded, extrema and sign changes
round nothing, a key orders as its value, compared lanes compare as their values; 2^x at whole numbers, the logarithm of a power of 2 and
the special values of Table 9.5 are exact. Of VEXP2, VLOG2, VTANH and VSIG elsewhere nothing is said (log 10). -/
def Obligations.ValuesOfLanes : Prop :=
  (∀ (i : Instr) (x : Slot) (n : Nat) (imm : W32) (f : XIn → W32 → W32 → W32 → W32), Rule.laneRule i = some (x, n, imm, f) →
    ∀ (k : XIn) (a b c : W32), Rule.LaneHolds i k a b c (f k a b c)) ∧
  ∀ (on : Bool) (a b : W32),
    let x := Rule.valueOf 0 on a.toNat
    let y := Rule.valueOf 0 on b.toNat
    (f32 on a = .nan ↔ x = .nan) ∧
    (x ≠ .nan → y ≠ .nan → ((f32 on a).cmp (f32 on b) < 0 ↔ x.below y = true) ∧ ((f32 on a).cmp (f32 on b) > 0 ↔ y.below x = true))

/-- R167, R168, R173, R174: VSEL, VLDI and VCMP; a rotation, broadcast or transposition gives each lane the lane its rule names; a
reduction or scan combines the lanes of its line that contribute. R175 to R177: predicate instructions, counts and votes. -/
def Obligations.MovesOfX : Prop :=
  ((∀ (s : State) (x : Slot),
      (FitX s (.vsel x) → let r := readIn s x (immLaneInt x)
        exec (.vsel x) s = .next (writeAll r.1 x 1 ((r.2.act.zip (r.2.a.lanes.zip r.2.b.lanes)).map fun e => if e.1 then e.2.1 else e.2.2))) ∧
      (FitX s (.vldi x) → let r := readP s x.pred.toNat
        exec (.vldi x) s = .next (writeDst r.1 x 1 r.2 ((List.range 1024).map fun l =>
          if x.srcB.toNat % 4 = 0 then immLane x
          else BitVec.ofInt 32 ((immLaneInt x).toInt +
            ((if x.srcB.toNat % 4 = 1 then l else if x.srcB.toNat % 4 = 2 then l / 64 else l % 64 : Nat) : Int))))) ∧
      (FitX s (.vcmp x) → let r := readIn s x 0
        exec (.vcmp x) s = .next (writeP r.1 (x.dst.toNat % 8) 2 ((r.2.act.zip (r.2.a.lanes.zip r.2.b.lanes)).map fun e =>
          e.1 && (if x.type = 0 then Rule.floatHolds (x.imm.toNat % 16) (f32 (fiOf x r.2 0) e.2.1) (f32 (fiOf x r.2 0) e.2.2)
            else Rule.intHolds (x.imm.toNat % 16) e.2.1 e.2.2))))) ∧
   ((∀ (s : State) (i : Instr) (x : Slot) (n : Nat) (f : Nat → Nat → Nat × Nat), Rule.moveRule i = some (x, n, f) → FitX s i →
      let r := readIn s x 0
      exec i s = .next (writeDst r.1 x n r.2.act ((List.range 1024).map fun l =>
        nth r.2.a.lanes (64 * (f (l / 64) (l % 64)).1 + (f (l / 64) (l % 64)).2) 0))) ∧
    ∀ (s : State) (i : Instr) (x : Slot) (n : Nat) (rows scan : Bool), Rule.lineRule i = some (x, n, rows, scan) → FitX s i →
      let r := readIn s x 0
      exec i s = .next (writeDst r.1 x n r.2.act ((List.range 1024).map fun l =>
        combine (x.imm.toNat % 8) (x.type = 0) (fmodeOf x r.2)
          (Rule.lineLanes rows scan (x.imm.toNat.testBit 4) (x.imm.toNat.testBit 3) r.2.act r.2.a l))))) ∧
  ((∀ (s : State) (i : Instr) (x : Slot) (f : Bool → Bool → Bool), Rule.predRule i = some (x, f) → FitX s i →
     let a := readP s (x.srcA.toNat % 8); let b := readP a.1 (x.srcB.toNat % 8)
     exec i s = .next (writeP b.1 (x.dst.toNat % 8) 2 ((a.2.zip b.2).map fun e => f e.1 e.2))) ∧
   (∀ (s : State) (x : Slot), FitX s (.pset x) →
     let m := x.imm.toNat % 4
     let r := source s x 0 x.srcA
     exec (.pset x) s = .next (if m = 2 then writeP r.1 (x.dst.toNat % 8) 2 r.2.valid
       else writeP s (x.dst.toNat % 8) 2 ((List.range 1024).map fun l => m = 1 || (m = 3 && decide (l < x.imm.toNat / 4 % 2 ^ 11))))) ∧
   ∀ (s : State) (x : Slot),
     let a := readP s (x.srcA.toNat % 8); let g := readP a.1 x.pred.toNat
     let on (l : Nat) : Bool := nth a.2 l false && nth g.2 l false
     (FitX s (.pcnt x) → a.2.length = 1024 → g.2.length = 1024 → exec (.pcnt x) s = .next (if x.imm.getLsbD 0
       then writeAll g.1 x 6 ((List.range 1024).map fun l => BitVec.ofNat 32 ((List.range 64).countP fun c => on (64 * (l / 64) + c)))
       else writeAll g.1 x 9 (List.replicate 1024 (BitVec.ofNat 32 ((List.range 1024).countP on))))) ∧
     (FitX s (.voteAny x) → exec (.voteAny x) s = .next (post g.1 (.e (x.dst.toNat % 4)) 3
       [some (if (g.2.zip a.2).any (fun e => e.1 && e.2) then 1 else 0)])) ∧
     (FitX s (.voteAll x) → exec (.voteAll x) s = .next (post g.1 (.e (x.dst.toNat % 4)) 3
       [some (if (g.2.zip a.2).all (fun e => !e.1 || e.2) then 1 else 0)])))

/-- R109, R178 to R181, R221 to R224: packing, expansion, histograms, top-k lists, norms, random numbers and samples. -/
def Obligations.ListsOfX : Prop :=
  ∀ (s : State) (x : Slot),
    let r := readIn s x 0
    let ri := readIn s x (immLaneInt x)
    (FitX s (.vcompr x) → ri.2.a.lanes.length = 1024 → ri.2.b.lanes.length = 1024 → ri.2.act.length = 1024 →
      let on := (List.range 1024).filter fun l => nth ri.2.act l false
      exec (.vcompr x) s = .next (writeAll ri.1 x 6 ((List.range 1024).map fun l =>
        if l < on.length then nth ri.2.a.lanes (nth on l 0) 0 else nth ri.2.b.lanes l 0))) ∧
    (FitX s (.vexpnd x) → ri.2.a.lanes.length = 1024 → ri.2.b.lanes.length = 1024 → ri.2.act.length = 1024 →
      exec (.vexpnd x) s = .next (writeAll ri.1 x 6 ((List.range 1024).map fun l =>
        if nth ri.2.act l false then nth ri.2.a.lanes ((List.range l).countP fun m => nth ri.2.act m false) 0
        else nth ri.2.b.lanes l 0))) ∧
    (FitX s (.vhist x) → r.2.a.lanes.length = 1024 → r.2.act.length = 1024 →
      let d := x.imm.toNat % 8
      let h (j : Nat) : Nat := (nth r.2.c.lanes j 0).toNat + (List.range 1024).countP fun l => nth r.2.act l false &&
        (d = 7 || (nth r.2.a.lanes l 0).toNat / 2 ^ (4 * d + 4) = (nth r.2.b.lanes 0 0).toNat / 2 ^ (4 * d + 4)) &&
        (nth r.2.a.lanes l 0).toNat / 2 ^ (4 * d) % 16 = j
      exec (.vhist x) s = .next (writeAll r.1 x 8 ((List.range 1024).map fun l =>
        if l < 16 then BitVec.ofNat 32 (h l)
        else if 64 ≤ l ∧ l < 80 then BitVec.ofNat 32 ((((List.range 16).filter (l - 64 ≤ ·)).map h).foldl (· + ·) 0) else 0))) ∧
    (FitX s (.vtopk x) → exec (.vtopk x) s = .next (writeAll r.1 x 12 (topk (x.type = 0) (x.imm.toNat % 16) (x.imm.toNat / 16 % 128)
      r.2.a.lanes r.2.act (nth r.2.b.lanes 0 0) (if x.srcC = 28 then none else some r.2.c.lanes)))) ∧
    (FitX s (.vnrm x) → let n := normStep (x.imm.getLsbD 0) (Rule.chosen r.2.act r.2.a.lanes) (nth r.2.b.lanes 0 0) (nth r.2.b.lanes 1 0)
      exec (.vnrm x) s = .next (writeAll r.1 x 10 (n.1 :: n.2 :: List.replicate 1022 0))) ∧
    (FitX s (.vrng x) → exec (.vrng x) s = .next (writeDst r.1 x 12 r.2.act (((List.range 256).flatMap fun g =>
        philox [nth r.2.a.lanes 0 0, nth r.2.a.lanes 1 0, nth r.2.a.lanes 2 0 + BitVec.ofNat 32 g, nth r.2.a.lanes 3 0]
          (BitVec.ofNat 32 (sampled r.1 (me r.1)).rngk.toNat) (BitVec.ofNat 32 ((sampled r.1 (me r.1)).rngk.toNat / 2 ^ 32))).map fun w =>
        if x.type = 13 then w else f32Of 0 false false (.fin false (w.toNat / 2 ^ 8) (-24))))) ∧
    (FitX s (.vsample x) →
      let a := source s x 0 x.srcA; let b := source a.1 x (immLane x) x.srcB; let c := source b.1 x 0 x.srcC
      let p := sample a.2.lanes (f32 false (nth b.2.lanes 0 0)) (f32 false (nth b.2.lanes 1 0)) (nth c.2.lanes 0 0)
      exec (.vsample x) s = .next (writeAll c.1 x 24 ([p.1, if p.2.2.2 = 1 then BitVec.ofInt 32 (-1) else BitVec.ofNat 32 p.2.1,
        BitVec.ofNat 32 p.2.2.1, BitVec.ofNat 32 p.2.2.2] ++ List.replicate 1020 0)))

/-- R109, R174, R180, R181, R221, R223, R224: what the functions that `MovesOfX` and `ListsOfX` name compute. A combination of lanes is
their exact sum rounded once, their extremum, or bit by bit; a top-k list holds its entries in the order of R181, of two that it leaves
tied in either order (log 67); Philox gives the check value of R221; VSAMPLE draws as R224 has it, its weights rounded 2^e of VEXP2 (log
10); VNRM rounds its sums and roots up. -/
def Obligations.ValuesOfLists : Prop :=
  (∀ (op : Nat) (isF : Bool) (m : FMode) (l : List W32), Rule.Combines op isF m l (combine op isF m l)) ∧
  (∀ (isF : Bool) (row k : Nat) (a : Lanes) (act : List Bool) (base : W32) (list : Option Lanes), k ≤ 64 →
    ∃ es : List (W32 × Int × Bool), es.Perm (Rule.topEntries isF row a act base list) ∧ es.Pairwise (fun d e => ¬Rule.entryBefore isF e d) ∧
      topk isF row k a act base list = (List.range 1024).map (Rule.listLane (es.take k) k)) ∧
  ((∀ (c0 c1 c2 c3 k0 k1 : W32), philox [c0, c1, c2, c3] k0 k1 =
      (Rule.philoxWords 10 (c0.toNat, c1.toNat, c2.toNat, c3.toNat) k0.toNat k1.toNat).map (BitVec.ofNat 32)) ∧
   philox [0, 0, 0, 0] 0 0 = [0x6627E8D5, 0xE169C58D, 0xBC57AC4C, 0x9B00DBD8] ∧
   ∀ w : W32, Rule.RoundsTo 0 false false 1 (.fin false (w.toNat / 2 ^ 8) (2 ^ 24)) (f32Of 0 false false (.fin false (w.toNat / 2 ^ 8) (-24)))) ∧
  (∀ (list : Lanes) (c p rnd : W32),
    Rule.Samples list c.toNat p.toNat rnd.toNat (sample list (f32 false c) (f32 false p) rnd)) ∧
  ∀ (last : Bool) (l : List W32) (s0 m0 : W32), Rule.Norms last l s0 m0 (normStep last l s0 m0)

/-- R110 to R112, R225 to R227: VCHECK counts and lists the active entries of its block and stages or hits their heat, unless the misses
would pass the limit, which is cause 0x09 with MLDIS set; VSPCHK counts the accepted drafts and commits staged heat, and COUNT of HSTG
becomes 0. -/
def Obligations.ChecksOfX : Prop :=
  ∀ (s : State) (x : Slot),
    let k := (me s).chk
    let im := x.imm.toNat
    let a := source s x 0 x.srcA
    let ls := checkedLanes k (x.type = 0) a.2.lanes
    let act := ls.filter (·.2.2.2.2)
    let m := (act.filter (·.2.2.1)).length
    let on := ls.map (·.2.2.2.2) ++ List.replicate (1024 - ls.length) false
    let miss := ls.map (fun e => e.2.2.2.2 && e.2.2.1) ++ List.replicate (1024 - ls.length) false
    (FitX s (.vcheck x) → k.valid = true → (im.testBit 6 = true → checkStaging s = .ok ()) →
      (k.vfy = true ∨ sampledMldis s (me s) = true ∨ k.limit = 0xFFFF ∨ k.mcnt + m ≤ k.limit) →
      (k.vfy = false → im.testBit 6 = false → heatError a.1 k ls = none) → (k.vfy = true → vfyError a.1 k ls = none) →
      let s1 := writeAll a.1 x 12 ((on.zip a.2.lanes).map fun e => if e.1 then e.2 else 0)
      let s2 := if im % 8 = 0 then s1 else writeP s1 (im % 8) 12 on
      let s3 := if im / 8 % 8 = 0 then s2 else writeP s2 (im / 8 % 8) 12 miss
      exec (.vcheck x) s = .next (modMe (checkEffects s3 k (x.type = 0) (im.testBit 6) (im / 128 % 64 + x.srcB.toNat % 2 * 64) ls)
        fun t => { t with chk := { t.chk with
          pos := k.pos + ls.length, mcnt := k.mcnt + m, acnt := if k.aen then k.acnt + act.length else k.acnt } })) ∧
    (FitX s (.vcheck x) → k.valid = true → (im.testBit 6 = true → checkStaging s = .ok ()) →
      k.vfy = false → sampledMldis s (me s) = false → k.limit ≠ 0xFFFF → k.limit < k.mcnt + m →
      Traps .x (exec (.vcheck x) s) s 9 (k.mcnt % 2 ^ 16 + m % 2 ^ 16 * 2 ^ 16 + k.limit * 2 ^ 32 + (if s.cur.slotB then 2 ^ 48 else 0))) ∧
    (FitX s (.vspchk x) →
      let b := source a.1 x 0 x.srcB; let c := source b.1 x 0 x.srcC
      let n := accepted a.2.lanes b.2.lanes c.2.lanes (im % 128)
      let s1 := writeAll c.1 x 24 ([BitVec.ofNat 32 n, if n < im % 128 then 1 else 0] ++ List.replicate 1022 0)
      (im.testBit 7 = false → exec (.vspchk x) s = .next s1) ∧
      (im.testBit 7 = true → ∀ hs, stagedHits s1 n = .ok hs →
        let v := hs.foldl (fun s h => hitAt s s.cur.core s.cur.slot h) s1
        exec (.vspchk x) s = .next (setStaged v 0) ∧ ((∀ o, (me s).sysOld = some o → o.cycle ≠ s.cycle) →
          setStaged v 0 = modMe v fun t => { t with sys := { t.sys with hstg := Rule.nat64 (t.sys.hstg.toNat % 2 ^ 48) } })))

/-- R193 to R198: reads and writes of tiles wait for the commands on them, a peek does not; MLDC and MSETF set the configuration
registers; MQRY reports the task's commands. -/
def Obligations.TilesOfX : Prop :=
  ∀ (s : State) (x : Slot),
    let z := x.imm.toNat % 8; let q := x.imm.toNat / 8 % 4
    let g := readP s x.pred.toNat
    (FitX s (.vrdacc x) → onTile s z = [] → exec (.vrdacc x) s = .next (writeDst (readZ g.1 z q).1 x 8 g.2 (readZ g.1 z q).2)) ∧
    (FitX s (.vrdacc x) → onTile s z ≠ [] → exec (.vrdacc x) s = .next (noteHold s .x .tile z)) ∧
    (FitX s (.vrdaccPeek x) →
      let p := peekTile g.1 z q
      let v := writeDst p.1 x 8 g.2 p.2.1
      exec (.vrdaccPeek x) s = .next (if x.imm.toNat / 64 % 8 = 0 then v
        else writeP v (x.imm.toNat / 64 % 8) 8 ((g.2.zip p.2.2).map fun b => b.1 && b.2))) ∧
    (FitX s (.vwracc x) → onTile s z = [] →
      let a := source s x 0 x.srcA; let g := readP a.1 x.pred.toNat
      exec (.vwracc x) s = .next (post g.1 (.z z) 4 (List.replicate (1024 * q) none ++
        ((g.2.zip a.2.lanes).map fun e => if e.1 then some e.2 else none) ++ List.replicate (1024 * (3 - q)) none))) ∧
    (FitX s (.mclr x) → onTile s z = [] → exec (.mclr x) s = .next (post s (.z z) 4 (List.replicate 4096 (some 0)))) ∧
    (FitX s (.mldc x) →
      let a := x.imm.toNat % 2 ^ 13 * 128
      let p : Place := .spm s.cur.core s.cur.slot a
      a + 128 ≤ spmUsable (me s) → readError s p 128 = none → exec (.mldc x) s = .next (modX s fun k => { k with
        cfg := (List.range 16).map fun i => Rule.nat64 (Rule.valueOfBytes (((bytesAt s p 128).drop (8 * i)).take 8)) })) ∧
    (∀ (sel : BitVec 8) (v : W64), FitX s (.msetf sel v) →
      exec (.msetf sel v) s = .next (modX s fun k => { k with cfg := Rule.configured k.cfg sel.toNat v })) ∧
    (FitX s (.mqry x) →
      let mine := (allCmds (myCore s).qm).filter fun m => m.slot = s.cur.slot
      let tiles := ((List.range 8).map fun k => if mine.any (fun m => (mcmdOf m.words).acct = k) then 2 ^ k else 0).foldl (· + ·) 0
      exec (.mqry x) s = .next (writeDst g.1 x 4 g.2 ([mine.length, nth (me s).cmdIdx 0 0, (me s).lastIdx, tiles, (me s).lastEng,
        (myCore s).active].map (BitVec.ofNat 32) ++ List.replicate 1018 0)))

/-- R29, R30, R157: a source is a register with no operation under way on it, the oldest block of an in-stream, which a pop takes and a
peek leaves, the immediate in every lane, or zero; p0 is true in every lane. R34, R158, R246: a result posted on a register, a predicate
or an e-flag with no other operation under way is there once its bound has passed, in the lanes it writes, and the other lanes keep what
they held; an out-stream takes its block at once. That it does not later, within the bound of R158, is the model's choice (log 19);
results on a destination with other operations under way are left out. -/
def Obligations.OperandsAndResultsOfX : Prop :=
  (∀ (s : State) (x : Slot) (imm : W32) (code : BitVec 5),
     (code.toNat < 16 → unsettled (xOf' s) (.v code.toNat) = false →
       (source s x imm code).1 = s ∧ (source s x imm code).2.lanes = nth (xOf' s).v code.toNat (List.replicate 1024 0)) ∧
     (16 ≤ code.toNat → code.toNat < 24 → ∀ b bs, (nth (me s).ins (code.toNat - 16) {}).blocks = b :: bs →
       (source s x imm code).2 = b ∧
       (x.imm.getLsbD 13 = true → (source s x imm code).1 = s) ∧
       (x.imm.getLsbD 13 = false → (nth (me (source s x imm code).1).ins (code.toNat - 16) {}).blocks = bs)) ∧
     (code = 28 → (source s x imm code).2.lanes = List.replicate 1024 0) ∧
     (code = 29 → (source s x imm code).2.lanes = List.replicate 1024 imm) ∧
     readP s 0 = (s, List.replicate 1024 true)) ∧
  ((∀ (s : State) (x : Slot) (n k : Nat) (act : List Bool) (r : Lanes), x.dst.toNat < 16 → (xOf' s).ops = [] → n ≤ k →
     act.length = 1024 → r.length = 1024 → (nth (xOf' s).v x.dst.toNat (List.replicate 1024 0)).length = 1024 →
     let t := settle (modX (writeDst s x n act r) fun c => { c with count := c.count + k })
     ∀ l < 1024, nth (readV t x.dst.toNat).2 l 0 =
       if nth act l false then nth r l 0 else nth (nth (xOf' s).v x.dst.toNat (List.replicate 1024 0)) l 0) ∧
   (∀ (s : State) (p n k : Nat) (r : List Bool), 0 < p → (xOf' s).ops = [] → n ≤ k → r.length = (nth (xOf' s).p p []).length →
     (readP (settle (modX (writeP s p n r) fun c => { c with count := c.count + k })) p).2 = r) ∧
   (∀ (s : State) (e n k : Nat) (v : Bool), (xOf' s).ops = [] → n ≤ k →
     (readE (settle (modX (post s (.e e) n [some (if v then 1 else 0)]) fun c => { c with count := c.count + k })) e).2 = v) ∧
   ∀ (s : State) (x : Slot) (n : Nat) (act : List Bool) (r : Lanes), 24 ≤ x.dst.toNat → x.dst.toNat < 28 →
     let o := x.dst.toNat - 24
     (nth (me (writeDst s x n act r)).outs o {}).blocks = (nth (me s).outs o {}).blocks ++
       [{ lanes := (act.zip r).map fun e => if e.1 then e.2 else 0, valid := act }])

/-- The frame of X: when an instruction of a slot leads to a next state, the registers of C, L and S are as before; but for MGO, which
lands the writes of its tile, no vector register, predicate, e-flag or tile changes at once, since results are posted (R34); but for
VCHECK and VSPCHK the system registers are as before, and every byte of the scratchpads but those that VCHECK stores to (heat bytes,
staged entries, the lists) and the heat bytes that VSPCHK applies; no instruction of a slot changes a byte of stack memory. -/
def Obligations.FrameOfX : Prop :=
  ∀ (s t : State) (i : Instr), i = .nop ∨ (∃ sel v, i = .msetf sel v) ∨ (xParts i).isSome = true → exec i s = .next t →
    (∀ m, reg t m = reg s m) ∧ (∀ m, flag t m = flag s m) ∧ (∀ m, getB t m = getB s m) ∧ (∀ m, getJ t m = getJ s m) ∧
    (∀ m, getY t m = getY s m) ∧
    ((∀ x, i ≠ .mgo x) → (me t).x.v = (me s).x.v ∧ (me t).x.p = (me s).x.p ∧ (me t).x.e = (me s).x.e ∧ (me t).x.z = (me s).x.z) ∧
    ((∀ x, i ≠ .vcheck x ∧ i ≠ .vspchk x ∧ i ≠ .mgo x) → (me t).sys = (me s).sys ∧
      (∀ c a, memByte (getCore t c).spm a = memByte (getCore s c).spm a)) ∧ t.mem = s.mem ∧ t.farMem = s.farMem ∧
    (∀ x, i = .mgo x → ({ (me t).sys with numfl := (me s).sys.numfl } : SysRegs) = (me s).sys ∧ ∀ c a, memByte (getCore t c).spm a = memByte (getCore s c).spm a) ∧
    (∀ x, i = .vcheck x → ∀ c a,
      (c = s.cur.core → ∀ off, Rule.checkStores s x off → a ≠ spmBase (me s) + off) →
      memByte (getCore t c).spm a = memByte (getCore s c).spm a) ∧
    ∀ x, i = .vspchk x → ∀ c a,
      (c = s.cur.core → ∀ off, Rule.acceptStores s x off → a ≠ spmBase (me s) + off) →
      memByte (getCore t c).spm a = memByte (getCore s c).spm a

/-! ## Events: tasks and scheduling -/

/-- R43, R302, R303, Table 19.3: the head task of a core that fits takes the lowest free slot and free ranges, with its code read and its
preload image at the bottom of its allotment, and every register at reset; TASK_START lets its four streams issue. R44, R291, R300: an end
instruction retires with its signal once what it waits for is done, and after the fourth the task leaves its slot; a faulted task leaves
it once its started commands have retired, and enters the queue again where its region asks for it. That a direct dispatch preloads too
and that a rerun keeps the copy of its type are the model's choices (log 36), and that retirement waits for the started commands is
another (log 41). -/
def Obligations.TasksStartAndEnd : Prop :=
  ((∀ (s s1 s2 s3 : State) (c n : Nat) (q : QTask) (e : Eff) (al0 al : Allot) (cd : Code) (bs : List Byte),
     let k := getCore s c
     headTask k = some q → q.save = none → q.waits k = false → dispatchEff s q = .ok (s1, e) →
     overBudget s1 q.rcb = false → freeSlot k = some n → fitPools (k.slots.map (·.2) ++ reserved k) q.tt = some al0 →
     headCode s1 c q e = .ok (s2, cd) → fitCode (k.slots.map (·.2)) cd al0 = some al → besideStaged k n cd = true →
     preload s2 c q e = .ok (s3, bs) →
     ∃ u, exec (.taskDispatch c) s = .next u ∧ resident s c n = false ∧ resident u c n = true ∧
       (let t := getTask u c n
       t.started = false ∧ t.tag = q.tag ∧ t.rcb = q.rcb ∧ t.lrec = q.lrec ∧ t.tt = q.tt ∧ t.eff = e ∧ t.code = cd ∧ t.al = al ∧
       t.c = { r := List.replicate 32 0 } ∧ t.j = List.replicate 16 0 ∧ t.y = List.replicate 8 0 ∧ t.sys = {} ∧
       (∀ p, (taskCtl t p).pc = 0) ∧ t.x.v = List.replicate q.tt.nv (List.replicate 1024 0) ∧
       t.x.z = List.replicate q.tt.nz (List.replicate 4096 0) ∧
       (∀ i < 16, nth t.tok i 0 = if i < q.tt.nt then (q.lrec.getD (4 + i / 8) 0).toNat / 2 ^ (8 * (i % 8)) % 256 else 0)) ∧
       (∀ j (h : j < bs.length), memByte (getCore u c).spm (al.spm * 32768 + j) = bs[j]) ∧
       (∀ x ∈ k.slots, overlap al.spm q.tt.spm x.2.al.spm x.2.tt.spm = false ∧ overlap al.v q.tt.nv x.2.al.v x.2.tt.nv = false ∧
         overlap al.t q.tt.nt x.2.al.t x.2.tt.nt = false) ∧ al.spm + q.tt.spm ≤ 32 ∧
       (∀ x ∈ reserved k, overlap al.spm q.tt.spm x.al.spm x.tt.spm = false ∧ overlap al.v q.tt.nv x.al.v x.tt.nv = false) ∧
       (getCore u c).dq = k.dq.erase q ∧ u.mem = s.mem ∧
       ∀ m, m ≠ n → resident s c m = true → getTask u c m =
         if (getTask s c m).rcb = q.rcb then { getTask s c m with eff := e } else getTask s c m) ∧
   ∀ (s : State) (c n : Nat), resident s c n = true →
     exec (.taskStart c n) s = .next (modTask s c n fun t => { t with started := true })) ∧
  ((∀ (s : State) (c n : Nat) (q : Seq) (o : Option Nat),
     let t := getTask s c n
     resident s c n = true → halted t s.cycle = false → (taskCtl t q).st = .ending → endReady s c n q = true →
     (taskCtl t q).owes = o → (∀ k, o = some k → tokRoom t k = true) →
     ((∃ p, p ≠ q ∧ (taskCtl t p).st ≠ .ended) → exec (.streamEndRetire c n q) s = .next (putTask s c n (modTaskCtl
       (match o with | some k => tokPush t k | none => t) q fun x => { x with st := .ended, owes := none, hold := none, held := 0 }))) ∧
     ((∀ p, p ≠ q → (taskCtl t p).st = .ended) → stillBusy s c n = false → ∃ u, exec (.streamEndRetire c n q) s = .next u ∧
       resident u c n = false ∧ (∀ m, m ≠ n → getTask u c m = getTask s c m) ∧
       (getCore u c).dq = (getCore s c).dq.map fun x => if x.after = t.tag then { x with held := false } else x)) ∧
   ∀ (s : State) (c n : Nat),
     let t := getTask s c n
     resident s c n = true → t.faulted = true → stillBusy s c n = false → (t.record = [] ∨ logWaits s t.rcb t.rcb = false) →
     (t.eff.rerun = false → ∃ u, exec (.faultedRetirement c n) s = .next u ∧ resident u c n = false ∧
       (getCore u c).dq = (getCore s c).dq.map fun x => if x.after = t.tag then { x with held := true } else x) ∧
     (t.eff.rerun = true → dqRoom s c = true → ∃ u x, exec (.faultedRetirement c n) s = .next u ∧ resident u c n = false ∧
       (getCore u c).dq.getLast? = some x ∧ x.tag = t.tag ∧ x.rcb = t.rcb ∧ x.lrec = t.lrec ∧ x.tt = t.tt ∧ x.save = none))

/-- R286 to R290, R298, R299, R304 to R306: the loader stages the head task beside the tasks that stay; the flip pre-empts its victims and
changes the planes; a flush adds a core's charges and clears them; a budget overrun is a trap with BPOL 1, a pre-emption at the drain
point with BPOL 0. That a head leaves its queue when it is staged and that a staged task that is not ready stays so over a flip (log 37),
and whose BPOL counts (log 38), are the model's choices; flips that start several staged tasks, or one with pegs to restore, are left out. -/
def Obligations.LoaderAndBudgets : Prop :=
  (∀ (s s1 s2 s' : State) (c : Nat) (q : QTask) (e : Eff) (cd : Code) (vs : List (Nat × Nat × Nat)) (al : Allot),
    let k := getCore s2 c
    let kept := (k.shadow.map (·.victims)).getD []
    let lower := (k.slots.filter fun t => !(kept.map (·.1)).contains t.1 && (t.2.eff.preempt && decide (t.2.eff.prio < e.prio))).foldl
      (fun l t => insertVictim t l) []
    let t := newTask s' q e al cd
    let old := stagedTasks (getCore s' c)
    headTask (getCore s c) = some q → tokenHolds s c = false → q.waits (getCore s c) = false → dispatchEff s q = .ok (s1, e) →
    overBudget s1 q.rcb = false → headCode s1 c q e = .ok (s2, cd) → direct k q cd = false →
    rowsWait s2 (lower.flatMap fun t => poolReads s2 t.2.eff.savep) = false → takeVictims c q.tt cd s2 kept lower = some (s', vs, al) →
    ((∃ v ∈ vs, overlap al.spm q.tt.spm (getTask s2 c v.1).al.spm (getTask s2 c v.1).tt.spm = true) →
      ∃ u, exec (.loaderStage c) s = .next u ∧ (getCore u c).shadow = some { victims := vs, staged := old, token := true, only := true } ∧
        (getCore u c).dq = (getCore s' c).dq) ∧
    ((∀ v ∈ vs, overlap al.spm q.tt.spm (getTask s2 c v.1).al.spm (getTask s2 c v.1).tt.spm = false) →
      (∀ s3 bs, q.save = none → preload s' c q e = .ok (s3, bs) →
        ∃ u, exec (.loaderStage c) s = .next u ∧ (getCore u c).shadow = some { victims := vs, staged := old ++ [⟨q, t⟩], token := true } ∧
          (getCore u c).dq = (getCore s' c).dq.erase q ∧ (getCore u c).slots = (getCore s' c).slots ∧
          ∀ j (h : j < bs.length), memByte (getCore u c).spm (al.spm * 32768 + j) = bs[j]) ∧
      (∀ s3 pool a img, q.save = some (pool, a) →
        reach s' [(a, 4096), (memW s' (a + 0x18), memW s' (a + 0x20) % 2 ^ 32)] = .ok s3 → checkArea s3 c q a = .ok img →
        ∃ u, exec (.loaderStage c) s = .next u ∧
          (getCore u c).shadow = some { victims := vs, staged := old ++ [⟨q, restoredTask s3 t a⟩], token := true } ∧
          (getCore u c).dq = (getCore s' c).dq.erase q ∧ (getCore u c).slots = (getCore s' c).slots))) ∧
  (∀ (s : State) (c : Nat) (h : Shadow),
    let k := getCore s c
    let out (s : State) : State := h.victims.foldl (fun s v => preempt s c v.1 v.2.1 v.2.2) s
    k.shadow = some h → canFlip s c h = true → (∀ e ∈ k.slots, atDrain s c e.1 = true) → k.dq.length + h.victims.length ≤ 64 →
    (∀ e ∈ k.slots, (∃ v ∈ h.victims, v.1 = e.1) ∨ overran s e.2 = false ∨ canLeave s c e.2 = false) →
    ((∀ x ∈ h.staged, x.ready s c = false) →
      ∃ u, exec (.planeFlip c) s = .next u ∧ (getCore u c).plane = 1 - k.plane ∧ stagedTasks (getCore u c) = h.staged ∧
        (∀ v ∈ h.victims, resident u c v.1 = false) ∧
        ∀ m, (∀ v ∈ h.victims, v.1 ≠ m) → resident u c m = resident s c m ∧
          (resident s c m = true → (getTask u c m).tag = (getTask s c m).tag ∧
            ((∀ e ∈ k.slots, e.1 = m → overran (out s) e.2 = false) → (getTask u c m).drainPt = none) ∧
            ((∀ e ∈ k.slots, e.1 = m → overran (out s) e.2 = true) → (getTask u c m).drainPt = (getTask s c m).drainPt))) ∧
    ∀ x n al s1, h.staged = [x] → x.ready s c = true → x.task.pegs = [] → reach s (regionReads s x.task.rcb) = .ok s1 →
      let s2 := flipPlanes (out s1) c []
      freeSlot (getCore s2 c) = some n → fitCode ((getCore s2 c).slots.map (·.2)) x.task.code x.task.al = some al →
      ∃ u, exec (.planeFlip c) s = .next u ∧ (getCore u c).plane = 1 - k.plane ∧ resident u c n = true ∧
        let t := getTask u c n
        t.started = true ∧ t.tag = x.task.tag ∧ t.al = al ∧ t.c = x.task.c ∧ t.j = x.task.j ∧ t.y = x.task.y ∧ t.x = x.task.x ∧
        t.tok = x.task.tok ∧ t.sys = x.task.sys ∧ t.code = x.task.code ∧ t.pegs = x.qt.lost ∧
        ∀ e, regionEff s2 x.task.rcb = some e → (∀ r ∈ regionReads s2 x.task.rcb, poisonIn s2 r.1 r.2 = none) → t.eff = e) ∧
  (∀ (s : State) (c : Nat),
    (s.time.toNat / 1000 ≠ (getCore s c).flushAt → rowsWait s (flushReads s c) = false →
      exec (.budgetFlush c) s = .next (flushBudget s c)) ∧
    (s.time.toNat / 1000 = (getCore s c).flushAt ∨ rowsWait s (flushReads s c) = true → exec (.budgetFlush c) s = .next s) ∧
    (getCore (flushBudget s c) c).charges = [] ∧ (getCore (flushBudget s c) c).flushAt = s.time.toNat / 1000) ∧
  ∀ (s : State) (c n : Nat),
    let t := getTask s c n
    resident s c n = true → t.started = true → t.faulted = false →
    (untold s t ≠ [] → ∃ u, exec (.budgetOverrun c n) s = .next u ∧
      (getTask u c n).faults = t.faults ++ [{
        cause := 0x0E, detail := Rule.nat64 ((untold s t).foldl (fun v b => v ||| exhaustedBy s b) 0), seq := 6, cycle := s.cycle }] ∧
      ∀ b ∈ untold s t, tabFind (getTask u c n).overrun b.rcb = some (memW s (b.rcb + 144))) ∧
    (∀ s1 pool a, untold s t = [] → overrunning s t.rcb false ≠ 0 → atDrain s c n = true → dqRoom s c = true →
      rowsWait s (poolReads s t.eff.savep) = false → (getCore s c).shadow = none → claimEntry s t = some (s1, pool, a) →
      ∃ u x, exec (.budgetOverrun c n) s = .next u ∧ resident u c n = false ∧ (getCore u c).dq.getLast? = some x ∧ x.tag = t.tag ∧
        x.rcb = t.rcb ∧ x.lrec = t.lrec ∧ x.save = some (pool, a) ∧ x.overrun = t.overrun ∧
        x.lost = if t.eff.pegpol then [] else t.pegs.map fun p => { p with st := .lost })

/-- R311 to R313, R315, R316: the front end launches the oldest entry of the host launch queue, or an event's record when its value has
risen to THR, as soon as the queues have room; a tender keeps the bids of its window, puts them in order and offers the award to each. -/
def Obligations.LaunchAndTenderEvents : Prop :=
  (∀ (s s1 s2 : State),
    let q := s.lqbase.toNat
    let size := memW s q % 2 ^ 32
    let head := memW s (q + 64)
    let n := (memW s (q + 8) + 2 ^ 64 - head) % 2 ^ 64
    let a := q + 128 + 64 * (head % size)
    let r := recordAt s2 a
    q ≠ 0 → size ≠ 0 → memW s q / 2 ^ 32 % 2 ^ 16 = 64 → 0 < n → n ≤ size →
    reachGood s [(q, 72)] = .ok s1 → reachGood s1 [(a, 64)] = .ok s2 →
    (∀ s3 tt e rcb cores, checkLaunch s2 512 a r none false = .ok (s3, tt, e, rcb, cores) → (∀ c ∈ cores, dqRoom s3 c = true) →
      exec .hostLaunchEntry s = .next (setMemW (cores.foldl (fun u c => enqueueTask u c (queued s3 r tt e rcb)) s3)
        (q + 64) ((head + 1) % 2 ^ 64))) ∧
    (∀ w cause d, (checkLaunch s2 512 a r none false = .error (.trap cause d) ∧ w = s2 ∨
        checkLaunch s2 512 a r none false = .error (.trapIn w cause d)) →
      let own := failedRegion w (lrecOf r).rcb
      logWaits w own own = false → exec .hostLaunchEntry s = .next (setMemW (faultLog w own (Rule.recordOf { tag := (lrecOf r).tag }
        0 { cause := cause, detail := Rule.nat64 d, seq := 6 })) (q + 64) ((head + 1) % 2 ^ 64)))) ∧
  (∀ (s : State) (e : Nat) (x : Int),
    let v := tabGet {} s.events e
    let thr : Int := ((v.ctl.toNat / 2 ^ 16 % 2 ^ 32 : Nat) : Int)
    let put (s : State) (v : SchedEv) : State := { s with events := tabSet s.events e v }
    let w : SchedEv := { v with
      below := decide (x < thr)
      armed := if x < thr then v.armed || decide (x + ((v.ctl.toNat / 2 ^ 48 : Nat) : Int) < thr) else v.armed && !v.below
      due := v.due + if thr ≤ x ∧ v.below = true ∧ v.armed = true then 1 else 0 }
    e < 8 → watched s v = some x →
    (w.due = 0 ∨ frontLaunch s v.erec.toNat = none → exec (.counterEvent e) s = .next (put s w)) ∧
    (∀ t, 0 < w.due → frontLaunch s v.erec.toNat = some t → exec (.counterEvent e) s = .next (put t { w with due := w.due - 1 }))) ∧
  (∀ (s : State) (c n b : Nat) (T : Tender) (f : List W64),
    (getTask s c n).tender = some T → T.closed = false → b ∈ T.cores → tabFind (getCore s b).forms T.cls = some f →
    (s.cycle ≤ T.start + T.win → exec (.tenderBid c n b) s = .next (modTask s c n fun t => { t with tender := some { T with
      cores := T.cores.erase b, bids := T.bids ++ [⟨b, bidCost s f T.key b c, hopOf b c⟩], kept := T.kept + 1 } })) ∧
    (s.cycle > T.start + T.win → exec (.tenderBid c n b) s =
      .next (modTask s c n fun t => { t with tender := some { T with cores := T.cores.erase b } }))) ∧
  (∀ (s : State) (c n : Nat) (T : Tender), (getTask s c n).tender = some T → T.closed = false → s.cycle > T.start + T.win →
    ∃ l : List Bid, exec (.tenderWindowClose c n) s = .next (modTask s c n fun t =>
        { t with tender := some { T with closed := true, bids := l } }) ∧ l.Perm T.bids ∧
      l.Pairwise fun x y => x.cost < y.cost ∨ (x.cost = y.cost ∧ (x.hop < y.hop ∨ (x.hop = y.hop ∧ x.core ≤ y.core)))) ∧
  (∀ (s : State) (c n : Nat) (T : Tender),
    let t := getTask s c n
    t.tender = some T → T.closed = true → halted t s.cycle = false → t.c.ctl.st = .busy .tender 0 →
    (∀ b bs e, T.bids = b :: bs → dqRoom s b.core = true → effKnown s T.rcb = some e → 0 < T.rd → T.rd < 32 →
      ∃ u, exec (.tenderOffer c n) s = .next u ∧ (getTask u c n).tender = none ∧
        (getCore u b.core).dq = (getCore s b.core).dq ++
          [{ queued s T.lrec T.tt e T.rcb with placed := some (c, t.uid, T.must), uid := s.taskNo + 1 }] ∧
        nth (getTask u c n).c.r T.rd 0 = Rule.nat64 (b.core % 256 + 2 ^ 8 + T.kept % 256 * 2 ^ 16 + T.wdrawn % 256 * 2 ^ 24)) ∧
    (∀ b bs, T.bids = b :: bs → dqRoom s b.core = false → exec (.tenderOffer c n) s =
      .next (modTask s c n fun t => { t with tender := some { T with bids := bs, wdrawn := T.wdrawn + 1 } })) ∧
    (T.bids = [] → T.must = true → exec (.tenderOffer c n) s =
      .next (raise (at_ (modTask s c n fun t => { t with tender := none }) c n) .c 0x0D (lrecOf T.lrec).tag)) ∧
    (T.bids = [] → T.must = false → 0 < T.rd → T.rd < 32 → ∃ u, exec (.tenderOffer c n) s = .next u ∧ (getTask u c n).tender = none ∧
      (getTask u c n).sys.tstat = t.sys.tstat ||| 0x20000000000 ∧
      nth (getTask u c n).c.r T.rd 0 = Rule.nat64 (T.kept % 256 * 2 ^ 16 + T.wdrawn % 256 * 2 ^ 24))) ∧
  ∀ (s : State) (k : Nat) (w : Notice), s.notices[k]? = some w →
    let s' : State := { s with notices := s.notices.eraseIdx k }
    ((∀ e ∈ (getCore s w.core).slots, e.2.uid ≠ w.uid) → exec (.withdrawalNotice k) s = .next s') ∧
    ∀ n t, ((getCore s w.core).slots.find? fun e => decide (e.2.uid = w.uid)) = some (n, t) →
      (w.must = true → exec (.withdrawalNotice k) s = .next (modTask s' w.core n fun t => addFault t {
        cause := 0x0D, detail := Rule.nat64 (w.wtag + w.wcore * 2 ^ 32), seq := 6, cycle := s.cycle })) ∧
      (w.must = false → exec (.withdrawalNotice k) s = .next (modTask s' w.core n fun t => { t with sys := { t.sys with
        tstat := Rule.nat64 (t.sys.tstat.toNat / 2 ^ 41 % 2 * 2 ^ 41 + 2 ^ 40 + w.wcore * 2 ^ 32 + w.wtag) } }))

/-! ## Events: the handler context -/

/-- R281, R282, R327: a miss of a task with a refill entry starts the handler context there with TMISS; without one, the walker fills the
cache or finds no mapping; a notification starts the handler context at its entry, and is dropped where its task is gone or names none.
That the notification of a task that is gone is dropped (log 41) and that a miss of REMQ has the sequencer number 4 (log 26) are the
model's choices. -/
def Obligations.HandlerEvents : Prop :=
  (∀ (s : State) (c n e : Nat) (m : Miss),
    let t := getTask s c n
    t.tt.refill = some e → (t.miss.find? fun m => !m.served && !m.noMap) = some m → takesNext (getCore s c) n 1 = true →
    ∃ u, exec (.refillEvent c n) s = .next u ∧ (getCore u c).h.serving = some (n, 1) ∧ (getCore u c).h.kind = 1 ∧
      (getCore u c).h.retire = false ∧ (getCore u c).h.tmiss = Rule.nat64 (m.acc * 2 ^ 48 + m.va / 2 ^ 21 % 2 ^ 27 * 2 ^ 21) ∧
      (getCore u c).h.ctx = { (getCore s c).h.ctx with ctl := { pc := 4 * e } } ∧
      (getTask u c n).miss = (t.miss.map fun x => if x = m then { x with served := true } else x) ∧
      (getTask u c n).stopped = t.stopped ∧ ∀ q, taskCtl (getTask u c n) q = taskCtl t q) ∧
  (∀ (s s1 : State) (c n : Nat) (q : Seq) (m : Miss),
    let t := getTask s c n
    t.tt.refill = none → (t.miss.find? fun m => !m.noMap && (m.q = seqCode q || (q == .c && m.q = 4))) = some m →
    reach s (walkReads s t.eff.troot m.va) = .ok s1 →
    (walk s t.eff.troot m.va = none → ∃ u, exec (.tableWalk c n q) s = .next u ∧
      (getTask u c n).miss = t.miss.map fun x => if x = m then { x with noMap := true } else x) ∧
    (∀ e t', walk s t.eff.troot m.va = some e → cacheInsert s1 c t.rcb (m.va / 2 ^ 21) (Rule.nat64 e) = some t' →
      ∃ u, exec (.tableWalk c n q) s = .next u ∧ (getTask u c n).miss = t.miss.filter (fun x => decide (x ≠ m)) ∧
        ∃ x, cacheFind (getCore u c) t.rcb m.va = some x)) ∧
  ∀ (s : State) (c n : Nat) (e : HEvent), ((getCore s c).h.waiting.find? fun e => decide (e.slot = n) && decide (e.kind = 2)) = some e →
    (∀ x, resident s c n = true → (getTask s c n).tt.note = some x → takesNext (getCore s c) n 2 = true →
      ∃ u, exec (.notification c n) s = .next u ∧ (getCore u c).h.serving = some (n, 2) ∧ (getCore u c).h.kind = 2 ∧
        (getCore u c).h.ctx = { (getCore s c).h.ctx with ctl := { pc := 4 * x } } ∧
        (getCore u c).h.waiting = (getCore s c).h.waiting.erase e ∧ getTask u c n = getTask s c n) ∧
    (resident s c n = false ∨ (getTask s c n).tt.note = none → exec (.notification c n) s = .next (modCore s c fun k =>
      { k with h := { k.h with waiting := k.h.waiting.erase e } }))

/-- R284, Tables 16.5 and 16.6: a wait of a sequencer, of the handler context or of a command's WAITM that has lasted LIMIT cycles, and
lasts still, raises cause 0x0C with LIMIT, what is waited for and the kind of the wait. R278, R279, R283, Table 6.5: writes of TFILL, TINV
and TRVAL act for the task that the handler context serves; a write of PRVIOL keeps what is written in its low half and puts 0xFFFF above
it. That LIMIT is read in the cycle of the comparison, and that of several queues without a token the lowest is named, are the model's
choices (log 27). -/
def Obligations.HoldTimeoutsAndHandlerWrites : Prop :=
  ((∀ (s : State) (c n num : Nat) (q : Seq) (k : HoldKind) (w : Nat),
     let t := getTask s c n
     let limit := Rule.limitOf (sampled s t)
     resident s c n = true → halted t s.cycle = false → (q = .c → ∀ x, (getCore s c).h.serving = some x → x.1 ≠ n) →
     (taskCtl t q).hold = some (k, num) → Rule.waitNo k = some w →
     (lacks s c n false q (taskCtl t q) = false → exec (.holdTimeout c n q) s = .next s) ∧
     ((k = .token ∧ tokAvail t num = false) ∨ (k = .push ∧ tokRoom t num = false) ∨ lacks s c n false q (taskCtl t q) = true →
     (taskCtl t q).held ≥ limit → ∃ u, exec (.holdTimeout c n q) s = .next u ∧ (taskCtl (getTask u c n) q).st = .faulted ∧
       (taskCtl (getTask u c n) q).pc = (taskCtl t q).pc ∧ (getTask u c n).faults = t.faults ++
         [{ cause := 0x0C, detail := Rule.nat64 (Rule.holdWord limit num w), seq := seqCode q, cycle := s.cycle }])) ∧
   (∀ (s : State) (c n kind num : Nat) (k : HoldKind) (w : Nat),
     let t := getTask s c n
     let h := (getCore s c).h
     let limit := Rule.limitOf (sampled s t)
     resident s c n = true → h.serving = some (n, kind) → h.ctx.ctl.hold = some (k, num) → h.ctx.ctl.held ≥ limit →
     lacks s c n true .c h.ctx.ctl = true → Rule.waitNo k = some w → ∃ u, exec (.holdTimeout c n .c) s = .next u ∧ (getTask u c n).faulted = true ∧
       (getTask u c n).stopped = true ∧ (getCore u c).h.serving = none ∧
       (getTask u c n).record.getLast? = some (Rule.nat64 (Rule.holdWord limit num w))) ∧
   ∀ (s : State) (c : Nat) (q : Queue) (m : Cmd) (i : Nat) (is : List Nat),
     let t := getTask s c m.slot
     (engQ (getCore s c) q).deq = some m → lackingTokens t m = i :: is →
     s.cycle ≥ (engQ (getCore s c) q).waitAt + Rule.limitOf (sampled s t) →
     ∃ u, exec (.engineWaitmTimeout c q) s = .next u ∧ (engQ (getCore u c) q).deq = none ∧
       (getTask u c m.slot).faults = t.faults ++ [Rule.commandFault q m 0x0C (Rule.holdWord (Rule.limitOf (sampled s t)) i 7) 0 s.cycle]) ∧
  ((∀ (s t : State) (c n k : Nat) (v : W64), (getCore s c).h.serving = some (n, k) →
     (tfill (at_ s c n true) v = .ok t → exec (.tfillWrite c v) s = .next t) ∧
     (tinv (at_ s c n true) v = .ok t → exec (.tinvWrite c v) s = .next t) ∧
     (Rule.trappedWritten (at_ s c n true) v = some t → exec (.trvalWrite c v) s = .next t)) ∧
   ∀ (s : State) (c n : Nat) (v : W64), resident s c n = true → ∃ u, exec (.prviolWrite c n v) s = .next u ∧
     (getTask u c n).sys = { (getTask s c n).sys with prviol := Rule.nat64 (v.toNat % 2 ^ 32 + 0xFFFF * 2 ^ 32) } ∧
     (getTask u c n).c = (getTask s c n).c ∧ u.mem = s.mem)

/-! ## Events: engines, streams and remote requests -/

/-- R40, R321, R322, R325: an engine takes its queue's next command once its gap has passed; grants start engines that asked before the
boundary; filler follows the warm window, and the engine is idle after it. R39, R96, R101, R107, R113, R135: the dequeued command of the
weight streamer or the predictor starts once its tokens are there and none runs, pops them, and has its whole effect; a weight command
changes no byte of memory or scratchpad. R11, R265: a copy starts beside those in flight, and one of them is made at a time; which one
moves next only tokens order. That a free choice takes that order, and that a copy is made whole, are the model's choices (logs 22 and
63); CommandEffects says what the bodies named here leave. -/
def Obligations.EnginesAndTheirCommands : Prop :=
  ((∀ (s : State) (c : Nat) (q : Queue) (m : Cmd) (r : List Cmd), (engQ (getCore s c) q).deq = none →
     (engQ (getCore s c) q).q = m :: r →
     (∀ k, (engQ (getCore s c) q).lastDeq = some k → k + Rule.gapOf (tabGet {} s.cols (columnOf c)).level q m.gap ≤ s.cycle) →
     exec (.commandDequeue c q) s = .next (modCore s c fun k => modEngQ k q fun e =>
       { e with q := r, deq := some m, waitAt := s.cycle, lastDeq := some s.cycle })) ∧
   (∀ (s : State) (col : Nat), s.cycle % 4 = 0 → (tabGet {} s.cols col).noGrant ≤ s.cycle →
     ∃ u, exec (.startGrant col) s = .next u ∧ (tabGet {} u.cols col).noGrant ≥ s.cycle + 4 ∧
       (∀ c e, engSt (getCore u c) e ≠ engSt (getCore s c) e → ∃ k, reqSince (engSt (getCore s c) e) = some k ∧ k < s.cycle ∧
         (engSt (getCore s c) e = .request k ∧ engSt (getCore u c) e = .up s.cycle 0 ∨
           ∃ r, engSt (getCore s c) e = .low r k ∧ engSt (getCore u c) e = .up s.cycle r)) ∧
       ∀ r, (coresOf col).flatMap (coreReqs s s.cycle) = [r] → r.eng < 2 →
         u = { grantReq s s.cycle r with cols := tabSet s.cols col { tabGet {} s.cols col with
           noGrant := s.cycle + (if (tabGet {} s.cols col).level = 2 then 8 else 4) } }) ∧
   ∀ (s : State) (c e l : Nat),
     (engSt (getCore s c) e = .warm l → l + 9 ≤ s.cycle →
       exec (.warmWindowExpiry c e) s = .next (modCore s c fun k => setEngSt k e (.filler l))) ∧
     (engSt (getCore s c) e = .filler l → l + 37 ≤ s.cycle →
       exec (.fillerEnd c e) s = .next (modCore s c fun k => setEngSt k e .idle))) ∧
  ((∀ (s : State) (c : Nat),
     let e := (getCore s c).qc
     (∀ m, e.deq = some m → cmdOp m = 0x10 → tokensReady s c m = true → copiesDue e = [] →
       exec (.copyCommand c) s = .next (modCore (popTokens s c m) c fun k =>
         { k with qc := { k.qc with deq := none, running := k.qc.running ++ [{ cmd := m, todo := true }] } })) ∧
     (∀ j r t f keys, startCopy c s = none → copiesDue e = [j] → e.running[j]? = some r →
       copyBody c (r.spare ++ (e.running.drop (j + 1)).flatMap (·.wrote)) s r.cmd = .ok (t, f, keys) →
       (f = none → exec (.copyCommand c) s = .next (modCore t c fun k =>
         { k with qc := { k.qc with running := k.qc.running.set j { r with todo := false, wrote := keys } } })) ∧
       (∀ g, f = some g → ∃ u, exec (.copyCommand c) s = .next u ∧
         (getCore u c).qc.running = (e.running.take j).map (fun x => { x with spare := x.spare ++ keys }) ++ e.running.drop (j + 1) ∧
         (getTask u c r.cmd.slot).faults = (getTask t c r.cmd.slot).faults ++
           [Rule.commandFault .copy r.cmd g.cause g.detail g.prog t.cycle])) ∧
     (copiesDue e ≠ [] → (∃ j ∈ copiesDue e, ∃ v, (v = s ∨ v = bump s) ∧ exec (.copyCommand c) s = .next (makeCopy c j v)) ∨
       ∃ t, startCopy c s = some t ∧ exec (.copyCommand c) s = .next (bump t))) ∧
   (∀ (s t : State) (i : Instr) (c op : Nat) (q : Queue) (body : State → Cmd → M (State × Option EngFault × Running)) (m : Cmd)
       (f : Option EngFault) (r : Running), Rule.commandEvent i = some (c, q, op, body) →
     (engQ (getCore s c) q).deq = some m → cmdOp m = op → (engQ (getCore s c) q).running = [] → tokensReady s c m = true →
     body (popTokens s c m) m = .ok (t, f, r) →
     (f = none → exec i s = .next (modCore t c fun k => modEngQ k q fun e => { e with deq := none, running := [r] })) ∧
     (∀ g, f = some g → ∃ u, exec i s = .next u ∧ (engQ (getCore u c) q).deq = none ∧ (engQ (getCore u c) q).running = [] ∧
       (getTask u c m.slot).faults = (getTask t c m.slot).faults ++ [Rule.commandFault q m g.cause g.detail g.prog t.cycle])) ∧
   ∀ (s u : State) (i : Instr) (c op : Nat) (body : State → Cmd → M (State × Option EngFault × Running)),
     Rule.commandEvent i = some (c, .weight, op, body) → exec i s = .next u →
     u.mem = s.mem ∧ u.farMem = s.farMem ∧ ∀ d, (getCore u d).spm = (getCore s d).spm)

/-- R88 to R91, R93, R96, R98, R107, R135, R136: what the commands leave that EnginesAndTheirCommands starts. A copy writes for each
position that its destination does not drop the source's pattern, or its value converted, each bit once, and no other bit, and leaves
alone the bytes that later copies have written. A tile or a gather writes its image into the buffers that BUF selects: the header, and
each row with its scales and indices as memory holds it, or as the airing store took it. A score decays the heats, writes scores or
classes as R107 gives them, the lists and the check context, and no other byte. Overlaps of what a command writes with what it reads or
writes, a fill by a codebook, and an e8 copy of a value that e8 does not hold are left out (R7, logs 12 and 56). -/
def Obligations.CommandEffects : Prop :=
  (∀ (s t : State) (c : Nat) (m : Cmd) (later keys : List Nat),
    let l := layoutOf m.lrec
    let l2 := layoutOf m.lrec2
    let ws := boxOf l.w
    let target := Rule.copyTarget s c m
    copyBody c later s m = .ok (t, none, keys) → l.fmt < 16 → l.fmt ≠ 14 → l2.fmt < 16 → l2.fmt ≠ 12 → l2.fmt ≠ 14 →
    (l.fmt ≠ l2.fmt → l.fmt ≠ 15 ∧ l2.fmt ≠ 15) → (l.fmt = 12 → ∀ w ∈ ws, (Rule.copyFrom m w).isSome = true) →
    ((ws.flatMap target).map (Rule.keyed s)).Nodup → (∀ p ∈ ws.flatMap target, placeKey s p.1 ∉ ws.flatMap (Rule.copySource s c m)) →
    (∀ w ∈ ws, target w ≠ [] → ∃ r,
      (let x := Rule.copied s c m w
       if l.fmt = l2.fmt ∧ l.sbase = 0 then r = x.1
       else if l2.fmt = 15 then ∀ q < 256, x.2.same (Rule.valueOf 15 false q) → r = q
       else ∃ q, Rule.Converts l2.fmt 0 true 1 x.2 q ∧ r = Rule.flushed l2.fmt (Rule.flushes l2.fmt m.flm.toNat 1) q) ∧
      ∀ b (h : b < (target w).length), placeKey s (target w)[b].1 ∉ later → Rule.bitAt t (target w)[b] = r.testBit b) ∧
    (∀ p b, b < 8 → (Rule.keyed s (p, b) ∉ (ws.flatMap target).map (Rule.keyed s) ∨ placeKey s p ∈ later) →
      Rule.bitAt t (p, b) = Rule.bitAt s (p, b)) ∧
    ∀ k, k ∈ keys ↔ k ∉ later ∧ ∃ p ∈ ws.flatMap target, placeKey s p.1 = k) ∧
  (∀ (s t : State) (c : Nat) (m : Cmd) (r : Running),
    let n := m.slot
    let l := layoutOf ((m.words.drop 1).take 12)
    let nm := (cmdW m 0) / 2 ^ 51 % 4
    let buf := (cmdW m 0) / 2 ^ 48 % 4
    let base := 64 * ((cmdW m 15) % 2 ^ 11)
    let list := cmdW m 13 % 2 ^ 20
    let heat := (cmdW m 0).testBit 50
    let entry (i : Nat) : Nat := spm32 s c n (list + 4 + 4 * i)
    let slot (i : Nat) := (getTask s c n).air.slots.find? fun e => e.2.base = l.base ∧ e.2.row = entry i
    1 ≤ l.fmt → l.fmt ≤ 12 → (l.sbase ≠ 0 → l.sfmt ∈ [0, 1, 2, 15]) → (nth l.st 1 0 * (Rule.widthOf l.fmt : Int)) % 8 = 0 →
    (let rows := nth l.w 1 0
     let h := Rule.headerFor l nm rows
     tileBody c s m = .ok (t, none, r) → base + 64 * Rule.imageUnits h ≤ 2 ^ 17 → h.spitch < 2048 →
     Rule.ImageIn s t c buf base h fun wb => ∀ i < rows, Rule.RowOfTable s c n l (cmdW m 14) (cmdW m 13 / 2 ^ 48 + i) wb base h i) ∧
    (let rows := spm32 s c n list
     let h := Rule.headerFor l nm rows
     gatherBody c s m = .ok (t, none, r) → rows < 2 ^ 16 → h.spitch < 2048 →
     Rule.ImageIn s t c buf base h fun wb => ∀ i < rows,
       let table := Rule.RowOfTable s c n l (cmdW m 14) (entry i) wb base h i
       let kept (e : Nat × AirSlot) : Prop := Rule.RowOfSlot l e.2.bytes wb base h i
       (table ∨ ∃ e ∈ (getTask s c n).air.slots, e.2.base = l.base ∧ e.2.row = entry i ∧ kept e) ∧
       (heat = false → (slot i = none → table) ∧ ∀ e, slot i = some e → kept e))) ∧
  ∀ (s t : State) (c : Nat) (m : Cmd) (r : Running),
    let n := m.slot
    let d := descOf ((m.words.drop 1).take 8 |>.map (·.toNat))
    let vfy := (cmdW m 0).testBit 48
    let inp := cmdW m 9 % 2 ^ 20
    let f (b : Nat) := Rule.valueOf 0 false b
    let w (a : Nat) := spm32 s c n a
    let byte (u : State) (a : Nat) := (spmByte u c n a).toNat
    let heat (i : Nat) : Nat := byte s (d.hbase + i * d.hst) - byte s (d.hbase + i * d.hst) / 8
    let coef (i k : Nat) : Nat := byte s (d.ubase + i * d.upitch + k / 2) / 16 ^ (k % 2) % 16
    let rows := List.range d.nrow
    predictBody c s m = .ok (t, none, r) → scoreOverlap d vfy inp = [] → d.hst ≠ 0 →
    ∃ (sc g : Nat → W32) (cls : Nat → Nat) (k : CheckCtx),
      (∀ i < d.nrow, Rule.Scores d.gf (w inp) (w (inp + 4)) ((List.range d.rank).map fun k => f (w (inp + 8 + 4 * k)))
        ((List.range d.rank).map fun k => Rule.valueOf 9 false (coef i k)) (byte s (d.ubase + i * d.upitch + d.rank / 2))
        (w (d.ebase + 4 * i)) (w (d.lbase + 4 * i)) (sc i) (g i)) ∧
      (∀ i < d.nrow,
        (vfy = true → cls i = 1 ∧ spm32 t c n (d.vbase + 8 * i) = (sc i).toNat ∧ spm32 t c n (d.vbase + 8 * i + 4) = (g i).toNat) ∧
        (vfy = false → Rule.ClassOf (sc i) (g i) (cmdW m 10 % 2 ^ 32) (cmdW m 10 / 2 ^ 32) (cmdW m 11 % 2 ^ 32) (heat i) (cls i) ∧
          byte t (d.hbase + i * d.hst) = heat i)) ∧
      (Rule.ListAt t c n d.plist (rows.filter fun i => cls i = 0) ∧ Rule.ListAt t c n d.qlist (rows.filter fun i => cls i = 1) ∧
       Rule.ListAt t c n d.ulist (rows.filter fun i => cls i ≠ 2) ∧ Rule.ListAt t c n d.mlist [] ∧ (d.aen = true → Rule.ListAt t c n d.alist [])) ∧
      (r.chk = some k ∧ k.valid = true ∧ k.vfy = vfy ∧ k.aen = d.aen ∧ k.pos = 0 ∧ k.mcnt = 0 ∧
       k.hbase = d.hbase ∧ k.hst = d.hst ∧ k.mlist = d.mlist ∧ k.alist = d.alist ∧ k.vbase = d.vbase ∧
       k.tau.toNat = cmdW m 11 % 2 ^ 32 ∧ k.limit = cmdW m 11 / 2 ^ 32 % 2 ^ 16 ∧
       k.u = (rows.filter fun i => cls i ≠ 2).map fun i => (i, decide (cls i = 1))) ∧
      (∀ x, (∀ i < d.nrow, x ≠ spmBase (getTask s c n) + d.hbase + i * d.hst ∨ vfy = true) →
        (∀ a ∈ [d.plist, d.qlist, d.ulist, d.mlist] ++ (if d.aen then [d.alist] else []),
          x < spmBase (getTask s c n) + a ∨ spmBase (getTask s c n) + a + 4 * (d.nrow + 1) ≤ x) →
        (vfy = true → x < spmBase (getTask s c n) + d.vbase ∨ spmBase (getTask s c n) + d.vbase + 8 * d.nrow ≤ x) →
        memByte (getCore t c).spm x = memByte (getCore s c).spm x) ∧
      (∀ q ≠ c, (getCore t q).spm = (getCore s q).spm) ∧ t.mem = s.mem

/-- R91, R40, R185, R187, R199 to R201, R339: the matrix head command starts where its engine, tokens and image allow, or stops; one of
registers or of a record runs whole from the state after its start, as MatrixSums says, and one whose A is a stream takes the stream's
blocks in order; a retiring command leaves its queue, pushes the tokens of SIGM, and leaves its check context or its index and engine.
That the fault of a unit that is gone has 0 in the low bits of its detail is the model's choice (log 29). -/
def Obligations.MatrixAndRetirement : Prop :=
  (∀ (s : State) (c : Nat) (m : Cmd),
    let k := getCore s c
    let f := mcmdOf m.words
    (∀ r ∈ k.qm.running, ∀ x, r.mx = some x → x.ended = true) → k.qm.deq = some m →
    (unitGone s c f = true → ∃ u, exec (.matrixCommand c) s = .next u ∧ (getCore u c).qm.deq = none ∧
      (getTask u c m.slot).faults = (getTask s c m.slot).faults ++ [Rule.commandFault .matrix m 6 (6 * 2 ^ 32) 0 s.cycle]) ∧
    (∀ e a, unitGone s c f = false → tokensReady s c m = true → startOn s c m = some (e, a) →
      sramStop s c f e = none → (∀ w ∈ (if e = 2 then [k.wb0, k.wb1] else [wbOf k e]), imageStop f (headerAt w (64 * f.boff)) = none) →
      ∃ v r x, exec (.matrixCommand c) s = .next (if f.asrc = 0 then v else runWhole v c r) ∧
        (getCore v c).qm.running = k.qm.running ++ [r] ∧ (getCore v c).qm.deq = none ∧ (getCore v c).active = a ∧
        (getCore (runWhole v c r) c).qm.deq = none ∧ (getCore (runWhole v c r) c).active = a ∧
        r.cmd = m ∧ r.eng = e ∧ r.start = s.cycle + 1 ∧ r.steady = steadyCycles f ∧ r.fixed = (if f.red then 56 else 40) ∧
        r.mx = some x ∧ x.start = tileOf s c m.slot f.acct ∧ x.seen = List.replicate 4096 false ∧ x.ended = false ∧
        x.heads = [headWords k.wb0 (64 * f.boff), headWords k.wb1 (64 * f.boff)] ∧
        x.fresh = tabGet [] (getTask s c m.slot).x.zd f.acct ∧ ∀ z, tileOf v c m.slot z = tileOf s c m.slot z)) ∧
  (∀ (s : State) (c : Nat) (r : Running) (x : MxRun) (b : Block) (bs : List Block),
    let f := mcmdOf r.cmd.words
    let n := r.cmd.slot
    (getCore s c).qm.running = [r] → r.mx = some x → x.ended = false → (inStream s c n (f.asel % 8)).blocks = b :: bs →
    (b.poison = none → ∃ u, exec (.matrixCommand c) s = .next u ∧ (inStream u c n (f.asel % 8)).blocks = bs) ∧
    (∀ d, b.poison = some d → ∃ u, exec (.matrixCommand c) s = .next u ∧ (getCore u c).qm.running = [] ∧
      (getTask u c n).faults = (getTask s c n).faults ++ [Rule.commandFault .matrix r.cmd 0x0B d x.pass s.cycle])) ∧
  ∀ (s : State) (c k : Nat) (q : Queue) (r : Running),
    let e := engQ (getCore s c) q
    let t := getTask s c r.cmd.slot
    e.running[k]? = some r → mayRetire s q (e.running.take k) r = true → signalsFit t r.cmd = true →
    (q = .copy → linkWaits s c r.cmd.slot 4 r.cmd.idx = true → exec (.commandRetire c q k) s = .next s) ∧
    ((q = .copy → linkWaits s c r.cmd.slot 4 r.cmd.idx = false) → ∃ u, exec (.commandRetire c q k) s = .next u ∧ (engQ (getCore u c) q).running = e.running.eraseIdx k ∧
      (∀ i < 16, nth (getTask u c r.cmd.slot).tpush i 0 =
        nth t.tpush i 0 + if (nth r.cmd.words 0 0).toNat.testBit (28 + i) then 1 else 0) ∧
      (∀ x, r.chk = some x → (getTask u c r.cmd.slot).chk = x) ∧
      (q = .matrix → (getTask u c r.cmd.slot).lastIdx = r.cmd.idx ∧ (getTask u c r.cmd.slot).lastEng = r.eng))

/-- R48 to R57, R62 to R65, R102, R185, R186, R188: what a matrix command leaves in its tile. The operands are the values of their
patterns, times their scales; a K-block adds its sum to an element as R62 gives it, or its products to the residues; a drained element is
the number with its residues, and holds none from then on, so that a residue command starts it from 0 (log 65). A command of registers or
of a record takes for each element the K-blocks of the passes that reach it, in their order, and drains it if it says so; a command of a
stream takes the two K-blocks of its next block, and after its last one restores or drains. No other element and no other tile changes. An
infinite accumulator has no part in the choice of E (log 56); redundant commands, which run twice, are left out. -/
def Obligations.MatrixSums : Prop :=
  ((∀ (code : Nat) (on : Bool) (b : Nat), code < 14 ∨ code = 15 → (Rule.value (decodeNum code on b)).same (Rule.valueOf code on b)) ∧
   (∀ (wb : Memory) (base : Nat) (h : Header) (flm n j k : Nat),
      let w := Rule.widthOf h.fmt
      let at_ := 8 * (base + 64 * (1 + n * h.rpitch)) + j * w
      let pat := Rule.valueOfBytes (memRead wb (at_ / 8) 5) / 2 ^ (at_ % 8) % 2 ^ w
      let sc := base + 64 * (h.soff + n * h.spitch)
      let scale := Rule.valueOfBytes (memRead wb (sc + Rule.widthOf h.sfmt / 8 * (k / 2 ^ h.sbg0)) (Rule.widthOf h.sfmt / 8))
      h.fmt ∈ [0, 1, 2, 3, 4, 5, 6, 7, 8, 9, 10, 11, 12] → h.sfmt ∈ [0, 1, 2, 15] →
      (Rule.value (mangled wb base h flm n j k)).same
        (if h.fmt = 12 then Rule.valueOf 1 (flm.testBit 2) (Rule.valueOfBytes (memRead wb (sc + 32 * (k / 2 ^ h.sbg0) + 2 * pat) 2))
         else
           let v := Rule.valueOf h.fmt (decide (h.fmt = 0) && flm.testBit 0 || decide (h.fmt ∈ [1, 2]) && flm.testBit 2
             || decide (h.fmt ∈ [3, 4, 5, 6]) && flm.testBit 4) pat
           if h.spitch = 0 then v else v.mul (Rule.valueOf h.sfmt false scale))) ∧
   (∀ (f : MCmd) (flm : Nat) (v : W32), 0 < f.afmt → f.afmt < 12 → ∃ q,
      Rule.Converts f.afmt 0 true 1
        (if f.afmt < 7 then Rule.valueOf 0 false v.toNat else .fin (v.toInt < 0) v.toInt.natAbs 1) q ∧
      (Rule.value (laneOperand f flm v)).same (Rule.valueOf f.afmt
        (decide (f.afmt ∈ [1, 2]) && flm.testBit 2 || decide (f.afmt ∈ [3, 4, 5, 6]) && flm.testBit 4) q))) ∧
  ((∀ (f : MCmd) (flm : Nat) (old : W32) (seen : Bool) (a : List (Option Machine.Num)) (b : List (Nat × Machine.Num)),
      Rule.Taken f flm old seen (Rule.blockProducts a b) (takeBlock f flm old seen (products a b))) ∧
   ∀ (f : MCmd) (v : W32), Rule.Drained f.dfmt v (drained32 f v)) ∧
  (∀ (s : State) (c : Nat) (r : Running) (x : MxRun) (rows : Nat → Nat → Nat → List Machine.Num),
    let f := mcmdOf r.cmd.words
    let n := r.cmd.slot
    let flm := r.cmd.flm.toNat
    let wb := if r.eng = 1 then (getCore s c).wb1 else (getCore s c).wb0
    r.mx = some x → r.eng < 2 → f.asrc ≠ 0 → f.sega = false → x.seen = List.replicate 4096 false → (getCore s c).sramBad = [] →
    x.start.length = 4096 → (tileOf s c n f.acct).length = 4096 →
    (∀ p < (f.lv.map (·.count)).foldl (· * ·) 1, ∀ kb < f.kb, ∀ m < f.m,
      if f.asrc = 1 then aRecord s c n (layoutOf r.cmd.lrec) flm (Rule.passOf f p) kb m = .ok (rows p kb m)
      else aVectors f flm r.cmd.vregs (Rule.passOf f p) kb m = rows p kb m) →
    let u := runWhole s c r
    (∀ i < 4096,
      let old := nth (tileOf s c n f.acct) i 0
      let e := Rule.accumulated f flm (x.fresh.contains i)
        (Rule.nestBlocks f flm wb (headerOf (nth x.heads r.eng (0, 0))) rows i) (old, false)
      nth (tileOf u c n f.acct) i 0 = if e.2 && f.drn then drained32 f e.1 else e.1) ∧
    ∀ z ≠ f.acct, tileOf u c n z = tileOf s c n z) ∧
  ∀ (s : State) (c : Nat) (r : Running) (x : MxRun) (b : Block) (bs : List Block),
    let f := mcmdOf r.cmd.words
    let n := r.cmd.slot
    let flm := r.cmd.flm.toNat
    let wb := if r.eng = 1 then (getCore s c).wb1 else (getCore s c).wb0
    (getCore s c).qm.running = [r] → r.mx = some x → r.eng < 2 → x.ended = false → (getCore s c).sramBad = [] →
    (inStream s c n (f.asel % 8)).blocks = b :: bs → b.poison = none →
    x.start.length = 4096 → x.seen.length = 4096 → x.okr.length = 64 → (tileOf s c n f.acct).length = 4096 →
    x.pass < (f.lv.map (·.count)).foldl (· * ·) 1 →
    ∃ u, exec (.matrixCommand c) s = .next u ∧
      (∀ i < 4096,
        let old := nth (tileOf s c n f.acct) i 0
        let here := Rule.reaches f x.pass i
        let m := (Rule.windowAt f x.pass i).1
        let blocks := if here then ((List.range f.kb).filter fun k => k / 2 = x.part).map fun kb =>
            (aBlock f flm b kb m, Rule.columnOf f flm wb (headerOf (nth x.heads r.eng (0, 0))) x.pass kb i)
          else []
        let e := Rule.accumulated f flm (x.fresh.contains i) blocks (old, nth x.seen i false)
        let cm := (Rule.passOf f x.pass).cm
        let valid := nth x.okr (i / 64) false || (decide (cm ≤ (i / 64 : Nat) ∧ ((i / 64 : Nat) : Int) < cm + f.m) &&
          (List.range 64).any fun k => nth b.valid (64 * (((i / 64 : Nat) : Int) - cm).toNat + k) false)
        nth (tileOf u c n f.acct) i 0 =
          if (f.kb + 1) / 2 ≤ x.part + 1 ∧ (f.lv.map (·.count)).foldl (· * ·) 1 ≤ x.pass + 1 then
            (if f.sega && e.2 && !valid then nth x.start i 0 else if f.drn && e.2 then drained32 f e.1 else e.1)
          else e.1) ∧
      ∀ z ≠ f.acct, tileOf u c n z = tileOf s c n z

/-- R18, R34, R150, R153, R208, R246: the first queued run becomes active and places its blocks where there is room; a drain pops and
writes one block after another, and where a write fails those before it stay; an operation of X writes its lanes; an owed signal of X is
pushed once it fits. That a run whose block cannot be read is a fault of SEQ 6 is the model's choice (log 28); landings with other
operations under way are left out. -/
def Obligations.StreamEvents : Prop :=
  (∀ (s : State) (c k n : Nat) (r : Run) (rs : List Run), (inStream s c k n).runs = r :: rs →
    exec (.inStreamRun c k n) s = .next (modIn s c k n fun i => { i with runs := { r with active := true } :: rs }) ∧
    (r.active = true → (inStream s c k n).blocks.length < 2 →
      (∀ t b, runBlock s c k r = .ok (t, b) → ∃ u, exec (.inStreamBlock c k n) s = .next u ∧
        (inStream u c k n).blocks = (inStream s c k n).blocks ++ [b] ∧
        (inStream u c k n).runs = if r.next + 1 < runBlocks (layoutOf r.bind.lrec) r.bind.xp then { r with next := r.next + 1 } :: rs else rs) ∧
      (∀ cause d, runBlock s c k r = .error (.trap cause d) → ∃ u, exec (.inStreamBlock c k n) s = .next u ∧
        (inStream u c k n).runs = rs ∧ (getTask u c k).faults = (getTask s c k).faults ++
          [{ cause := cause, detail := Rule.nat64 d, seq := 6, cycle := s.cycle }]))) ∧
  (∀ (s t : State) (c k : Nat) (d : Drain) (b : Block) (bs : List Block) (bd : OutBind),
    (getTask s c k).drain = some d → (nth (getTask s c k).outs d.o {}).blocks = b :: bs →
    (nth (getTask s c k).outs d.o {}).bind = some bd → halted (getTask s c k) s.cycle = false → d.left ≠ 0 →
    (drainWrite s c k bd d b = .ok (t, none) →
      ∃ u, exec (.drainBlock c k) s = .next u ∧ (nth (getTask u c k).outs d.o {}).blocks = bs ∧ u.mem = t.mem ∧
        (1 < d.left ∨ linkWaits t c k 3 0 = true → (getTask u c k).drain = some { d with left := d.left - 1, done := d.done + 1 }) ∧
        (d.left = 1 → linkWaits t c k 3 0 = false → (getTask u c k).drain = none)) ∧
    (∀ cause x, drainWrite s c k bd d b = .ok (t, some (cause, x)) →
      ∃ u, exec (.drainBlock c k) s = .next u ∧ (nth (getTask u c k).outs d.o {}).blocks = bs ∧ u.mem = t.mem ∧
        (getTask u c k).drain = none ∧ (getTask u c k).faults = (getTask t c k).faults ++
          [{ cause := cause, detail := Rule.nat64 x, seq := 3, cycle := t.cycle }])) ∧
  (∀ (s : State) (c k : Nat) (d : Drain), (getTask s c k).drain = some d → halted (getTask s c k) s.cycle = false → d.left = 0 →
    (linkWaits s c k 3 0 = false → ∃ u, exec (.drainBlock c k) s = .next u ∧ (getTask u c k).drain = none ∧ u.mem = s.mem) ∧
    (linkWaits s c k 3 0 = true → ∃ u, exec (.drainBlock c k) s = .next u ∧ getTask u c k = getTask s c k ∧ u.mem = s.mem)) ∧
  (∀ (s : State) (c k n : Nat) (o : XOp),
    let t := getTask s c k
    holdsX t s.cycle = false → t.x.ops = [o] → o.item = .v n → o.landed = false → o.clash = false → o.issued < t.x.count →
    o.val.length = 1024 → (nth t.x.v n []).length = 1024 → ∃ u, exec (.xOperationLand c k 0) s = .next u ∧
      (∀ l < 1024, nth (nth (getTask u c k).x.v n []) l 0 = (nth o.val l none).getD (nth (nth t.x.v n []) l 0)) ∧
      (getTask u c k).c = t.c ∧ (getTask u c k).x.z = t.x.z) ∧
  ∀ (s : State) (c k q : Nat) (qs : List Nat), (getTask s c k).x.sigs = q :: qs → tokRoom (getTask s c k) q = true →
    exec (.xSignalPush c k) s = .next (modTask s c k fun t => { tokPush t q with x := { t.x with sigs := qs } })

/-- R138, R146, R256, R309: the oldest request for a free lock bit takes it; a remote access is served where the peer task still stands
and the address lies in its allotment; a remote push arrives where it fits; a remote command enters its queue, and its index goes to the
sender. -/
def Obligations.RemoteArrivals : Prop :=
  (∀ (s : State) (c bank line : Nat) (w : LockWait) (i : Instr) (d a b : BitVec 5),
    let l := (getCore s c).waits
    let phys := spmBase (getTask s c w.tslot) + w.off
    let p : Place := .spm c w.tslot w.off
    w ∈ l → w.bank = bank → w.line = line → waitReady s w = true → lockHolder s c bank line = none →
    (∀ v ∈ l, v.core < 512 ∧ v.slot < 4) →
    (∀ v ∈ l, v.bank = bank → v.line = line → waitReady s v = true → v = w ∨ Rule.arrivesBefore w v) →
    ((w.core = c ∧ w.tslot = w.slot) ∨ stillPeer s w.core w.slot c w.tslot = true) → w.off + w.acc.size ≤ spmUsable (getTask s c w.tslot) →
    Rule.lockOf phys = (bank, line) → readError s p w.acc.size = none → w.acc.d = d.toNat →
    let g := lockGranted (modCore s c fun k => { k with waits := l.erase w }) c bank line
    let u := wake (at_ g w.core w.slot w.handler)
    let old := Rule.valueOfBytes (bytesAt u p w.acc.size)
    (w.acc.op = .llk → exec (.lockGrant c bank line) s = .next (finish .c (takeLock (setReg u d (Rule.nat64 old)) c bank line))) ∧
    (Rule.atomOf i = some (d, a, b, w.acc.size) → w.acc.op = Rule.atomOp i → exec (.lockGrant c bank line) s = .next (finish .c (setReg
      (match Rule.atomWrite old (w.acc.val.toNat % 2 ^ (8 * w.acc.size)) (w.acc.cmpv.toNat % 2 ^ (8 * w.acc.size)) (8 * w.acc.size) i with
        | some v => storeAt u p ((List.range w.acc.size).map (Rule.byteOf v))
        | none => u) d (Rule.extended true w.acc.size old)))) ∧
    (getCore g c).waits = l.erase w ∧ g.mem = s.mem ∧ ∀ n, (getCore g n).spm = (getCore s n).spm ∧ (getCore g n).locks = (getCore s n).locks) ∧
  (∀ (s : State) (c bank line : Nat), (lockHolder s c bank line).isSome = true → exec (.lockGrant c bank line) s = .next s) ∧
  (∀ (s : State) (k core slot tcore tslot off : Nat) (handler : Bool) (r : Acc),
    let u := wake (at_ { s with remote := s.remote.eraseIdx k } core slot handler)
    s.remote[k]? = some (.access core slot handler tcore tslot off r) → senderStopped s core slot handler = false →
    (stillPeer s core slot tcore tslot = true → off + r.size ≤ spmUsable (getTask s tcore tslot) →
      r.size = 1 ∨ r.size = 2 ∨ r.size = 4 ∨ r.size = 8 →
      let p : Place := .spm tcore tslot off
      let l := Rule.lockOf (spmBase (getTask s tcore tslot) + off)
      let old := Rule.valueOfBytes (bytesAt u p r.size)
      let clean := readError s p r.size = none
      let mine := (ctx u).lock = some ⟨tcore, l.1, l.2⟩
      let free := lockHolder s tcore l.1 l.2 = none ∧ ∀ w ∈ (getCore s tcore).waits, ¬(w.bank = l.1 ∧ w.line = l.2)
      let put (bs : List Byte) : State := storeAt u p bs
      let own : List Byte := (List.range r.size).map (Rule.byteOf r.val.toNat)
      (∀ signed d, r.op = .load signed → r.d = BitVec.toNat (w := 5) d → clean →
        exec (.remoteAccess k) s = .next (finish .c (setReg u d (Rule.extended signed r.size old)))) ∧
      (r.op = .store → exec (.remoteAccess k) s = .next (finish .c (put own))) ∧
      (∀ i d a b, Rule.atomOf i = some (d, a, b, r.size) → r.op = Rule.atomOp i → r.d = d.toNat → free ∨ mine → clean →
        exec (.remoteAccess k) s = .next (finish .c (setReg
          (match Rule.atomWrite old (r.val.toNat % 2 ^ (8 * r.size)) (r.cmpv.toNat % 2 ^ (8 * r.size)) (8 * r.size) i with
            | some v => put ((List.range r.size).map (Rule.byteOf v))
            | none => u) d (Rule.extended true r.size old)))) ∧
      (∀ d, r.op = .llk → r.d = BitVec.toNat (w := 5) d → free → clean →
        exec (.remoteAccess k) s = .next (finish .c (takeLock (setReg u d (Rule.nat64 old)) tcore l.1 l.2))) ∧
      (∀ i, r.op = .llk ∨ ((Rule.atomOf i).isSome = true ∧ r.op = Rule.atomOp i ∧ ¬mine) → ¬free →
        ∃ v, exec (.remoteAccess k) s = .next v ∧ (getCore v tcore).waits = (getCore s tcore).waits ++
            [{ bank := l.1, line := l.2, core, slot, handler, tslot, off, acc := r, since := s.cycle }] ∧
          v.remote = s.remote.eraseIdx k ∧ v.mem = s.mem ∧ (ctl v .c).hold = some (.lock, l.2) ∧
          ∀ c, (getCore v c).spm = (getCore s c).spm ∧ (getCore v c).locks = (getCore s c).locks) ∧
      (r.op = .sul → (mine → exec (.remoteAccess k) s = .next (finish .c (dropLock (put own) tcore l.1 l.2))) ∧
        (¬mine → exec (.remoteAccess k) s = .next (raise u .c 1 6)))) ∧
    (stillPeer s core slot tcore tslot = false → exec (.remoteAccess k) s = .next (raise u .c 8 r.addr.toNat))) ∧
  (∀ (s : State) (k core slot tcore tslot q : Nat) (handler : Bool),
    s.remote[k]? = some (.token core slot handler tcore tslot q) → senderStopped s core slot handler = false →
    (stillPeer s core slot tcore tslot = true → tokRoom (getTask s tcore tslot) q = true →
      exec (.remoteTokenArrival k) s = .next (finish .c (wake (at_
        (modTask { s with remote := s.remote.eraseIdx k } tcore tslot fun t => tokPush t q) core slot handler)))) ∧
    (stillPeer s core slot tcore tslot = false → exec (.remoteTokenArrival k) s =
      .next (raise (wake (at_ { s with remote := s.remote.eraseIdx k } core slot handler)) .c 8 (tcore % 256)))) ∧
  ∀ (s t : State) (k core slot tcore tslot rd ad : Nat) (q : Queue) (words : List W64) (m : Cmd),
    s.remote[k]? = some (.cmd core slot tcore tslot q rd ad words) → senderStopped s core slot false = false →
    stillPeer s core slot tcore tslot = true → checkRemote s tcore tslot q words = .ok (t, m) → queueRoom s tcore q = true →
    core ≠ tcore → 0 < rd → rd < 32 →
    ∃ u x, exec (.remqArrival k) s = .next u ∧ u.remote = s.remote.eraseIdx k ∧
      (engQ (getCore u tcore) q).q = (engQ (getCore s tcore) q).q ++ [x] ∧ x.slot = tslot ∧ x.from_ = (core, slot, 0) ∧
      x.tag = (getTask s tcore tslot).tag ∧ x.idx = nth (getTask s tcore tslot).cmdIdx (queueNo q) 0 ∧
      nth (getTask u core slot).c.r rd 0 = Rule.nat64 (nth (getTask s tcore tslot).cmdIdx (queueNo q) 0)

/-! ## Events: stack memory, power, links -/

/-- R69 to R71, R75, R81, R82: an epoch's end may choose a swap and begins the counts anew; a flip exchanges two regions and changes no
byte; a refresh or a row-hammer alert suspends the held lines of its bank, and a reopening holds them again, but for rows with an
uncorrectable error, which become lost. R83 to R86, R345: a read, which opens its row and waits while the bank is stopped, counts what it
corrected, for row, bank and stack, lists the row, and poisons what it could not correct; a listed row whose score reaches the threshold
is recorded, in non-volatile memory and in the root region's log, and moves to a spare, or its bank is logged as exhausted; a window's
end, at whole windows from the reset, clears the counts; a count at its threshold marks its unit. That a refresh clears all counts while
raised alerts stay, that alerts come one row at a time, that each corrected position is one event, that a row has one action in a window,
and the form of the log of memory are the model's choices (log 35). -/
def Obligations.BanksAndScrubbing : Prop :=
  ((∀ (s : State), s.epochAt + 1000 * s.epochLen ≤ s.time.toNat → ∃ u, exec .epochEnd s = .next u ∧ u.traffic = [] ∧ u.topRegs = [] ∧
     u.epochAt = s.time.toNat ∧ u.epochLen = max 1 ((tabGet {} s.memctl 0).remapc.toNat / 2 ^ 8 % 2 ^ 24) ∧ u.mem = s.mem ∧
     u.itab = s.itab ∧ (∀ w, s.swap = some w → u.swap = some w) ∧
     ∀ w, s.swap = none → u.swap = some w → groupOf s w.b = (hotCold s).2 ∧ regionPegged s w.a = false ∧ regionPegged s w.b = false ∧
       (tabGet {} s.memctl 0).remapc.getLsbD 0 = true ∧ w.touched = []) ∧
   (∀ (s : State) (w : Swap), s.swap = some w → ∃ u, exec .swapFlip s = .next u ∧ machineRegion u w.a = machineRegion s w.b ∧
     machineRegion u w.b = machineRegion s w.a ∧ (∀ r, r ≠ w.a → r ≠ w.b → machineRegion u r = machineRegion s r) ∧ u.swap = none ∧
     u.mem = s.mem) ∧
   (∀ (s : State) (b : Nat), (getBank s b).busy = false →
     let waits (p : Peg) : Peg := if p.bank = b ∧ p.st = .held then { p with st := .suspended } else p
     (∃ u, exec (.refresh b) s = .next u ∧ (getBank u b).busy = true ∧ (getBank u b).acts = [] ∧
       (∀ r ∈ (getBank s b).alerts, r ∈ (getBank u b).alerts) ∧
       (∀ c n, (getTask u c n).pegs = (getTask s c n).pegs.map waits) ∧ u.mem = s.mem) ∧
     ∀ r rs, (getBank s b).alerts = r :: rs → ∃ u, exec (.rowHammerAlert b) s = .next u ∧ (getBank u b).busy = true ∧
       (getBank u b).alerts = rs ∧ tabGet 0 (getBank u b).acts r = 0 ∧
       (∀ c n, (getTask u c n).pegs = (getTask s c n).pegs.map waits) ∧ u.mem = s.mem) ∧
   ∀ (s : State) (b : Nat) (bad : List (Nat × Nat)), (getBank s b).busy = true → ∃ u, exec (.lineReopen b bad) s = .next u ∧
     (getBank u b).busy = false ∧ (∀ r, rowSuspended u b r = false) ∧ u.mem = s.mem ∧
     ∀ e ∈ bad, rowSuspended s b e.1 = true → e.1 ∈ (getBank u b).stuck ∧ rowHeld u b e.1 = false) ∧
  ((∀ (s : State) (b r : Nat) (f : ScrubFind),
     let v := rollWindow s
     let found (u : State) : Prop := (rowErr u b r).n = (rowErr v b r).n + f.corrected.length ∧
       (rowErr u b r).bad = (rowErr v b r).bad + f.bad.length ∧
       tabGet (0, 0) u.bankErrs b = ((tabGet (0, 0) v.bankErrs b).1 + f.corrected.length, (tabGet (0, 0) v.bankErrs b).2 + f.bad.length) ∧
       tabGet (0, 0) u.stackErrs (b / 1024) =
         ((tabGet (0, 0) v.stackErrs (b / 1024)).1 + f.corrected.length, (tabGet (0, 0) v.stackErrs (b / 1024)).2 + f.bad.length) ∧
       (∀ c ∈ f.bad, let g := unmapAddress s b r (c % 16) / 64
         g ∈ u.poison ∧ (g ∉ s.poison → MemLog.poisoned (g * 64) ∈ u.memLog)) ∧
       (f.corrected ≠ [] → (rowErr u b r).hot.isSome = true) ∧ u.mem = s.mem
     ((scrubc s b).testBit 0 = true → r < 65536 → ∃ u, exec (.patrolScrub b r f) s = .next u ∧ found u) ∧
     ((scrubc s b).testBit 0 = true → (rowErr s b r).hot.isSome = true → ∃ u, exec (.hotListScrub b r f) s = .next u ∧ found u) ∧
     (∀ t, (getBank s b).busy = false → openRow s b r = some t → found (readErrors s b r f) ∧
       (lineOf (getBank (readErrors s b r f) b) r).isSome = true) ∧
     ((getBank s b).busy = true → readErrors s b r f = s)) ∧
   (∀ (s : State) (b r : Nat),
     let v := rollWindow s
     let e := rowErr v b r
     e.hot.isSome = true → e.acted = false → score e ≥ max 1 (scrubc s b / 2 ^ 32 % 256) →
     let x := bump (setRowErr { v with rowsNv := v.rowsNv ++ [(b, r)] } { e with acted := true })
     ∃ u, exec (.rowRetirement b r) s = .next u ∧ (b, r) ∈ u.rowsNv ∧ (rowErr u b r).acted = true ∧ (rowErr u b r).n = e.n ∧
       (rootRegion s = none → u.mem = s.mem) ∧
       (∀ root, rootRegion s = some root → ∃ w : List W64, w.length = 8 ∧ (w.getD 0 0).toNat % 2 ^ 16 = 0x060B ∧
         u.mem = (faultLog x root w).mem) ∧
       ((getBank s b).spares < 32 → (getBank u b).spares = (getBank s b).spares + 1 ∧ r ∈ (getBank u b).moved ∧
         r ∉ (getBank u b).stuck ∧ rowHeld u b r = false ∧ MemLog.retired b r ∈ u.memLog) ∧
       ((getBank s b).spares ≥ 32 → (getBank u b).spares = (getBank s b).spares ∧ MemLog.exhausted b ∈ u.memLog)) ∧
   (∀ (s : State),
     let w := max 1 (s.fltcfg.toNat % 2 ^ 16) * 3600 * 10 ^ 9
     (s.winAt + w ≤ s.time.toNat → ∃ u, exec .errorWindowEnd s = .next u ∧ u.errCnt = [] ∧ u.lasting = [] ∧ u.bankErrs = [] ∧
       u.stackErrs = [] ∧ u.winAt = s.winAt + (s.time.toNat - s.winAt) / w * w ∧
       ∀ e ∈ u.rowErrs, e.n = 0 ∧ e.bad = 0 ∧ e.bits = [] ∧ e.acted = false) ∧
     (s.time.toNat < s.winAt + w → exec .errorWindowEnd s = .next s)) ∧
   ∀ (s : State) (w : FaultUnit), errCount (rollWindow s) w ≥ faultThreshold s w → w ∉ (rollWindow s).lasting →
     ∃ u, exec (.lastingFault w) s = .next u ∧ w ∈ u.lasting ∧ w ∈ u.lastingNv ∧
       (∀ c, w = .sramCorrected c ∨ w = .sramUncorrectable c → (tabGet 7 u.units c).testBit 0 = false) ∧
       (∀ c e, w = .mismatch c e → (tabGet 7 u.units c).testBit (1 + e % 2) = false) ∧
       ∀ p, w = .retrain p → u.ports.testBit p = false)

/-- R317, R318, R324, R325: a replay freezes its core for 3 cycles and is counted; a window's end moves the voltage code by its rule; a
sample sets the throttle level by its rule, and one out of range raises alarm source 1. R218, R219, R336: the flit next in order is
accepted where its CRC holds, and a write's payload is restored from its compressed blocks; the data of a read leaves as a flit of such
blocks, kept until it is acknowledged; one that fails asks for a replay, which sends the unacknowledged flits again; a port that is to
retrain does, or goes down and ends the accesses that wait for it, a drain or a copy at its word or command; a route entry changes at
once, or waits while a flit by it is unacknowledged. That the 17th failure in a row retrains and that the request for a replay is an
output (log 43), the test of the streak (log 42), and that BOOTST stays 3 (log 44) are the model's choices. -/
def Obligations.PowerAndLinks : Prop :=
  ((∀ (s : State) (c : Nat), (getCore s c).freeze = 0 → ∃ u, exec (.timingReplay c) s = .next u ∧ (getCore u c).freeze = 3 ∧
     (tabGet {} u.cols (columnOf c)).window = (tabGet {} s.cols (columnOf c)).window + 1 ∧
     (tabGet {} u.cols (columnOf c)).rplcnt = ((tabGet {} s.cols (columnOf c)).rplcnt + 1) % 2 ^ 32 ∧ u.mem = s.mem ∧
     ∀ n, getTask u c n = getTask s c n) ∧
   (∀ (s : State) (col : Nat),
     let k := tabGet {} s.cols col
     k.since + 2 ^ 24 ≤ s.cycle → k.vmin ≤ k.vmax → 10 ≤ k.rtgt → k.rtgt ≤ 30 →
     ∃ u, exec (.replayWindowEnd col) s = .next u ∧
       (let v := tabGet {} u.cols col
       v.window = 0 ∧ v.since = k.since + 2 ^ 24 ∧
       (k.vmin ≤ k.vcur → k.vcur ≤ k.vmax → v.vcur = Rule.nextVoltage k k.window) ∧ (k.vmax < k.vcur → v.vcur = k.vmax) ∧
       (k.vcur < k.vmin → v.vcur = k.vmin) ∧
       (k.window * 2 ^ k.rtgt ≤ 2 * 2 ^ 28 → v.rlevel = 0) ∧
       (2 * 2 ^ 28 < k.window * 2 ^ k.rtgt → k.vcur = k.vmax → 1 ≤ k.streak → v.rlevel = 1))) ∧
   ∀ (s : State) (c : Nat) (e0 e1 rest : Int),
     ∃ u, exec (.tempSample c e0 e1 rest) s = .next u ∧ (getCore u c).temps = [e0, e1, rest] ∧
       (tabGet {} u.cols (columnOf c)).level = Rule.throttle (tabGet {} s.cols (columnOf c)) (columnTemp u (columnOf c)) ∧ u.mem = s.mem ∧
       ((∀ t ∈ [e0, e1, rest], -80 ≤ t ∧ t ≤ 500) → u.alarms = s.alarms ∧ u.bootst = s.bootst) ∧
       ((∃ t ∈ [e0, e1, rest], t < -80 ∨ 500 < t) → u.alcnt = min 255 (s.alcnt + 1) ∧ u.ist.testBit 1 = true ∧
         u.bootst = if s.bootst = 3 then 3 else 2)) ∧
  ((∀ (s : State) (p n : Nat) (b : FlitBody),
     let l := tabGet {} s.links p
     let put (l : Link) : State := { s with links := tabSet s.links p l }
     (s.ports.testBit p = true → n = l.rx →
       exec (.flitReceive p n false b) s =
         .next { put { l with fails := l.fails + 1, retrain := l.retrain || decide (l.fails + 1 > 16) } with out := s.out ++ [.replayFrom p n] } ∧
       (∀ k, b = .ack k → exec (.flitReceive p n true b) s =
         .next (put { l with unacked := l.unacked.filter (fun u => decide (u.seq > k)), rx := l.rx + 1, fails := 0 })) ∧
       (∀ k, b = .replay k → exec (.flitReceive p n true b) s = .next { put { l with rx := l.rx + 1, fails := 0 } with
         out := s.out ++ (l.unacked.filter fun u => decide (k ≤ u.seq)).map fun u => .flit p u.seq u.body }) ∧
       (∀ m pa k t, b = .read m pa k → pa + k ≤ 2 ^ 39 → touchRange s none pa k false = .ok t →
         ∃ u d, exec (.flitReceive p n true b) s = .next u ∧ expandPayload d = memRead t.mem pa k ∧
           (∀ x ∈ d, x.len ≤ 256 ∧ x.sent.length ≤ x.len) ∧
           let f : Flit := { seq := (tabGet {} t.links p).tx, m := m, body := .data d (poisonIn t pa k).isSome }
           u.out = t.out ++ [.flit p f.seq f.body] ∧ u.mem = t.mem ∧ (tabGet {} u.links p).unacked = (tabGet {} t.links p).unacked ++ [f] ∧
           (tabGet {} u.links p).tx = f.seq + 1 ∧ (tabGet {} u.links p).rx = (tabGet {} t.links p).rx + 1) ∧
       ∀ pa bs t, b = .write pa (compressPayload bs) → pa + bs.length ≤ 2 ^ 39 → touchRange s none pa bs.length true = .ok t →
         ∃ u, exec (.flitReceive p n true b) s = .next u ∧ (∀ j (h : j < bs.length), memByte u.mem (pa + j) = bs[j]) ∧
           (∀ a, a < pa ∨ pa + bs.length ≤ a → memByte u.mem a = memByte s.mem a) ∧ (tabGet {} u.links p).rx = l.rx + 1) ∧
     (n ≠ l.rx → ∀ ok, exec (.flitReceive p n ok b) s = .next s)) ∧
   (∀ (s : State) (p : Nat), s.ports.testBit p = true → (tabGet {} s.links p).retrain = true → ∀ ok,
     ∃ u, exec (.portRetrain p ok) s = .next u ∧ (tabGet {} u.links p).retrain = false ∧ u.ports.testBit p = ok ∧
       ∀ f c k q, ok = false → (tabGet {} s.links p).unacked = [f] → f.by_ = some (c, k, (getTask s c k).uid, q) →
         resident s c k = true → c < 512 → k < 4 → (tabGet {} u.links p).unacked = [] ∧
         (q = 3 → (getTask s c k).drain.isSome = true ∨ (getTask s c k).rag.isSome = true →
           (getTask u c k).drain = none ∧ (getTask u c k).rag = none ∧ ∃ e, (getTask u c k).faults = (getTask s c k).faults ++ [e] ∧
             e.cause = 6 ∧ e.detail = Rule.nat64 f.va ∧ e.seq = 3 ∧ e.cycle = s.cycle) ∧
         (∀ r, q = 4 → (getCore s c).qc.running = [r] → r.cmd.slot = k → r.cmd.idx = f.idx → (getCore u c).qc.running = [] ∧
           ∃ e, (getTask u c k).faults = (getTask s c k).faults ++ [e] ∧ e.cause = 6 ∧ e.detail = Rule.nat64 f.va ∧ e.seq = 4 ∧
             e.idx = f.idx ∧ e.cycle = s.cycle) ∧
         ∀ c2 k2 h sq acc res, Remote.link c2 k2 h p sq acc res false ∈ s.remote →
           Remote.link c2 k2 h p sq acc res (decide (sq = f.seq)) ∈ u.remote) ∧
   ∀ (s : State) (n : Nat) (v : W64), n < 64 →
     (s.hlock.testBit 2 = false → tabGet 0 s.routes n ≠ v &&& 0x8F →
       (routeBusy s n = false → exec (.routeEntryWrite .host n v) s =
         .next { s with routes := tabSet s.routes n (v &&& 0x8F), rchange := tabDel s.rchange n }) ∧
       (routeBusy s n = true → exec (.routeEntryWrite .host n v) s = .next { s with rchange := tabSet s.rchange n (v &&& 0x8F) })) ∧
     (s.hlock.testBit 2 = true → exec (.routeEntryWrite .host n v) s = .next s) ∧ exec (.routeEntryWrite .sideBand n v) s = .next s ∧
     (∀ w, tabFind s.rchange n = some w → routeBusy s n = false →
       exec (.routeChangeEffect n) s = .next { s with routes := tabSet s.routes n w, rchange := tabDel s.rchange n }))

/-! ## Events: the host, resets and security -/

/-- R332 to R335, R339, R342, Tables 22.2 to 22.5: accesses of BAR2 to stack memory, in order of arrival where one waits; writes of the
control space by the masters that may make them, the side band's value standing over the host's of a cycle, and what its registers read
as; TADJ adds and saturates; DOMID changes while no task is resident, the side band's value standing likewise; a unit is marked by the
side band. That accesses are aborted for every BOOTST but 1, of which R342 says it for a halted module, is the model's choice (log 44). -/
def Obligations.HostAccesses : Prop :=
  (∀ (s t : State) (a n : Nat), s.bootst = 1 → s.hostq = [] → 0 < n → a + n ≤ 2 ^ 39 → touchRange s none a n false = .ok t →
    exec (.hostBar2Read a n) s = .next { t with
      out := t.out ++ [.completion a (memRead t.mem a n) (poisonIn t a n).isSome], hostq := [] }) ∧
  (∀ (s : State) (a n : Nat) (r : HostReq) (rs : List HostReq) (e : Stop),
    (s.hostq = r :: rs → hostAccess s r = .error e →
      exec (.hostBar2Read a n) s = .next { s with hostq := r :: (rs ++ [.read a n]) }) ∧
    (s.hostq = [] → s.bootst = 1 → 0 < n → a + n ≤ 2 ^ 39 → touchRange s none a n false = .error e →
      exec (.hostBar2Read a n) s = .next { s with hostq := [.read a n] })) ∧
  (∀ (s t : State) (a : Nat) (bs : List Byte), s.bootst = 1 → s.hostq = [] → a + bs.length ≤ 2 ^ 39 →
    touchRange s none a bs.length true = .ok t →
    ∃ u, exec (.hostBar2Write a bs) s = .next u ∧ (∀ j (h : j < bs.length), memByte u.mem (a + j) = bs[j]) ∧
      (∀ x, x < a ∨ a + bs.length ≤ x → memByte u.mem x = memByte s.mem x) ∧
      ∀ g ∈ u.poison, g ∈ s.poison ∧ ¬(a ≤ g * 64 ∧ g * 64 + 64 ≤ a + bs.length)) ∧
  (∀ (s : State) (a n : Nat) (bs : List Byte), s.bootst ≠ 1 → s.hostq = [] →
    exec (.hostBar2Read a n) s = .next { s with out := s.out ++ [.abort], hostq := [] } ∧
    exec (.hostBar2Write a bs) s = .next { s with out := s.out ++ [.abort], hostq := [] }) ∧
  (∀ (s : State) (v : W64) (c : Nat),
    (s.hlock.testBit 0 = false →
      exec (.controlSpaceWrite .host 0x10000 v) s = .next { s with ttbase := v &&& 0xFFFFFFFFFFFFF000 } ∧
      exec (.controlSpaceWrite .host 0x10008 v) s = .next { s with lqbase := v &&& 0xFFFFFFFFFFFFFF80 }) ∧
    (s.hlock.testBit 0 = true → exec (.controlSpaceWrite .host 0x10000 v) s = .next s) ∧
    (let noted (a : Nat) : State := { s with sbAt := tabSet s.sbAt a s.cycle }
     exec (.controlSpaceWrite .sideBand 0x10000 v) s = .next (noted 0x10000) ∧
     (c < 8 →
       let a := 0x20000 + 0x100 * c
       let put (s : State) : State := { s with memctl := tabSet s.memctl c { (tabGet {} s.memctl c) with remapc := v &&& 0xFFFFFFFF01 } }
       exec (.controlSpaceWrite .sideBand a v) s = .next (put (noted a)) ∧
       (s.hlock.testBit 1 = false → tabFind s.sbAt a ≠ some s.cycle → exec (.controlSpaceWrite .host a v) s = .next (put s)) ∧
       (s.hlock.testBit 1 = true ∨ tabFind s.sbAt a = some s.cycle → exec (.controlSpaceWrite .host a v) s = .next s)) ∧
     (c < 512 →
       let a := 0x1000200 + 0x1000 * c
       let put (s : State) : State := modCore s c fun k => { k with altdt := v &&& 0xFF }
       exec (.controlSpaceWrite .sideBand a v) s = .next (put (noted a)) ∧
       (s.hlock.testBit 3 = false → tabFind s.sbAt a ≠ some s.cycle → exec (.controlSpaceWrite .host a v) s = .next (put s)) ∧
       (s.hlock.testBit 3 = true ∨ tabFind s.sbAt a = some s.cycle → exec (.controlSpaceWrite .host a v) s = .next s))) ∧
    (∃ u, exec (.controlSpaceWrite .sideBand 0x10 v) s = .next u ∧ u.ien = v.toNat / 2 ^ 32 % 16 ∧
      ∀ n < 4, u.ist.testBit n = (s.ist.testBit n && !(v.getLsbD n && decide (tabFind s.istAt n ≠ some s.cycle))))) ∧
  (∀ (s : State), readControl s 0x10000 = s.ttbase ∧ readControl s 0x10008 = s.lqbase ∧
    readControl s 0 = Rule.nat64 (s.tadj * 2 ^ 32 + s.domid * 2 ^ 20 + s.hlock * 2 ^ 8 + if s.rsthold then 2 else 0) ∧
    readControl s 8 = Rule.nat64 (s.bootst * 2 ^ 24 + s.alcnt * 2 ^ 16 + if s.link then 1 else 0) ∧
    readControl s 0x10 = Rule.nat64 (s.ien * 2 ^ 32 + s.ist) ∧ readControl s 0x50000 = s.fltcfg ∧
    (∀ c < 512, readControl s (0x40000 + c) = Rule.nat64 (tabGet 7 s.units c) ∧
      readControl s (0x1000200 + 0x1000 * c) = (getCore s c).altdt) ∧
    (∀ n < 64, readControl s (0x60000 + 8 * n) = (tabFind s.rchange n).getD (tabGet 0 s.routes n)) ∧
    ∀ c < 8, readControl s (0x20008 + 0x100 * c) = Rule.nat64 (s.swaps * 2 ^ 32 + if s.swap.isSome then 1 else 0)) ∧
  (∀ (s : State) (m : Master) (v : BitVec 32) (d : BitVec 6),
    exec (.tadjWrite m v) s = .next { s with tadj := if s.tadj + v.toNat < 2 ^ 32 then s.tadj + v.toNat else 2 ^ 32 - 1 } ∧
    let noted : State := match m with
      | .host => s
      | .sideBand => { s with sbAt := tabSet s.sbAt 0 s.cycle }
    ((∀ k ∈ s.cores, k.2.slots = []) → m = .sideBand ∨ tabFind s.sbAt 0 ≠ some s.cycle →
      exec (.domidWrite m d) s = .next { noted with domid := d.toNat }) ∧
    ((∃ k ∈ s.cores, k.2.slots ≠ []) → exec (.domidWrite m d) s = .next noted) ∧
    (tabFind s.sbAt 0 = some s.cycle → exec (.domidWrite .host d) s = .next s)) ∧
  ∀ (s : State) (c : Nat) (v : W64), c < 512 →
    let old := tabGet 7 s.units c
    (old < 8 → v.toNat % 8 ≠ old → (∀ i, v.toNat.testBit i = true → i < 3 → old.testBit i = true) →
      ∃ u, exec (.unitMapWrite .sideBand c v) s = .next u ∧ tabGet 7 u.units c = v.toNat % 8 ∧ u.ist.testBit 2 = true) ∧
    ((∃ i, i < 3 ∧ v.toNat.testBit i = true ∧ old.testBit i = false) → exec (.unitMapWrite .sideBand c v) s = .next s) ∧
    exec (.unitMapWrite .host c v) s = .next s

/-- R331, R334, R337, R338: a host reset discards every task and the scheduler block and keeps memory, and waits while RSTHOLD is 1; a
module reset or power-on brings the module up with nothing resident, empty memory and a new save key; TIME slews by 2. R340 to R343: an
alarm is logged, and one of class B or C halts the module; a debug response, a firmware image and an SVN are taken where they verify; the
responder's answers. That memory is empty after a module reset (log 3), the supervisor's block (log 64), that BOOTST stays 3 (log 44) and
that every failure from the third on raises the alarm (log 45) are the model's choices. -/
def Obligations.ResetsAndSecurity : Prop :=
  ((∀ (s : State) (i : Instr) (m : Master), i = .hostReset ∨ i = .hrst m →
     (s.rsthold = true → exec i s = .next { s with hrstDue := true }) ∧
     (s.rsthold = false → ∃ u, exec i s = .next u ∧ (∀ c n, resident u c n = false) ∧ u.ttbase = 0 ∧ u.lqbase = 0 ∧ u.routes = [] ∧
       u.domid = 0 ∧ u.ien = 0 ∧ u.ist = 0 ∧ (∀ c q, (engQ (getCore u c) q).q = [] ∧ (engQ (getCore u c) q).running = []) ∧
       (∀ c, (getCore u c).dq = []) ∧ u.mem = s.mem ∧ u.poison = s.poison ∧ u.units = s.units ∧ u.keys = s.keys ∧ u.alarms = s.alarms ∧
       u.time = s.time)) ∧
   (∀ (s : State) (i : Instr), i = .moduleReset ∨ i = .powerOn →
     (s.keys.present = true → (∀ m, m ∈ s.images ∨ m ∈ s.stored → imageGood s m = true) → ∃ u, exec i s = .next u ∧ u.bootst = 1 ∧
       (s.superv.block = [] → s.superv.table = [] → u.mem = [] ∧ u.root = none) ∧
       (s.superv.block ≠ [] → u.root = some s.superv.rcb) ∧
       (∀ j (h : j < s.superv.table.length), memByte u.mem (s.superv.types + j) = s.superv.table[j]) ∧
       u.poison = [] ∧ u.cores = [] ∧ u.keys.saveNo = s.keys.saveNo + 1 ∧ u.svn = s.svn ∧ u.alarms = s.alarms ∧ u.held = [] ∧
       u.unlockFails = s.unlockFails ∧ u.lastingNv = s.lastingNv ∧ u.rowsNv = s.rowsNv ∧ u.rootKey = s.rootKey ∧ u.time = 0 ∧ u.pcie = true ∧
       ∀ c, (∃ v, (c, v) ∈ s.units ∧ v.testBit 0 = false) → s.unitBack = [] → (tabGet 7 u.units c).testBit 0 = false) ∧
     (s.keys.present = false → (∀ m, m ∈ s.images ∨ m ∈ s.stored → imageGood s m = true) → ∃ u, exec i s = .next u ∧ u.bootst = 5) ∧
     ((∃ m ∈ s.images, imageGood s m = false) → s.stored = [] → ∃ u, exec i s = .next u ∧ u.bootst = 4)) ∧
   (∀ (s : State), s.tadj ≠ 0 → (s.time.toNat + 1) % 1024 = 0 → exec .timeSlew s = .next { s with time := s.time + 2, tadj := s.tadj - 1 }) ∧
   ∀ (s : State) (up : Bool), exec (.pcieLinkChange up) s = .next { s with link := up && s.pcie }) ∧
  ((∀ (s : State) (n : Nat), n ≤ 5 → ∃ u, exec (.alarm n) s = .next u ∧ u.ist.testBit 1 = true ∧
     u.alcnt = (if s.alcnt < 255 then s.alcnt + 1 else 255) ∧
     ((∀ a ∈ s.alarms, a.at_ ≠ some s.cycle ∨ a.src ≤ n) →
       u.alarms.getLast? = some ⟨s.time, n, if n = 3 then 1 else if n < 3 then 2 else 3, some s.cycle⟩) ∧
     u.alarms.length ≤ 64 ∧
     (n = 3 → u.bootst = s.bootst ∧ u.keys = s.keys) ∧
     (n < 3 → u.bootst = if s.bootst = 3 then 3 else if n = 2 then 4 else 2) ∧
     (3 < n → u.bootst = 3 ∧ u.keys.present = false)) ∧
   (∀ (s : State) (c r : Nat),
     (s.keys.present = true → r = Config.unlockResponse c →
       exec (.debugUnlock c r) s = .next { s with unlockFails := 0, debug := true, out := s.out ++ [.unlock true] }) ∧
     (r ≠ Config.unlockResponse c → ∃ u, exec (.debugUnlock c r) s = .next u ∧ u.unlockFails = s.unlockFails + 1 ∧ u.debug = s.debug ∧
       (s.unlockFails + 1 < 3 → u.bootst = s.bootst) ∧ (3 ≤ s.unlockFails + 1 → u.bootst = 3))) ∧
   (∀ (s : State) (k v g : Nat) (img : List Byte),
     exec (.pldmFirmwareUpdate k v g img) s = .next (if k < 3 ∧ Config.signatureValid s.rootKey (digestNo img) g = true ∧ s.svn ≤ v
       then { s with stored := s.stored ++ [⟨k, v, img, g⟩], out := s.out ++ [.firmware true] }
       else { s with out := s.out ++ [.firmware false] }) ∧
     exec (.svnRaise v g) s = .next (if Config.rootSigned s.rootKey (digestNo [BitVec.ofNat 8 v]) g = true ∧ s.svn < v ∧ v < 64
       then { s with svn := v, out := s.out ++ [.svn true] } else { s with out := s.out ++ [.svn false] })) ∧
   ∀ (s : State) (n : Nat),
     let send (o : Output) : Out := .next { s with out := s.out ++ [o] }
     exec .pldmPlatformMonitoring s = send (.platform s.bootst s.alcnt (if s.link then 1 else 0)) ∧
     exec .getVersion s = send (.version [0x12, 0x13]) ∧ exec .getCapabilities s = send (.capabilities false) ∧
     exec .negotiateAlgorithms s = send (.algorithms "ML-DSA-65" "SHA3-256") ∧
     exec .getDigests s = send (.digests (sha3 s.keys.chain)) ∧ exec .getCertificate s = send (.certificate s.keys.chain) ∧
     (s.bootst ≠ 5 → s.keys.present = true → (∃ g, exec (.challenge n) s = send (.challengeAuth (sha3 s.keys.chain) g)) ∧
       ∃ g, exec (.getMeasurements n) s = send (.measurements (measurements s) g)) ∧
     (s.bootst = 5 → exec (.challenge n) s = send .spdmError ∧ exec (.getMeasurements n) s = send .spdmError))

/-! ## Encodings, steps, invariants -/

/-- R22, R23, R26, R27, R37, R157: for every word of C, L, S and X that the encoding admits, decoding its encoding gives the instruction
(for X, both slots) back, with no failed check, and the encoding fits the stream's word. -/
def Obligations.DecodeEncode : Prop :=
  (∀ (i : Instr) (n : Nat), i.wf →
     (encodeC i = some n → n < 2 ^ 32 ∧ decodeC n = (some i, [])) ∧
     (encodeL i = some n → n < 2 ^ 64 ∧ decodeL n = (some i, [])) ∧
     (encodeS i = some n → n < 2 ^ 32 ∧ decodeS n = (some i, []))) ∧
  (∀ (w : XWord) (n : Nat), w.wf → encodeXWord w.gap w.tok w.a w.b = some n → n < 2 ^ 128 ∧ decodeX n = (some w, []))

/-- Words written out from the encoding tables (Tables 2.15, 8.4, 9.7, 11.5, 12.8, 13.10, 14.2, 16.8) decode to the instruction they stand
for. -/
def Obligations.WrittenWordsDecode : Prop :=
  Rule.writtenC.all (fun e => decide (decodeC e.1 = (some e.2, []))) = true ∧
  Rule.writtenL.all (fun e => decide (decodeL e.1 = (some e.2, []))) = true ∧
  Rule.writtenS.all (fun e => decide (decodeS e.1 = (some e.2, []))) = true ∧
  Rule.writtenX.all (fun e => decide (decodeX e.1 = (some e.2, []))) = true

/-- R12, R15, R36: a step moves the next agent of the agenda. Where that is a sequencer of C, L or S of a started task that may issue and
that none outranks, and the bytes at its program counter decode to an instruction with no failed check, the step is that instruction, run
for that task, with its result under way where it is a late one; a word that reads such a result waits (R232), and one that would take
what an earlier agent waits for at a token queue moves later (R19). An event runs as its own instruction; an instruction is no event, and
a unit that does not exist does not move; a cycle of the clock ends; a master reads a register of the control space (R330). An event of a
frozen core, or of compute while the module is halted, does not come about (R317, R342). A step drops from the cores' caches of region
tables the words that are no longer current (R130). R259, R261 to R264: a plain store or STL that C makes late leaves every memory as it
was and stays held with its bytes; it reaches memory when it performs, a swap under way recording it (R71), another agent when it is shown
to it, an STL all agents of its scope at once, and every agent in the scope after a FENCE that covers its class. The agenda and the answer
to what is no event are the model's choice (log 1), as are the form of stores held apart (log 9), the host's silent read of the alarm log
(log 45), reads of the control space as an agent's move (log 47), and the clock and ticks as agents (log 49). -/
def Obligations.StepMovesTheNextAgent : Prop :=
  ∀ (s : State) (rest : List Config.Agent),
    let s1 : State := { s with agenda := rest }
    let to_ (t : State) : Out := .next (dropStale t)
    (∀ (t : State) (c : Nat), getCore (dropStale t) c = { getCore t c with btcache := (getCore t c).btcache.filter fun e => e.current t }) ∧
    (∀ (c n w : Nat) (q : Seq) (i : Instr) (t : State), s.agenda = .seq c n q :: rest → q ≠ .x → c < 512 → n < 4 →
      let u : State := { s1 with cur := { core := c, slot := n } }
      let b : State := if q = .c then u else s1
      s.held = [] → coreRuns s c = true → mayIssue s c n q = true → nth (getCore s c).issued (seqCode q) false = false → withheld s c = false →
      outranked b c n q = false → (q = .c → reservedCycle (getCore s c) = true → handlerReady b c = false) →
      fetchWord (getTask s c n) q (taskCtl (getTask s c n) q).pc = some w → fetchBad u q = false →
      Rule.decoded q w = (some i, []) →
        (ready u q i = true → exec i u = .next t →
          (yields b (noteLate u q i t) c n (seqCode q) = false → step s = to_ (noteLate u q i t)) ∧
          (yields b (noteLate u q i t) c n (seqCode q) = true → step s = to_ b)) ∧
        (ready u q i = false → step s = to_ u)) ∧
    (∀ i compute core t, s.agenda = .ev i :: rest → s.held = [] → eventInfo s1 i = some (compute, core, true) →
      exec i s1 = .next t → (∀ c n r, eventRank s1 i = some (c, n, r) → yields s1 t c n r = false) →
      ((compute = true → s.bootst = 1) → (∀ c, core = some c → (getCore s c).freeze = 0) → step s = to_ t) ∧
      ((compute = true ∧ s.bootst ≠ 1) ∨ (∃ c, core = some c ∧ (getCore s c).freeze ≠ 0) → step s = to_ s1)) ∧
    (∀ i, s.agenda = .ev i :: rest → s.held = [] → eventInfo s1 i = none → step s = .refused .notAnEvent) ∧
    (∀ c n q, s.agenda = .seq c n q :: rest → ¬(c < 512 ∧ n < 4) → step s = .fault .noSuchUnit) ∧
    (s.agenda = .clock :: rest → s.held = [] → ∃ t, step s = .next t ∧ t.cycle = s.cycle + 1 ∧ t.mem = s.mem ∧
      ∀ c, (∀ n, resident s c n = true → resident t c n = true ∧ (getTask t c n).tag = (getTask s c n).tag) ∧ (getCore t c).spm = (getCore s c).spm) ∧
    (s.agenda = .tick :: rest → s.tadj = 0 → step s = to_ { s1 with time := s.time + 1 }) ∧
    (∀ m a, s.agenda = .read m a :: rest →
      step s = to_ { s1 with out := s.out ++ [.control m a (readControl s1 a)], fresh := s.fresh + 1 }) ∧
    (s.agenda = .alarmLog .sideBand :: rest → step s = to_ { s1 with
      out := s.out ++ [.alarmLog (s.alarms.flatMap fun e => [e.time, Rule.nat64 (e.cls * 2 ^ 8 + e.src)])] }) ∧
    (s.agenda = .alarmLog .host :: rest → step s = to_ s1) ∧
    (∀ (c n k : Nat) (cls : Nat) (rel : Option Nat) (i : Instr) (p : Place), s.agenda = .late c n false :: rest → c < 512 → n < 4 → s.held = [] →
      let u : State := { s1 with cur := { core := c, slot := n } }
      let t := moveSeq u c n .c
      nextC u = some i → (orderOf i = .store cls ∧ rel = none) ∨ (∃ sc, orderOf i = .release cls sc ∧ rel = some sc) → cls ≠ 15 → storePlace u i = some (p, k) → (∀ m a, p ≠ .far m a) →
      (∀ d j a, p = .spm d j a → d = c) → storeDone u t = true →
      ∃ v e, step s = .next v ∧ v.held = [e] ∧ e.who = .seq c n .c ∧ e.cls = cls ∧ e.place = p ∧ e.bytes = bytesAt t p k ∧
        e.rel = rel ∧ e.seen = [] ∧ e.upTo = none ∧ v.mem = s.mem ∧ ∀ d a, memByte (getCore v d).spm a = memByte (getCore s d).spm a) ∧
    (∀ e r, s.held = e :: r →
      (s.agenda = .perform 0 :: rest → ∃ x, step s = to_ { storeAt { s1 with held := r } e.place e.bytes with swap := x } ∧
        ∀ y, s.swap = some y → ∃ z, x = some z ∧ (∀ g ∈ y.touched, g ∈ z.touched) ∧ z.a = y.a ∧ z.b = y.b ∧
          ∀ pa, e.place = .mem pa → pa / 2 ^ 21 % 2 ^ 18 = y.a ∨ pa / 2 ^ 21 % 2 ^ 18 = y.b → pa / 64 ∈ z.touched) ∧
      (∀ w, s.agenda = .showTo 0 w :: rest → (∀ d ∈ s.held, d.who = w → d.rel = none) → (∀ sc, e.rel = some sc → inScope sc e.who w = false) →
        step s = to_ { s1 with held := { e with seen := e.seen ++ [w] } :: r }) ∧
      ∀ w sc, s.agenda = .showTo 0 w :: rest → e.rel = some sc → inScope sc e.who w = true → (∀ d ∈ r, d.rel = none ∨ d.who = e.who) →
        ∃ f l, step s = to_ { s1 with held := f :: l } ∧ f.place = e.place ∧ f.bytes = e.bytes ∧ f.who = e.who ∧
          ∀ x, inScope sc e.who x = true → f.sees x = true) ∧
    ∀ (c n : Nat) (sc : BitVec 3) (m : BitVec 16), s.agenda = .seq c n .c :: rest → c < 512 → n < 4 →
      let u : State := { s1 with cur := { core := c, slot := n } }
      let me := Viewer.seq c n .c
      let v := publish me (fun e => m.getLsbD e.cls) sc.toNat u
      nextC u = some (.fence sc m) → step s = to_ (moveSeq v c n .c) ∧ ((∀ e ∈ s.held, e.rel = none ∨ e.who = me) → v.mem = s.mem) ∧
        ∀ w e, inScope sc.toNat me w = true → e ∈ v.held → e.who = me → m.getLsbD e.cls = true → e.sees w = true

/-- R27, R30, R34, R162: an X word whose gap has passed, with no signal of an earlier word waiting for room, which is not interlocked and
whose wait and streams are ready issues: its wait pops its token, then slot A and slot B take effect, and one X-issue cycle is counted.
R17: while the token is not there the word holds; a word that holds inside a slot pops nothing, and one that traps keeps its token popped. -/
def Obligations.XWordsIssue : Prop :=
  ∀ (s : State) (n : Nat) (w : XWord),
    (xOf' s).until_ ≤ s.cycle → owedPush (me s) = none → fetch s .x = .ok n → decodeX n = (some w, []) → xFails (ctxOf s .x) w = [] →
    (xOf' s).next + w.gap ≤ (xOf' s).count → interlocked (xOf' s) (slotItems w.a ++ slotItems w.b) = false →
    let q := w.tok.wait.toNat % 16
    let waits := w.tok.wait.getLsbD 4 = true
    (waits → tokAvail (me (settle s)) q = false → issueX s = noteHold (settle s) .x .token q) ∧
    (holdWord (settle s) w = .ok () →
      let s0 := modCtl (settle s) .x fun c => { c with hold := none }
      ∃ s1, (waits → s1 = modMe s0 fun t => tokPop t q) ∧ (¬waits → s1 = s0) ∧
        (waits → q < 16 → nth (me s1).tpop q 0 = nth (me s).tpop q 0 + 1) ∧
        let r := runSlots s1 w
        (stoppedAt r = false → issueX s = finishWord (ctl (settle s) .x).pc r w ∧
          ((ctl r .x).st = .run → (xOf' (issueX s)).count = (xOf' r).count + 1 ∧ (xOf' (issueX s)).next = (xOf' r).count + 1)) ∧
        ((ctl r .x).hold.isSome = true → (me (issueX s)).tpop = (me s).tpop) ∧
        (stoppedAt r = true → (ctl r .x).hold = none → (me (issueX s)).tpop = (me s1).tpop))

/-- Every step keeps the canonical form of every memory: addresses strictly rising, no cell equal to what an unlisted address reads as. -/
def Obligations.MemoriesStayCanonical : Prop :=
  ∀ (s t : State), s.memoriesWf = true → step s = .next t → t.memoriesWf = true

/-- Tables 10.5, 20.1 to 20.3, 22.3 to 22.5 and 22.9, R200, R315, R319, R336 to R339, R345: what holds right after reset. -/
def Obligations.ResetState : Prop :=
  let s := State.reset
  s.memoriesWf = true ∧ s.bootst = 0 ∧ s.alcnt = 0 ∧ s.link = false ∧ s.tadj = 0 ∧ s.domid = 0 ∧ s.hlock = 0 ∧ s.rsthold = false ∧
  s.ien = 0 ∧ s.ist = 0 ∧ s.poison = [] ∧ s.time = 0 ∧ s.ttbase = 0 ∧ s.lqbase = 0 ∧ s.ports = 0xFFFF ∧ s.d2d = true ∧
  (∀ c n, resident s c n = false) ∧
  (∀ col, (tabGet {} s.cols col).vmax = 0x46 ∧ (tabGet {} s.cols col).vmin = 0x28 ∧ (tabGet {} s.cols col).vcur = 0x46 ∧
    (tabGet {} s.cols col).rtgt = 0x14 ∧ (tabGet {} s.cols col).thyst = 0x10 ∧ (tabGet {} s.cols col).tlim = 0x168 ∧
    (tabGet {} s.cols col).force = 0 ∧ (tabGet {} s.cols col).level = 0 ∧ (tabGet {} s.cols col).rplcnt = 0) ∧
  (∀ c, tabGet 7 s.units c = 7 ∧ (getCore s c).altdt = 0x18 ∧ (getCore s c).cyc = 0) ∧ (∀ n, tabGet 0 s.routes n = 0) ∧
  s.fltcfg = 0x0402014000000018
end

