-- ==== Sys2Proof/Laws/Tables.lean ====
section
/-!
SUPPORT. Reading after writing in keyed tables and in lists, and the position of the lowest set bit.
-/
namespace Sys2Proof.Machine

variable {α : Type}

@[simp] theorem tabGet_tabSet_same (d : α) (t : Tab α) (k : Nat) (v : α) : tabGet d (tabSet t k v) k = v := by
  induction t with
  | nil => simp [tabSet, tabGet]
  | cons e r ih =>
    obtain ⟨i, x⟩ := e
    simp only [tabSet]
    split
    · simp [tabGet]
    · split
      · simp [tabGet]
      · rename_i h
        simp [tabGet, Ne.symm h, ih]

theorem tabGet_tabSet_ne (d : α) (t : Tab α) {k j : Nat} (v : α) (h : j ≠ k) :
    tabGet d (tabSet t k v) j = tabGet d t j := by
  induction t with
  | nil => simp [tabSet, tabGet, Ne.symm h]
  | cons e r ih =>
    obtain ⟨i, x⟩ := e
    simp only [tabSet]
    split
    · simp [tabGet, Ne.symm h]
    · split
      · rename_i e; subst e
        simp [tabGet, Ne.symm h]
      · simp only [tabGet, ih]

@[simp] theorem tabFind_tabSet_same (t : Tab α) (k : Nat) (v : α) : tabFind (tabSet t k v) k = some v := by
  induction t with
  | nil => simp [tabSet, tabFind]
  | cons e r ih =>
    obtain ⟨i, x⟩ := e
    simp only [tabSet]
    split
    · simp [tabFind]
    · split
      · simp [tabFind]
      · rename_i h
        simp [tabFind, Ne.symm h, ih]

theorem tabFind_tabSet_ne (t : Tab α) {k j : Nat} (v : α) (h : j ≠ k) : tabFind (tabSet t k v) j = tabFind t j := by
  induction t with
  | nil => simp [tabSet, tabFind, Ne.symm h]
  | cons e r ih =>
    obtain ⟨i, x⟩ := e
    simp only [tabSet]
    split
    · simp [tabFind, Ne.symm h]
    · split
      · rename_i e; subst e
        simp [tabFind, Ne.symm h]
      · simp only [tabFind, ih]

@[simp] theorem tabSet_tabSet (t : Tab α) (k : Nat) (v w : α) : tabSet (tabSet t k v) k w = tabSet t k w := by
  induction t with
  | nil => simp [tabSet]
  | cons e r ih =>
    obtain ⟨i, x⟩ := e
    simp only [tabSet]
    split
    · simp [tabSet]
    · split
      · simp [tabSet]
      · rename_i h1 h2
        simp [tabSet, h1, h2, ih]

theorem tabGet_eq_find (d : α) (t : Tab α) (k : Nat) : tabGet d t k = (tabFind t k).getD d := by
  induction t with
  | nil => rfl
  | cons e r ih =>
    obtain ⟨i, x⟩ := e
    simp only [tabGet, tabFind]
    split <;> simp_all

@[simp] theorem nth_setNth_same (d : α) (l : List α) (n : Nat) (v : α) (e : α) : nth (setNth d l n v) n e = v := by
  induction n generalizing l with
  | zero => cases l <;> rfl
  | succ n ih => cases l <;> simpa [setNth, nth] using ih _

theorem nth_setNth_ne (d : α) (l : List α) {n j : Nat} (v : α) (h : j ≠ n) : nth (setNth d l n v) j d = nth l j d := by
  induction n generalizing l j with
  | zero =>
    obtain ⟨j, rfl⟩ := Nat.exists_eq_succ_of_ne_zero h
    cases l <;> simp [setNth, nth]
  | succ n ih =>
    cases j with
    | zero => cases l <;> simp [setNth, nth]
    | succ j =>
      have h' : j ≠ n := fun e => h (by rw [e])
      cases l with
      | nil => simpa [setNth, nth] using ih [] h'
      | cons x l => simpa [setNth, nth] using ih l h'

@[simp] theorem setNth_setNth (d : α) (l : List α) (n : Nat) (v w : α) : setNth d (setNth d l n v) n w = setNth d l n w := by
  induction n generalizing l with
  | zero => cases l <;> rfl
  | succ n ih => cases l <;> simp [setNth, ih]

theorem length_setNth (d : α) (l : List α) (n : Nat) (v : α) (h : n < l.length) : (setNth d l n v).length = l.length := by
  induction n generalizing l with
  | zero => cases l <;> simp_all [setNth]
  | succ n ih =>
    cases l with
    | nil => simp at h
    | cons x l => simp only [setNth, List.length_cons] at *; rw [ih l (by omega)]

end Sys2Proof.Machine
end

