-- ==== Sys2Proof/Laws/Memory.lean ====
section
/-!
SUPPORT. Reading a byte memory after writing it, and its canonical form: every memory operation keeps it, and in it equal
readings are equal data.
-/
namespace Sys2Proof.Machine

/-! ## Reading after writing -/

theorem memByte_memErase (m : Memory) (a j : Nat) :
    memByte (memErase m a) j = if j = a then unlistedByte else memByte m j := by
  induction m with
  | nil => simp [memErase, memByte, tabGet]
  | cons c r ih =>
    obtain ⟨i, x⟩ := c
    simp only [memErase, memByte] at ih ⊢
    by_cases hi : i = a
    · subst hi
      simp only [ne_eq, not_true_eq_false, decide_false, Bool.false_eq_true, not_false_eq_true, List.filter_cons_of_neg, ih, tabGet]
      split
      · rfl
      · rename_i h; simp [Ne.symm h]
    · simp only [ne_eq, hi, not_false_eq_true, decide_true, List.filter_cons_of_pos, tabGet, ih]
      split
      · rename_i h; subst h; simp [hi]
      · rfl

theorem memByte_memInsert (m : Memory) (a j : Nat) (b : Byte) (h : ∀ c ∈ m, c.1 ≠ a) :
    memByte (memInsert m a b) j = if j = a then b else memByte m j := by
  induction m with
  | nil => simp [memInsert, memByte, tabGet, eq_comm]
  | cons c r ih =>
    obtain ⟨i, x⟩ := c
    simp only [List.mem_cons, forall_eq_or_imp] at h
    simp only [memInsert]
    split
    · simp [memByte, tabGet, eq_comm]
    · simp only [memByte, tabGet] at ih ⊢
      rw [ih h.2]
      split
      · rename_i e; subst e; simp [h.1]
      · rfl

/-- A byte written is read, and every other byte reads as before. -/
theorem memByte_memPut (m : Memory) (a j : Nat) (b : Byte) : memByte (memPut m a b) j = if j = a then b else memByte m j := by
  unfold memPut
  split
  · rename_i h; rw [memByte_memErase, h]
  · rw [memByte_memInsert _ _ _ _ (by simp [memErase]), memByte_memErase]
    split <;> simp_all

/-- Bytes written are read, and every byte outside them reads as before. -/
theorem memByte_memWrite (m : Memory) (a : Nat) (bs : List Byte) (j : Nat) :
    memByte (memWrite m a bs) j = if a ≤ j ∧ j < a + bs.length then bs.getD (j - a) 0 else memByte m j := by
  induction bs generalizing m a with
  | nil => simp [memWrite] <;> omega
  | cons b bs ih =>
    rw [memWrite, ih, memByte_memPut]
    by_cases h : j = a
    · subst h; simp <;> omega
    · by_cases h2 : a + 1 ≤ j ∧ j < a + 1 + bs.length
      · have e : j - a = (j - (a + 1)) + 1 := by omega
        rw [if_pos h2, if_pos (by simp; omega), e, List.getD_cons_succ]
      · rw [if_neg h2, if_neg h, if_neg (by simp; omega)]

/-- Byte `k` of a write is read back. -/
theorem memByte_memWrite_in (m : Memory) (a : Nat) (bs : List Byte) (k : Nat) (h : k < bs.length) :
    memByte (memWrite m a bs) (a + k) = bs[k] := by
  rw [memByte_memWrite, if_pos ⟨by omega, by omega⟩]
  simp [h]

/-- A byte outside a write reads as before. -/
theorem memByte_memWrite_out (m : Memory) (a : Nat) (bs : List Byte) (j : Nat) (h : j < a ∨ a + bs.length ≤ j) :
    memByte (memWrite m a bs) j = memByte m j := by
  rw [memByte_memWrite, if_neg (by omega)]

@[simp] theorem length_memRead (m : Memory) (a n : Nat) : (memRead m a n).length = n := by
  induction n generalizing a with
  | zero => rfl
  | succ n ih => simp [memRead, ih]

/-- Byte `k` of a read. -/
theorem getElem_memRead (m : Memory) (a n k : Nat) (h : k < (memRead m a n).length) : (memRead m a n)[k] = memByte m (a + k) := by
  induction n generalizing a k with
  | zero => simp at h
  | succ n ih =>
    cases k with
    | zero => rfl
    | succ k =>
      simp only [memRead, List.getElem_cons_succ]
      rw [ih]; congr 1; omega

/-! ## The canonical form -/

theorem memWfFrom_mono {lo lo' : Nat} {m : Memory} (h : memWfFrom lo' m = true) (hl : lo ≤ lo') : memWfFrom lo m = true := by
  cases m with
  | nil => rfl
  | cons c r => simp only [memWfFrom, Bool.and_eq_true, decide_eq_true_eq] at h ⊢; exact ⟨⟨by omega, h.1.2⟩, h.2⟩

theorem memWfFrom_memErase {lo : Nat} {m : Memory} (a : Nat) (h : memWfFrom lo m = true) : memWfFrom lo (memErase m a) = true := by
  induction m generalizing lo with
  | nil => rfl
  | cons c r ih =>
    obtain ⟨i, x⟩ := c
    simp only [memWfFrom, Bool.and_eq_true, decide_eq_true_eq] at h
    have hr := ih h.2
    by_cases hi : i = a
    · simpa [memErase, hi] using memWfFrom_mono hr (by omega)
    · have e : memErase ((i, x) :: r) a = (i, x) :: memErase r a := by simp [memErase, hi]
      simp [e, memWfFrom, h.1, hr]

theorem memWfFrom_memInsert {lo a : Nat} {m : Memory} {b : Byte} (h : memWfFrom lo m = true) (hl : lo ≤ a) (hb : b ≠ unlistedByte)
    (hn : ∀ c ∈ m, c.1 ≠ a) : memWfFrom lo (memInsert m a b) = true := by
  induction m generalizing lo with
  | nil => simp [memInsert, memWfFrom, hl, hb]
  | cons c r ih =>
    obtain ⟨i, x⟩ := c
    simp only [List.mem_cons, forall_eq_or_imp] at hn
    simp only [memWfFrom, Bool.and_eq_true, decide_eq_true_eq] at h
    simp only [memInsert]
    split
    · simp only [memWfFrom, Bool.and_eq_true, decide_eq_true_eq]
      exact ⟨⟨hl, by simpa using hb⟩, ⟨by omega, h.1.2⟩, h.2⟩
    · simp only [memWfFrom, Bool.and_eq_true, decide_eq_true_eq]
      exact ⟨h.1, ih h.2 (by have := hn.1; omega) hn.2⟩

/-- A byte written keeps the canonical form. -/
theorem memPut_wf {m : Memory} (a : Nat) (b : Byte) (h : m.wf = true) : (memPut m a b).wf = true := by
  unfold memPut Memory.wf
  split
  · exact memWfFrom_memErase a h
  · exact memWfFrom_memInsert (memWfFrom_memErase a h) (Nat.zero_le _) ‹_› (by simp [memErase])

/-- Bytes written keep the canonical form. -/
theorem memWrite_wf {m : Memory} (a : Nat) (bs : List Byte) (h : m.wf = true) : (memWrite m a bs).wf = true := by
  induction bs generalizing m a with
  | nil => exact h
  | cons b bs ih => exact ih (a + 1) (memPut_wf a b h)

theorem memByte_below {lo : Nat} {m : Memory} (h : memWfFrom lo m = true) {j : Nat} (hj : j < lo) : memByte m j = unlistedByte := by
  induction m generalizing lo with
  | nil => rfl
  | cons c r ih =>
    obtain ⟨i, x⟩ := c
    simp only [memWfFrom, Bool.and_eq_true, decide_eq_true_eq] at h
    have : i ≠ j := by omega
    simp only [memByte, tabGet, this, if_false]
    exact ih h.2 (by omega)

/-- Two memories in canonical form that read the same at every address are the same list. -/
theorem memory_ext {lo : Nat} {m n : Memory} (hm : memWfFrom lo m = true) (hn : memWfFrom lo n = true)
    (h : ∀ a, memByte m a = memByte n a) : m = n := by
  induction m generalizing lo n with
  | nil =>
    cases n with
    | nil => rfl
    | cons c r =>
      obtain ⟨i, x⟩ := c
      have := h i
      simp only [memWfFrom, Bool.and_eq_true, bne_iff_ne] at hn
      simp [memByte, tabGet, Ne.symm hn.1.2] at this
  | cons c r ih =>
    obtain ⟨i, x⟩ := c
    have hm' := hm
    simp only [memWfFrom, Bool.and_eq_true, decide_eq_true_eq, bne_iff_ne] at hm
    have hi := h i
    simp only [memByte, tabGet, if_true] at hi
    cases n with
    | nil => simp [tabGet, hm.1.2] at hi
    | cons d q =>
      obtain ⟨k, y⟩ := d
      have hn' := hn
      simp only [memWfFrom, Bool.and_eq_true, decide_eq_true_eq, bne_iff_ne] at hn
      have hk : k = i := by
        rcases Nat.lt_trichotomy k i with hlt | heq | hgt
        · have h1 := h k
          rw [memByte_below (lo := i) (m := (i, x) :: r) (by simp [memWfFrom, hm]) hlt] at h1
          simp [memByte, tabGet, Ne.symm hn.1.2] at h1
        · exact heq
        · have h1 := h i
          rw [memByte_below (lo := k) (m := (k, y) :: q) (by simp [memWfFrom, hn]) hgt] at h1
          simp [memByte, tabGet, hm.1.2] at h1
      subst hk
      have hxy : x = y := by simpa [tabGet] using hi
      subst hxy
      congr 1
      refine ih hm.2 hn.2 fun a => ?_
      by_cases ha : a = k
      · subst ha
        rw [memByte_below hm.2 (by omega), memByte_below hn.2 (by omega)]
      · have := h a
        simpa [memByte, tabGet, Ne.symm ha] using this

end Sys2Proof.Machine
end

