-- ==== Sys2Proof/Laws/State.lean ====
section
/-!
SUPPORT. What the updates of a core, a task and a context change, and that they change nothing else.
-/
namespace Sys2Proof.Machine

/-! ## A core changed: every other part of the module stays -/

@[simp] theorem modCore_agenda (s : State) (c : Nat) (g : Core → Core) : (modCore s c g).agenda = s.agenda := rfl
@[simp] theorem modCore_cur (s : State) (c : Nat) (g : Core → Core) : (modCore s c g).cur = s.cur := rfl
@[simp] theorem modCore_fresh (s : State) (c : Nat) (g : Core → Core) : (modCore s c g).fresh = s.fresh := rfl
@[simp] theorem modCore_mem (s : State) (c : Nat) (g : Core → Core) : (modCore s c g).mem = s.mem := rfl
@[simp] theorem modCore_poison (s : State) (c : Nat) (g : Core → Core) : (modCore s c g).poison = s.poison := rfl
@[simp] theorem modCore_farMem (s : State) (c : Nat) (g : Core → Core) : (modCore s c g).farMem = s.farMem := rfl
@[simp] theorem modCore_held (s : State) (c : Nat) (g : Core → Core) : (modCore s c g).held = s.held := rfl
@[simp] theorem modCore_cycle (s : State) (c : Nat) (g : Core → Core) : (modCore s c g).cycle = s.cycle := rfl
@[simp] theorem modCore_time (s : State) (c : Nat) (g : Core → Core) : (modCore s c g).time = s.time := rfl
@[simp] theorem modCore_itab (s : State) (c : Nat) (g : Core → Core) : (modCore s c g).itab = s.itab := rfl
@[simp] theorem modCore_memctl (s : State) (c : Nat) (g : Core → Core) : (modCore s c g).memctl = s.memctl := rfl
@[simp] theorem modCore_swaps (s : State) (c : Nat) (g : Core → Core) : (modCore s c g).swaps = s.swaps := rfl
@[simp] theorem modCore_swap (s : State) (c : Nat) (g : Core → Core) : (modCore s c g).swap = s.swap := rfl
@[simp] theorem modCore_traffic (s : State) (c : Nat) (g : Core → Core) : (modCore s c g).traffic = s.traffic := rfl
@[simp] theorem modCore_topRegs (s : State) (c : Nat) (g : Core → Core) : (modCore s c g).topRegs = s.topRegs := rfl
@[simp] theorem modCore_banks (s : State) (c : Nat) (g : Core → Core) : (modCore s c g).banks = s.banks := rfl
@[simp] theorem modCore_rowErrs (s : State) (c : Nat) (g : Core → Core) : (modCore s c g).rowErrs = s.rowErrs := rfl
@[simp] theorem modCore_bankErrs (s : State) (c : Nat) (g : Core → Core) : (modCore s c g).bankErrs = s.bankErrs := rfl
@[simp] theorem modCore_stackErrs (s : State) (c : Nat) (g : Core → Core) : (modCore s c g).stackErrs = s.stackErrs := rfl
@[simp] theorem modCore_memLog (s : State) (c : Nat) (g : Core → Core) : (modCore s c g).memLog = s.memLog := rfl
@[simp] theorem modCore_rowsNv (s : State) (c : Nat) (g : Core → Core) : (modCore s c g).rowsNv = s.rowsNv := rfl
@[simp] theorem modCore_pegReqs (s : State) (c : Nat) (g : Core → Core) : (modCore s c g).pegReqs = s.pegReqs := rfl
@[simp] theorem modCore_epochAt (s : State) (c : Nat) (g : Core → Core) : (modCore s c g).epochAt = s.epochAt := rfl
@[simp] theorem modCore_epochLen (s : State) (c : Nat) (g : Core → Core) : (modCore s c g).epochLen = s.epochLen := rfl
@[simp] theorem modCore_winAt (s : State) (c : Nat) (g : Core → Core) : (modCore s c g).winAt = s.winAt := rfl
@[simp] theorem modCore_tadj (s : State) (c : Nat) (g : Core → Core) : (modCore s c g).tadj = s.tadj := rfl
@[simp] theorem modCore_domid (s : State) (c : Nat) (g : Core → Core) : (modCore s c g).domid = s.domid := rfl
@[simp] theorem modCore_hlock (s : State) (c : Nat) (g : Core → Core) : (modCore s c g).hlock = s.hlock := rfl
@[simp] theorem modCore_rsthold (s : State) (c : Nat) (g : Core → Core) : (modCore s c g).rsthold = s.rsthold := rfl
@[simp] theorem modCore_bootst (s : State) (c : Nat) (g : Core → Core) : (modCore s c g).bootst = s.bootst := rfl
@[simp] theorem modCore_alcnt (s : State) (c : Nat) (g : Core → Core) : (modCore s c g).alcnt = s.alcnt := rfl
@[simp] theorem modCore_link (s : State) (c : Nat) (g : Core → Core) : (modCore s c g).link = s.link := rfl
@[simp] theorem modCore_ien (s : State) (c : Nat) (g : Core → Core) : (modCore s c g).ien = s.ien := rfl
@[simp] theorem modCore_ist (s : State) (c : Nat) (g : Core → Core) : (modCore s c g).ist = s.ist := rfl
@[simp] theorem modCore_istAt (s : State) (c : Nat) (g : Core → Core) : (modCore s c g).istAt = s.istAt := rfl
@[simp] theorem modCore_sbAt (s : State) (c : Nat) (g : Core → Core) : (modCore s c g).sbAt = s.sbAt := rfl
@[simp] theorem modCore_hostq (s : State) (c : Nat) (g : Core → Core) : (modCore s c g).hostq = s.hostq := rfl
@[simp] theorem modCore_pcie (s : State) (c : Nat) (g : Core → Core) : (modCore s c g).pcie = s.pcie := rfl
@[simp] theorem modCore_hrstDue (s : State) (c : Nat) (g : Core → Core) : (modCore s c g).hrstDue = s.hrstDue := rfl
@[simp] theorem modCore_ttbase (s : State) (c : Nat) (g : Core → Core) : (modCore s c g).ttbase = s.ttbase := rfl
@[simp] theorem modCore_lqbase (s : State) (c : Nat) (g : Core → Core) : (modCore s c g).lqbase = s.lqbase := rfl
@[simp] theorem modCore_effs (s : State) (c : Nat) (g : Core → Core) : (modCore s c g).effs = s.effs := rfl
@[simp] theorem modCore_root (s : State) (c : Nat) (g : Core → Core) : (modCore s c g).root = s.root := rfl
@[simp] theorem modCore_taskNo (s : State) (c : Nat) (g : Core → Core) : (modCore s c g).taskNo = s.taskNo := rfl
@[simp] theorem modCore_events (s : State) (c : Nat) (g : Core → Core) : (modCore s c g).events = s.events := rfl
@[simp] theorem modCore_cols (s : State) (c : Nat) (g : Core → Core) : (modCore s c g).cols = s.cols := rfl
@[simp] theorem modCore_units (s : State) (c : Nat) (g : Core → Core) : (modCore s c g).units = s.units := rfl
@[simp] theorem modCore_ports (s : State) (c : Nat) (g : Core → Core) : (modCore s c g).ports = s.ports := rfl
@[simp] theorem modCore_d2d (s : State) (c : Nat) (g : Core → Core) : (modCore s c g).d2d = s.d2d := rfl
@[simp] theorem modCore_routes (s : State) (c : Nat) (g : Core → Core) : (modCore s c g).routes = s.routes := rfl
@[simp] theorem modCore_rchange (s : State) (c : Nat) (g : Core → Core) : (modCore s c g).rchange = s.rchange := rfl
@[simp] theorem modCore_links (s : State) (c : Nat) (g : Core → Core) : (modCore s c g).links = s.links := rfl
@[simp] theorem modCore_svn (s : State) (c : Nat) (g : Core → Core) : (modCore s c g).svn = s.svn := rfl
@[simp] theorem modCore_rootKey (s : State) (c : Nat) (g : Core → Core) : (modCore s c g).rootKey = s.rootKey := rfl
@[simp] theorem modCore_superv (s : State) (c : Nat) (g : Core → Core) : (modCore s c g).superv = s.superv := rfl
@[simp] theorem modCore_images (s : State) (c : Nat) (g : Core → Core) : (modCore s c g).images = s.images := rfl
@[simp] theorem modCore_stored (s : State) (c : Nat) (g : Core → Core) : (modCore s c g).stored = s.stored := rfl
@[simp] theorem modCore_keys (s : State) (c : Nat) (g : Core → Core) : (modCore s c g).keys = s.keys := rfl
@[simp] theorem modCore_alarms (s : State) (c : Nat) (g : Core → Core) : (modCore s c g).alarms = s.alarms := rfl
@[simp] theorem modCore_unlockFails (s : State) (c : Nat) (g : Core → Core) : (modCore s c g).unlockFails = s.unlockFails := rfl
@[simp] theorem modCore_debug (s : State) (c : Nat) (g : Core → Core) : (modCore s c g).debug = s.debug := rfl
@[simp] theorem modCore_fltcfg (s : State) (c : Nat) (g : Core → Core) : (modCore s c g).fltcfg = s.fltcfg := rfl
@[simp] theorem modCore_errCnt (s : State) (c : Nat) (g : Core → Core) : (modCore s c g).errCnt = s.errCnt := rfl
@[simp] theorem modCore_lasting (s : State) (c : Nat) (g : Core → Core) : (modCore s c g).lasting = s.lasting := rfl
@[simp] theorem modCore_lastingNv (s : State) (c : Nat) (g : Core → Core) : (modCore s c g).lastingNv = s.lastingNv := rfl
@[simp] theorem modCore_broken (s : State) (c : Nat) (g : Core → Core) : (modCore s c g).broken = s.broken := rfl
@[simp] theorem modCore_coresOff (s : State) (c : Nat) (g : Core → Core) : (modCore s c g).coresOff = s.coresOff := rfl
@[simp] theorem modCore_unitBack (s : State) (c : Nat) (g : Core → Core) : (modCore s c g).unitBack = s.unitBack := rfl
@[simp] theorem modCore_bootMap (s : State) (c : Nat) (g : Core → Core) : (modCore s c g).bootMap = s.bootMap := rfl
@[simp] theorem modCore_bootPorts (s : State) (c : Nat) (g : Core → Core) : (modCore s c g).bootPorts = s.bootPorts := rfl
@[simp] theorem modCore_remote (s : State) (c : Nat) (g : Core → Core) : (modCore s c g).remote = s.remote := rfl
@[simp] theorem modCore_notices (s : State) (c : Nat) (g : Core → Core) : (modCore s c g).notices = s.notices := rfl
@[simp] theorem modCore_out (s : State) (c : Nat) (g : Core → Core) : (modCore s c g).out = s.out := rfl

/-! ## Reading a core or a task after it was changed -/

@[simp] theorem getCore_modCore_same (s : State) (c : Nat) (g : Core → Core) : getCore (modCore s c g) c = g (getCore s c) := by
  simp [getCore, modCore]

theorem getCore_modCore_ne (s : State) {c d : Nat} (g : Core → Core) (h : d ≠ c) :
    getCore (modCore s c g) d = getCore s d := by
  simp [getCore, modCore, tabGet_tabSet_ne _ _ _ h]

@[simp] theorem modCore_modCore (s : State) (c : Nat) (f g : Core → Core) :
    modCore (modCore s c f) c g = modCore s c fun k => g (f k) := by
  simp [modCore, getCore]

@[simp] theorem getTask_putTask_same (s : State) (c n : Nat) (t : Task) : getTask (putTask s c n t) c n = t := by
  simp [getTask, putTask]

theorem getTask_putTask_ne (s : State) {c n d m : Nat} (t : Task) (h : d ≠ c ∨ m ≠ n) :
    getTask (putTask s c n t) d m = getTask s d m := by
  by_cases hc : d = c
  · subst hc
    simp [getTask, putTask, tabGet_tabSet_ne _ _ _ (h.resolve_left (by simp))]
  · simp [getTask, putTask, getCore_modCore_ne _ _ hc]

@[simp] theorem getTask_modTask_same (s : State) (c n : Nat) (f : Task → Task) :
    getTask (modTask s c n f) c n = f (getTask s c n) := by simp [modTask]

theorem getTask_modTask_ne (s : State) {c n d m : Nat} (f : Task → Task) (h : d ≠ c ∨ m ≠ n) :
    getTask (modTask s c n f) d m = getTask s d m := getTask_putTask_ne _ _ h

@[simp] theorem modTask_modTask (s : State) (c n : Nat) (f g : Task → Task) :
    modTask (modTask s c n f) c n g = modTask s c n fun t => g (f t) := by
  simp [modTask, putTask, getTask]

/-! ## The core and the task whose instruction runs -/

@[simp] theorem modMyCore_cur (s : State) (g : Core → Core) : (modMyCore s g).cur = s.cur := rfl
@[simp] theorem modMe_cur (s : State) (f : Task → Task) : (modMe s f).cur = s.cur := rfl
@[simp] theorem modMyCore_cycle (s : State) (g : Core → Core) : (modMyCore s g).cycle = s.cycle := rfl
@[simp] theorem modMe_cycle (s : State) (f : Task → Task) : (modMe s f).cycle = s.cycle := rfl
@[simp] theorem modMyCore_mem (s : State) (g : Core → Core) : (modMyCore s g).mem = s.mem := rfl
@[simp] theorem modMe_mem (s : State) (f : Task → Task) : (modMe s f).mem = s.mem := rfl
@[simp] theorem modMyCore_farMem (s : State) (g : Core → Core) : (modMyCore s g).farMem = s.farMem := rfl
@[simp] theorem modMe_farMem (s : State) (f : Task → Task) : (modMe s f).farMem = s.farMem := rfl
@[simp] theorem modMyCore_remote (s : State) (g : Core → Core) : (modMyCore s g).remote = s.remote := rfl
@[simp] theorem modMe_remote (s : State) (f : Task → Task) : (modMe s f).remote = s.remote := rfl
@[simp] theorem modMyCore_fresh (s : State) (g : Core → Core) : (modMyCore s g).fresh = s.fresh := rfl
@[simp] theorem modMe_fresh (s : State) (f : Task → Task) : (modMe s f).fresh = s.fresh := rfl

@[simp] theorem myCore_modMyCore (s : State) (g : Core → Core) : myCore (modMyCore s g) = g (myCore s) :=
  getCore_modCore_same s s.cur.core g

@[simp] theorem me_modMe (s : State) (f : Task → Task) : me (modMe s f) = f (me s) :=
  getTask_modTask_same s s.cur.core s.cur.slot f

@[simp] theorem modMyCore_modMyCore (s : State) (f g : Core → Core) :
    modMyCore (modMyCore s f) g = modMyCore s fun k => g (f k) := modCore_modCore s s.cur.core f g

@[simp] theorem modMe_modMe (s : State) (f g : Task → Task) : modMe (modMe s f) g = modMe s fun t => g (f t) :=
  modTask_modTask s s.cur.core s.cur.slot f g

/-- A task changed is its core changed in one slot. -/
theorem modMe_eq (s : State) (f : Task → Task) :
    modMe s f = modMyCore s fun k => { k with slots := tabSet k.slots s.cur.slot (f (tabGet {} k.slots s.cur.slot)) } := rfl

theorem me_eq (s : State) : me s = tabGet {} (myCore s).slots s.cur.slot := rfl

/-- A change of the core that leaves its tasks alone is not seen by the task. -/
theorem me_modMyCore (s : State) {g : Core → Core} (h : ∀ k, (g k).slots = k.slots) : me (modMyCore s g) = me s := by
  simp [me_eq, h]

theorem getTask_modMyCore (s : State) {g : Core → Core} (h : ∀ k, (g k).slots = k.slots) (c n : Nat) :
    getTask (modMyCore s g) c n = getTask s c n := by
  by_cases hc : c = s.cur.core
  · subst hc; simp [getTask, modMyCore, h]
  · simp [getTask, modMyCore, getCore_modCore_ne _ _ hc]

/-- A change of the task is seen in its core in that slot alone. -/
theorem myCore_modMe (s : State) (f : Task → Task) :
    myCore (modMe s f) = { myCore s with slots := tabSet (myCore s).slots s.cur.slot (f (me s)) } := by
  rw [modMe_eq, myCore_modMyCore]; rfl

/-! ## The context of C that runs -/

@[simp] theorem modCtx_cur (s : State) (f : CCtx → CCtx) : (modCtx s f).cur = s.cur := by unfold modCtx; split <;> rfl
@[simp] theorem modCtx_mem (s : State) (f : CCtx → CCtx) : (modCtx s f).mem = s.mem := by unfold modCtx; split <;> rfl
@[simp] theorem modCtx_farMem (s : State) (f : CCtx → CCtx) : (modCtx s f).farMem = s.farMem := by unfold modCtx; split <;> rfl
@[simp] theorem modCtx_cycle (s : State) (f : CCtx → CCtx) : (modCtx s f).cycle = s.cycle := by unfold modCtx; split <;> rfl

@[simp] theorem ctx_modCtx (s : State) (f : CCtx → CCtx) : ctx (modCtx s f) = f (ctx s) := by
  unfold ctx modCtx
  cases h : s.cur.handler <;> simp [h]

@[simp] theorem modCtx_modCtx (s : State) (f g : CCtx → CCtx) : modCtx (modCtx s f) g = modCtx s fun c => g (f c) := by
  unfold modCtx
  cases h : s.cur.handler <;> simp [h]

/-! ## The control part of a sequencer -/

@[simp] theorem taskCtl_modTaskCtl (t : Task) (q : Seq) (f : Ctl → Ctl) : taskCtl (modTaskCtl t q f) q = f (taskCtl t q) := by
  cases q <;> rfl

@[simp] theorem modTaskCtl_modTaskCtl (t : Task) (q : Seq) (f g : Ctl → Ctl) :
    modTaskCtl (modTaskCtl t q f) q g = modTaskCtl t q fun c => g (f c) := by cases q <;> rfl

@[simp] theorem modCtl_cur (s : State) (q : Seq) (f : Ctl → Ctl) : (modCtl s q f).cur = s.cur := by
  cases q <;> simp [modCtl]
@[simp] theorem modCtl_mem (s : State) (q : Seq) (f : Ctl → Ctl) : (modCtl s q f).mem = s.mem := by
  cases q <;> simp [modCtl]
@[simp] theorem modCtl_farMem (s : State) (q : Seq) (f : Ctl → Ctl) : (modCtl s q f).farMem = s.farMem := by
  cases q <;> simp [modCtl]
@[simp] theorem modCtl_cycle (s : State) (q : Seq) (f : Ctl → Ctl) : (modCtl s q f).cycle = s.cycle := by
  cases q <;> simp [modCtl]

@[simp] theorem ctl_modCtl (s : State) (q : Seq) (f : Ctl → Ctl) : ctl (modCtl s q f) q = f (ctl s q) := by
  cases q <;> simp [ctl, modCtl]

@[simp] theorem modCtl_modCtl (s : State) (q : Seq) (f g : Ctl → Ctl) :
    modCtl (modCtl s q f) q g = modCtl s q fun c => g (f c) := by
  cases q <;> simp [modCtl]

end Sys2Proof.Machine
end

