-- ==== Sys2Proof/Laws/Word.lean ====
section
/-!
SUPPORT. What issuing a word and going on to the next one change (R12, R17, R18, R281, R298), and how a word of C, L or S
completes.
-/
namespace Sys2Proof.Machine

/-! ## Issue: only the core's counting of issued words changes -/

/-- Issuing a word changes nothing, or the core that runs in nothing but its charges and its record of issued words. -/
theorem markIssue_cases (s : State) (q : Seq) :
    markIssue s q = s ∨ ∃ g : Core → Core, markIssue s q = modMyCore s g ∧ (∀ k, (g k).slots = k.slots)
      ∧ (∀ k, (g k).h = k.h) ∧ ∀ k, (g k).uncounted = k.uncounted := by
  unfold markIssue
  split
  · exact .inl rfl
  · exact .inr ⟨_, modCore_modCore s s.cur.core _ _, fun _ => rfl, fun _ => rfl, fun _ => rfl⟩

@[simp] theorem markIssue_cur (s : State) (q : Seq) : (markIssue s q).cur = s.cur := by
  obtain h | ⟨g, h, -⟩ := markIssue_cases s q <;> rw [h]; rfl
@[simp] theorem markIssue_mem (s : State) (q : Seq) : (markIssue s q).mem = s.mem := by
  obtain h | ⟨g, h, -⟩ := markIssue_cases s q <;> rw [h]; rfl
@[simp] theorem markIssue_farMem (s : State) (q : Seq) : (markIssue s q).farMem = s.farMem := by
  obtain h | ⟨g, h, -⟩ := markIssue_cases s q <;> rw [h]; rfl
@[simp] theorem markIssue_cycle (s : State) (q : Seq) : (markIssue s q).cycle = s.cycle := by
  obtain h | ⟨g, h, -⟩ := markIssue_cases s q <;> rw [h]; rfl
@[simp] theorem markIssue_remote (s : State) (q : Seq) : (markIssue s q).remote = s.remote := by
  obtain h | ⟨g, h, -⟩ := markIssue_cases s q <;> rw [h]; rfl
@[simp] theorem markIssue_getTask (s : State) (q : Seq) (c n : Nat) : getTask (markIssue s q) c n = getTask s c n := by
  obtain h | ⟨g, h, hs, -⟩ := markIssue_cases s q <;> rw [h]
  exact getTask_modMyCore s hs c n
@[simp] theorem markIssue_me (s : State) (q : Seq) : me (markIssue s q) = me s := by
  simp only [me, markIssue_getTask, markIssue_cur]
@[simp] theorem markIssue_ctx (s : State) (q : Seq) : ctx (markIssue s q) = ctx s := by
  simp only [ctx, markIssue_me, markIssue_cur]
  obtain h | ⟨g, h, -, hh, -⟩ := markIssue_cases s q <;> rw [h]
  simp only [myCore_modMyCore, hh]
@[simp] theorem markIssue_ctl (s : State) (q p : Seq) : ctl (markIssue s q) p = ctl s p := by
  cases p <;> simp [ctl]
@[simp] theorem markIssue_reg (s : State) (q : Seq) (n : BitVec 5) : reg (markIssue s q) n = reg s n := by simp [reg]
@[simp] theorem markIssue_getB (s : State) (q : Seq) (n : BitVec 2) : getB (markIssue s q) n = getB s n := by simp [getB]
@[simp] theorem markIssue_flag (s : State) (q : Seq) (n : BitVec 3) : flag (markIssue s q) n = flag s n := by simp [flag]
@[simp] theorem markIssue_getJ (s : State) (q : Seq) (n : BitVec 4) : getJ (markIssue s q) n = getJ s n := by simp [getJ]
@[simp] theorem markIssue_getY (s : State) (q : Seq) (n : BitVec 3) : getY (markIssue s q) n = getY s n := by simp [getY]

/-! ## Effects leave the control part of the word alone -/

@[simp] theorem ctl_modMe (s : State) (f : Task → Task) (q : Seq) (h : ∀ t, taskCtl (f t) q = taskCtl t q) :
    ctl (modMe s f) q = ctl s q := by
  cases q <;> simp only [ctl, ctx, modMe_cur, me_modMe, myCore_modMe, h]
  split
  · rfl
  · exact h (me s)

@[simp] theorem ctl_setReg (s : State) (n : BitVec 5) (v : W64) (q : Seq) : ctl (setReg s n v) q = ctl s q := by
  unfold setReg
  split
  · rfl
  · cases q
    case c => simp [ctl]
    all_goals
      simp only [ctl, modCtx]
      split
      · simp only [me_modMyCore, implies_true, taskCtl]
      · simp only [me_modMe, taskCtl]

@[simp] theorem ctl_setFlag (s : State) (n : BitVec 3) (v : Bool) : ctl (setFlag s n v) .c = ctl s .c := by
  simp [ctl, setFlag]
@[simp] theorem ctl_setB (s : State) (n : BitVec 2) (v : Nat) : ctl (setB s n v) .c = ctl s .c := by simp [ctl, setB]
@[simp] theorem ctl_setJ (s : State) (n : BitVec 4) (v : W64) (q : Seq) : ctl (setJ s n v) q = ctl s q :=
  ctl_modMe _ _ _ fun _ => by cases q <;> rfl
@[simp] theorem ctl_setY (s : State) (n : BitVec 3) (v : W64) (q : Seq) : ctl (setY s n v) q = ctl s q :=
  ctl_modMe _ _ _ fun _ => by cases q <;> rfl

/-! ## Completion -/

/-- A change of a control part is a change of the task, or of the handler context. -/
theorem modCtl_eq (s : State) (q : Seq) (f : Ctl → Ctl) : modCtl s q f =
    if s.cur.handler = true ∧ q = .c then modMyCore s fun k => { k with h := { k.h with ctx := { k.h.ctx with ctl := f k.h.ctx.ctl } } }
    else modMe s fun t => modTaskCtl t q f := by
  cases h : s.cur.handler <;> cases q <;> simp [modCtl, modCtx, h, modTaskCtl]

/-- What a word was about to owe is forgotten once it has completed. -/
theorem onward_owes (s : State) (q : Seq) (sig : BitVec 5) (o : Option Nat) :
    onward q sig (modCtl s q fun c => { c with owes := o }) = onward q sig s := by
  have key : ∀ c : Ctl, (advance (wordSize q) { c with owes := o }).clear = (advance (wordSize q) c).clear := by
    intro c
    cases hd : c.delay with
    | none => simp [advance, hd, Ctl.clear]
    | some d => by_cases hl : d.left ≤ 1 <;> simp [advance, hd, hl, Ctl.clear]
  unfold onward signalPushed dropMiss
  rw [modCtl_eq s q]
  cases hh : s.cur.handler <;> cases q <;> cases hq : tokQueue sig <;>
    simp [modCtl_eq, hh, modTaskCtl, key, modMe_eq, tokPush]

@[simp] theorem ctl_dropMiss (s : State) (q p : Seq) : ctl (dropMiss s q) p = ctl s p := by
  unfold dropMiss
  split
  · rfl
  · exact ctl_modMe _ _ _ fun _ => by cases p <;> rfl

/-- Room for a push does not depend on what the pushing word owes or waited for. -/
theorem tokRoom_dropMiss (s : State) (q : Seq) (o : Option Nat) (n : Nat) :
    tokRoom (me (dropMiss (modCtl s q fun c => { c with owes := o }) q)) n = tokRoom (me s) n := by
  have h : ∀ t : Task, tokRoom (modTaskCtl t q fun c => { c with owes := o }) n = tokRoom t n := fun t => by
    cases q <;> rfl
  have h' : ∀ (t : Task) (l : List Miss), tokRoom { t with miss := l } n = tokRoom t n := fun _ _ => rfl
  unfold dropMiss
  rw [modCtl_eq]
  split
  · rename_i c
    simp only [modMyCore_cur, c.1, if_true, me_modMyCore, implies_true]
  · rw [modMe_cur]
    split
    · rw [me_modMe, h]
    · rw [modMe_modMe, me_modMe, h', h]

/-- A completed word goes on, if its signal fits. -/
theorem finish_owes {s : State} {q : Seq} {sig : BitVec 5} (ht : (ctl s q).st = .run)
    (hp : ∀ n, tokQueue sig = some n → tokRoom (me s) n = true) :
    finish q (modCtl s q fun c => { c with owes := tokQueue sig }) = onward q sig s := by
  rw [← onward_owes s q sig (tokQueue sig)]
  simp only [finish, ctl_modCtl, ht, retire, ctl_dropMiss, onward, signalPushed, tokRoom_dropMiss]
  cases hq : tokQueue sig with
  | none => rfl
  | some n => simp [hp n hq]

/-- A completed word that signals nothing goes on. -/
theorem finish_silent {s : State} {q : Seq} (ht : (ctl s q).st = .run) :
    finish q (modCtl s q fun c => { c with owes := none }) = onward q 0 s :=
  finish_owes (sig := 0) ht fun n h => by cases (show tokQueue 0 = none from rfl).symm.trans h

/-- A word of C whose effect is the state `t` completes. -/
theorem execC_completes {s t : State} {i : Instr} {body : State → M State} (hi : FitC s i)
    (hb : body (markIssue s .c) = .ok t) (ht : (ctl t .c).st = .run) : execC i body s = .next (onward .c 0 t) := by
  simp only [execC, hi.2, hb, finish_silent ht]

/-- A word of C whose effect stops with a trap faults. -/
theorem execC_traps {s : State} {i : Instr} {body : State → M State} {cause detail : Nat} (hi : FitC s i)
    (hb : body (markIssue s .c) = .error (.trap cause detail)) : TrapsIssued .c (execC i body s) s cause detail := by
  simp only [execC, hi.2, hb, stopWord, issuedAt, TrapsIssued]

/-! ## Words of L and S -/

theorem takeWait_ready {s : State} {q : Seq} {t : Tok} (h : TokensReady q t s) : takeWait s q t.wait = .ok (waitPopped q t.wait s) := by
  unfold takeWait waitPopped
  cases hw : tokQueue t.wait with
  | none => rfl
  | some n =>
    cases hp : (ctl s q).popped
    · simp [(h.1 n hw).resolve_left (by simp [hp])]
    · simp

/-- A word of L or S whose effect is the state `t` completes, where its signal fits then. -/
theorem execLS_completes {s t : State} {q : Seq} {fails : List Fail} {k : Tok} {cmd : Bool} {body : State → M State}
    (hf : pickFail fails = none) (hk : TokensReady q k s)
    (hb : body (markIssue (waitPopped q k.wait s) q) = .ok t) (ht : (ctl t q).st = .run)
    (hs : cmd = false → ∀ n, tokQueue k.sig = some n → tokRoom (me t) n = true) :
    execLS q fails k cmd body s = .next (onward q (if cmd then 0 else k.sig) t) := by
  simp only [execLS, hf, takeWait_ready hk, hb]
  cases cmd
  · simp [finish_owes ht (hs rfl)]
  · simp [finish_silent ht]

/-! ## `bare` forgets what every word leaves behind -/

theorem uncounted_modMe (s : State) (f : Task → Task) :
    modMyCore (modMe s f) Core.uncounted = modMe (modMyCore s Core.uncounted) f := by
  simp only [modMe_eq, modMyCore_modMyCore]; rfl

theorem uncounted_modCtl (s : State) (q : Seq) (f : Ctl → Ctl) :
    modMyCore (modCtl s q f) Core.uncounted = modCtl (modMyCore s Core.uncounted) q f := by
  rw [modCtl_eq, modCtl_eq, modMyCore_cur]
  by_cases h : s.cur.handler = true ∧ q = .c
  · rw [if_pos h, if_pos h]
    simp only [modMyCore_modMyCore]
    rfl
  · rw [if_neg h, if_neg h]
    exact uncounted_modMe _ _

theorem bare_modCtl (q : Seq) (s : State) (f : Ctl → Ctl) : bare q (modCtl s q f) = bare q s := by
  simp only [bare, uncounted_modCtl, modCtl_modCtl]

theorem bare_markIssue (q p : Seq) (s : State) : bare q (markIssue s p) = bare q s := by
  obtain h | ⟨g, h, -, -, hu⟩ := markIssue_cases s p <;> rw [h]
  simp only [bare, modMyCore_modMyCore, hu]

theorem bare_dropMiss (q p : Seq) (s : State) : bare q (dropMiss s p) = bare q s := by
  unfold dropMiss
  split
  · rfl
  · rename_i h
    simp only [bare, uncounted_modMe, modCtl_eq, modMyCore_cur, modMe_cur, h, Bool.false_eq_true, false_and, if_false, modMe_modMe]
    cases q <;> rfl

/-- A word's going on without a signal leaves nothing behind that `bare` does not forget. -/
theorem bare_onward (q : Seq) (s : State) : bare q (onward q 0 s) = bare q s := by
  have h : signalPushed 0 (dropMiss s q) = dropMiss s q := rfl
  rw [onward, h, bare_modCtl, bare_dropMiss]

end Sys2Proof.Machine
end

