-- ==== Sys2Proof/Laws/Access.lean ====
section
/-!
SUPPORT. What an access of memory changes: touching rows of stack memory leaves every byte and every register alone, and bytes
stored at a place change no other byte.
-/
namespace Sys2Proof.Machine

/-- The states differ in rows and their counts, in pegs and in charges, and in nothing that an instruction reads or writes. -/
structure Touched (s t : State) : Prop where
  cur : t.cur = s.cur
  cycle : t.cycle = s.cycle
  mem : t.mem = s.mem
  farMem : t.farMem = s.farMem
  poison : t.poison = s.poison
  remote : t.remote = s.remote
  bootst : t.bootst = s.bootst
  core : ∀ c, { getCore t c with charges := [], slots := [] } = { getCore s c with charges := [], slots := [] }
  task : ∀ c n, { getTask t c n with pegs := [] } = { getTask s c n with pegs := [] }

namespace Touched

theorem refl (s : State) : Touched s s := ⟨rfl, rfl, rfl, rfl, rfl, rfl, rfl, fun _ => rfl, fun _ _ => rfl⟩

theorem trans {s t u : State} (h : Touched s t) (g : Touched t u) : Touched s u :=
  ⟨g.cur.trans h.cur, g.cycle.trans h.cycle, g.mem.trans h.mem, g.farMem.trans h.farMem, g.poison.trans h.poison,
   g.remote.trans h.remote, g.bootst.trans h.bootst, fun c => (g.core c).trans (h.core c), fun c n => (g.task c n).trans (h.task c n)⟩

variable {s t : State} (h : Touched s t)
include h

theorem spm (c : Nat) : (getCore t c).spm = (getCore s c).spm := by have := h.core c; injection this
theorem sramBad (c : Nat) : (getCore t c).sramBad = (getCore s c).sramBad := by have := h.core c; injection this
theorem locks (c : Nat) : (getCore t c).locks = (getCore s c).locks := by have := h.core c; injection this
theorem waits (c : Nat) : (getCore t c).waits = (getCore s c).waits := by have := h.core c; injection this
theorem handler (c : Nat) : (getCore t c).h = (getCore s c).h := by have := h.core c; injection this
theorem tasks (c n : Nat) : ∃ p, getTask t c n = { getTask s c n with pegs := p } :=
  ⟨(getTask t c n).pegs, by
    have := h.task c n
    calc getTask t c n = { { getTask t c n with pegs := [] } with pegs := (getTask t c n).pegs } := rfl
      _ = _ := by rw [this]⟩
theorem me_ : ∃ p, me t = { me s with pegs := p } := by
  obtain ⟨p, hp⟩ := h.tasks s.cur.core s.cur.slot
  exact ⟨p, by simpa only [me, h.cur] using hp⟩
theorem ctx : ctx t = ctx s := by
  obtain ⟨p, hp⟩ := h.me_
  simp only [Machine.ctx, h.cur, myCore, h.handler, hp]
theorem ctl (q : Seq) : ctl t q = ctl s q := by
  obtain ⟨p, hp⟩ := h.me_
  cases q <;> simp only [Machine.ctl, h.ctx, hp, taskCtl]
theorem reg (n : BitVec 5) : reg t n = reg s n := by simp only [Machine.reg, h.cur, h.ctx]
theorem flag (n : BitVec 3) : flag t n = flag s n := by simp only [Machine.flag, h.ctx]
theorem getB (n : BitVec 2) : getB t n = getB s n := by simp only [Machine.getB, h.ctx]
theorem getJ (n : BitVec 4) : getJ t n = getJ s n := by
  obtain ⟨p, hp⟩ := h.me_
  simp only [Machine.getJ, hp]
theorem getY (n : BitVec 3) : getY t n = getY s n := by
  obtain ⟨p, hp⟩ := h.me_
  simp only [Machine.getY, hp]
theorem spmBase (c n : Nat) : spmBase (getTask t c n) = spmBase (getTask s c n) := by
  obtain ⟨p, hp⟩ := h.tasks c n
  simp only [Machine.spmBase, hp]

end Touched

/-- A core's charges raised. -/
theorem charge_touched (s : State) (c rcb ic dg : Nat) : Touched s (charge s c rcb ic dg) := by
  refine ⟨rfl, rfl, rfl, rfl, rfl, rfl, rfl, fun d => ?_, fun d n => ?_⟩
  · by_cases hd : d = c
    · subst hd; simp [charge]
    · rw [charge, getCore_modCore_ne _ _ hd]
  · by_cases hd : d = c
    · subst hd; simp [charge, getTask]
    · simp [charge, getTask, getCore_modCore_ne _ _ hd]

/-- A task's pegs changed. -/
theorem pegs_touched (s : State) (c n : Nat) (f : List Peg → List Peg) :
    Touched s (modTask s c n fun t => { t with pegs := f t.pegs }) := by
  refine ⟨rfl, rfl, rfl, rfl, rfl, rfl, rfl, fun d => ?_, fun d m => ?_⟩
  · by_cases hd : d = c
    · subst hd; simp [modTask, putTask]
    · simp [modTask, putTask, getCore_modCore_ne _ _ hd]
  · by_cases hd : d = c ∧ m = n
    · obtain ⟨rfl, rfl⟩ := hd; simp
    · rw [getTask_modTask_ne _ _ (by omega)]

theorem repeg_touched (s : State) (c n bank row : Nat) : Touched s (repeg s c n bank row) := by
  unfold repeg
  dsimp only
  split
  · split
    · exact pegs_touched s c n _
    · exact .refl s
  · exact .refl s

theorem openRow_touched {s t : State} {bank row : Nat} (h : openRow s bank row = some t) : Touched s t := by
  unfold openRow at h
  dsimp only at h
  split at h
  · cases h; exact ⟨rfl, rfl, rfl, rfl, rfl, rfl, rfl, fun _ => rfl, fun _ _ => rfl⟩
  · split at h
    · cases h
    · cases h; exact ⟨rfl, rfl, rfl, rfl, rfl, rfl, rfl, fun _ => rfl, fun _ _ => rfl⟩

/-- A transfer counted, and a granule of a region in a swap recorded (R70, R71). -/
theorem countTransfer_touched (s : State) (pa : Nat) (wr : Bool) : Touched s (countTransfer s pa wr) := by
  unfold countTransfer
  dsimp only
  split <;> exact ⟨rfl, rfl, rfl, rfl, rfl, rfl, rfl, fun _ => rfl, fun _ _ => rfl⟩

/-- An access that does not wait charges its task and pegs its lost row again, opens the row and is counted. -/
theorem touch_ok {s t : State} {who : Option (Nat × Nat)} {pa : Nat} {wr : Bool} (h : touch s who pa wr = .ok t) :
    ∃ v, openRow (match who with
      | some (c, n) => charge (repeg s c n (mapAddress s pa).bankNo (mapAddress s pa).row) c (getTask s c n).rcb 0 1
      | none => s) (mapAddress s pa).bankNo (mapAddress s pa).row = some v ∧ t = countTransfer v pa wr := by
  cases who <;> simp only [touch] at h <;> (repeat' split at h) <;> cases h <;> exact ⟨_, ‹_›, rfl⟩

/-- One access to a granule changes rows, pegs, counts and charges (R70, R71, R74, R75, R298). -/
theorem touch_touched {s t : State} {who : Option (Nat × Nat)} {pa : Nat} {wr : Bool} (h : touch s who pa wr = .ok t) :
    Touched s t := by
  have key : ∀ u v : State, Touched s u → openRow u (mapAddress s pa).bankNo (mapAddress s pa).row = some v → Touched s v :=
    fun _ _ h1 h2 => h1.trans (openRow_touched h2)
  obtain ⟨v, hv, rfl⟩ := touch_ok h
  refine .trans ?_ (countTransfer_touched v pa wr)
  cases who with
  | none => exact key s v (.refl s) hv
  | some w => exact key _ v (.trans (repeg_touched s _ _ _ _) (charge_touched _ _ _ _ _)) hv

/-- The access of a range changes nothing more. -/
theorem touchRange_touched {s t : State} {who : Option (Nat × Nat)} {pa n : Nat} {wr : Bool}
    (h : touchRange s who pa n wr = .ok t) : Touched s t := by
  unfold touchRange at h
  split at h
  · cases h; exact .refl s
  · generalize upto _ _ = l at h
    induction l generalizing s with
    | nil => cases h; exact .refl _
    | cons g r ih =>
      simp only [List.foldlM_cons, bind, Except.bind] at h
      split at h
      · cases h
      · rename_i u hu
        exact .trans (touch_touched hu) (ih h)

/-- The states differ in rows and their counts alone. -/
structure Reached (s t : State) : Prop where
  cur : t.cur = s.cur
  mem : t.mem = s.mem
  poison : t.poison = s.poison
  cores : t.cores = s.cores
  keys : t.keys = s.keys
  units : t.units = s.units
  effs : t.effs = s.effs
  bootMap : t.bootMap = s.bootMap

theorem Reached.refl (s : State) : Reached s s := ⟨rfl, rfl, rfl, rfl, rfl, rfl, rfl, rfl⟩

theorem Reached.trans {s t u : State} (h : Reached s t) (g : Reached t u) : Reached s u :=
  ⟨g.cur.trans h.cur, g.mem.trans h.mem, g.poison.trans h.poison, g.cores.trans h.cores, g.keys.trans h.keys,
   g.units.trans h.units, g.effs.trans h.effs, g.bootMap.trans h.bootMap⟩

theorem openRow_reached {s t : State} {bank row : Nat} (h : openRow s bank row = some t) : Reached s t := by
  unfold openRow at h
  dsimp only at h
  split at h
  · cases h; exact ⟨rfl, rfl, rfl, rfl, rfl, rfl, rfl, rfl⟩
  · split at h
    · cases h
    · cases h; exact ⟨rfl, rfl, rfl, rfl, rfl, rfl, rfl, rfl⟩

/-- A read of the hardware itself changes rows and their counts alone (R70, R74). -/
theorem reach_reached {s t : State} {l : List (Nat × Nat)} (h : reach s l = .ok t) : Reached s t := by
  have one : ∀ (s t : State) (pa : Nat) (wr : Bool), touch s none pa wr = .ok t → Reached s t := by
    intro s t pa wr h
    obtain ⟨v, hv, rfl⟩ := touch_ok h
    refine .trans (openRow_reached hv) ?_
    unfold countTransfer
    dsimp only
    split <;> exact ⟨rfl, rfl, rfl, rfl, rfl, rfl, rfl, rfl⟩
  have range : ∀ (s t : State) (pa n : Nat) (wr : Bool), touchRange s none pa n wr = .ok t → Reached s t := by
    intro s t pa n wr h
    unfold touchRange at h
    split at h
    · cases h; exact .refl s
    · generalize upto _ _ = l at h
      induction l generalizing s with
      | nil => cases h; exact .refl _
      | cons g r ih =>
        simp only [List.foldlM_cons, bind, Except.bind] at h
        split at h
        · cases h
        · rename_i u hu
          exact .trans (one _ _ _ _ hu) (ih _ h)
  unfold reach at h
  generalize l.filter _ = l at h
  induction l generalizing s with
  | nil => cases h; exact .refl _
  | cons g r ih =>
    simp only [List.foldlM_cons, bind, Except.bind] at h
    split at h
    · cases h
    · rename_i u hu
      exact .trans (range _ _ _ _ _ hu) (ih h)

/-- A flit sent changes a link and what leaves the module, alone (R217). -/
theorem sendFlit_touched (s : State) (m : Nat) (b : FlitBody) (who : Nat × Nat) (q va : Nat) :
    Touched s (sendFlit s m b who q va) := by
  unfold sendFlit
  split
  · exact .refl s
  · exact ⟨rfl, rfl, rfl, rfl, rfl, rfl, rfl, fun _ => rfl, fun _ _ => rfl⟩

/-! ## Bytes stored -/

@[simp] theorem putSpm_cur (s : State) (c a : Nat) (bs : List Byte) : (putSpm s c a bs).cur = s.cur := rfl
@[simp] theorem putSpm_mem (s : State) (c a : Nat) (bs : List Byte) : (putSpm s c a bs).mem = s.mem := rfl
@[simp] theorem putSpm_farMem (s : State) (c a : Nat) (bs : List Byte) : (putSpm s c a bs).farMem = s.farMem := rfl
@[simp] theorem putSpm_getTask (s : State) (c a d n : Nat) (bs : List Byte) : getTask (putSpm s c a bs) d n = getTask s d n := by
  by_cases hd : d = c
  · subst hd; simp [putSpm, getTask]
  · simp [putSpm, getTask, getCore_modCore_ne _ _ hd]

/-- Bytes put into a scratchpad change those bytes alone. -/
theorem putSpm_spm (s : State) (c a d : Nat) (bs : List Byte) :
    (getCore (putSpm s c a bs) d).spm = if d = c then memWrite (getCore s c).spm a bs else (getCore s d).spm := by
  split
  · rename_i h; subst h; simp [putSpm]
  · rename_i h; rw [putSpm, getCore_modCore_ne _ _ h]

@[simp] theorem storeAt_cur (s : State) (p : Place) (bs : List Byte) : (storeAt s p bs).cur = s.cur := by cases p <;> rfl
@[simp] theorem storeAt_cycle (s : State) (p : Place) (bs : List Byte) : (storeAt s p bs).cycle = s.cycle := by cases p <;> rfl
@[simp] theorem storeAt_getTask (s : State) (p : Place) (bs : List Byte) (d n : Nat) :
    getTask (storeAt s p bs) d n = getTask s d n := by
  cases p
  · exact putSpm_getTask ..
  · rfl
  · rfl
@[simp] theorem storeAt_handler (s : State) (p : Place) (bs : List Byte) (d : Nat) :
    (getCore (storeAt s p bs) d).h = (getCore s d).h := by
  cases p with
  | spm c slot off =>
    by_cases hd : d = c
    · subst hd; simp [storeAt, putSpm]
    · simp [storeAt, putSpm, getCore_modCore_ne _ _ hd]
  | mem _ => rfl
  | far _ _ => rfl
@[simp] theorem storeAt_me (s : State) (p : Place) (bs : List Byte) : me (storeAt s p bs) = me s := by simp [me]
@[simp] theorem storeAt_ctx (s : State) (p : Place) (bs : List Byte) : ctx (storeAt s p bs) = ctx s := by simp [ctx, myCore]
@[simp] theorem storeAt_ctl (s : State) (p : Place) (bs : List Byte) (q : Seq) : ctl (storeAt s p bs) q = ctl s q := by
  cases q <;> simp [ctl]
@[simp] theorem storeAt_reg (s : State) (p : Place) (bs : List Byte) (n : BitVec 5) : reg (storeAt s p bs) n = reg s n := by simp [reg]

theorem storeAt_memories (s : State) (p : Place) (bs : List Byte) :
    (∀ c, (getCore (storeAt s p bs) c).spm = match p with
      | .spm d slot off => if c = d then memWrite (getCore s d).spm (spmBase (getTask s d slot) + off) bs else (getCore s c).spm
      | _ => (getCore s c).spm) ∧
    (storeAt s p bs).mem = (match p with | .mem pa => memWrite s.mem pa bs | _ => s.mem) ∧
    (storeAt s p bs).farMem = match p with | .far m pa => memWrite s.farMem (m * 2 ^ 41 + pa) bs | _ => s.farMem := by
  cases p with
  | spm c slot off => exact ⟨fun d => putSpm_spm .., rfl, rfl⟩
  | mem pa => exact ⟨fun _ => rfl, rfl, rfl⟩
  | far m pa => exact ⟨fun _ => rfl, rfl, rfl⟩

end Sys2Proof.Machine
end

