-- ==== Sys2Proof/Laws/Decode.lean ====
section
/-!
SUPPORT. Failed checks have cause 0x01 or 0x02 (R36), and the one reported is one of those that failed.
-/
namespace Sys2Proof

/-- Every failure of a list has cause 0x01 or 0x02. -/
def Fails (fs : List Fail) : Prop := ∀ f ∈ fs, f.cause = 1 ∨ f.cause = 2

theorem Fails.nil : Fails [] := fun _ h => by cases h
theorem Fails.append {a b : List Fail} (ha : Fails a) (hb : Fails b) : Fails (a ++ b) := fun f h => by
  rcases List.mem_append.1 h with h | h
  · exact ha f h
  · exact hb f h
theorem Fails.ite {p : Prop} [Decidable p] {a b : List Fail} (ha : Fails a) (hb : Fails b) : Fails (if p then a else b) := by
  split <;> assumption
theorem rsv_fails (w h l : Nat) : Fails (rsv w h l) := by
  unfold rsv
  split
  · exact .nil
  · intro f hf; simp only [List.mem_singleton] at hf; subst hf; exact .inr rfl
theorem rsvValue_fails (b : Bool) (at_ : Nat) : Fails (rsvValue b at_) := by
  unfold rsvValue
  split
  · intro f hf; simp only [List.mem_singleton] at hf; subst hf; exact .inr rfl
  · exact .nil
theorem ill_fails (b : Bool) (reason at_ : Nat) : Fails (ill b reason at_) := by
  unfold ill
  split
  · intro f hf; simp only [List.mem_singleton] at hf; subst hf; exact .inl rfl
  · exact .nil

/-- The failure reported is one of those that failed. -/
theorem pickFail_mem {fs : List Fail} {f : Fail} (h : pickFail fs = some f) : f ∈ fs := by
  have key : ∀ (l : List Fail) (b : Option Fail), l.foldl (fun best f => match best with
      | none => some f
      | some b => if f.at_ < b.at_ then some f else some b) b = some f → f ∈ l ∨ b = some f := by
    intro l
    induction l with
    | nil => intro b h; exact .inr h
    | cons x l ih =>
      intro b h
      rcases ih _ h with h | h
      · exact .inl (List.mem_cons_of_mem _ h)
      · cases b with
        | none => simp only [Option.some.injEq] at h; subst h; exact .inl List.mem_cons_self
        | some y =>
          simp only at h
          split at h
          · simp only [Option.some.injEq] at h; subst h; exact .inl List.mem_cons_self
          · exact .inr h
  unfold pickFail at h
  rcases key _ _ h with h | h
  · split at h
    · exact h
    · exact (List.mem_filter.1 h).1
  · cases h

theorem pickFail_none {fs : List Fail} (h : pickFail fs = none) : fs = [] := by
  have key : ∀ (l : List Fail) (b : Fail), l.foldl (fun best f => match best with
      | none => some f
      | some b => if f.at_ < b.at_ then some f else some b) (some b) ≠ none := by
    intro l
    induction l with
    | nil => intro b; simp
    | cons x l ih =>
      intro b
      simp only [List.foldl_cons]
      split
      · exact ih x
      · exact ih b
  unfold pickFail at h
  cases fs with
  | nil => rfl
  | cons x l =>
    exfalso
    dsimp only at h
    split at h
    · exact key l x h
    · rename_i h1
      cases h2 : List.filter (fun f => decide (f.cause = 1)) (x :: l) with
      | nil => simp [h2] at h1
      | cons y r => rw [h2] at h; exact key r y h

theorem decodeC_fails (w : Nat) : Fails (decodeC w).2 := by
  unfold decodeC decodeAluR decodeTk decodeSys decodeSched decodeAtom scopeFail
  dsimp only
  repeat' first
    | exact rsv_fails _ _ _ | exact rsvValue_fails _ _ | exact ill_fails _ _ _ | exact .nil | exact ill_fails true _ _ | exact rsvValue_fails true _
    | apply Fails.append | apply Fails.ite
    | split

theorem cFails_fails (c : Ctx) (i : Instr) : Fails (cFails c i) := by
  unfold cFails
  refine .append (.ite ?_ .nil) ?_
  · intro f hf
    obtain ⟨r, -, h⟩ := List.mem_flatMap.1 hf
    exact ill_fails _ _ _ f h
  · cases i <;> dsimp only [queueFail, sysFail] <;> repeat' first
    | exact ill_fails _ _ _ | exact .nil | apply Fails.append | apply Fails.ite

end Sys2Proof
namespace Sys2Proof.Machine

/-- A failed check of C has cause 0x01 or 0x02. -/
theorem legalC_cause {s : State} {i : Instr} {f : Fail} (h : legalC s i = some f) : f.cause = 1 ∨ f.cause = 2 := by
  unfold legalC at h
  split at h
  · rename_i g hg
    cases h
    exact Fails.append (decodeC_fails _) (cFails_fails _ _) _ (pickFail_mem hg)
  · split at h
    · cases h; exact .inl rfl
    · cases h

end Sys2Proof.Machine
end

