-- ==== Sys2Proof/Laws/Frame.lean ====
section
/-!
SUPPORT. The frame of every word: what issue, holds, faults and retirement leave as it is. `Kept s t` says that `t` holds the
registers of C, L, S and X, the system registers and every byte of memory that `s` holds.
-/
namespace Sys2Proof.Machine

/-- The registers of a C context are the same. -/
def CCtx.SameRegs (a b : CCtx) : Prop := a.r = b.r ∧ a.f = b.f ∧ a.b = b.b

/-- The registers of a task are the same. -/
structure Task.SameRegs (a b : Task) : Prop where
  c : a.c.SameRegs b.c
  j : a.j = b.j
  y : a.y = b.y
  sys : a.sys = b.sys
  v : a.x.v = b.x.v
  p : a.x.p = b.x.p
  e : a.x.e = b.x.e
  z : a.x.z = b.x.z

theorem Task.SameRegs.refl (t : Task) : t.SameRegs t := ⟨⟨rfl, rfl, rfl⟩, rfl, rfl, rfl, rfl, rfl, rfl, rfl⟩

/-- Registers and memories are as before. -/
structure Kept (s t : State) : Prop where
  cur : t.cur = s.cur
  regs : (ctx t).SameRegs (ctx s)
  me : (me t).SameRegs (me s)
  spm : ∀ c, (getCore t c).spm = (getCore s c).spm
  mem : t.mem = s.mem
  farMem : t.farMem = s.farMem

namespace Kept

theorem refl (s : State) : Kept s s := ⟨rfl, ⟨rfl, rfl, rfl⟩, .refl _, fun _ => rfl, rfl, rfl⟩

theorem trans {s t u : State} (h : Kept s t) (g : Kept t u) : Kept s u where
  cur := g.cur.trans h.cur
  regs := ⟨g.regs.1.trans h.regs.1, g.regs.2.1.trans h.regs.2.1, g.regs.2.2.trans h.regs.2.2⟩
  me := ⟨⟨g.me.c.1.trans h.me.c.1, g.me.c.2.1.trans h.me.c.2.1, g.me.c.2.2.trans h.me.c.2.2⟩, g.me.j.trans h.me.j,
    g.me.y.trans h.me.y, g.me.sys.trans h.me.sys, g.me.v.trans h.me.v, g.me.p.trans h.me.p, g.me.e.trans h.me.e, g.me.z.trans h.me.z⟩
  spm := fun c => (g.spm c).trans (h.spm c)
  mem := g.mem.trans h.mem
  farMem := g.farMem.trans h.farMem

variable {s t : State} (h : Kept s t)
include h

theorem reg (n : BitVec 5) : reg t n = reg s n := by simp only [Machine.reg, h.cur, h.regs.1]
theorem flag (n : BitVec 3) : flag t n = flag s n := by simp only [Machine.flag, h.regs.2.1]
theorem getB (n : BitVec 2) : getB t n = getB s n := by simp only [Machine.getB, h.regs.2.2]
theorem getJ (n : BitVec 4) : getJ t n = getJ s n := by simp only [Machine.getJ, h.me.j]
theorem getY (n : BitVec 3) : getY t n = getY s n := by simp only [Machine.getY, h.me.y]

end Kept

/-- A change of the core that runs, in nothing that holds a register or a byte of scratchpad. -/
theorem kept_modMyCore (s : State) (g : Core → Core) (hs : ∀ k, (g k).slots = k.slots) (hm : ∀ k, (g k).spm = k.spm)
    (hh : ∀ k, (g k).h.ctx.SameRegs k.h.ctx) : Kept s (modMyCore s g) where
  cur := rfl
  regs := by
    unfold ctx
    rw [modMyCore_cur, myCore_modMyCore, me_modMyCore s hs]
    split
    · exact hh _
    · exact ⟨rfl, rfl, rfl⟩
  me := by rw [me_modMyCore s hs]; exact .refl _
  spm c := by
    by_cases hc : c = s.cur.core
    · subst hc; rw [modMyCore, getCore_modCore_same, hm]
    · rw [modMyCore, getCore_modCore_ne _ _ hc]
  mem := rfl
  farMem := rfl

/-- A change of the task that runs, in no register. -/
theorem kept_modMe (s : State) (f : Task → Task) (hf : ∀ t, (f t).SameRegs t) : Kept s (modMe s f) where
  cur := rfl
  regs := by
    unfold ctx
    rw [modMe_cur, me_modMe, myCore_modMe]
    split
    · exact ⟨rfl, rfl, rfl⟩
    · exact (hf _).c
  me := by rw [me_modMe]; exact hf _
  spm c := by
    by_cases hc : c = s.cur.core
    · subst hc; rw [show getCore (modMe s f) s.cur.core = myCore (modMe s f) from rfl, myCore_modMe]; rfl
    · rw [modMe_eq, modMyCore, getCore_modCore_ne _ _ hc]
  mem := rfl
  farMem := rfl

/-- The control part of a sequencer holds no register. -/
theorem kept_modCtl (s : State) (q : Seq) (f : Ctl → Ctl) : Kept s (modCtl s q f) := by
  rw [modCtl_eq]
  split
  · exact kept_modMyCore s _ (fun _ => rfl) (fun _ => rfl) fun _ => ⟨rfl, rfl, rfl⟩
  · exact kept_modMe s _ fun t => by cases q <;> exact ⟨⟨rfl, rfl, rfl⟩, rfl, rfl, rfl, rfl, rfl, rfl, rfl⟩

theorem kept_markIssue (s : State) (q : Seq) : Kept s (markIssue s q) := by
  unfold markIssue
  split
  · exact .refl s
  · refine .trans (t := charge s s.cur.core (me s).rcb 1 0) ?_ ?_
    · exact kept_modMyCore s _ (fun _ => rfl) (fun _ => rfl) fun _ => ⟨rfl, rfl, rfl⟩
    · exact kept_modMyCore _ _ (fun _ => rfl) (fun _ => rfl) fun _ => ⟨rfl, rfl, rfl⟩

theorem kept_noteHold (s : State) (q : Seq) (k : HoldKind) (n : Nat) : Kept s (noteHold s q k n) := kept_modCtl s q _

theorem kept_noteMiss (s : State) (q : Seq) (va acc : Nat) : Kept s (noteMiss s q va acc) := by
  unfold noteMiss
  dsimp only
  split
  · exact kept_noteHold ..
  · refine .trans (kept_noteHold ..) (kept_modMe _ _ fun t => ?_)
    split <;> exact ⟨⟨rfl, rfl, rfl⟩, rfl, rfl, rfl, rfl, rfl, rfl, rfl⟩

theorem kept_handlerFault (s : State) (cause detail : Nat) : Kept s (handlerFault s cause detail) := by
  unfold handlerFault
  dsimp only
  generalize (ite ((myCore s).h.kind = 0) _ _ : List W64) = r
  exact .trans (t := modMe s fun t => markFaulted t r)
    (kept_modMe s _ fun t => ⟨⟨rfl, rfl, rfl⟩, rfl, rfl, rfl, rfl, rfl, rfl, rfl⟩)
    (kept_modMyCore _ _ (fun _ => rfl) (fun _ => rfl) fun _ => ⟨rfl, rfl, rfl⟩)

/-- A fault that is no residue-range fault changes no register. -/
theorem kept_raise (s : State) (q : Seq) (cause detail : Nat) (hc : cause ≠ 0x13) : Kept s (raise s q cause detail) := by
  unfold raise
  split
  · exact kept_handlerFault ..
  · refine .trans (kept_modCtl s q _) (kept_modMe _ _ fun t => ?_)
    simp only [addFault, hc, false_and, if_false]
    split <;> exact ⟨⟨rfl, rfl, rfl⟩, rfl, rfl, rfl, rfl, rfl, rfl, rfl⟩

theorem kept_dropMiss (s : State) (q : Seq) : Kept s (dropMiss s q) := by
  unfold dropMiss
  split
  · exact .refl s
  · exact kept_modMe s _ fun t => ⟨⟨rfl, rfl, rfl⟩, rfl, rfl, rfl, rfl, rfl, rfl, rfl⟩

theorem kept_retire (q : Seq) (s : State) : Kept s (retire q s) := by
  unfold retire
  dsimp only
  split
  · exact .trans (kept_dropMiss s q) (kept_modCtl _ _ _)
  · split
    · exact .trans (kept_dropMiss s q) (.trans (kept_modMe _ (fun t => tokPush t _) fun t => ⟨⟨rfl, rfl, rfl⟩, rfl, rfl, rfl, rfl, rfl, rfl, rfl⟩) (kept_modCtl _ _ _))
    · exact .trans (kept_dropMiss s q) (.trans (kept_modCtl _ _ _) (kept_noteHold ..))

theorem kept_finish (q : Seq) (s : State) : Kept s (finish q s) := by
  unfold finish
  split
  · exact kept_retire q s
  · exact .refl s

/-- Rows touched hold no register and no byte. -/
theorem Touched.kept {s t : State} (h : Touched s t) : Kept s t where
  cur := h.cur
  regs := by rw [h.ctx]; exact ⟨rfl, rfl, rfl⟩
  me := by obtain ⟨p, hp⟩ := h.me_; rw [hp]; exact ⟨⟨rfl, rfl, rfl⟩, rfl, rfl, rfl, rfl, rfl, rfl, rfl⟩
  spm := h.spm
  mem := h.mem
  farMem := h.farMem

/-! ## The ways a word of C, L or S goes -/

/-- A word of C fails a check, completes, or stops. -/
theorem execC_cases (i : Instr) (body : State → M State) (s : State) :
    (∃ f, legalC s i = some f ∧ execC i body s = .next (raise s .c f.cause (illDetail f))) ∨
    (∃ t, body (markIssue s .c) = .ok t ∧ execC i body s = .next (finish .c (modCtl t .c fun c => { c with owes := none }))) ∨
    ∃ e, body (markIssue s .c) = .error e ∧ execC i body s = .next (stopWord (issuedAt s .c e) .c e) := by
  unfold execC
  split
  · rename_i f hf; exact .inl ⟨f, hf, rfl⟩
  · split
    · rename_i t ht; exact .inr (.inl ⟨t, ht, rfl⟩)
    · rename_i e he; exact .inr (.inr ⟨e, he, rfl⟩)

end Sys2Proof.Machine
end

