-- ==== Sys2Proof/Laws/Link.lean ====
section
/-!
SUPPORT. The expander of a port restores the exact bytes of a payload (R218).
-/
namespace Sys2Proof.Machine

theorem zeroMask_lt (bs : List Byte) : zeroMask bs < 2 ^ bs.length := by
  induction bs with
  | nil => simp [zeroMask]
  | cons b r ih =>
    have : (b != 0).toNat ≤ 1 := Bool.toNat_le _
    simp only [zeroMask, List.length_cons, Nat.pow_succ]
    omega

theorem fillMask_zeroMask (bs : List Byte) : fillMask bs.length (zeroMask bs) (bs.filter (· ≠ 0)) = bs := by
  induction bs with
  | nil => rfl
  | cons b r ih =>
    by_cases h : b = 0
    · subst h
      have h1 : zeroMask (0 :: r) % 2 = 0 := by simp [zeroMask]
      have h2 : zeroMask (0 :: r) / 2 = zeroMask r := by simp [zeroMask]
      simp only [List.length_cons, fillMask, h1, h2]
      simpa using ih
    · have hb : (b != 0).toNat = 1 := by rw [bne_iff_ne.2 h]; rfl
      have h1 : zeroMask (b :: r) % 2 = 1 := by simp only [zeroMask, hb]; omega
      have h2 : zeroMask (b :: r) / 2 = zeroMask r := by simp only [zeroMask, hb]; omega
      rw [List.filter_cons_of_pos (by simpa using h)]
      simp only [List.length_cons, fillMask, h1, h2, if_true, List.headD_cons, List.tail_cons, ih]

theorem leBytes_length (n v : Nat) : (leBytes n v).length = n := by
  induction n generalizing v with
  | zero => rfl
  | succ n ih => simp [leBytes, ih]

theorem ofLe_leBytes_lt (n v : Nat) (h : v < 256 ^ n) : ofLe (leBytes n v) = v := by
  induction n generalizing v with
  | zero => simp only [Nat.pow_zero] at h; simp only [leBytes, ofLe]; omega
  | succ n ih =>
    rw [Nat.pow_succ] at h
    simp only [leBytes, ofLe, ih (v / 256) (by omega), BitVec.toNat_ofNat]
    omega

theorem expandBlock_compressBlock (bs : List Byte) : expandBlock (compressBlock bs) = bs := by
  unfold compressBlock expandBlock
  dsimp only
  split
  · have hl : (leBytes (ceilDiv bs.length 8) (zeroMask bs)).length = ceilDiv bs.length 8 := leBytes_length _ _
    have hm : zeroMask bs < 256 ^ ceilDiv bs.length 8 := by
      refine Nat.lt_of_lt_of_le (zeroMask_lt bs) ?_
      rw [show 256 = 2 ^ 8 from rfl, ← Nat.pow_mul]
      exact Nat.pow_le_pow_right (by decide) (by unfold ceilDiv; omega)
    simp only [Bool.false_eq_true, if_false]
    rw [List.take_append_of_le_length (by omega), List.take_of_length_le (by omega), List.drop_append_of_le_length (by omega),
      List.drop_of_length_le (by omega), List.nil_append, ofLe_leBytes_lt _ _ hm]
    exact fillMask_zeroMask bs
  · simp

theorem flatMap_chunks (k n : Nat) (bs : List Byte) (h : bs.length ≤ k * n) :
    ((List.range n).flatMap fun i => (bs.drop (k * i)).take k) = bs := by
  induction n generalizing bs with
  | zero => simp at h; simp [h]
  | succ n ih =>
    rw [List.range_succ_eq_map, List.flatMap_cons, List.flatMap_map]
    have := ih (bs.drop k) (by rw [List.length_drop]; rw [Nat.mul_succ] at h; omega)
    simp only [List.drop_drop] at this
    simp only [Nat.mul_zero, List.drop_zero, Nat.mul_succ]
    rw [show (fun i => (bs.drop (k * i + k)).take k) = fun i => (bs.drop (k + k * i)).take k from by
      funext i; rw [Nat.add_comm], this, List.take_append_drop]

/-- R218: compression changes only the bytes on the link. -/
@[simp] theorem expandPayload_compressPayload (bs : List Byte) : expandPayload (compressPayload bs) = bs := by
  unfold expandPayload compressPayload
  rw [List.flatMap_map]
  simp only [expandBlock_compressBlock]
  exact flatMap_chunks 256 _ bs (by unfold ceilDiv; omega)

end Sys2Proof.Machine
end

