-- ==== Sys2Proof/Laws/Order.lean ====
section
/-!
SUPPORT. The moves of agents under the rules of order: while no store is held apart each is the plain move; and what performing,
publishing and reading through held stores leave alone.
-/
namespace Sys2Proof.Machine

/-! ## No store held -/

theorem parted_nil (p : Held → Bool) : parted p [] = ([], []) := rfl

theorem perform_none {s : State} (h : s.held = []) (p : Held → Bool) : perform p s = s := by
  cases s; cases h; rfl

theorem publish_none {s : State} (h : s.held = []) (w : Viewer) (p : Held → Bool) (sc : Nat) : publish w p sc s = s := by
  cases s; cases h; rfl

theorem viewed_none {s : State} (h : s.held = []) (w : Viewer) (f : State → State) : viewed w f s = f s := by
  simp [viewed, h]

theorem afterSeen_none {s : State} (h : s.held = []) (l : Option (List Viewer)) : afterSeen l s = s := perform_none h _

theorem inOrder_none {s : State} (h : s.held = []) (w : Viewer) (i : Instr) (f : State → State) : inOrder w s i f = f s := by
  unfold inOrder
  dsimp only
  split <;> simp only [perform_none h, publish_none h, viewed_none h, ite_self]

theorem contextOf_held {s a : State} {c : Nat} {n : Option Nat} {w : Viewer} (h : contextOf s c n = some (w, a)) : a.held = s.held := by
  cases n with
  | some n => cases h; rfl
  | none =>
    simp only [contextOf, Option.map_eq_some_iff] at h
    obtain ⟨v, -, h⟩ := h
    cases h; rfl

/-- The state in which a context moves: the same state, with that context chosen. -/
theorem contextOf_cur {s a : State} {c : Nat} {n : Option Nat} {w : Viewer} (h : contextOf s c n = some (w, a)) :
    a = { s with cur := a.cur } := by
  cases n with
  | some n => cases h; rfl
  | none =>
    simp only [contextOf, Option.map_eq_some_iff] at h
    obtain ⟨v, -, h⟩ := h
    cases h; rfl

theorem moveC_none {s : State} (h : s.held = []) (c : Nat) (n : Option Nat) (f : State → State) :
    moveC s c n false f = f s ∨ ∃ w a, contextOf s c n = some (w, a) ∧ moveC s c n false f = f a := by
  unfold moveC
  split
  · exact .inl rfl
  · rename_i w a hc
    split
    · exact .inl rfl
    · right
      refine ⟨w, a, hc, ?_⟩
      simp only [Bool.false_eq_true, if_false]
      exact inOrder_none ((contextOf_held hc).trans h) _ _ _

/-- L, X and S move plainly while no store is held. -/
theorem moveOrdered_none {s : State} (h : s.held = []) (c n : Nat) {q : Seq} (hq : q ≠ .c) :
    moveOrdered s c n q = moveSeq s c n q := by
  cases q
  · exact absurd rfl hq
  · exact congrArg (moveSeq · c n .l) (afterSeen_none h _)
  · exact congrArg (moveSeq · c n .x) (afterSeen_none h _)
  · unfold moveOrdered
    dsimp only
    rw [viewed_none h, afterSeen_none h, ite_self]

/-! ## What the rules of order change -/

@[simp] theorem recordWrite_cur (s : State) (pa : Nat) : (recordWrite s pa).cur = s.cur := rfl
@[simp] theorem recordWrite_mem (s : State) (pa : Nat) : (recordWrite s pa).mem = s.mem := rfl
@[simp] theorem recordWrite_poison (s : State) (pa : Nat) : (recordWrite s pa).poison = s.poison := rfl
@[simp] theorem recordWrite_farMem (s : State) (pa : Nat) : (recordWrite s pa).farMem = s.farMem := rfl
@[simp] theorem recordWrite_cores (s : State) (pa : Nat) : (recordWrite s pa).cores = s.cores := rfl
@[simp] theorem recordWrite_held (s : State) (pa : Nat) : (recordWrite s pa).held = s.held := rfl

/-- A held store that lands writes its bytes; the only other thing it may change is what the swap under way has recorded (R71). -/
theorem landHeld_eq (s : State) (e : Held) : landHeld s e = { storeAt s e.place e.bytes with swap := (landHeld s e).swap } := by
  cases h : e.place <;> simp only [landHeld, h, storeAt] <;> rfl

@[simp] theorem landHeld_cur (s : State) (e : Held) : (landHeld s e).cur = s.cur := by rw [landHeld_eq]; simp
@[simp] theorem landHeld_getTask (s : State) (e : Held) (c n : Nat) : getTask (landHeld s e) c n = getTask s c n := by
  rw [landHeld_eq]; exact storeAt_getTask ..

/-- Performing stores changes the memories, the list of held stores and the swap's record alone. -/
theorem putHeld_cons (s : State) (e : Held) (l : List Held) : putHeld s (e :: l) = putHeld (landHeld s e) l := rfl

theorem putHeld_cur (s : State) (l : List Held) : (putHeld s l).cur = s.cur := by
  induction l generalizing s with
  | nil => rfl
  | cons e l ih => rw [putHeld_cons, ih, landHeld_cur]

theorem putHeld_getTask (s : State) (l : List Held) (c n : Nat) : getTask (putHeld s l) c n = getTask s c n := by
  induction l generalizing s with
  | nil => rfl
  | cons e l ih => rw [putHeld_cons, ih, landHeld_getTask]

@[simp] theorem landHeld_held (s : State) (e : Held) : (landHeld s e).held = s.held := by
  rw [landHeld_eq]; cases e.place <;> rfl

theorem putHeld_held (s : State) (l : List Held) : (putHeld s l).held = s.held := by
  induction l generalizing s with
  | nil => rfl
  | cons e l ih => rw [putHeld_cons, ih, landHeld_held]

/-- Performing leaves held exactly the stores that need not perform. -/
theorem perform_held (p : Held → Bool) (s : State) : (perform p s).held = (parted p s.held).2 := putHeld_held _ _

/-- What is published stays held, its bytes and its place unchanged; other agents' stores behind an `STL` perform first. -/
theorem publish_held (w : Viewer) (p : Held → Bool) (sc : Nat) (s : State) :
    (publish w p sc s).held.map (fun e => (e.who, e.cls, e.place, e.bytes))
      = (parted (fun e => e.rel.isSome && e.who != w) s.held).2.map fun e => (e.who, e.cls, e.place, e.bytes) := by
  rw [← perform_held]
  simp only [publish, List.map_map]
  apply List.map_congr_left
  intro e _
  simp only [Function.comp]
  split <;> rfl

/-- A store is performed or stays held: none is lost, and none is made twice. -/
theorem parted_perm (p : Held → Bool) (l : List Held) : ((parted p l).1 ++ (parted p l).2).Perm l := by
  induction l with
  | nil => exact .nil
  | cons e l ih =>
    simp only [parted]
    split
    · exact .cons e ih
    · exact List.perm_middle.trans (.cons e ih)

/-- Every store that must perform does. -/
theorem parted_performs (p : Held → Bool) (l : List Held) : ∀ e ∈ (parted p l).2, p e = false := by
  induction l with
  | nil => intro e h; cases h
  | cons a l ih =>
    intro e h
    simp only [parted] at h
    split at h
    · exact ih e h
    · rename_i hn
      rcases List.mem_cons.mp h with rfl | h
      · simp only [Bool.or_eq_true, not_or, Bool.not_eq_true] at hn
        exact hn.1
      · exact ih e h

/-! ## The canonical form of the memories -/

theorem cores_wf {s : State} (h : s.memoriesWf = true) (c : Nat) : (getCore s c).memoriesWf = true := by
  simp only [State.memoriesWf, Bool.and_eq_true, List.all_eq_true] at h
  have : ∀ (d : Core) (l : Tab Core), d.memoriesWf = true → (∀ k ∈ l, k.2.memoriesWf = true) → (tabGet d l c).memoriesWf = true := by
    intro d l hd hl
    induction l with
    | nil => exact hd
    | cons k l ih =>
      simp only [tabGet]
      split
      · exact hl k (.head _)
      · exact ih fun x hx => hl x (.tail _ hx)
  exact this _ _ rfl h.2

theorem tabSet_all {l : Tab Core} (hl : ∀ k ∈ l, k.2.memoriesWf = true) {x : Core} (hx : x.memoriesWf = true) (c : Nat) :
    ∀ k ∈ tabSet l c x, k.2.memoriesWf = true := by
  induction l with
  | nil => intro k hk; cases hk with | head => exact hx | tail _ h => cases h
  | cons a l ih =>
    intro k hk
    simp only [tabSet] at hk
    split at hk
    · rcases List.mem_cons.mp hk with rfl | hk
      · exact hx
      · exact hl k hk
    · split at hk
      · rcases List.mem_cons.mp hk with rfl | hk
        · exact hx
        · exact hl k (.tail _ hk)
      · rcases List.mem_cons.mp hk with rfl | hk
        · exact hl _ (.head _)
        · exact ih (fun y hy => hl y (.tail _ hy)) k hk

/-- A core changed to one whose memories are canonical leaves the machine's so. -/
theorem modCore_wf {s : State} (h : s.memoriesWf = true) (c : Nat) {f : Core → Core} (hf : (f (getCore s c)).memoriesWf = true) :
    (modCore s c f).memoriesWf = true := by
  have hs := h
  simp only [State.memoriesWf, Bool.and_eq_true, List.all_eq_true] at hs ⊢
  exact ⟨hs.1, tabSet_all hs.2 hf c⟩

/-- Bytes stored at a place keep the canonical form. -/
theorem storeAt_wf {s : State} (h : s.memoriesWf = true) (p : Place) (bs : List Byte) : (storeAt s p bs).memoriesWf = true := by
  cases p with
  | spm c slot off =>
    refine modCore_wf h c ?_
    have := cores_wf h c
    simp only [Core.memoriesWf, Bool.and_eq_true] at this ⊢
    exact ⟨⟨memWrite_wf _ _ this.1.1, this.1.2⟩, this.2⟩
  | mem pa =>
    simp only [State.memoriesWf, Bool.and_eq_true] at h ⊢
    exact ⟨⟨memWrite_wf _ _ h.1.1, h.1.2⟩, h.2⟩
  | far m pa =>
    simp only [State.memoriesWf, Bool.and_eq_true] at h ⊢
    exact ⟨⟨h.1.1, memWrite_wf _ _ h.1.2⟩, h.2⟩

theorem landHeld_wf {s : State} (h : s.memoriesWf = true) (e : Held) : (landHeld s e).memoriesWf = true := by
  rw [landHeld_eq]; exact storeAt_wf h _ _

theorem putHeld_wf {s : State} (h : s.memoriesWf = true) (l : List Held) : (putHeld s l).memoriesWf = true := by
  induction l generalizing s with
  | nil => exact h
  | cons e l ih => exact ih (landHeld_wf h _)

theorem layHeld_wf {s : State} (h : s.memoriesWf = true) (l : List Held) : (layHeld s l).memoriesWf = true := by
  induction l generalizing s with
  | nil => exact h
  | cons e l ih => exact ih (storeAt_wf h _ _)

/-- Held stores performed keep the canonical form. -/
theorem perform_wf {s : State} (h : s.memoriesWf = true) (p : Held → Bool) : (perform p s).memoriesWf = true :=
  putHeld_wf (s := { s with held := (parted p s.held).2 }) h _

theorem publish_wf {s : State} (h : s.memoriesWf = true) (w : Viewer) (p : Held → Bool) (sc : Nat) :
    (publish w p sc s).memoriesWf = true := perform_wf h _

/-- The memories of `s` put into `t` keep the canonical form of both. -/
theorem withMemories_wf {s t : State} (hs : s.memoriesWf = true) (ht : t.memoriesWf = true) : (withMemories s t).memoriesWf = true := by
  have h1 := hs; have h2 := ht
  simp only [State.memoriesWf, Bool.and_eq_true, List.all_eq_true] at h1 h2 ⊢
  refine ⟨⟨h1.1.1, h2.1.2⟩, fun k hk => ?_⟩
  obtain ⟨k', hk', rfl⟩ := List.mem_map.mp hk
  have ha := h2.2 k' hk'
  have hb := cores_wf hs k'.1
  simp only [Core.memoriesWf, Bool.and_eq_true] at ha hb ⊢
  exact ⟨⟨hb.1.1, ha.1.2⟩, ha.2⟩

/-- A move that keeps the canonical form keeps it under the rules of order. -/
theorem inOrder_wf {s : State} (h : s.memoriesWf = true) (w : Viewer) (i : Instr) {f : State → State}
    (hf : ∀ s, s.memoriesWf = true → (f s).memoriesWf = true) : (inOrder w s i f).memoriesWf = true := by
  have hv : ∀ s, s.memoriesWf = true → (viewed w f s).memoriesWf = true := by
    intro s h
    unfold viewed
    split
    · exact withMemories_wf h (hf _ (layHeld_wf h _))
    · exact hf _ h
  unfold inOrder
  dsimp only
  split
  · exact hf _ h
  · exact hv _ (perform_wf h _)
  · exact hf _ (perform_wf h _)
  · split
    · exact hv _ (perform_wf h _)
    · exact hf _ (perform_wf (perform_wf h _) _)
  · exact hf _ (publish_wf (perform_wf h _) _ _ _)
  · exact hf _ (publish_wf h _ _ _)
  · exact hf _ (publish_wf (perform_wf h _) _ _ _)
  · exact hf _ (perform_wf h _)

/-! ## A table's cached words -/

/-- What a step leaves of the table words that the cores cache: those still current; a core's other state stays. -/
theorem dropStale_core (s : State) (c : Nat) :
    getCore (dropStale s) c = { getCore s c with btcache := (getCore s c).btcache.filter (·.current s) } := by
  have key : ∀ (d : Core) (l : Tab Core), d.btcache = [] →
      tabGet d (l.map fun k => (k.1, { k.2 with btcache := k.2.btcache.filter (·.current s) })) c
        = { tabGet d l c with btcache := (tabGet d l c).btcache.filter (·.current s) } := by
    intro d l hd
    induction l with
    | nil => simp only [List.map_nil, tabGet, hd, List.filter_nil]; rw [← hd]
    | cons k l ih =>
      simp only [List.map_cons, tabGet]
      split
      · rfl
      · exact ih
  exact key _ s.cores rfl

/-- Nothing but the cores' cached words changes. -/
theorem dropStale_eq (s : State) : dropStale s = { s with cores := (dropStale s).cores } := rfl

/-- While no core caches a table's word, nothing is dropped. -/
theorem dropStale_none {s : State} (h : ∀ k ∈ s.cores, k.2.btcache = []) : dropStale s = s := by
  have : s.cores.map (fun k => (k.1, { k.2 with btcache := k.2.btcache.filter (·.current s) })) = s.cores :=
    (List.map_congr_left fun k hk => by rw [h k hk]; simp only [List.filter_nil]; rw [← h k hk]; rfl).trans (List.map_id _)
  rw [dropStale, this]

theorem dropStale_wf {s : State} (h : s.memoriesWf = true) : (dropStale s).memoriesWf = true := by
  simp only [State.memoriesWf, dropStale, Bool.and_eq_true, List.all_map] at h ⊢
  exact h

end Sys2Proof.Machine
end

