-- ==== Sys2Proof/Tests/Slice0.lean ====
section
/-!
SUPPORT. Tests: expected results come from the spec's encoding tables and rules, worked by hand.
-/
namespace Sys2Proof.Tests

-- one theorem after the other: each evaluates in the kernel with a large stack
set_option Elab.async false

open Sys2Proof Sys2Proof.Machine

/-- A slot of X by its fields, in the order of Table 2.6. -/
def sl (dst a b c p : Nat) (fi fo : Bool) (rnd : Nat) (sat : Bool) (type imm : Nat) : Slot :=
  { dst := BitVec.ofNat 5 dst, srcA := BitVec.ofNat 5 a, srcB := BitVec.ofNat 5 b, srcC := BitVec.ofNat 5 c, pred := BitVec.ofNat 3 p
    fi := fi, fo := fo, rnd := BitVec.ofNat 3 rnd, sat := sat, type := BitVec.ofNat 5 type, imm := BitVec.ofNat 14 imm }

/-! ## Decoding: a word of every constructor, written out bit by bit from the encoding tables, field by field -/

/-- C words (Tables 2.1 to 2.4). -/
theorem test_decode_c1 : ([
  (0b000000_00011_10001_01001_0000000_0000, .add 3 17 9),
  (0b000000_00011_10001_01001_0000001_0000, .sub 3 17 9),
  (0b000000_00011_10001_01001_0000010_0000, .and 3 17 9),
  (0b000000_00011_10001_01001_0000011_0000, .or 3 17 9),
  (0b000000_00011_10001_01001_0000100_0000, .xor 3 17 9),
  (0b000000_00011_10001_01001_0000101_0000, .shl 3 17 9),
  (0b000000_00011_10001_01001_0000110_0000, .shr 3 17 9),
  (0b000000_00011_10001_01001_0000111_0000, .sra 3 17 9),
  (0b000000_00011_10001_01001_0001000_0000, .min 3 17 9),
  (0b000000_00011_10001_01001_0001001_0000, .max 3 17 9),
  (0b000000_00011_10001_01001_0001010_0000, .minu 3 17 9),
  (0b000000_00011_10001_01001_0001011_0000, .maxu 3 17 9),
  (0b000000_00011_10001_01001_0001100_0000, .mul 3 17 9),
  (0b000000_00011_10001_01001_0001101_0000, .mulh 3 17 9),
  (0b000000_00011_10001_01001_0001110_0000, .mulhu 3 17 9),
  (0b000000_00011_10001_01001_0001111_0000, .divu 3 17 9),
  (0b000000_00011_10001_01001_0010000_0000, .remu 3 17 9),
  (0b000000_00011_10001_00000_0010001_0000, .clz 3 17),
  (0b000000_00011_10001_00000_0010010_0000, .popc 3 17),
  (0b000000_00011_10001_01001_0010011_0101, .sel 3 17 9 5),
  (0b000001_00011_10001_1000000000000001, .addi 3 17 0x8001),
  (0b000010_00011_10001_1000000000000001, .andi 3 17 0x8001),
  (0b000011_00011_10001_1000000000000001, .ori 3 17 0x8001),
  (0b000100_00011_10001_1000000000000001, .xori 3 17 0x8001),
  (0b000101_00011_10001_00_00000000_100001, .shli 3 17 33),
  (0b000101_00011_10001_01_00000000_100001, .shri 3 17 33),
  (0b000101_00011_10001_10_00000000_100001, .srai 3 17 33),
  (0b000110_00011_100000000000000000001, .lui 3 0x100001),
  (0b000111_00011_100000000000000000001, .liw 3 0x100001),
  (0b001000_00011_10001_0000_100001_011110, .ext 3 17 33 30),
  (0b001001_00011_10001_0000_100001_011110, .ins 3 17 33 30),
  (0b001010_101_011_10001_01001_0000000000, .cmp 5 3 17 9),
  (0b001011_010_011_10001_100000000000001, .cmpi 2 3 17 0x4001),
  (0b001100_10_000_100000000000000000001, .pbt 2 0x100001),
  (0b001101_10_101_000000000000000000000, .bt 2 5),
  (0b001110_10_101_000000000000000000000, .btn 2 5),
  (0b001111_10_000000000000000000000000, .ba 2),
  (0b010000_10_000000000000000000000000, .call 2),
  (0b010001_000_10_10001_0000000000000000, .mtb 2 17),
  (0b010010_00011_10001_1001_100000000001, .ldb 3 17 9 0x801)] : List (Nat × Instr)).all (fun e => decodeC e.1 == (some e.2, [])) = true := by decide +kernel

/-- C words (Tables 2.1 to 2.4). -/
theorem test_decode_c2 : ([
  (0b010011_00011_10001_1001_100000000001, .ldh 3 17 9 0x801),
  (0b010100_00011_10001_1001_100000000001, .ldw 3 17 9 0x801),
  (0b010101_00011_10001_1001_100000000001, .ldd 3 17 9 0x801),
  (0b010110_00011_10001_1001_100000000001, .ldbu 3 17 9 0x801),
  (0b010111_00011_10001_1001_100000000001, .ldhu 3 17 9 0x801),
  (0b011000_00011_10001_1001_100000000001, .ldwu 3 17 9 0x801),
  (0b011001_00011_10001_1001_100000000001, .stb 3 17 9 0x801),
  (0b011010_00011_10001_1001_100000000001, .sth 3 17 9 0x801),
  (0b011011_00011_10001_1001_100000000001, .stw 3 17 9 0x801),
  (0b011100_00011_10001_1001_100000000001, .std 3 17 9 0x801),
  (0b011101_00011_10001_1001_10_100_1000001, .lda 3 17 9 2 4 0x41),
  (0b011110_00011_10001_1001_10_100_1000001, .stl 3 17 9 2 4 0x41),
  (0b011111_00011_10001_01001_000_1_100_0110, .atomCas 3 17 9 1 4 6),
  (0b011111_00011_10001_01001_001_1_100_0110, .atomXadd 3 17 9 1 4 6),
  (0b011111_00011_10001_01001_010_1_100_0110, .atomXchg 3 17 9 1 4 6),
  (0b011111_00011_10001_01001_011_1_100_0110, .atomAnd 3 17 9 1 4 6),
  (0b011111_00011_10001_01001_100_1_100_0110, .atomOr 3 17 9 1 4 6),
  (0b011111_00011_10001_01001_101_1_100_0110, .atomMin 3 17 9 1 4 6),
  (0b011111_00011_10001_01001_110_1_100_0110, .atomMax 3 17 9 1 4 6),
  (0b100000_00011_10001_1001_1_10000000001, .llk 3 17 9 1 0x401),
  (0b100001_00011_10001_1001_1_10000000001, .sul 3 17 9 1 0x401),
  (0b100010_00000_00_011_1000000000000001, .fence 3 0x8001),
  (0b100011_00000_00000_00_0_0_00000000_1001, .tksig 9),
  (0b100011_00000_10001_00_1_0_00000000_1001, .tksigRemote 17 9),
  (0b100011_00000_00000_01_0_0_00000000_1001, .tkwait 9),
  (0b100011_00011_00000_10_0_0_00000000_1001, .tkcnt 3 9),
  (0b100011_00000_00000_11_0_0_10000001_1001, .tkinit 0x81 9),
  (0b100100_00000_00000_0000_100000000001, .trap 0x801),
  (0b100100_00000_00000_0001_000000000000, .eret),
  (0b100100_00011_00000_0010_000000110011, .mfs 3 0x033),
  (0b100100_00000_10001_0011_000000110011, .mts 17 0x033),
  (0b100100_00000_00000_0100_000000000000, .node),
  (0b100100_00000_00000_0101_000000000000, .endC),
  (0b100101_00011_10001_00000_0000000_0000, .launch 3 17),
  (0b100101_00011_10001_00000_0000001_0000, .spawn 3 17),
  (0b100101_00011_10001_01001_0000010_0000, .remq 3 17 9),
  (0b100101_00011_10001_01001_0000011_0000, .tndr 3 17 9),
  (0b100101_00011_10001_00000_0000100_0000, .wdraw 3 17),
  (0b100101_00000_10001_01001_0000101_0000, .bidf 17 9),
  (0b100110_00011_00000_0000_0000000000_10, .qdrop 3 2)] : List (Nat × Instr)).all (fun e => decodeC e.1 == (some e.2, [])) = true := by decide +kernel

/-- C words (Tables 2.1 to 2.4). -/
theorem test_decode_c3 : ([
  (0b100110_00011_00000_0001_0000000000_10, .qdepth 3 2)] : List (Nat × Instr)).all (fun e => decodeC e.1 == (some e.2, [])) = true := by decide +kernel

/-- L words (R25, Table 2.5, Tables 4.8, 5.4, 5.5, 6.6, 6.8, 7.6, R105, R151, R152, R242, R243, R257). -/
theorem test_decode_l : ([
  (0b000000_0000_10101_10010_0011_1001_0110_00000000000000000000000000000_000, .jadd ⟨21, 18⟩ 3 9 6),
  (0b000000_0000_10101_10010_0011_1001_0110_00000000000000000000000000000_001, .jsub ⟨21, 18⟩ 3 9 6),
  (0b000000_0000_10101_10010_0011_1001_0110_00000000000000000000000000000_010, .jshl ⟨21, 18⟩ 3 9 6),
  (0b000000_0000_10101_10010_0011_1001_0110_00000000000000000000000000000_011, .jshr ⟨21, 18⟩ 3 9 6),
  (0b000000_0000_10101_10010_0011_1001_0110_00000000000000000000000000000_100, .jand ⟨21, 18⟩ 3 9 6),
  (0b000000_0000_10101_10010_0011_1001_0110_00000000000000000000000000000_101, .jor ⟨21, 18⟩ 3 9 6),
  (0b000000_0000_10101_10010_0011_1001_0110_00000000000000000000000000000_110, .jmul ⟨21, 18⟩ 3 9 6),
  (0b000001_0000_10101_10010_0011_1001_0000_10000000000000000000000000000001, .jaddi ⟨21, 18⟩ 3 9 0x80000001),
  (0b000010_0000_10101_10010_0011_0000_0000_10000000000000000000000000000001, .jli ⟨21, 18⟩ 3 0x80000001),
  (0b000011_0000_10101_10010_0011_0000_0000_10000000000000000000000000000001, .jlih ⟨21, 18⟩ 3 0x80000001),
  (0b000100_0000_10101_10010_0010_1001_0000_00000000000000000000_100000000001, .lloop ⟨21, 18⟩ 2 9 0x801),
  (0b000101_0000_10101_10010_0101_1001_0110_10000000000000000000000000000001, .lbr ⟨21, 18⟩ 5 9 6 0x80000001),
  (0b000110_0000_10101_10010_0000_1001_0110_000000000000000000000000000_0_1_101, .bindi ⟨21, 18⟩ 9 6 5 true false),
  (0b000110_0000_10101_10010_0000_1001_0000_000000000000000000000000000_1_0_101, .bindi ⟨21, 18⟩ 9 0 5 false true),
  (0b000111_1100_10101_10010_0000_0000_0000_00000000000000000000000000000_101, .istart ⟨21, 18⟩ 12 5),
  (0b001000_1100_10101_10010_0011_1001_0110_000000000000000000000000000000_0_1, .copy ⟨21, 18⟩ 12 3 9 6 false true),
  (0b001010_1100_10101_10010_0011_1001_0110_00000000_10000001_10_1_01_10000000001, .wgath ⟨21, 18⟩ 12 3 9 6 0x81 2 true 1 0x401),
  (0b001011_1100_10101_10010_0000_1001_0000_1000000000000001_10_0_01_10000000001, .wtile ⟨21, 18⟩ 12 9 0x8001 2 1 0x401),
  (0b001100_0000_10101_10010_0000_0000_0000_0000_000001000001_10000001_000_10000, .aircfg ⟨21, 18⟩ 0x041 0x81 16),
  (0b001101_0000_10101_10010_0011_1001_0110_00000000000000000000000000000000, .airq ⟨21, 18⟩ 3 9 6),
  (0b001110_0000_10101_10010_0000_1001_0000_10000000000000000000000000000001, .lnopen ⟨21, 18⟩ 9 0x80000001),
  (0b001111_0000_10101_10010_0011_1001_0000_10000000000000000000000000000001, .lnpeg ⟨21, 18⟩ 3 9 0x80000001),
  (0b010000_0000_10101_10010_0011_1001_0000_10000000000000000000000000000001, .lnfree ⟨21, 18⟩ 3 9 0x80000001),
  (0b010001_0000_10101_10010_0011_1001_0000_10000000000000000000000000000001, .lnqry ⟨21, 18⟩ 3 9 0x80000001),
  (0b010010_1100_10101_10010_0000_1001_0110_0000000000000000000000000000000_1, .pred ⟨21, 18⟩ 12 9 6 true),
  (0b010011_1100_10101_10010_0011_1001_0000_0000000_1_10000001_10_1_01_10000000001, .darn ⟨21, 18⟩ 12 3 9 true 0x81 2 true 1 0x401),
  (0b010100_1100_10101_10010_0000_1001_0110_00000000000000000000000000000000, .pfch ⟨21, 18⟩ 12 9 6),
  (0b010101_0000_10101_10010_0011_0000_0000_000000000000000000000000000_1_1001, .ltk ⟨21, 18⟩ 3 true 9),
  (0b010110_0000_10101_10010_0000_0000_0000_00000000000000000000000000000000, .lend ⟨21, 18⟩)] : List (Nat × Instr)).all (fun e => decodeL e.1 == (some e.2, [])) = true := by decide +kernel

/-- S words (Table 2.9). -/
theorem test_decode_s : ([
  (0b00000_10101_10010_10_101_000000000000, .bindo ⟨21, 18⟩ 2 5),
  (0b00001_10101_10010_10_000000_100000001, .drain ⟨21, 18⟩ 2 0x101),
  (0b00010_10101_10010_10_000_101_100000001, .drainx ⟨21, 18⟩ 2 5 0x101),
  (0b00011_10101_10010_10_101_100000000001, .sloop ⟨21, 18⟩ 2 5 0x801),
  (0b00100_10101_10010_011_101_10000000001, .saddi ⟨21, 18⟩ 3 5 0x401),
  (0b00101_10101_10010_011_10000000000001, .sli ⟨21, 18⟩ 3 0x2001),
  (0b00110_10101_10010_011_101_110_00000000, .rgapnd ⟨21, 18⟩ 3 5 6),
  (0b00111_10101_10010_011_101_110_00000000, .rgcmt ⟨21, 18⟩ 3 5 6),
  (0b01000_10101_10010_011_101_110_00000000, .rgupk ⟨21, 18⟩ 3 5 6),
  (0b01001_10101_10010_011_0000000000_1001, .stk ⟨21, 18⟩ 3 9),
  (0b01010_10101_10010_00000000000000000, .send ⟨21, 18⟩),
  (0b01011_10101_10010_011_101_10000000001, .sld ⟨21, 18⟩ 3 5 0x401)] : List (Nat × Instr)).all (fun e => decodeS e.1 == (some e.2, [])) = true := by decide +kernel

/-- X words (R27, R28, R33, Tables 2.6 to 2.8, 9.2, 10.2, 12.3, R110, R194, R243, R245, R257). -/
theorem test_decode_x1 : ([
  (0b101_10101_10010_00_0_00000000_00000_00000_00000_00000_000_0_0_000_0_00000_00000000000000_00000000_00000_00000_00000_00000_000_0_0_000_0_00000_00000000000000, ⟨5, ⟨21, 18⟩, false, .nop, .nop⟩),
  (0b101_10101_10010_00_0_00000001_00011_01001_00110_00000_101_1_0_100_1_00000_00000000000000_00000000_00000_00000_00000_00000_000_0_0_000_0_00000_00000000000000, ⟨5, ⟨21, 18⟩, false, .vadd (sl 3 9 6 0 5 true false 4 true 0 0), .nop⟩),
  (0b101_10101_10010_00_0_00000010_00011_01001_00110_00000_101_1_0_100_1_00000_00000000000000_00000000_00000_00000_00000_00000_000_0_0_000_0_00000_00000000000000, ⟨5, ⟨21, 18⟩, false, .vsub (sl 3 9 6 0 5 true false 4 true 0 0), .nop⟩),
  (0b101_10101_10010_00_0_00000011_00011_01001_00110_00000_101_1_0_100_1_00000_00000000000000_00000000_00000_00000_00000_00000_000_0_0_000_0_00000_00000000000000, ⟨5, ⟨21, 18⟩, false, .vmul (sl 3 9 6 0 5 true false 4 true 0 0), .nop⟩),
  (0b101_10101_10010_00_0_00000100_00011_01001_00110_01100_101_1_0_100_1_00000_00000000000000_00000000_00000_00000_00000_00000_000_0_0_000_0_00000_00000000000000, ⟨5, ⟨21, 18⟩, false, .vfma (sl 3 9 6 12 5 true false 4 true 0 0), .nop⟩),
  (0b101_10101_10010_00_0_00000101_00011_01001_00110_01100_101_1_0_100_1_00000_00000000000000_00000000_00000_00000_00000_00000_000_0_0_000_0_00000_00000000000000, ⟨5, ⟨21, 18⟩, false, .vfms (sl 3 9 6 12 5 true false 4 true 0 0), .nop⟩),
  (0b101_10101_10010_00_0_00000110_00011_01001_00110_00000_101_0_1_000_0_00000_00000000000000_00000000_00000_00000_00000_00000_000_0_0_000_0_00000_00000000000000, ⟨5, ⟨21, 18⟩, false, .vmin (sl 3 9 6 0 5 false true 0 false 0 0), .nop⟩),
  (0b101_10101_10010_00_0_00000111_00011_01001_00110_00000_101_0_1_000_0_00000_00000000000000_00000000_00000_00000_00000_00000_000_0_0_000_0_00000_00000000000000, ⟨5, ⟨21, 18⟩, false, .vmax (sl 3 9 6 0 5 false true 0 false 0 0), .nop⟩),
  (0b101_10101_10010_00_0_00001000_00011_01001_00000_00000_101_0_0_000_1_01101_00000000000000_00000000_00000_00000_00000_00000_000_0_0_000_0_00000_00000000000000, ⟨5, ⟨21, 18⟩, false, .vabs (sl 3 9 0 0 5 false false 0 true 13 0), .nop⟩),
  (0b101_10101_10010_00_0_00001001_00011_01001_00000_00000_101_0_0_000_1_01101_00000000000000_00000000_00000_00000_00000_00000_000_0_0_000_0_00000_00000000000000, ⟨5, ⟨21, 18⟩, false, .vneg (sl 3 9 0 0 5 false false 0 true 13 0), .nop⟩),
  (0b101_10101_10010_00_0_00001010_00011_01001_00110_00000_101_0_0_000_0_00000_00000000000000_00000000_00000_00000_00000_00000_000_0_0_000_0_00000_00000000000000, ⟨5, ⟨21, 18⟩, false, .vand (sl 3 9 6 0 5 false false 0 false 0 0), .nop⟩),
  (0b101_10101_10010_00_0_00001011_00011_01001_00110_00000_101_0_0_000_0_00000_00000000000000_00000000_00000_00000_00000_00000_000_0_0_000_0_00000_00000000000000, ⟨5, ⟨21, 18⟩, false, .vor (sl 3 9 6 0 5 false false 0 false 0 0), .nop⟩),
  (0b101_10101_10010_00_0_00001100_00011_01001_00110_00000_101_0_0_000_0_00000_00000000000000_00000000_00000_00000_00000_00000_000_0_0_000_0_00000_00000000000000, ⟨5, ⟨21, 18⟩, false, .vxor (sl 3 9 6 0 5 false false 0 false 0 0), .nop⟩),
  (0b101_10101_10010_00_0_00001101_00011_01001_00110_00000_101_0_0_000_0_00000_00000000000000_00000000_00000_00000_00000_00000_000_0_0_000_0_00000_00000000000000, ⟨5, ⟨21, 18⟩, false, .vshl (sl 3 9 6 0 5 false false 0 false 0 0), .nop⟩),
  (0b101_10101_10010_00_0_00001110_00011_01001_00110_00000_101_0_0_000_0_00000_00000000000000_00000000_00000_00000_00000_00000_000_0_0_000_0_00000_00000000000000, ⟨5, ⟨21, 18⟩, false, .vshr (sl 3 9 6 0 5 false false 0 false 0 0), .nop⟩),
  (0b101_10101_10010_00_0_00001111_00011_01001_00110_00000_101_0_0_000_0_00000_00000000000000_00000000_00000_00000_00000_00000_000_0_0_000_0_00000_00000000000000, ⟨5, ⟨21, 18⟩, false, .vsra (sl 3 9 6 0 5 false false 0 false 0 0), .nop⟩),
  (0b101_10101_10010_00_0_00010000_00011_01001_00110_00000_101_0_0_000_0_00000_00000000000000_00000000_00000_00000_00000_00000_000_0_0_000_0_00000_00000000000000, ⟨5, ⟨21, 18⟩, false, .vsel (sl 3 9 6 0 5 false false 0 false 0 0), .nop⟩),
  (0b101_10101_10010_00_0_00010001_00011_01001_00110_00000_101_1_0_000_0_00000_00000000001011_00000000_00000_00000_00000_00000_000_0_0_000_0_00000_00000000000000, ⟨5, ⟨21, 18⟩, false, .vcmp (sl 3 9 6 0 5 true false 0 false 0 11), .nop⟩),
  (0b101_10101_10010_00_0_00010010_11000_10010_00000_00000_101_0_0_000_0_00000_10000000000000_00000000_00000_00000_00000_00000_000_0_0_000_0_00000_00000000000000, ⟨5, ⟨21, 18⟩, false, .vmov (sl 24 18 0 0 5 false false 0 false 0 8192), .nop⟩),
  (0b101_10101_10010_00_0_00010011_00011_00000_00010_00000_101_0_0_000_0_01101_01000000000001_00000000_00000_00000_00000_00000_000_0_0_000_0_00000_00000000000000, ⟨5, ⟨21, 18⟩, false, .vldi (sl 3 0 2 0 5 false false 0 false 13 4097), .nop⟩),
  (0b101_10101_10010_00_0_00010100_00011_01001_00110_01100_101_1_1_000_0_00000_00000000000000_00000000_00000_00000_00000_00000_000_0_0_000_0_00000_00000000000000, ⟨5, ⟨21, 18⟩, false, .vclamp (sl 3 9 6 12 5 true true 0 false 0 0), .nop⟩),
  (0b101_10101_10010_00_0_01000000_00011_01001_00000_00000_101_0_0_000_0_00000_00000000100001_00000000_00000_00000_00000_00000_000_0_0_000_0_00000_00000000000000, ⟨5, ⟨21, 18⟩, false, .vrotr (sl 3 9 0 0 5 false false 0 false 0 33), .nop⟩),
  (0b101_10101_10010_00_0_01000001_00011_01001_00000_00000_101_0_0_000_0_00000_00000000001001_00000000_00000_00000_00000_00000_000_0_0_000_0_00000_00000000000000, ⟨5, ⟨21, 18⟩, false, .vrotc (sl 3 9 0 0 5 false false 0 false 0 9), .nop⟩),
  (0b101_10101_10010_00_0_01000010_00011_01001_00000_00000_101_0_0_000_0_00000_00000000100001_00000000_00000_00000_00000_00000_000_0_0_000_0_00000_00000000000000, ⟨5, ⟨21, 18⟩, false, .vbcr (sl 3 9 0 0 5 false false 0 false 0 33), .nop⟩),
  (0b101_10101_10010_00_0_01000011_00011_01001_00000_00000_101_0_0_000_0_00000_00000000001001_00000000_00000_00000_00000_00000_000_0_0_000_0_00000_00000000000000, ⟨5, ⟨21, 18⟩, false, .vbcc (sl 3 9 0 0 5 false false 0 false 0 9), .nop⟩),
  (0b101_10101_10010_00_0_01000100_00011_10010_00000_00000_101_0_1_010_1_00000_00000000001000_00000000_00000_00000_00000_00000_000_0_0_000_0_00000_00000000000000, ⟨5, ⟨21, 18⟩, false, .vredr (sl 3 18 0 0 5 false true 2 true 0 8), .nop⟩),
  (0b101_10101_10010_00_0_01000101_00011_10010_00000_00000_101_0_1_010_1_00000_00000000001000_00000000_00000_00000_00000_00000_000_0_0_000_0_00000_00000000000000, ⟨5, ⟨21, 18⟩, false, .vredc (sl 3 18 0 0 5 false true 2 true 0 8), .nop⟩),
  (0b101_10101_10010_00_0_01000110_00011_01001_00000_00000_101_0_0_000_0_01101_00000000010001_00000000_00000_00000_00000_00000_000_0_0_000_0_00000_00000000000000, ⟨5, ⟨21, 18⟩, false, .vscnr (sl 3 9 0 0 5 false false 0 false 13 17), .nop⟩),
  (0b101_10101_10010_00_0_01000111_00011_01001_00000_00000_101_0_0_000_0_01101_00000000010001_00000000_00000_00000_00000_00000_000_0_0_000_0_00000_00000000000000, ⟨5, ⟨21, 18⟩, false, .vscnc (sl 3 9 0 0 5 false false 0 false 13 17), .nop⟩),
  (0b101_10101_10010_00_0_01001000_00011_01001_00000_00000_101_0_0_000_0_00000_00000000000000_00000000_00000_00000_00000_00000_000_0_0_000_0_00000_00000000000000, ⟨5, ⟨21, 18⟩, false, .vxpq (sl 3 9 0 0 5 false false 0 false 0 0), .nop⟩),
  (0b101_10101_10010_00_0_01100000_00011_00101_00110_00000_000_0_0_000_0_00000_00000000000000_00000000_00000_00000_00000_00000_000_0_0_000_0_00000_00000000000000, ⟨5, ⟨21, 18⟩, false, .pand (sl 3 5 6 0 0 false false 0 false 0 0), .nop⟩),
  (0b101_10101_10010_00_0_01100001_00011_00101_00110_00000_000_0_0_000_0_00000_00000000000000_00000000_00000_00000_00000_00000_000_0_0_000_0_00000_00000000000000, ⟨5, ⟨21, 18⟩, false, .por (sl 3 5 6 0 0 false false 0 false 0 0), .nop⟩),
  (0b101_10101_10010_00_0_01100010_00011_00101_00110_00000_000_0_0_000_0_00000_00000000000000_00000000_00000_00000_00000_00000_000_0_0_000_0_00000_00000000000000, ⟨5, ⟨21, 18⟩, false, .pxor (sl 3 5 6 0 0 false false 0 false 0 0), .nop⟩),
  (0b101_10101_10010_00_0_01100011_00011_00101_00000_00000_000_0_0_000_0_00000_00000000000000_00000000_00000_00000_00000_00000_000_0_0_000_0_00000_00000000000000, ⟨5, ⟨21, 18⟩, false, .pnot (sl 3 5 0 0 0 false false 0 false 0 0), .nop⟩),
  (0b101_10101_10010_00_0_01100100_00011_00000_00000_00000_000_0_0_000_0_00000_01000000000111_00000000_00000_00000_00000_00000_000_0_0_000_0_00000_00000000000000, ⟨5, ⟨21, 18⟩, false, .pset (sl 3 0 0 0 0 false false 0 false 0 4103), .nop⟩),
  (0b101_10101_10010_00_0_01100101_00011_00101_00000_00000_110_0_0_000_0_00000_00000000000001_00000000_00000_00000_00000_00000_000_0_0_000_0_00000_00000000000000, ⟨5, ⟨21, 18⟩, false, .pcnt (sl 3 5 0 0 6 false false 0 false 0 1), .nop⟩)] : List (Nat × XWord)).all (fun e => decodeX e.1 == (some e.2, [])) = true := by decide +kernel

/-- X words (R27, R28, R33, Tables 2.6 to 2.8, 9.2, 10.2, 12.3, R110, R194, R243, R245, R257). -/
theorem test_decode_x2 : ([
  (0b101_10101_10010_00_0_01100110_00011_00101_00000_00000_110_0_0_000_0_00000_00000000000000_00000000_00000_00000_00000_00000_000_0_0_000_0_00000_00000000000000, ⟨5, ⟨21, 18⟩, false, .voteAny (sl 3 5 0 0 6 false false 0 false 0 0), .nop⟩),
  (0b101_10101_10010_00_0_01100111_00011_00101_00000_00000_110_0_0_000_0_00000_00000000000000_00000000_00000_00000_00000_00000_000_0_0_000_0_00000_00000000000000, ⟨5, ⟨21, 18⟩, false, .voteAll (sl 3 5 0 0 6 false false 0 false 0 0), .nop⟩),
  (0b101_10101_10010_00_0_01110000_00011_01001_00000_00000_101_1_1_100_1_00001_00000000001101_00000000_00000_00000_00000_00000_000_0_0_000_0_00000_00000000000000, ⟨5, ⟨21, 18⟩, false, .vcvt (sl 3 9 0 0 5 true true 4 true 1 13), .nop⟩),
  (0b101_10101_10010_00_0_01110001_00011_01001_00000_00000_101_0_0_000_0_00010_00000000000000_00000000_00000_00000_00000_00000_000_0_0_000_0_00000_00000000000000, ⟨5, ⟨21, 18⟩, false, .vflip (sl 3 9 0 0 5 false false 0 false 2 0), .nop⟩),
  (0b101_10101_10010_00_0_01110010_00011_01001_00000_00000_101_0_0_000_0_00010_00000000000000_00000000_00000_00000_00000_00000_000_0_0_000_0_00000_00000000000000, ⟨5, ⟨21, 18⟩, false, .vunflip (sl 3 9 0 0 5 false false 0 false 2 0), .nop⟩),
  (0b101_10101_10010_00_0_01110011_00011_01001_00000_00000_101_0_1_001_1_00000_00000000000000_00000000_00000_00000_00000_00000_000_0_0_000_0_00000_00000000000000, ⟨5, ⟨21, 18⟩, false, .vexp2 (sl 3 9 0 0 5 false true 1 true 0 0), .nop⟩),
  (0b101_10101_10010_00_0_01110100_00011_01001_00000_00000_101_0_1_001_1_00000_00000000000000_00000000_00000_00000_00000_00000_000_0_0_000_0_00000_00000000000000, ⟨5, ⟨21, 18⟩, false, .vlog2 (sl 3 9 0 0 5 false true 1 true 0 0), .nop⟩),
  (0b101_10101_10010_00_0_01110101_00011_01001_00000_00000_101_0_1_001_1_00000_00000000000000_00000000_00000_00000_00000_00000_000_0_0_000_0_00000_00000000000000, ⟨5, ⟨21, 18⟩, false, .vrcp (sl 3 9 0 0 5 false true 1 true 0 0), .nop⟩),
  (0b101_10101_10010_00_0_01110110_00011_01001_00000_00000_101_0_1_001_1_00000_00000000000000_00000000_00000_00000_00000_00000_000_0_0_000_0_00000_00000000000000, ⟨5, ⟨21, 18⟩, false, .vrsq (sl 3 9 0 0 5 false true 1 true 0 0), .nop⟩),
  (0b101_10101_10010_00_0_01110111_00011_01001_00000_00000_101_0_1_001_1_00000_00000000000000_00000000_00000_00000_00000_00000_000_0_0_000_0_00000_00000000000000, ⟨5, ⟨21, 18⟩, false, .vsqrt (sl 3 9 0 0 5 false true 1 true 0 0), .nop⟩),
  (0b101_10101_10010_00_0_01111000_00011_01001_00000_00000_101_0_1_001_1_00000_00000000000000_00000000_00000_00000_00000_00000_000_0_0_000_0_00000_00000000000000, ⟨5, ⟨21, 18⟩, false, .vtanh (sl 3 9 0 0 5 false true 1 true 0 0), .nop⟩),
  (0b101_10101_10010_00_0_01111001_00011_01001_00000_00000_101_0_1_001_1_00000_00000000000000_00000000_00000_00000_00000_00000_000_0_0_000_0_00000_00000000000000, ⟨5, ⟨21, 18⟩, false, .vsig (sl 3 9 0 0 5 false true 1 true 0 0), .nop⟩),
  (0b101_10101_10010_00_0_10000000_00011_01001_00110_01100_101_0_0_000_0_01101_00010000001001_00000000_00000_00000_00000_00000_000_0_0_000_0_00000_00000000000000, ⟨5, ⟨21, 18⟩, false, .vtopk (sl 3 9 6 12 5 false false 0 false 13 1033), .nop⟩),
  (0b101_10101_10010_00_0_10000001_00011_01001_00110_01100_101_0_0_000_0_00000_00000000000101_00000000_00000_00000_00000_00000_000_0_0_000_0_00000_00000000000000, ⟨5, ⟨21, 18⟩, false, .vhist (sl 3 9 6 12 5 false false 0 false 0 5), .nop⟩),
  (0b101_10101_10010_00_0_10000010_00011_01001_00110_00000_101_0_0_000_0_00000_00000000000000_00000000_00000_00000_00000_00000_000_0_0_000_0_00000_00000000000000, ⟨5, ⟨21, 18⟩, false, .vcompr (sl 3 9 6 0 5 false false 0 false 0 0), .nop⟩),
  (0b101_10101_10010_00_0_10000011_00011_01001_00110_00000_101_0_0_000_0_00000_00000000000000_00000000_00000_00000_00000_00000_000_0_0_000_0_00000_00000000000000, ⟨5, ⟨21, 18⟩, false, .vexpnd (sl 3 9 6 0 5 false false 0 false 0 0), .nop⟩),
  (0b101_10101_10010_00_0_10000100_00011_01001_00110_00000_101_0_0_000_0_00000_00000000000001_00000000_00000_00000_00000_00000_000_0_0_000_0_00000_00000000000000, ⟨5, ⟨21, 18⟩, false, .vnrm (sl 3 9 6 0 5 false false 0 false 0 1), .nop⟩),
  (0b101_10101_10010_00_0_10000101_00011_01001_00001_00000_000_0_0_000_0_01101_00000001101011_00000000_00000_00000_00000_00000_000_0_0_000_0_00000_00000000000000, ⟨5, ⟨21, 18⟩, false, .vcheck (sl 3 9 1 0 0 false false 0 false 13 107), .nop⟩),
  (0b101_10101_10010_00_0_10000110_00011_01001_00000_00000_101_0_0_000_0_01101_00000000000000_00000000_00000_00000_00000_00000_000_0_0_000_0_00000_00000000000000, ⟨5, ⟨21, 18⟩, false, .vrng (sl 3 9 0 0 5 false false 0 false 13 0), .nop⟩),
  (0b101_10101_10010_00_0_10000111_00011_01001_00110_01100_000_0_0_000_0_00000_00000000000000_00000000_00000_00000_00000_00000_000_0_0_000_0_00000_00000000000000, ⟨5, ⟨21, 18⟩, false, .vsample (sl 3 9 6 12 0 false false 0 false 0 0), .nop⟩),
  (0b101_10101_10010_00_0_10001000_00011_01001_00110_01100_000_0_0_000_0_00000_00000010100001_00000000_00000_00000_00000_00000_000_0_0_000_0_00000_00000000000000, ⟨5, ⟨21, 18⟩, false, .vspchk (sl 3 9 6 12 0 false false 0 false 0 161), .nop⟩),
  (0b101_10101_10010_00_0_00000000_00000_00000_00000_00000_000_0_0_000_0_00000_00000000000000_10010000_00011_00000_00000_00000_101_0_0_000_0_00000_00000000010110, ⟨5, ⟨21, 18⟩, false, .nop, .vrdacc (sl 3 0 0 0 5 false false 0 false 0 22)⟩),
  (0b101_10101_10010_00_0_00000000_00000_00000_00000_00000_000_0_0_000_0_00000_00000000000000_10010000_00011_00000_00000_00000_101_0_0_000_0_00000_00000011110110, ⟨5, ⟨21, 18⟩, false, .nop, .vrdaccPeek (sl 3 0 0 0 5 false false 0 false 0 246)⟩),
  (0b101_10101_10010_00_0_00000000_00000_00000_00000_00000_000_0_0_000_0_00000_00000000000000_10010001_00000_01001_00000_00000_101_0_0_000_0_00000_00000000010110, ⟨5, ⟨21, 18⟩, false, .nop, .vwracc (sl 0 9 0 0 5 false false 0 false 0 22)⟩),
  (0b101_10101_10010_00_0_00000000_00000_00000_00000_00000_000_0_0_000_0_00000_00000000000000_10010010_00000_00000_00000_00000_000_0_0_000_0_00000_00000000000110, ⟨5, ⟨21, 18⟩, false, .nop, .mclr (sl 0 0 0 0 0 false false 0 false 0 6)⟩),
  (0b101_10101_10010_00_0_00000000_00000_00000_00000_00000_000_0_0_000_0_00000_00000000000000_10010011_00000_00000_00000_00000_000_0_0_000_0_00000_01000000000001, ⟨5, ⟨21, 18⟩, false, .nop, .mldc (sl 0 0 0 0 0 false false 0 false 0 4097)⟩),
  (0b101_10101_10010_00_0_00000000_00000_00000_00000_00000_000_0_0_000_0_00000_00000000000000_10010101_00000_00000_00000_00000_000_0_0_000_0_00000_00000000000000, ⟨5, ⟨21, 18⟩, false, .nop, .mgo (sl 0 0 0 0 0 false false 0 false 0 0)⟩),
  (0b101_10101_10010_00_0_00000000_00000_00000_00000_00000_000_0_0_000_0_00000_00000000000000_10010110_00011_00000_00000_00000_101_0_0_000_0_00000_00000000000000, ⟨5, ⟨21, 18⟩, false, .nop, .mqry (sl 3 0 0 0 5 false false 0 false 0 0)⟩),
  (0b101_10101_10010_00_1_10010100_00010100_00000000000000000000000000000000_0000000000000000000000000000000000000000000000001000000000000001, ⟨5, ⟨21, 18⟩, true, .nop, .msetf 0x14 0x8001⟩),
  (0b101_10101_10010_00_0_00000000_00000_00000_00000_00000_000_0_0_000_0_00000_00000000000000_10100000_00010_01001_00110_01100_000_0_0_000_0_00000_01000000000001, ⟨5, ⟨21, 18⟩, false, .nop, .xloop (sl 2 9 6 12 0 false false 0 false 0 4097)⟩),
  (0b101_10101_10010_00_0_00000000_00000_00000_00000_00000_000_0_0_000_0_00000_00000000000000_10100001_00010_00000_00000_00000_000_0_0_000_0_00000_01000000000001, ⟨5, ⟨21, 18⟩, false, .nop, .xbt (sl 2 0 0 0 0 false false 0 false 0 4097)⟩),
  (0b101_10101_10010_00_0_00000000_00000_00000_00000_00000_000_0_0_000_0_00000_00000000000000_10100010_00100_00000_00000_00000_000_0_0_000_0_00000_01000000000001, ⟨5, ⟨21, 18⟩, false, .nop, .xbn (sl 4 0 0 0 0 false false 0 false 0 4097)⟩),
  (0b101_10101_10010_00_0_00000000_00000_00000_00000_00000_000_0_0_000_0_00000_00000000000000_10100011_00011_00000_00000_00000_000_0_0_000_0_00000_00000000001001, ⟨5, ⟨21, 18⟩, false, .nop, .xtk (sl 3 0 0 0 0 false false 0 false 0 9)⟩),
  (0b101_10101_10010_00_0_00000000_00000_00000_00000_00000_000_0_0_000_0_00000_00000000000000_10100100_00000_00000_00000_00000_000_0_0_000_0_00000_00000000000000, ⟨5, ⟨21, 18⟩, false, .nop, .xend (sl 0 0 0 0 0 false false 0 false 0 0)⟩)] : List (Nat × XWord)).all (fun e => decodeX e.1 == (some e.2, [])) = true := by decide +kernel

/-! ## Well-formedness: each check refuses a term made for it -/

/-- Token fields, scopes, bit fields, compares, loops, branches, origins, gathers, the airing store, counts, drains, MSETF (R16, R20 to
R35, R94, R100, R132, R151, R194, R235, R236, R243, R257). -/
theorem test_wf_refuses : ([
    .jadd ⟨3, 0⟩ 1 2 3, .send ⟨0, 9⟩, .fence 5 0, .lda 1 2 0 0 7 0, .ext 1 2 60 4, .ins 1 2 1 63, .cmp 6 1 2 3, .cmp 0 0 2 3, .cmpi 7 1 2 3,
    .lloop ⟨0, 0⟩ 0 1 0, .sloop ⟨0, 0⟩ 0 1 0, .lbr ⟨0, 0⟩ 6 1 2 3, .bindi ⟨0, 0⟩ 1 2 3 false true, .copy ⟨0, 0⟩ 0 1 2 3 true false,
    .wgath ⟨0, 0⟩ 0 0 2 3 0 0 false 3 0, .wgath ⟨0, 0⟩ 0 0 2 3 0 0 true 0 0, .darn ⟨0, 0⟩ 0 1 2 false 0 0 false 0 0, .wtile ⟨0, 0⟩ 0 2 0 0 3 0,
    .aircfg ⟨0, 0⟩ 1 0 17, .aircfg ⟨0, 0⟩ 0 0 1, .aircfg ⟨0, 0⟩ 513 0 1, .ltk ⟨0, 0⟩ 1 false 0, .drain ⟨0, 0⟩ 0 0, .drainx ⟨0, 0⟩ 0 0 0,
    .msetf 0x16 0, .msetf 0x13 16] : List Instr).all (fun i => !i.wf) = true := by decide +kernel

/-- The operand codes of each use: a source, an immediate source, a destination, a register alone, a register or 28, a stream, a predicate
written or read, an e-flag, a reserved field (R29, R157, R163, R181, R192). -/
theorem test_wf_refuses_codes : ([
    .vmin (sl 1 24 0 0 0 false false 0 false 0 0), .vrdacc (sl 16 0 0 0 0 false false 0 false 0 0), .vabs (sl 1 29 0 0 0 false false 0 false 0 0),
    .vadd (sl 1 30 0 0 0 false false 0 false 0 0), .vadd (sl 16 0 0 0 0 false false 0 false 0 0), .vtopk (sl 28 0 0 0 0 false false 0 false 0 16),
    .vtopk (sl 1 0 0 16 0 false false 0 false 0 16), .vrng (sl 1 16 0 0 0 false false 0 false 0 0), .pset (sl 1 0 0 0 0 false false 0 false 0 2),
    .pand (sl 0 1 2 0 0 false false 0 false 0 0), .pand (sl 1 8 2 0 0 false false 0 false 0 0), .voteAny (sl 4 1 0 0 0 false false 0 false 0 0),
    .vmov (sl 1 2 3 0 0 false false 0 false 0 0), .pnot (sl 1 2 0 0 1 false false 0 false 0 0), .vadd (sl 1 2 3 0 0 false false 0 false 5 0),
    .vand (sl 1 2 3 0 0 false false 0 false 13 0), .vadd (sl 1 2 3 0 0 false false 0 false 0 1), .vadd (sl 1 2 3 0 0 false false 0 false 0 0x2000)]
    : List Instr).all (fun i => !i.wf) = true := by decide +kernel

/-- An op's own values, rounding, saturation and flushes (R110, R159, R167, R168, R170, R174, R181, R222, R225, R243, R245). -/
theorem test_wf_refuses_values : ([
    .vcmp (sl 1 2 3 0 0 false false 0 false 0 6), .vcmp (sl 1 2 3 0 0 false false 0 false 13 10), .vldi (sl 1 0 1 0 0 false false 0 false 0 0),
    .vredr (sl 1 2 0 0 0 false false 0 false 0 3), .vredc (sl 1 2 0 0 0 false false 0 false 0 8), .vscnr (sl 1 2 0 0 0 false false 0 false 0 3),
    .pset (sl 1 0 0 0 0 false false 0 false 0 4), .pset (sl 1 1 0 0 0 false false 0 false 0 0), .vcvt (sl 1 2 0 0 0 false false 0 false 0 14),
    .vtopk (sl 1 2 3 4 0 false false 0 false 0 0), .vcheck (sl 1 2 0 0 0 false false 0 false 0 0x80), .vcheck (sl 1 2 1 0 0 false false 0 false 0 0xC0),
    .vcheck (sl 1 2 0 0 0 false false 0 false 0 9), .vspchk (sl 1 2 3 4 0 false false 0 false 0 0), .vrdacc (sl 1 0 0 0 0 false false 0 false 0 64),
    .vrdaccPeek (sl 1 0 0 0 0 false false 0 false 0 0), .xloop (sl 0 0 0 5 0 false false 0 false 0 0), .xbt (sl 5 0 0 0 0 false false 0 false 0 1),
    .vadd (sl 1 2 3 0 0 false false 5 false 0 0), .vadd (sl 1 2 3 0 0 false false 1 false 13 0), .vabs (sl 1 2 0 0 0 false false 0 true 0 0),
    .vredr (sl 1 2 0 0 0 false false 0 true 0 1), .vmov (sl 1 2 0 0 0 false false 0 true 0 0), .vadd (sl 1 2 3 0 0 true false 0 false 13 0),
    .vcmp (sl 1 2 3 0 0 false true 0 false 0 0), .vmov (sl 1 2 0 0 0 true false 0 false 0 0)]
    : List Instr).all (fun i => !i.wf) = true := by decide +kernel

/-- The events' parts of the module: cores, slots, columns, banks, rows, ports, routes, scheduler events, locks, engines and alarm sources. -/
theorem test_wf_refuses_events : ([
    .counterEvent 8, .alarm 6, .startGrant 32, .warmWindowExpiry 0 2, .lockGrant 0 32 0, .refresh 8192, .rowRetirement 0 65536,
    .portRetrain 16 true, .routeChangeEffect 64, .taskDispatch 512, .taskStart 0 4, .tenderBid 0 0 512] : List Instr).all (fun i => !i.wf) = true := by
  decide +kernel

/-- X words: a wait without its flag, a gap above 7, an ill slot, a slot-B op in slot A, one destination twice, MSETF in short form, an
instruction of C (R16, R27, R31 to R33). -/
theorem test_wf_refuses_words : ([
    ⟨0, ⟨1, 0⟩, false, .nop, .nop⟩, ⟨8, ⟨0, 0⟩, false, .nop, .nop⟩, ⟨0, ⟨0, 0⟩, false, .vmov (sl 1 2 3 0 0 false false 0 false 0 0), .nop⟩,
    ⟨0, ⟨0, 0⟩, false, .mclr (sl 0 0 0 0 0 false false 0 false 0 1), .nop⟩,
    ⟨0, ⟨0, 0⟩, false, .vmov (sl 1 2 0 0 0 false false 0 false 0 0), .vmov (sl 1 3 0 0 0 false false 0 false 0 0)⟩,
    ⟨0, ⟨0, 0⟩, false, .nop, .msetf 0 1⟩, ⟨0, ⟨0, 0⟩, false, .add 1 2 3, .nop⟩] : List XWord).all (fun w => !w.wf) = true := by decide +kernel

/-- What the decoder finds in words that are no instruction (R22, R23, R24, R26, R31, R35 to R37, Table 2.10): an unallocated opcode or
function, a reserved field, a scope above 4, an op of slot B in slot A. -/
theorem test_decode_refuses :
    pickFail (decodeC 0x9C000000).2 = some ⟨1, 0, 26, false⟩ ∧ pickFail (decodeC 0x00000140).2 = some ⟨1, 0, 4, false⟩ ∧
    pickFail (decodeC 0x00000001).2 = some ⟨2, 7, 0, false⟩ ∧ pickFail (decodeC 0x88050000).2 = some ⟨2, 7, 16, false⟩ ∧
    pickFail (decodeL 0x2400000000000000).2 = some ⟨1, 0, 58, false⟩ ∧ pickFail (decodeL 0x0000000100000008).2 = some ⟨2, 7, 3, false⟩ ∧
    pickFail (decodeS 0x60000000).2 = some ⟨1, 0, 27, false⟩ ∧ pickFail (decodeX 0x90000000000000_00000000000000).2 = some ⟨1, 3, 104, false⟩ := by
  decide +kernel

/-! ## The states the tests start from -/

/-- A task with every pool, 64 KiB of scratchpad, all entries, and a few register values. -/
def t0 : Task :=
  { tag := 7, rcb := 0x1000, started := true
    tt := { spm := 2, nt := 16, no := 4, ni := 8, nz := 8, nv := 16, note := some 20, refill := some 24, trap := some 16 }
    code := { c := List.replicate 256 0, l := List.replicate 256 0, x := List.replicate 256 0, s := List.replicate 256 0 }
    c := { r := [0, 5, 0xFFFFFFFFFFFFFFFB, 100, 0x8000000000000000, 0x0000000100000004, 0xF0, 0x40, 0x100000000, 0x41, 0x48] ++ List.replicate 21 0
           f := [true, true, false, false, false, false, false, false], b := [0, 8, 16, 24] }
    j := [0, 5, 0xFFFFFFFFFFFFFFFB, 100, 0x40, 3] ++ List.replicate 10 0
    y := [0, 5, 0x40, 3, 0, 0, 0, 0]
    tok := [0, 1, 2, 255, 0, 0, 0, 0, 0, 0, 0, 0, 0, 0, 0, 0] }

/-- Its L, X and S have ended. -/
def te : Task := { t0 with lc := { st := .ended }, x := { ctl := { st := .ended } }, sc := { st := .ended } }

/-- A running module with that task in slot 0 of core 0. -/
def st (t : Task) (k : Core := {}) : State := { bootst := 1, cycle := 100, cores := [(0, { k with slots := [(0, t)] })] }

/-- The task of slot 0 in the handler context, which serves a trap of it. -/
def hs (t : Task) (h : Handler := {}) : State :=
  { st { t with stopped := true } { h := { h with serving := some (0, 0), ctx := { h.ctx with ctl := { h.ctx.ctl with st := .run } } } } with
    cur := { handler := true } }

/-- An instruction run. -/
def run (i : Instr) (s : State) : State := after s (exec i s)

/-- The fault of the task, by cause and detail. -/
def fault (s : State) : Option (Nat × W64) := (me s).faults.getLast?.map fun f => (f.cause, f.detail)

/-- A word without token fields. -/
abbrev nt : Tok := ⟨0, 0⟩

/-! ## C: arithmetic, compares, branches (R233 to R239) -/

theorem test_alu : ([
    (.add 3 1 2, 0), (.sub 3 1 3, 0xFFFFFFFFFFFFFFA1), (.and 3 2 6, 0xF0), (.or 3 1 6, 0xF5), (.xor 3 2 1, 0xFFFFFFFFFFFFFFFE),
    (.shl 3 1 5, 0x50), (.shr 3 2 5, 0x0FFFFFFFFFFFFFFF), (.sra 3 2 5, 0xFFFFFFFFFFFFFFFF), (.min 3 1 2, 0xFFFFFFFFFFFFFFFB), (.max 3 1 2, 5),
    (.minu 3 1 2, 5), (.maxu 3 1 2, 0xFFFFFFFFFFFFFFFB), (.mul 3 1 2, 0xFFFFFFFFFFFFFFE7), (.mulh 3 1 2, 0xFFFFFFFFFFFFFFFF),
    (.mulhu 3 1 2, 4), (.divu 3 3 1, 20), (.remu 3 2 3, 11), (.clz 3 1, 61), (.clz 3 0, 64), (.popc 3 2, 63), (.sel 3 1 2 2, 0xFFFFFFFFFFFFFFFB),
    (.addi 3 1 0xFFFB, 0), (.andi 3 2 0xFFFF, 0xFFFB), (.ori 3 1 0x8000, 0x8005), (.xori 3 1 0x8001, 0x8004), (.shli 3 1 63, 0x8000000000000000),
    (.shri 3 4 63, 1), (.srai 3 4 63, 0xFFFFFFFFFFFFFFFF), (.lui 3 0x180000, 0xFFFFFFF800000000), (.liw 3 1, 0x80000000064), (.ext 3 6 4 3, 15),
    (.ins 3 1 4 3, 0x54)] : List (Instr × W64)).all (fun e => reg (run e.1 (st t0)) 3 == e.2 && (me (run e.1 (st t0))).faults == []) = true := by
  decide +kernel

theorem test_div_by_zero : fault (run (.divu 3 2 0) (st t0)) = some (0x0F, 0xFFFFFFFFFFFFFFFB) ∧ reg (run (.divu 3 2 0) (st t0)) 3 = 100 ∧
    fault (run (.remu 3 1 0) (st t0)) = some (0x0F, 5) := by decide +kernel

theorem test_g0 : reg (run (.add 0 1 1) (st t0)) 0 = 0 ∧ reg (run (.addi 0 0 9) (hs t0)) 0 = 9 := by decide +kernel

theorem test_compares : ([
    (.cmp 0 2 1 2, false), (.cmp 1 2 1 2, true), (.cmp 2 2 2 1, true), (.cmp 3 2 2 1, false), (.cmp 4 2 2 1, false), (.cmp 5 2 2 1, true),
    (.cmpi 2 2 1 0x7FFB, false), (.cmpi 4 2 1 0x7FFB, true)] : List (Instr × Bool)).all (fun e => flag (run e.1 (st t0)) 2 == e.2) = true := by
  decide +kernel

theorem test_branches :
    let go (i : Instr) : Option Nat := ((ctx (run i (st t0))).ctl.delay).map (·.tgt)
    go (.bt 1 1) = some 8 ∧ go (.bt 1 2) = some 12 ∧ go (.btn 2 2) = some 16 ∧ go (.ba 3) = some 24 ∧ go (.call 3) = some 24 ∧
    reg (run (.call 3) (st t0)) 31 = 12 ∧ getB (run (.pbt 0 5) (st t0)) 0 = 20 ∧ getB (run (.mtb 1 6) (st t0)) 1 = 0xF0 ∧
    fault (run (.mtb 1 1) (st t0)) = some (7, 5) := by decide +kernel

/-! ## C: memory (R142 to R149) -/

/-- Bytes from 64 on: 0x80, 1, 2, … 15. -/
def k0 : Core := { spm := memWrite [] 64 ([0x80] ++ (List.range 15).map fun n => BitVec.ofNat 8 (n + 1)) }

theorem test_loads : ([
    (.ldb 3 7 0 0, 0xFFFFFFFFFFFFFF80), (.ldbu 3 7 0 0, 0x80), (.ldh 3 7 0 0, 0x180), (.ldhu 3 7 0 1, 0x302), (.ldw 3 7 0 1, 0x07060504),
    (.ldwu 3 7 0 0, 0x03020180), (.ldd 3 7 0 1, 0x0F0E0D0C0B0A0908), (.ldb 3 9 0 0xFFF, 0xFFFFFFFFFFFFFF80), (.lda 3 7 0 3 0 1, 0x0F0E0D0C0B0A0908)]
    : List (Instr × W64)).all (fun e => reg (run e.1 (st t0 k0)) 3 == e.2) = true := by decide +kernel

theorem test_stores :
    let bytes (i : Instr) : List Byte := memRead (getCore (run i (st t0 k0)) 0).spm 64 10
    bytes (.stb 2 7 0 1) = [0x80, 0xFB, 2, 3, 4, 5, 6, 7, 8, 9] ∧ bytes (.sth 2 7 0 1) = [0x80, 1, 0xFB, 0xFF, 4, 5, 6, 7, 8, 9] ∧
    bytes (.stw 5 7 0 1) = [0x80, 1, 2, 3, 4, 0, 0, 0, 8, 9] ∧ bytes (.std 5 7 0 0) = [4, 0, 0, 0, 1, 0, 0, 0, 8, 9] ∧
    bytes (.stl 2 7 0 1 0 1) = [0x80, 1, 0xFB, 0xFF, 4, 5, 6, 7, 8, 9] := by decide +kernel

theorem test_misaligned : fault (run (.ldw 3 9 0 0) (st t0 k0)) = some (7, 0x41) ∧ fault (run (.std 3 9 0 0) (st t0 k0)) = some (7, 0x41) ∧
    fault (run (.atomXadd 3 9 1 0 0 0) (st t0 k0)) = some (7, 0x41) ∧ fault (run (.ldb 3 7 0 0) (st { t0 with tt := { t0.tt with spm := 0 } } k0)) = some (8, 64) ∧
    fault (run (.ldb 3 8 0 0) (st t0 k0)) = none := by decide +kernel

theorem test_atomics :
    let go (i : Instr) : W64 × List Byte := (reg (run i (st t0 k0)) 3, memRead (getCore (run i (st t0 k0)) 0).spm 72 4)
    go (.atomXadd 3 10 1 0 0 0) = (0x0B0A0908, [0x0D, 9, 0x0A, 0x0B]) ∧ go (.atomXchg 3 10 1 0 0 0) = (0x0B0A0908, [5, 0, 0, 0]) ∧
    go (.atomAnd 3 10 6 0 0 0) = (0x0B0A0908, [0, 0, 0, 0]) ∧ go (.atomOr 3 10 6 0 0 0) = (0x0B0A0908, [0xF8, 9, 0x0A, 0x0B]) ∧
    go (.atomMin 3 10 2 0 0 0) = (0x0B0A0908, [0xFB, 0xFF, 0xFF, 0xFF]) ∧ go (.atomMax 3 10 2 0 0 0) = (0x0B0A0908, [8, 9, 0x0A, 0x0B]) ∧
    go (.atomCas 3 10 1 0 0 0) = (0x0B0A0908, [8, 9, 0x0A, 0x0B]) := by decide +kernel

/-- The lock bit of offset 64: bank 1, bit 0 (R145). -/
theorem test_lock_pair :
    let u := run (.llk 3 7 0 0 0) (st t0 k0)
    reg u 3 = 0x03020180 ∧ lockHolder u 0 1 0 = some ⟨1, 0, 0, 0, false⟩ ∧ fault (run (.llk 4 7 0 0 1) u) = some (1, 6) ∧
    (getCore (run (.sul 1 7 0 0 0) u) 0).locks = [] ∧ memRead (getCore (run (.sul 1 7 0 0 0) u) 0).spm 64 4 = [5, 0, 0, 0] ∧
    fault (run (.sul 1 7 0 0 0) (st t0 k0)) = some (1, 6) := by decide +kernel

/-! ## C: tokens, system registers, traps (R252, R256, R262, R276 to R278) -/

theorem test_tokens :
    (me (run (.tksig 1) (st t0))).tpush.take 2 = [0, 1] ∧ (ctx (run (.tksig 3) (st t0))).ctl.hold = some (.push, 3) ∧
    (me (run (.tkwait 1) (st t0))).tpop.take 2 = [0, 1] ∧ (ctx (run (.tkwait 0) (st t0))).ctl.hold = some (.token, 0) ∧
    reg (run (.tkcnt 3 2) (st t0)) 3 = 2 ∧ nth (tokEnd (me (run (.tkinit 9 2) (st t0)))).tok 2 0 = 9 ∧
    ctl (run (.fence 4 0xFFFF) (st t0)) .c = advance 4 (ctl (st t0) .c) := by decide +kernel

theorem test_system_registers :
    reg (run (.mfs 3 0x033) (st t0)) 3 = 0xFFFF ∧ (me (run (.mts 2 0x020) (st t0))).sys.flm = 0x3B ∧
    (me (run (.mts 2 0x06B) (st t0))).sys.holdto = 0xFFFFFFFB ∧ fault (run (.mfs 3 0x060) (st t0)) = some (1, 6) ∧
    reg (run (.mfs 3 0x068) (hs t0 { retire := true })) 3 = 0x100 ∧ reg (run (.mfs 3 0x06A) (hs t0 { trsel := 2 })) 3 = 0xFFFFFFFFFFFFFFFB ∧
    reg (run (.mts 0 0x06A) (hs t0 { trsel := 0x22 })) 0 = 0 ∧ getJ (run (.mts 0 0x06A) (hs t0 { trsel := 0x22 })) 2 = 0 := by decide +kernel

theorem test_trap_and_return :
    let u := run (.trap 0x123) (st t0)
    let v := run (.trapDelivery 0 0) u
    fault u = some (0x12, 0x123) ∧ (ctl u .c).pc = 4 ∧ (ctl u .c).st = .faulted ∧ (getCore v 0).h.serving = some (0, 0) ∧
    (getCore v 0).h.ctx.ctl.pc = 64 ∧ (getCore v 0).h.trec.take 1 = [0x700000012] ∧ (getTask v 0 0).stopped = true ∧
    (let w := run .eret { v with cur := { handler := true } }
     (getCore w 0).h.serving = none ∧ (getTask w 0 0).stopped = false ∧ (getTask w 0 0).c.ctl.pc = 4 ∧ (getTask w 0 0).c.ctl.st = .run) := by
  decide +kernel

theorem test_end_and_queues :
    (ctl (run .endC (st t0)) .c).st = .ending ∧ (ctl (run .node (st t0)) .c).hold = some (.nodeDrain, 0) ∧
    (me (run .node (st te))).drainPt = some 100 ∧ (ctl (run .node (st te)) .c).hold = some (.kept, 0) ∧
    (let m : Cmd := { slot := 0, tag := 7, idx := 0, from_ := (0, 0, 1), words := List.replicate 16 0, flm := 0, gap := 0 }
     let s := st t0 { qc := { q := [m, { m with slot := 1 }], deq := some m } }
     reg (run (.qdepth 3 1) s) 3 = 2 ∧ reg (run (.qdrop 3 1) s) 3 = 2 ∧ (getCore (run (.qdrop 3 1) s) 0).qc.q.length = 1) := by decide +kernel

/-! ## C: scheduling (R307 to R313) -/

/-- 64-bit words at rising addresses, as a memory. -/
def words (l : List (Nat × Nat)) : Memory :=
  l.flatMap fun e => (leBytes 8 e.2).zipIdx.filterMap fun b => if b.1 = 0 then none else some (e.1 + b.2, b.1)

/-- Stack memory with a root region at 0x1000 (SCTL, every core, tables at 0x200000), a 1 GiB page at 2^32, task type 0 at 0x4000 (32 KiB,
16 token queues, two vector registers) and a kernel of one C word at 0x8000. -/
def world : Memory := words [(0x1008, 0x80), (0x1030, 0x200000), (0x1040, 0xFFFFFFFFFFFFFFFF), (0x1048, 0xFFFFFFFFFFFFFFFF),
  (0x4000, 0x20001800002), (0x8000, 1), (0x8008, 0x400000040), (0x8010, 64), (0x8018, 64), (0x8020, 64), (0x8040, 0x90005000),
  (0x200020, 0xF000000000000000)]

/-- The launch record of that kernel for core 0, tag 9. -/
def record : List W64 := [0x900000000, 0x100008000, 0, 0x1000, 0, 0, 0, 0]

/-- The task with SCTL, the record at 0x40 and a bid formula at 0xF0. -/
def ws (t : Task := { t0 with eff := { sctl := true } }) (k : Core := {}) : State :=
  { st t { k with spm := words (record.zipIdx.map (fun e => (e.2 * 8 + 64, e.1.toNat)) ++ [(0xF0, 1), (0xF8, 0x101)]) } with
    mem := world, ttbase := 0x4000 }

/-- A task that waits in a dispatcher queue. -/
def queuedTask : QTask :=
  { tag := 9, rcb := 0x1000, lrec := record, typeNo := 0, tt := { spm := 1, nt := 16, nv := 2 }, prio := 0 }

theorem test_launch :
    let u := run (.launch 3 7) ws
    reg u 3 = 0 ∧ (getCore u 0).dq = [{ queuedTask with uid := 1 }] ∧ reg (run (.launch 3 7) (ws t0 { dq := List.replicate 64 queuedTask })) 3 = 1 ∧
    fault (run (.launch 3 9) ws) = some (7, 0x41) ∧ fault (run (.spawn 3 7) ws) = some (2, 7 + 204 * 512) := by decide +kernel

theorem test_tender :
    let u := run (.tndr 3 7 1) ws
    (ctl u .c).st = .busy .tender 0 ∧ ((me u).tender.map fun x => (x.key, x.win, x.rd)) = some (5, 48, 3) ∧
    (let q := { queuedTask with tag := 5, placed := some (0, 7, true) }
     let v := run (.wdraw 3 1) (ws { t0 with eff := { sctl := true } } { dq := [queuedTask, q] })
     reg v 3 = 1 ∧ (getCore v 0).dq = [queuedTask] ∧ v.notices = [⟨0, 7, true, 5, 0⟩]) ∧ reg (run (.wdraw 3 1) ws) 3 = 0 ∧
    (getCore (run (.bidf 6 1) ws) 0).forms = [(5, [1, 0x101])] ∧ fault (run (.bidf 6 1) (ws t0)) = some (6, 0xF0) := by decide +kernel

theorem test_remote_requests :
    let s := { st t0 with cores := [(0, { slots := [(0, t0)] }), (5, { slots := [(2, t0)] })] }
    (run (.tksigRemote 1 4) s).remote = [.token 0 0 false 5 2 4] ∧ (ctl (run (.tksigRemote 1 4) s) .c).st = .busy .remote 0 ∧
    fault (run (.tksigRemote 3 4) s) = some (8, 100) ∧ (run (.remq 3 7 1) s).remote.length = 1 := by decide +kernel

/-! ## Witnesses: states and operands that meet the hypotheses of the obligations -/

/-- The value of an effect that succeeds. -/
def okIs {α : Type} [DecidableEq α] (m : M α) (v : α) : Bool :=
  match m with
  | .ok a => a == v
  | .error _ => false

/-- Does an effect succeed with a value of which `p` holds? -/
def okAnd {α : Type} (m : M α) (p : α → Bool) : Bool :=
  match m with
  | .ok a => p a
  | .error _ => false

/-- Is an outcome a next state? -/
def isNext (o : Out) : Bool :=
  match o with
  | .next _ => true
  | _ => false

theorem okIs_iff {α : Type} [DecidableEq α] (m : M α) (v : α) : okIs m v = true ↔ m = .ok v := by
  cases m <;> simp [okIs]
theorem okAnd_iff {α : Type} (m : M α) (p : α → Bool) : okAnd m p = true ↔ ∃ a, m = .ok a ∧ p a = true := by
  cases m <;> simp [okAnd]
theorem isNext_iff (o : Out) : isNext o = true ↔ ∃ t, o = .next t := by cases o <;> simp [isNext]

/-- `FitL`, `FitS`, `FitX` and `TokensReady`, computed. -/
def fitL (s : State) (i : Instr) : Bool :=
  (ctl s .l).st == .run && pickFail ((decodeL ((encodeL i).getD 0)).2 ++ lFails (ctxOf s .l) i) == none
def fitS (s : State) (i : Instr) : Bool :=
  (ctl s .s).st == .run && pickFail ((decodeS ((encodeS i).getD 0)).2 ++ sFails (ctxOf s .s) i) == none
def fitX (s : State) (i : Instr) : Bool := legalX s i == none && okIs (slotReady s i) () && okIs (sramReady s (slotReads i)) ()
def ready (q : Seq) (t : Tok) (s : State) : Bool :=
  (match tokQueue t.wait with | none => true | some n => (ctl s q).popped || tokAvail (me s) n)
    && match tokQueue t.sig with | none => true | some n => tokRoom (me s) n

theorem fitL_iff (s : State) (i : Instr) : fitL s i = true ↔ FitL s i := by simp [fitL, FitL]
theorem fitS_iff (s : State) (i : Instr) : fitS s i = true ↔ FitS s i := by simp [fitS, FitS]
theorem fitX_iff (s : State) (i : Instr) : fitX s i = true ↔ FitX s i := by simp [fitX, FitX, okIs_iff, and_assoc]
theorem ready_iff (q : Seq) (t : Tok) (s : State) : ready q t s = true ↔ TokensReady q t s := by
  unfold ready TokensReady; cases tokQueue t.wait <;> cases tokQueue t.sig <;> simp

theorem witness_ArithmeticOfC :
    (Rule.aluValue (st t0) (.add 0 1 2) = some (0, 0) ∧ FitC (st t0) (.add 0 1 2)) ∧ (Rule.aluValue (hs t0) (.shl 15 3 5)).isSome = true ∧
    FitC (hs t0) (.shl 15 3 5) ∧ (reg (st t0) 0 = 0 ∧ FitC (st t0) (.divu 3 1 0) ∧ FitC (st t0) (.remu 31 1 0)) ∧
    Rule.compareValue (st t0) (.cmp 5 7 2 1) = some (7, true) ∧ FitC (st t0) (.cmp 5 7 2 1) := by unfold FitC; decide +kernel

theorem witness_BranchesOfC_targets :
    (FitC (st t0) (.pbt 3 0x001FFF) ∧ (0x001FFF : BitVec 21).toInt * 4 < 32768) ∧
    (FitC (st t0) (.pbt 3 0x1FFFFF) ∧ ((ctl (st t0) .c).pc : Int) + 4 * (0x1FFFFF : BitVec 21).toInt < 0) ∧
    (FitC (st t0) (.pbt 3 0x002000) ∧ (0x002000 : BitVec 21).toInt * 4 ≥ 32768) ∧
    (FitC (st t0) (.mtb 0 7) ∧ (reg (st t0) 7).toNat % 4 = 0 ∧ (reg (st t0) 7).toNat < 32768) ∧
    (FitC (st t0) (.mtb 0 1) ∧ (reg (st t0) 1).toNat % 4 ≠ 0) ∧
    (FitC (st t0) (.mtb 0 8) ∧ (reg (st t0) 8).toNat % 4 = 0 ∧ (reg (st t0) 8).toNat ≥ 32768) := by unfold FitC; decide +kernel

theorem witness_BranchesOfC :
    (Rule.branchOf (st t0) (.bt 1 1) = some (true, 8) ∧ FitC (st t0) (.bt 1 1)) ∧ (Rule.branchOf (st t0) (.btn 1 0) = some (false, 8) ∧
    FitC (st t0) (.btn 1 0)) ∧ FitC (st t0) (.call 3) ∧ FitC (hs t0) (.call 3) := by unfold FitC; decide +kernel

/-- R232, Table 13.1: a product is ready after 3 cycles, the quotient of 100 (7 bits) after 9, that of 0 after 3, other results in the
next cycle. R241, R242: a product of L after 3, the word after a taken LBR in the second cycle. -/
theorem test_late :
    let c (i : Instr) (k : Nat) (j : Instr) : Bool := Machine.ready (Nat.repeat clockCycle k (noteLate (st t0) .c i (run i (st t0)))) .c j
    let l (i : Instr) (k : Nat) (j : Instr) : Bool := Machine.ready (Nat.repeat clockCycle k (noteLate (st t0) .l i (run i (st t0)))) .l j
    ([0, 2, 3].map fun k => c (.mulh 9 1 2) k (.add 4 1 9)) = [false, false, true] ∧ c (.mulh 9 1 2) 0 (.add 9 1 2) = true ∧
    ([8, 9].map fun k => c (.divu 9 3 1) k (.stb 9 1 0 0)) = [false, true] ∧ ([2, 3].map fun k => c (.remu 9 0 1) k (.mts 9 0x6B)) = [false, true] ∧
    c (.mul 0 1 2) 0 (.add 4 1 0) = true ∧ c (.add 9 1 2) 0 (.add 4 1 9) = true ∧ c (.divu 9 3 0) 0 (.add 4 1 9) = true ∧
    ([2, 3].map fun k => l (.jmul nt 3 1 2) k (.jlih nt 3 0)) = [false, true] ∧
    ([0, 1, 2].map fun k => l (.lbr nt 0 1 1 4) k (.lend nt)) = [false, false, true] ∧ l (.lbr nt 1 1 1 4) 0 (.lend nt) = true := by decide +kernel

theorem witness_ControlAdvances :
    (let t := run (.divu 9 3 1) (st t0)
     Rule.delayOf (st t0) (.divu 9 3 1) = some (9, 9) ∧ t.cur = (st t0).cur ∧ (ctx t).late = [] ∧ nth (myCore t).issued 0 false = true ∧ (ctl t .c).st ≠ .faulted ∧ (myCore t).freeze = 0) ∧
    (let t := run (.jmul nt 3 1 2) (st t0)
     t.cur = (st t0).cur ∧ (me t).jlate = [] ∧ nth (myCore t).issued 1 false = true ∧ (ctl t .l).st ≠ .faulted ∧ (myCore t).freeze = 0) ∧
    (let t := run (.lbr nt 0 1 1 4) (st t0)
     t.cur = (st t0).cur ∧ (me t).jlate = [] ∧ nth (myCore t).issued 1 false = true ∧ (ctl t .l).st ≠ .faulted ∧ (myCore t).freeze = 0) ∧
    let d : Ctl := { pc := 8, delay := some ⟨3, 40⟩ }
    let l : Ctl := { pc := 24, cnt := [0, 2, 1, 0], loops := [⟨1, 8, 24⟩, ⟨2, 0, 32⟩] }
    let m : Ctl := { pc := 24, cnt := [0, 1, 1, 0], loops := [⟨1, 8, 24⟩, ⟨2, 0, 32⟩] }
    d.delay = some ⟨3, 40⟩ ∧ (l.loops = ⟨1, 8, 24⟩ :: [⟨2, 0, 32⟩] ∧ l.delay = none ∧ (∀ x ∈ [(⟨2, 0, 32⟩ : Loop)], x.last ≠ l.pc) ∧
    1 < nth l.cnt 1 0) ∧ nth m.cnt 1 0 = 1 := by decide +kernel

theorem witness_RegistersReadWhatWasWritten :
    (st t0).cur.handler = false ∧ tokQueue 16 = some 0 ∧ Rule.jValue (st t0) (.jli ⟨16, 0⟩ 3 1) = some (⟨16, 0⟩, 3, 1) ∧
    FitL (st t0) (.jli ⟨16, 0⟩ 3 1) ∧ (ctl (st t0) .l).popped = false ∧ tokAvail (me (st t0)) 0 = false ∧ tokQueue 31 = some 15 ∧
    (me (st t0)).tset = [] := by unfold FitL; decide +kernel

/-- A task on core 5 of the same tag and region. -/
def peers : State := { st t0 k0 with cores := [(0, { k0 with slots := [(0, t0)] }), (5, { k0 with slots := [(2, t0)] })] }

/-- The task with a 1 GiB page mapped at 2^32 and register 8 pointing there. -/
def mapped : State := st t0 { k0 with tcache := [{ id := 0, rcb := 0x1000, vpn := 2048, e := 0xF000000000000000 }] }

theorem witness_LoadsAndStoresOfC :
    (Rule.loadOf (st t0 k0) (.ldd 3 7 0 1) = some (3, 8, false, 72) ∧ FitC (st t0 k0) (.ldd 3 7 0 1) ∧
      okIs (resolve (markIssue (st t0 k0) .c) 72 8 0) (.spm 0 0 72) = true ∧ (Rule.reached (markIssue (st t0 k0) .c) (.spm 0 0 72) 8 false none 72).isSome = true ∧
      readError (markIssue (st t0 k0) .c) (.spm 0 0 72) 8 = none) ∧
    (Rule.storeOf mapped (.stb 1 8 0 0) = some (5, 1, 0x100000000) ∧ FitC mapped (.stb 1 8 0 0) ∧
      okIs (resolve (markIssue mapped .c) 0x100000000 1 1) (.mem 0) = true ∧ (Rule.reached (markIssue mapped .c) (.mem 0) 1 true (some [5]) 0x100000000).isSome = true) := by
  unfold FitC; decide +kernel

theorem witness_LoadsAndStoresOfC_misaligned :
    (Rule.loadOf (st t0) (.ldh 3 9 0 0) = some (3, 2, true, 0x41) ∧ FitC (st t0) (.ldh 3 9 0 0)) ∧
    (Rule.storeOf (st t0) (.stw 3 9 0 0) = some (100, 4, 0x41) ∧ FitC (st t0) (.stw 3 9 0 0)) ∧
    (Rule.atomOf (.atomXadd 3 9 1 1 0 0) = some (3, 9, 1, 8) ∧ FitC (st t0) (.atomXadd 3 9 1 1 0 0) ∧ (reg (st t0) 9).toNat % 8 ≠ 0) := by
  unfold FitC; decide +kernel

theorem witness_StoredBytesAndNoOthers :
    ¬ Rule.hitsSpm (st t0) (.spm 0 0 64) 4 0 63 ∧ ¬ Rule.hitsSpm (st t0) (.spm 0 0 64) 4 0 68 ∧ ¬ Rule.hitsMem (.mem 64) 4 63 ∧
    ¬ Rule.hitsMem (.mem 64) 4 68 ∧ ¬ Rule.hitsFar (.far 1 64) 4 (2 ^ 41 + 68) := by
  simp only [Rule.hitsSpm, Rule.hitsMem, Rule.hitsFar]; decide +kernel

theorem witness_MemoryInstructionFrame :
    (Rule.accessOf (st t0 k0) (.ldb 3 7 0 0) = some (0, 1, 64) ∧ isNext (exec (.ldb 3 7 0 0) (st t0 k0)) = true) ∧
    (Rule.accessOf (st t0 k0) (.stb 3 7 0 0) = some (1, 1, 64) ∧ isNext (exec (.stb 3 7 0 0) (st t0 k0)) = true ∧
      okIs (resolve (markIssue (st t0 k0) .c) 64 1 1) (.spm 0 0 64) = true ∧ Rule.memoryTarget (.stb 3 7 0 0) = none) ∧
    (Rule.accessOf (st t0 k0) (.atomXadd 3 7 1 0 0 0) = some (2, 4, 64) ∧ isNext (exec (.atomXadd 3 7 1 0 0 0) (st t0 k0)) = true) := by
  decide +kernel

theorem witness_RegisterInstructionFrame :
    Rule.registerOnly (.add 3 1 2) = true ∧ isNext (exec (.add 3 1 2) (st t0)) = true ∧ Rule.registerOnly (.cmp 0 1 2 3) = true ∧
    isNext (exec (.cmp 0 1 2 3) (st t0)) = true := by decide +kernel

theorem witness_AtomicsOfC :
    Rule.atomOf (.atomCas 3 7 1 1 0 0) = some (3, 7, 1, 8) ∧ FitC (st t0 k0) (.atomCas 3 7 1 1 0 0) ∧ (reg (st t0 k0) 7).toNat % 8 = 0 ∧
    okIs (resolve (markIssue (st t0 k0) .c) (reg (st t0 k0) 7).toNat 8 2) (.spm 0 0 64) = true ∧
    (Rule.reached (markIssue (st t0 k0) .c) (.spm 0 0 64) 8 true none 64).isSome = true ∧ Rule.lockFree (st t0 k0) 0 64 ∧
    Rule.lockMine (run (.llk 3 7 0 0 0) (st t0 k0)) 0 64 ∧ readError (markIssue (st t0 k0) .c) (.spm 0 0 64) 8 = none := by
  unfold FitC Rule.lockFree Rule.lockMine; decide +kernel

theorem witness_LockPairOfC :
    let s := st t0 k0
    let v := run (.llk 4 7 0 0 0) s
    (FitC s (.llk 3 7 0 1 0) ∧ (ctx s).lock = none ∧ Rule.nat64 ((reg s 7).toNat + 0) = 64 ∧ okIs (resolve (markIssue s .c) 64 8 0) (.spm 0 0 64) = true ∧
      Rule.lockFree s 0 64 ∧ readError (markIssue s .c) (.spm 0 0 64) 8 = none) ∧
    (FitC v (.llk 3 7 0 0 0) ∧ (ctx v).lock ≠ none) ∧
    (FitC v (.sul 3 7 0 0 0) ∧ okIs (resolve (markIssue v .c) 64 4 1) (.spm 0 0 64) = true ∧ Rule.lockMine v 0 64) ∧
    (FitC s (.sul 3 7 0 0 0) ∧ okIs (resolve (markIssue s .c) 64 4 1) (.spm 0 0 64) = true ∧ ¬ Rule.lockMine s 0 64) := by
  unfold FitC Rule.lockFree Rule.lockMine; decide +kernel

theorem witness_TokensOfC :
    (FitC (st t0) (.tksig 2) ∧ tokRoom (me (st t0)) 2 = true) ∧ (FitC (st t0) (.tkwait 1) ∧ tokAvail (me (st t0)) 1 = true) ∧
    FitC (st t0) (.tkcnt 3 15) ∧ FitC (st t0) (.tkinit 0xFF 15) ∧ FitC (st t0) (.fence 4 0xFFFF) := by unfold FitC; decide +kernel

/-- A prefetch command in scratchpad, at 64. -/
def prefetchBytes : Memory :=
  memWrite [] 64 (([0x23, 0x400, 0x42, 0x10000400004, 0x100001, 4, 0, 0x1001001002004, 0, 0, 0, 0, 0, 0x200, 0, 0] : List Nat).flatMap (leBytes 8))

/-- Two peers on cores 0 and 5, the first with a command in its scratchpad and `v` in register 1. -/
def askers (v : W64) : State :=
  let a : Task := { t0 with c := { t0.c with r := setNth 0 t0.c.r 1 v } }
  { peers with cores := [(0, { spm := prefetchBytes, slots := [(0, a)] }), (5, { slots := [(2, t0)] })] }

theorem witness_RequestsToOtherCores :
    (FitC peers (.tksigRemote 0 4) ∧ (0 / 256 * 256 + (reg peers 0).toNat % 256 = 0) ∧ tokRoom (me peers) 4 = true) ∧
    (FitC peers (.tksigRemote 1 4) ∧ peerSlot (markIssue peers .c) (me peers) 5 = some 2 ∧ halted (me peers) peers.cycle = false ∧
      tokRoom (getTask peers 5 2) 4 = true) ∧
    (FitC peers (.tksigRemote 3 4) ∧ peerSlot (markIssue peers .c) (me peers) 100 = none) ∧
    ([(0x205 : W64), 0x200].all fun v => let s := askers v
      decide ((reg s 1).toNat < 1024 ∧ (reg s 7).toNat % 64 = 0) && okAnd (readWords (markIssue s .c) 64 16 0) fun r =>
        peerSlot r.1 (me r.1) 5 == some 2 && okAnd (checkRemote r.1 (v.toNat % 256) (if v = 0x205 then 2 else 0) .weight r.2) (fun _ => true) &&
          queueRoom r.1 (v.toNat % 256) .weight && !halted (me s) s.cycle) = true ∧
    (let s := askers 0x264
     FitC s (.remq 3 7 1) ∧ okAnd (readWords (markIssue s .c) 64 16 0) (fun r => peerSlot r.1 (me r.1) 100 == none) = true) ∧
    (let s := askers 0x10500040
     (∀ i ∈ [Instr.ldb 3 1 0 0, .lda 3 1 0 0 0 0, .stb 3 1 0 0, .stl 3 1 0 0 0 0, .atomCas 3 1 1 0 0 0, .llk 3 1 0 0 0, .sul 3 1 0 0 0], FitC s i) ∧
     ([(0, 1), (1, 1), (2, 4), (0, 4), (1, 4)].all fun e => okIs (resolve (markIssue s .c) 0x10500040 e.2 e.1) (.spm 5 2 64)) = true ∧
     (ctx s).lock = none) ∧
    (let s := askers 0x16400040
     FitC s (.ldb 3 1 0 0) ∧ 2 ^ 28 ≤ 0x16400040 ∧ 0x16400040 < 2 ^ 29 ∧ peerSlot (markIssue s .c) (me s) (0x16400040 / 2 ^ 20 % 256) = none) := by
  unfold FitC; decide +kernel

theorem witness_SystemRegisters :
    (FitC (st t0) (.mfs 3 0x020) ∧ Rule.sysValue (st t0) 0x020 = some 0) ∧
    (FitC (hs t0 { trsel := 0x7F }) (.mfs 3 0x06A) ∧ Rule.trappedValue (hs t0 { trsel := 0x7F }) = none) ∧
    (Rule.trappedValue (hs t0 { trsel := 0x1F })).isSome = true ∧ (FitC (st t0) (.mts 1 0x020) ∧ (Rule.sysWritten (st t0) 0x020 5).isSome = true) ∧
    (FitC (hs t0) (.mts 1 0x06D) ∧ FitC (hs t0) (.mts 1 0x06E) ∧ FitC (hs t0) (.mts 1 0x06A)) ∧
    okAnd (tfill (hs t0 { tmiss := 0x100000000 }) 0xF000000000000000) (fun _ => true) = true ∧
    okAnd (tinv (hs { t0 with eff := { tctl := true } }) 0x100000003) (fun _ => true) = true ∧ (Rule.trappedWritten (hs t0) 5).isSome = true := by unfold FitC; decide +kernel

theorem witness_ContextRulesAndTrap :
    Rule.handlerNumber 0x06E ∧ ¬ Rule.handlerNumber 0x06F ∧ ¬ Rule.taskNumber 0x06F ∧ ¬ Rule.handlerNumber 0x06B ∧ (hs t0).cur.handler = true ∧
    FitC (st t0) (.trap 0xFFF) ∧ (st t0).cur.handler = false := by
  unfold FitC Rule.handlerNumber Rule.taskNumber; decide +kernel

theorem witness_TrapDelivery :
    let f : PFault := { cause := 7, detail := 1, seq := 1, cycle := 5 }
    let g : PFault := { cause := 7, detail := 1, seq := 2, cycle := 5 }
    let t : Task := { t0 with faults := [g, f] }
    f ∈ t.faults ∧ (∀ x ∈ t.faults, x.seq < 8 ∧ x.eng < 8) ∧ (∀ x ∈ t.faults, x = f ∨ Rule.precedes f x) ∧ t.faulted = false ∧
    t.tt.trap = some 16 ∧ takesNext (getCore (st t) 0) 0 0 = true := by unfold Rule.precedes; decide +kernel

theorem witness_ReturnFromHandler :
    FitC (hs t0) .eret ∧ (myCore (hs t0)).h.retire = false ∧ (myCore (hs t0)).h.kind = 0 ∧
    (∀ q, (nth (myCore (hs t0)).h.trec (3 + seqCode q) 0).toNat % wordSize q = 0) ∧
    (FitC (hs t0 { trec := [0, 0, 0, 2, 0, 0, 0, 0] }) .eret ∧ (2 : W64).toNat % wordSize .c ≠ 0) ∧
    FitC (hs t0 { kind := 1 }) .eret ∧ FitC (hs t0 { kind := 2 }) .eret ∧ FitC (hs t0 { retire := true }) .eret :=
  ⟨by unfold FitC; decide +kernel, rfl, rfl, by intro q; cases q <;> rfl, by unfold FitC; decide +kernel, by unfold FitC; decide +kernel,
    by unfold FitC; decide +kernel, by unfold FitC; decide +kernel⟩

theorem witness_NodeEndAndQueueCounts :
    let d : Task := { te with drainPt := some 99, c := { te.c with ctl := { hold := some (.kept, 0) } } }
    let l : Task := { te with c := { te.c with lock := some ⟨0, 1, 0⟩ } }
    (FitC (st d) .node ∧ (ctx (st d)).lock = none ∧ drained (markIssue (st d) .c) 0 0 = true ∧ 99 ≠ (st d).cycle ∧
      keptAtDrain (markIssue (st d) .c) 0 0 = false ∧ holdsInside (ctl (st d) .c) = true) ∧ drained (markIssue (st t0) .c) 0 0 = false ∧
    (FitC (st te) .node ∧ drained (markIssue (st te) .c) 0 0 = true ∧ (me (st te)).drainPt = none) ∧ FitC (st te) .endC ∧
    (FitC (st l) .node ∧ FitC (st l) .endC ∧ (ctx (st l)).lock ≠ none) ∧ FitC (st t0) (.qdepth 3 3) ∧ FitC (st t0) (.qdrop 3 3) ∧
    isNext (exec (.qdrop 3 3) (st t0)) = true := by unfold FitC; decide +kernel

theorem witness_LaunchesFromC :
    FitC ws (.launch 3 7) ∧ (reg ws 7).toNat % 64 = 0 ∧
    okAnd (readWords (markIssue ws .c) 64 8 0) (fun r => okAnd (checkLaunch r.1 0 64 r.2 (some 0x1000) false) fun x =>
      x.2.2.2.2 == [0] && decide ((getCore x.1 0).dq.length < 64)) = true ∧
    (getCore (ws t0 { dq := List.replicate 64 queuedTask }) 0).dq.length = 64 := by unfold FitC; decide +kernel

theorem witness_TendersFromC :
    let q := { queuedTask with tag := 5, placed := some (0, 7, true) }
    let v := ws { t0 with eff := { sctl := true } } { dq := [queuedTask, q] }
    (FitC ws (.tndr 3 7 1) ∧ (reg ws 1).toNat < 2 ^ 41 ∧ (reg ws 1).toNat / 2 ^ 38 % 4 = 0 ∧
      okAnd (readWords (markIssue ws .c) 64 8 0) (fun r => (lrecOf r.2).die == 0 &&
        okAnd (checkLaunch r.1 0 64 r.2 (some 0x1000) false) fun _ => true) = true) ∧
    (FitC ws (.wdraw 3 1) ∧ (me ws).eff.sctl = true ∧ ∀ q ∈ (myCore ws).dq, ¬(q.tag = (reg ws 1).toNat % 2 ^ 32 ∧ q.placed.isSome)) ∧
    (FitC v (.wdraw 3 1) ∧ (myCore v).dq = [queuedTask] ++ q :: [] ∧ (∀ x ∈ [queuedTask], ¬(x.tag = (reg v 1).toNat % 2 ^ 32 ∧ x.placed.isSome)) ∧
      q.tag = (reg v 1).toNat % 2 ^ 32) ∧
    (FitC ws (.bidf 6 1) ∧ (reg ws 1).toNat < 64 ∧ (reg ws 6).toNat % 16 = 0 ∧ okAnd (readWords (markIssue ws .c) 0xF0 2 0) (fun _ => true) = true) ∧
    ((me (ws t0)).eff.sctl = false ∧ FitC (ws t0) (.wdraw 3 1) ∧ FitC (ws t0) (.bidf 6 1)) := by unfold FitC; decide +kernel

/-! ## L and S (R97 to R101, R132 to R134, R151, R152, R205 to R215, R241 to R244) -/

/-- A scratchpad with a 4 by 4 s32 record at 0x100, an f16 one at 0x180, a row list of row 0 at 0x200, a ragged s32 record of two segments
at 0x280 with its table at 0x300, and a predictor descriptor at 0x380; the table's elements at 0x400. -/
def spm1 : Memory := words [(0x100, 0x400), (0x108, 0x4D), (0x110, 0x10000400004), (0x118, 0x100001), (0x120, 4), (0x130, 0x1001001002004),
  (0x180, 0x400), (0x188, 0x42), (0x190, 0x10000400004), (0x198, 0x100001), (0x1A0, 4), (0x1B0, 0x1001001002004),
  (0x200, 1), (0x280, 0x400), (0x288, 0x16D), (0x290, 0x20000800004), (0x298, 0x100001), (0x2A0, 4), (0x2B0, 0x1001001001004),
  (0x2C8, 0x300), (0x2D0, 0x211), (0x2D8, 3), (0x300, 0x20003), (0x310, 0x40000000000), (0x318, 0x200000001), (0x320, 0x40000000004),
  (0x380, 0x202000), (0x388, 0x200800), (0x390, 0xA00), (0x398, 0xC00), (0x3A0, 0xE0000D00), (0x3A8, 0x100000F00),
  (0x400, 0x0000000200000001), (0x408, 0x0000000400000003)]

/-- The task with the addresses of those in registers of L and S. -/
def t2 : Task :=
  { t0 with
    j := [0, 5, 0xFFFFFFFFFFFFFFFB, 100, 0x100, 0x180, 0x200, 0x280, 0x380, 0x440, 0, 0x100000000, 0, 0, 0, 2]
    y := [0, 5, 0x100, 0x280, 0x200, 1, 0x400, 2]
    tt := { t0.tt with air := 1 } }

/-- That task with that scratchpad and the first GiB mapped at 2^32. -/
def ls (t : Task := t2) (k : Core := {}) : State :=
  st t { k with spm := spm1, tcache := [{ id := 0, rcb := 0x1000, vpn := 2048, e := 0xF000000000000000 }] }

theorem test_l_arithmetic : ([
    (.jadd nt 3 1 2, 0), (.jsub nt 3 1 3, 0xFFFFFFFFFFFFFFA1), (.jshl nt 3 1 15, 20), (.jshr nt 3 2 15, 0x3FFFFFFFFFFFFFFE),
    (.jand nt 3 2 4, 0x100), (.jor nt 3 1 4, 0x105), (.jmul nt 3 1 2, 0xFFFFFFFFFFFFFFE7), (.jaddi nt 3 1 0xFFFFFFFB, 0),
    (.jli nt 3 0xFFFFFFFF, 0xFFFFFFFF), (.jlih nt 3 0x80000001, 0x8000000100000064), (.ltk nt 3 true 3, 255), (.ltk nt 0 false 0, 100)]
    : List (Instr × W64)).all (fun e => getJ (run e.1 (ls)) 3 == e.2) = true := by decide +kernel

theorem test_s_arithmetic : ([
    (.saddi nt 3 1 0x7FB, 0), (.sli nt 3 0x3FFF, 0xFFFC0), (.stk nt 3 2, 2), (.sld nt 3 6 1, 0x0000000400000003)]
    : List (Instr × W64)).all (fun e => getY (run e.1 (ls)) 3 == e.2) = true := by decide +kernel

theorem test_token_fields :
    let u := run (.jli ⟨17, 20⟩ 3 9) ls
    getJ u 3 = 9 ∧ (me u).tpop.take 2 = [0, 1] ∧ nth (me u).tpush 4 0 = 1 ∧ (ctl (run (.jli ⟨16, 0⟩ 3 9) ls) .l).hold = some (.token, 0) ∧
    (ctl (run (.jli ⟨0, 19⟩ 3 9) ls) .l).st = .busy .push 3 ∧ (ctl (run (.lend ⟨0, 20⟩) ls) .l).st = .ending ∧
    (ctl (run (.send ⟨0, 20⟩) ls) .s).owes = some 4 := by decide +kernel

theorem test_loops :
    let u := run (.lloop nt 1 1 4) ls
    (ctl u .l).pc = 8 ∧ (ctl u .l).loops = [⟨1, 8, 32⟩] ∧ nth (ctl u .l).cnt 1 0 = 5 ∧ (ctl (run (.lloop nt 1 0 4) ls) .l).pc = 40 ∧
    (ctl (run (.sloop nt 2 1 3) ls) .s).loops = [⟨2, 4, 12⟩] ∧ (ctl (run (.lbr nt 0 1 2 0xFFFFFFFF) ls) .l).pc = 8 ∧
    ((ctl (run (.lbr nt 1 1 2 4) ls) .l).delay = some ⟨1, 32⟩ ∨ (ctl (run (.lbr nt 1 1 2 4) ls) .l).pc = 32) ∧
    (me (run (.lloop nt 1 1 4) u)).faults.length = 1 := by decide +kernel

theorem test_bindings :
    let u := run (.bindi nt 4 9 2 true false) ls
    ((nth (me u).ins 2 {}).bind.map fun b => (b.addr, b.org, b.xp)) = some (0x100, [0, 0, 0, 0, 0], true) ∧
    (let v := run (.istart nt 3 2) u
     ((nth (me v).ins 2 {}).runs.map fun r => (r.cls, r.active, r.next)) = [(3, true, 0)]) ∧
    fault (run (.istart nt 3 2) ls) = some (1, 6) ∧ fault (run (.bindi nt 3 0 2 false true) ls) = some (7, 100) ∧
    ((nth (me (run (.bindo nt 2 2) ls)).outs 2 {}).bind.map fun b => (b.addr, b.app, b.cursor)) = some (0x100, false, 0) := by decide +kernel

theorem test_commands :
    let one (q : Core → EngQ) (i : Instr) : List (W64 × Nat) := ((q (getCore (run i ls) 0)).q.map fun m => (nth m.words 0 0, m.idx))
    one (·.qc) (.copy ⟨0, 20⟩ 5 0 4 4 true false) = [(0x100000510, 0)] ∧
    one (·.qw) (.wtile nt 5 5 2 0 1 0) = [(0x1000000000521, 0)] ∧ one (·.qw) (.wgath nt 5 0 5 6 0 0 false 0 0) = [(0x520, 0)] ∧
    one (·.qw) (.pfch nt 5 5 6) = [(0x523, 0)] ∧ one (·.qp) (.pred nt 5 8 9 true) = [(0x1000000000530, 0)] ∧
    (me (run (.pfch nt 5 5 6) ls)).cmdIdx = [0, 0, 1, 0] ∧ fault (run (.darn nt 5 0 5 false 0 0 false 0 0) ls) = some (1, 6 + 24 * 512) := by
  decide +kernel

theorem test_airing_store :
    (me (run (.aircfg nt 1 9 1) ls)).air = { size := 1, slot := 1, pmin := 9 } ∧ fault (run (.aircfg nt 1 9 2) ls) = some (1, 6) ∧
    getJ (run (.airq nt 3 5 0) (ls { t2 with air := { size := 1, slot := 1, slots := [(7, ⟨0x400, 0, 0x200, []⟩)] } })) 3 = 0x100070101 := by
  decide +kernel

/-- Line instructions on row 0 of bank 0 at 2^32, and on no stack address (Table 4.9). -/
theorem test_line_instructions :
    let u := run (.lnpeg nt 3 11 0) ls
    getJ (run (.lnqry nt 3 11 0) ls) 3 = 1 ∧ (me u).pegs = [⟨0, 0, 0x100000000, .held⟩] ∧ getJ u 3 &&& 0xFFF3F = 0x9111 ∧
    (me (run (.lnfree nt 3 11 0) u)).pegs = [] ∧ getJ (run (.lnfree nt 3 11 0) ls) 3 = 10 ∧
    ((getBank (run (.lnopen nt 11 0) ls) 0).lines.any fun l => l.isOpen && l.row == some 0) = true ∧
    fault (run (.lnqry nt 3 1 0) ls) = some (6, 5) := by decide +kernel

theorem test_drains :
    let u := run (.bindo nt 2 2) ls
    ((me (run (.drain nt 2 1) u)).drain.map fun d => (d.o, d.left)) = some (2, 1) ∧ (ctl (run (.drain nt 2 1) u) .s).st = .busy .drainWork 2 ∧
    ((me (run (.drainx nt 2 4 1) u)).drain.map fun d => (d.left, d.list)) = some (1, some [0]) := by decide +kernel

/-- R213 to R215 on segment 1 of the ragged record: its lengths, and the next generation in table and record. -/
theorem test_ragged :
    let s := ls { t2 with y := [0, 1, 0x280, 2, 4, 5, 0, 0] }
    let at_ (i : Instr) (a : Nat) : Nat := memNat (getCore (moveSeq (moveSeq (run i s) 0 0 .s) 0 0 .s) 0).spm a 8
    (memNat (getCore (run (.rgapnd nt 2 1 3) s) 0).spm 0x300 8 = 0x20003 ∧ (ctl (run (.rgapnd nt 2 1 3) s) .s).st = .busy .drainWork 0) ∧
    at_ (.rgapnd nt 2 1 3) 0x328 = 0x200000000 ∧ at_ (.rgapnd nt 2 1 3) 0x300 = 0x20004 ∧ at_ (.rgapnd nt 2 1 3) 0x2D8 = 4 ∧
    at_ (.rgcmt nt 2 0 1) 0x318 = 0x200000002 ∧ at_ (.rgupk nt 2 0 1) 0x318 = 0x100000001 ∧
    fault (run (.rgapnd nt 2 1 5) s) = some (4, 0x500000001) := by decide +kernel

/-- That state with slot B of an X word under way. -/
def lb : State := { ls with cur := { slotB := true } }

/-- A block of a stream, all lanes valid. -/
def block (v : W32) : Block := { lanes := List.replicate 1024 v, valid := List.replicate 1024 true }

theorem witness_ArithmeticOfLAndS :
    (Rule.jValue ls (.jadd ⟨17, 20⟩ 0 1 2) = some (⟨17, 20⟩, 0, 0) ∧ fitL ls (.jadd ⟨17, 20⟩ 0 1 2) = true ∧ ready .l ⟨17, 20⟩ ls = true) ∧
    (Rule.yValue ls (.sli nt 7 1) = some (nt, 7, 64) ∧ fitS ls (.sli nt 7 1) = true ∧ ready .s nt ls = true) := by
  decide +kernel

theorem witness_LoopsStart :
    let u := run (.lloop nt 1 1 4) ls
    (fitL ls (.lloop nt 3 0 1) = true ∧ ready .l nt ls = true ∧ Rule.loopFits (ctl ls .l) 3 8) ∧
    (fitL u (.lloop nt 1 1 1) = true ∧ ready .l nt u = true ∧ ∃ l ∈ (ctl u .l).loops, l.n = 1) ∧
    (fitL u (.lloop nt 2 1 9) = true ∧ ready .l nt u = true ∧ (∀ l ∈ (ctl u .l).loops, l.n ≠ 2) ∧ ∃ l ∈ (ctl u .l).loops, l.last < (ctl u .l).pc + 8 * 9) ∧
    (fitS ls (.sloop nt 0 1 1) = true ∧ ready .s nt ls = true ∧ Rule.loopFits (ctl ls .s) 0 4) ∧
    (fitX lb (.xloop (sl 0 0 0 3 0 false false 0 false 0 2)) = true ∧ (ctl lb .x).delay = none ∧ Rule.loopFits (ctl lb .x) 0 32) ∧
    ((sectionOf (me ls) .l).length / 8 ≤ (ctl ls .l).pc / 8 + 32 ∧ (sectionOf (me ls) .s).length / 4 ≤ (ctl ls .s).pc / 4 + 64 ∧
      lb.cur.slotB = true ∧ (sectionOf (me lb) .x).length / 16 ≤ (ctl lb .x).pc / 16 + 16) := by
  unfold Rule.loopFits; decide +kernel

theorem witness_BranchesOfLAndX :
    (fitL ls (.lbr nt 0 1 2 1) = true ∧ ready .l nt ls = true ∧ (∀ l ∈ (ctl ls .l).loops, l.last ≠ (ctl ls .l).pc) ∧
      Rule.holds 0 (getJ ls 1) (getJ ls 2) = false ∧ fitL ls (.lbr nt 1 1 2 1) = true ∧ Rule.holds 1 (getJ ls 1) (getJ ls 2) = true) ∧
    (fitX lb (.xbt (sl 4 0 0 0 0 false false 0 false 0 3)) = true ∧ fitX lb (.xbn (sl 3 0 0 0 0 false false 0 false 0 3)) = true ∧ (ctl lb .x).delay = none ∧
      (∀ k < 3, ∀ l ∈ (ctl lb .x).loops, l.last ≠ (ctl lb .x).pc + 16 * k) ∧ unsettled (xOf' lb) (.e 3) = false) := by
  decide +kernel

theorem witness_ArithmeticOfLAndS_ends :
    (fitL ls (.lend nt) = true ∧ ready .l nt ls = true) ∧ (fitS ls (.send nt) = true ∧ ready .s nt ls = true) ∧
    (fitX lb (.xend (sl 0 0 0 0 0 false false 0 false 0 0)) = true ∧ (ctl lb .x).delay = none) ∧ (fitL ls (.ltk nt 0 false 0) = true ∧ ready .l nt ls = true) ∧
    fitX lb (.xtk (sl 15 0 0 0 0 false false 0 false 0 15)) = true ∧ fitX ls .nop = true := by
  decide +kernel

theorem witness_StreamBindings :
    let u := run (.bindi nt 4 0 7 false true) (ls { t2 with j := setNth 0 t2.j 0 0 })
    (fitL ls (.bindi nt 4 9 2 true false) = true ∧ ready .l nt ls = true ∧
      okAnd (readLayout (Rule.begun .l nt ls) 0 0 0x100 0) (fun _ => true) = true ∧
      okIs (readBlock (Rule.begun .l nt ls) 0 0 0x440 2 16) [0, 0] = true) ∧
    (fitL u (.istart nt 15 7) = true ∧ ready .l nt u = true ∧ okAnd (do
      let b ← ((inStream u 0 0 7).bind.map Except.ok).getD (illegal 6 0)
      let l := layoutOf b.lrec
      let r ← snapshot (Rule.begun .l nt u) 0 0 l 0 b.addr (coveredSegs l b.org)
      checkPositions l 0 b.addr ((windowAt l b.org).map (posAt l r.2))
      footprint r.1 0 0 l false (readIdxs l r.2 b.org)) (fun _ => (inStream u 0 0 7).runs.length < 2) = true) ∧
    (fitS ls (.bindo nt 3 2) = true ∧ ready .s nt ls = true ∧ (getY ls 2).toNat / 2 % 16 = 0 ∧
      okAnd (readLayout (Rule.begun .s nt ls) 0 0 0x100 0) (fun r => (layoutOf r).sbase == 0 && (layoutOf r).fmt == 13) = true) := by
  decide +kernel

theorem witness_CommandsArePushed :
    let c : CheckCtx := { valid := true, mlist := 0x200, alist := 0x200 }
    (fitL ls (.copy nt 15 0 4 4 true false) = true ∧ ready .l nt ls = true ∧ ((Rule.commandOf (Rule.begun .l nt ls) (.copy nt 15 0 4 4 true false)).map
      fun r => (r.2.1, okAnd r.2.2 fun v => queueRoom v.1 0 .copy)) = some (.copy, true)) ∧
    (fitL ls (.wtile nt 0 5 2 0 2 0) = true ∧ ((Rule.commandOf (Rule.begun .l nt ls) (.wtile nt 0 5 2 0 2 0)).map
      fun r => (r.2.1, okAnd r.2.2 fun v => queueRoom v.1 0 .weight)) = some (.weight, true)) ∧
    (fitL ls (.wgath nt 0 5 5 6 255 0 true 0 0) = true ∧ ((Rule.commandOf (Rule.begun .l nt ls) (.wgath nt 0 5 5 6 255 0 true 0 0)).map
      fun r => (r.2.1, okAnd r.2.2 fun v => queueRoom v.1 0 .weight)) = some (.weight, true)) ∧
    (fitL (ls { t2 with chk := c }) (.darn nt 0 0 5 false 0 0 false 0 0) = true ∧
      ((Rule.commandOf (Rule.begun .l nt (ls { t2 with chk := c })) (.darn nt 0 0 5 false 0 0 false 0 0)).map
        fun r => (r.2.1, okAnd r.2.2 fun v => queueRoom v.1 0 .weight)) = some (.weight, true)) ∧
    (fitL ls (.pfch nt 0 5 6) = true ∧ ((Rule.commandOf (Rule.begun .l nt ls) (.pfch nt 0 5 6)).map
      fun r => (r.2.1, okAnd r.2.2 fun v => queueRoom v.1 0 .weight)) = some (.weight, true)) ∧
    (fitL ls (.pred nt 0 8 9 true) = true ∧ ((Rule.commandOf (Rule.begun .l nt ls) (.pred nt 0 8 9 true)).map
      fun r => (r.2.1, okAnd r.2.2 fun v => queueRoom v.1 0 .pred)) = some (.pred, true)) := by
  decide +kernel

theorem witness_AiringStore :
    (fitL ls (.aircfg nt 1 9 1) = true ∧ ready .l nt ls = true ∧ (1 : BitVec 5).toNat ≤ (me ls).tt.air ∧ ownWeight (Rule.begun .l nt ls) 0 0 = false ∧
      (me ls).air.size ≤ (me ls).tt.spm ∧ ∀ r ∈ namedRanges (Rule.begun .l nt ls) 0 0, overlap r.1 r.2 32768 32768 = false) ∧
    (fitL ls (.aircfg nt 0 0 0) = true ∧ (0 : BitVec 5).toNat < 1) ∧
    (fitL ls (.airq nt 3 5 0) = true ∧ ready .l nt ls = true ∧ okAnd (readLayout (Rule.begun .l nt ls) 0 0 0x180 0)
      (fun r => weightBad (layoutOf r) 0 none == none) = true) := by
  decide +kernel

theorem witness_LineInstructions :
    let u := run (.lnpeg nt 3 11 0) ls
    let full := ls { t2 with pegs := List.replicate 8 ⟨1, 1, 0, .held⟩ }
    let near := st t2 { tcache := [{ id := 0, rcb := 0x1000, vpn := 2048, e := 0xE000010000000000 }] }
    ready .l nt ls = true ∧ okIs (lineAddr (Rule.begun .l nt ls) 0x100000000) (some 0) = true ∧
    (fitL ls (.lnqry nt 3 11 0) = true ∧ fitL ls (.lnopen nt 11 0) = true ∧ fitL ls (.lnpeg nt 3 11 0) = true ∧ fitL ls (.lnfree nt 3 11 0) = true) ∧
    (fitL u (.lnfree nt 3 11 0) = true ∧ fitL u (.lnpeg nt 3 11 0) = true ∧ (pegOf (me u) 0 0).isSome = true) ∧ pegOf (me ls) 0 0 = none ∧
    (fitL full (.lnpeg nt 3 11 0) = true ∧ pegOf (me full) 0 0 = none ∧ pegReason (Rule.begun .l nt full) (me full) 0 0 ≠ 0) ∧
    ((me ls).pegs.length < 8 ∧ (heldRows (Rule.begun .l nt ls) 0).length < 2 ∧ 0 ∉ (getBank ls 0).stuck ∧ inSwap ls 0 = false ∧
      (getBank ls 0).busy = false ∧ rowSuspended (Rule.begun .l nt ls) 0 0 = false ∧ (openRow (Rule.begun .l nt ls) 0 0).isSome = true) ∧
    okIs (lineAddr (Rule.begun .l nt near) 0x100000000) none = true := by
  decide +kernel

theorem witness_DrainsStart :
    let u := run (.bindo nt 2 2) ls
    (fitS u (.drain nt 2 1) = true ∧ ready .s nt u = true ∧ okAnd (do
      let b ← ((nth (me u).outs 2 {}).bind.map Except.ok).getD (illegal 6 0)
      let l := layoutOf b.lrec
      let r ← snapshot (Rule.begun .s nt u) 0 0 l 0 b.addr (coveredSegs l [0, 0, 0, 0, 0])
      let ws := drainPositions l b.cursor 1
      checkPositions l 0 b.addr (ws.map (outPosAt l r.2 b.app))
      footprint r.1 0 0 l true ((ws.filter fun w => outPosAt l r.2 b.app w == .inside).map fun w => substIdx l r.2 (outIdx l r.2 b.app w)))
        (fun _ => true) = true) ∧
    (fitS u (.drainx nt 2 4 1) = true ∧ ready .s nt u = true ∧ Rule.local32s (Rule.begun .s nt u) 0x200 = some [0] ∧ okAnd (do
      let b ← ((nth (me u).outs 2 {}).bind.map Except.ok).getD (illegal 6 0)
      let l := layoutOf b.lrec
      let is := [0].eraseDups.flatMap fun r => (List.range (nth l.w 0 0)).map fun x => [x, r, 0, 0, 0]
      checkPositions l 0 b.addr (is.map (posAt l {}))
      let p ← footprint (Rule.begun .s nt u) 0 0 l true (is.filter fun i => posAt l {} i == .inside)
      .ok (l, p)) (fun r => !r.1.rag && nth r.1.w 0 0 ≤ 64 && 0 < nth r.1.e 1 0) = true) := by
  decide +kernel

theorem witness_LocalLoadAndRaggedUpdates :
    let s := ls { t2 with y := [0, 1, 0x280, 2, 4, 5, 0, 0xFFF8] }
    let u := Rule.begun .s nt s
    (fitS s (.sld nt 3 7 0) = true ∧ ready .s nt s = true ∧ 0xFFF8 + 8 ≤ spmUsable (me s) ∧ readError u (.spm 0 0 0xFFF8) 8 = none) ∧
    (fitS s (.rgapnd nt 2 1 3) = true ∧ fitS s (.rgcmt nt 2 1 3) = true ∧ fitS s (.rgupk nt 2 1 3) = true ∧ ready .s nt s = true ∧ okAnd (do
      let r ← readLayout u 0 0 0x280 0
      let l := layoutOf r
      let h ← readHeader u 0 0 l 0 0x280
      let g ← readPair h.1 0 0 (l.btab + 32)
      let pe ← placeOf g.1 0 0 (l.btab + 40) 8 2
      let ph ← placeOf g.1 0 0 l.btab 8 2
      let x ← writeAt g.1 (0, 0) pe (l.btab + 40) (leBytes 8 0)
      let _ ← writeAt x (0, 0) ph l.btab (leBytes 8 0)
      .ok (l, h.2, segBad l (segOfWords g.2.1 g.2.2))) (fun r => r.1.rag && !r.2.1 && 1 < r.1.nseg && r.2.2 == none) = true) ∧
    Rule.raggedAfter .append ⟨4, 4, 2, 0⟩ 2 ≠ none ∧ Rule.raggedAfter .append ⟨4, 4, 2, 0⟩ 3 = none ∧ 0x280 + 96 ≤ spmUsable (me s) := by
  decide +kernel

theorem witness_FrameOfLAndS :
    (lsTok (.jli nt 3 1)).isSome = true ∧ isNext (exec (.jli nt 3 1) ls) = true ∧ Rule.writesMemory (.jli nt 3 1) = false ∧
    (lsTok (.rgapnd nt 1 2 3)).isSome = true ∧ isNext (exec (.rgapnd nt 1 2 3) ls) = true ∧
    (let s := ls { t2 with y := [0, 1, 0x280, 2, 4, 5, 0, 0] }
     isNext (exec (.rgapnd nt 2 1 3) s) = true ∧ okAnd (do
       let u := Rule.begun .s nt s
       let r ← readLayout u 0 0 0x280 0
       placeOf u 0 0 ((layoutOf r).btab + 40) 8 2) (fun _ => true) = true) ∧
    (let i : Instr := .aircfg nt 0 16 0
     isNext (exec i ls) = true ∧ (lsTok i).isSome = true ∧
       (let s := ls { t2 with air := { t2.air with size := 1 } }
        isNext (exec i s) = true ∧ BitVec.toNat (w := 5) 0 < (me s).air.size)) := by decide +kernel

/-! ## X: lanes, predicates, lists (R164 to R181, R221 to R227) -/

/-- Lanes that start with given values. -/
def vl (l : List W32) : Lanes := l ++ List.replicate (1024 - l.length) 0

/-- Vector registers: floats in v0, v1 and v4, integers in v2 and v3, the list and candidates of R181 in v5 and v6. -/
def vregs : List Lanes :=
  [vl [0x3F800000, 0x40000000, 0xC0400000, 0x3F000000], vl [0x40000000, 0x3E800000, 0x40400000, 0x3F800000],
   vl [5, 0xFFFFFFFB, 0x7FFFFFFF, 0x80000000], vl [2, 3, 1, 0xFFFFFFFF], vl [0x7FC00000, 0x80000000, 0x7F800000, 0xFF800000],
   vl [0x40A00000, 0x40000000] |>.set 64 3 |>.set 65 9 |>.set 128 2 |>.set 129 4,
   vl [0x40000000, 0x7FC00000, 0x80000000, 0x40E00000, 0x40A00000], vl [8]]

/-- Predicates: p1 holds on lanes 0 and 2, p2 on 0 and 1, p3 on 0 to 4. -/
def pregs : List (List Bool) :=
  let lanes (l : List Nat) : List Bool := (List.range 1024).map l.contains
  [[], lanes [0, 2], lanes [0, 1], lanes [0, 1, 2, 3, 4], lanes [], lanes [], lanes [], lanes []]

/-- The state of the L tests with those registers. -/
def xs (t : Task := t2) (k : Core := {}) : State := ls { t with x := { t.x with v := vregs, p := pregs } } k

/-- That state with slot B of the word under way. -/
def xb (t : Task := t2) (k : Core := {}) : State := { xs t k with cur := { slotB := true } }

/-- The state once every operation's bound has passed. -/
def landed (s : State) : State := settle (modX s fun x => { x with count := x.count + 100 })

/-- The first lanes of v8 after an instruction. -/
def v8 (i : Instr) (k : Nat := 4) (s : State := xs) : Lanes := (readV (landed (run i s)) 8).2.take k

/-- The slot `v8 <- a, b, c` under p0 with a type and an immediate. -/
abbrev to8 (a b c type imm : Nat) : Slot := sl 8 a b c 0 false false 0 false type imm

theorem test_x_floats : ([
    (.vadd (to8 0 1 0 0 0), [0x40400000, 0x40100000, 0, 0x3FC00000]), (.vsub (to8 0 1 0 0 0), [0xBF800000, 0x3FE00000, 0xC0C00000, 0xBF000000]),
    (.vmul (to8 0 1 0 0 0), [0x40000000, 0x3F000000, 0xC1100000, 0x3F000000]), (.vfma (to8 0 1 0 0 0), [0x40400000, 0x40200000, 0xC1400000, 0x3F800000]),
    (.vfms (to8 0 1 0 0 0), [0x3F800000, 0xBFC00000, 0xC0C00000, 0]), (.vmin (to8 0 1 0 0 0), [0x3F800000, 0x3E800000, 0xC0400000, 0x3F000000]),
    (.vmax (to8 0 1 0 0 0), [0x40000000, 0x40000000, 0x40400000, 0x3F800000]), (.vabs (to8 0 0 0 0 0), [0x3F800000, 0x40000000, 0x40400000, 0x3F000000]),
    (.vneg (to8 0 0 0 0 0), [0xBF800000, 0xC0000000, 0x40400000, 0xBF000000]), (.vclamp (to8 0 28 1 0 0), [0x3F800000, 0x3E800000, 0, 0x3F000000]),
    (.vcvt (to8 0 0 0 13 0), [1, 2, 0xFFFFFFFD, 0]), (.vflip (to8 0 0 0 0 0), [0xBF800000, 0xC0000000, 0x3FBFFFFF, 0xBF000000]),
    (.vunflip (to8 3 0 0 0 0), [0x7FC00000, 0x7FC00000, 0x7FC00000, 0x7FC00000]), (.vexp2 (to8 0 0 0 0 0), [0x40000000, 0x40800000, 0x3E000000, 0x3FB504F3]),
    (.vlog2 (to8 1 0 0 0 0), [0x3F800000, 0xC0000000, 0x3FCAE00D, 0]), (.vrcp (to8 4 0 0 0 0), [0x7FC00000, 0xFF800000, 0, 0x80000000]),
    (.vrsq (to8 1 0 0 0 0), [0x3F3504F3, 0x40000000, 0x3F13CD3A, 0x3F800000]), (.vsqrt (to8 4 0 0 0 0), [0x7FC00000, 0x80000000, 0x7F800000, 0x7FC00000]),
    (.vtanh (to8 4 0 0 0 0), [0x7FC00000, 0x80000000, 0x3F800000, 0xBF800000]), (.vsig (to8 4 0 0 0 0), [0x7FC00000, 0x3F000000, 0x3F800000, 0])]
    : List (Instr × Lanes)).all (fun e => v8 e.1 == e.2) = true := by decide +kernel

theorem test_x_integers : ([
    (.vadd (to8 2 3 0 13 0), [7, 0xFFFFFFFE, 0x80000000, 0x7FFFFFFF]), (.vmul (to8 2 3 0 13 0), [10, 0xFFFFFFF1, 0x7FFFFFFF, 0x80000000]),
    (.vadd (sl 8 2 3 0 0 false false 0 true 13 0), [7, 0xFFFFFFFE, 0x7FFFFFFF, 0x80000000]), (.vsub (to8 2 29 0 13 0x1FFF), [6, 0xFFFFFFFC, 0x80000000, 0x80000001]),
    (.vand (to8 2 3 0 0 0), [0, 3, 1, 0x80000000]), (.vor (to8 2 3 0 0 0), [7, 0xFFFFFFFB, 0x7FFFFFFF, 0xFFFFFFFF]),
    (.vxor (to8 2 3 0 0 0), [7, 0xFFFFFFF8, 0x7FFFFFFE, 0x7FFFFFFF]), (.vshl (to8 2 3 0 0 0), [20, 0xFFFFFFD8, 0xFFFFFFFE, 0]),
    (.vshr (to8 2 3 0 0 0), [1, 0x1FFFFFFF, 0x3FFFFFFF, 0]), (.vsra (to8 2 3 0 0 0), [1, 0xFFFFFFFF, 0x3FFFFFFF, 0xFFFFFFFF]),
    (.vmov (sl 8 2 0 0 1 false false 0 false 0 0), [5, 0, 0x7FFFFFFF, 0]), (.vsel (sl 8 2 3 0 1 false false 0 false 0 0), [5, 3, 0x7FFFFFFF, 0xFFFFFFFF]),
    (.vldi (to8 0 1 0 13 0x40), [64, 65, 66, 67]), (.vldi (to8 0 0 0 0 0x7F0), [0x3F800000, 0x3F800000, 0x3F800000, 0x3F800000])]
    : List (Instr × Lanes)).all (fun e => v8 e.1 == e.2) = true := by decide +kernel

/-- Moves: one lane of each row and column rule. -/
theorem test_x_moves :
    v8 (.vrotr (to8 2 0 0 0 1)) = [0, 5, 0xFFFFFFFB, 0x7FFFFFFF] ∧ nth (v8 (.vrotc (to8 2 0 0 0 1)) 68) 65 0 = 0xFFFFFFFB ∧
    v8 (.vbcr (to8 2 0 0 0 2)) = [0x7FFFFFFF, 0x7FFFFFFF, 0x7FFFFFFF, 0x7FFFFFFF] ∧ nth (v8 (.vbcc (to8 2 0 0 0 0)) 68) 65 0 = 0xFFFFFFFB ∧
    nth (v8 (.vxpq (to8 2 0 0 0 0)) 68) 64 0 = 0xFFFFFFFB := by decide +kernel

/-- The state of R174's example: a block in stream 0 with segments 0, 0, 1, 1 and lane 2 invalid. -/
def seg : State :=
  let b : Block := { lanes := vl [0x3F800000, 0x40000000, 0x40800000, 0x41000000], valid := [true, true, false, true] ++ List.replicate 1020 false
                     seg := [0, 0, 1, 1] ++ List.replicate 1020 0 }
  xs { t2 with ins := [{ blocks := [b] }] }

theorem test_x_lines :
    v8 (.vscnr (to8 16 0 0 0 8)) 4 seg = [0x3F800000, 0x40400000, 0, 0x41000000] ∧
    v8 (.vredr (to8 16 0 0 0 8)) 4 seg = [0x40400000, 0x40400000, 0x41000000, 0x41000000] ∧
    v8 (.vredc (to8 3 0 0 13 1)) 3 = [2, 3, 1] ∧ nth (v8 (.vscnc (to8 3 0 0 13 0x10)) 68) 65 0 = 3 := by decide +kernel

/-- The lanes of predicate 7 among the first four after an instruction. -/
def p7 (i : Instr) (s : State := xs) : List Bool := (readP (landed (run i s)) 7).2.take 4

/-- The slot `p7 <- a, b` with an immediate. -/
abbrev to7 (a b type imm : Nat) : Slot := sl 7 a b 0 0 false false 0 false type imm

theorem test_x_predicates :
    ([(.pand (to7 1 2 0 0), [true, false, false, false]), (.por (to7 1 2 0 0), [true, true, true, false]),
      (.pxor (to7 1 2 0 0), [false, true, true, false]), (.pnot (to7 1 0 0 0), [false, true, false, true]),
      (.pset (to7 0 0 0 0xF), [true, true, true, false]), (.pset (to7 16 0 0 2), [true, true, false, true]), (.pset (to7 0 0 0 1), [true, true, true, true]),
      (.vcmp (to7 0 1 0 2), [true, false, true, true]), (.vcmp (to7 4 4 0 1), [true, false, false, false]), (.vcmp (to7 2 3 13 6), [false, false, false, true])]
      : List (Instr × List Bool)).all (fun e => p7 e.1 seg == e.2) = true ∧
    v8 (.pcnt (sl 8 3 0 0 1 false false 0 false 0 0)) 1 = [2] ∧ v8 (.pcnt (sl 8 3 0 0 0 false false 0 false 0 1)) 65 = List.replicate 64 5 ++ [0] ∧
    (readE (landed (run (.voteAny (sl 2 1 0 0 3 false false 0 false 0 0)) xs)) 2).2 = true ∧
    (readE (landed (run (.voteAll (sl 2 1 0 0 3 false false 0 false 0 0)) xs)) 2).2 = false := by decide +kernel

/-- VTOPK's example of R181 (Table 9.6), packing, and a histogram of digit 0 chained with v2. -/
theorem test_x_lists :
    (let l := v8 (.vtopk (sl 8 6 7 5 3 false false 0 false 0 0x40)) 132
     l.take 4 = [0x40E00000, 0x40A00000, 0x40A00000, 0x40000000] ∧ (l.drop 64).take 4 = [11, 3, 12, 8] ∧ (l.drop 128).take 2 = [4, 4]) ∧
    v8 (.vcompr (sl 8 2 3 0 1 false false 0 false 0 0)) = [5, 0x7FFFFFFF, 1, 0xFFFFFFFF] ∧
    v8 (.vexpnd (sl 8 2 3 0 1 false false 0 false 0 0)) = [5, 3, 0xFFFFFFFB, 0xFFFFFFFF] ∧
    (let h := v8 (.vhist (sl 8 3 28 2 3 false false 0 false 0 0)) 80
     h.take 4 = [6, 0xFFFFFFFC, 0x80000000, 0x80000001] ∧ nth h 64 0 = 3) ∧
    v8 (.vnrm (sl 8 0 28 0 3 false false 0 false 0 0)) 3 = [0x41640000, 0x40400000, 0] := by decide +kernel

/-- Philox's check value (R221), a sample of the most probable entry (R224), drafts accepted before the first refusal (R225). -/
theorem test_x_sampling :
    v8 (.vrng (sl 8 28 0 0 0 false false 0 false 13 0)) 4 = [0x6627E8D5, 0xE169C58D, 0xBC57AC4C, 0x9B00DBD8] ∧
    v8 (.vrng (sl 8 28 0 0 0 false false 0 false 0 0)) 1 = [0x3ECC4FD0] ∧ v8 (.vsample (sl 8 5 29 28 0 false false 0 false 0 0x7F0)) = [3, 0, 2, 0] ∧
    v8 (.vspchk (sl 8 0 28 28 0 false false 0 false 0 3)) 2 = [2, 1] := by decide +kernel

/-- The check context of three rows of which 0 and 2 are missing, its gates above 0.75 active. -/
def chk0 : CheckCtx :=
  { valid := true, u := [(0, true), (1, false), (2, true)], hbase := 0x600, hst := 1, mlist := 0x500, alist := 0x540, tau := 0x3F400000, limit := 4 }

/-- The task that has it and a staging area of two entries at 0x700. -/
def tc (k : CheckCtx := chk0) : Task := { t2 with chk := k, sys := { t2.sys with hstg := 0x200700 } }

/-- R110, R112, R226: gates above the threshold, their heat, the list of misses, the limit, staged heat. -/
theorem test_check :
    let i : Instr := .vcheck (sl 8 0 0 0 0 false false 0 false 0 0x1F)
    let u := run i (xs (tc))
    v8 i 4 (xs (tc)) = [0x3F800000, 0x40000000, 0, 0] ∧ p7 i (xs (tc)) = [true, true, false, false] ∧
    ((readP (landed u) 3).2.take 2) = [true, false] ∧ ((me u).chk.pos, (me u).chk.mcnt) = (3, 1) ∧
    memNat (getCore u 0).spm 0x600 3 = 0x2020 ∧ memNat (getCore u 0).spm 0x500 8 = 1 ∧
    fault (run i (xs (tc { chk0 with limit := 0 }))) = some (9, 0x10000) ∧ (me (run i (xs (tc { chk0 with limit := 0 })))).chk.mldis = true ∧
    (let v := run (.vcheck (sl 8 0 0 0 0 false false 0 false 0 0xC0)) (xs (tc))
     memNat (getCore v 0).spm 0x700 8 = 0x10060100100600 ∧ (me v).sys.hstg = 0x2000000200700) := by decide +kernel

/-- R227: the accepted staged entries are hit. -/
theorem test_check_apply :
    let s := xs { t2 with sys := { t2.sys with hstg := 0x2000000200700 } } |> fun s => modCore s 0 fun k => { k with spm := words [(0x700, 0x40060100100600)] }
    let u := run (.vspchk (sl 8 0 28 28 0 false false 0 false 0 0x83)) s
    memNat (getCore u 0).spm 0x600 2 = 0x20 ∧ (me u).sys.hstg = 0x200700 := by decide +kernel

/-- A task with tile z0. -/
def tz : Task := { t2 with x := { t2.x with z := [List.replicate 4096 7] } }

theorem test_tiles :
    let s : State := { ls tz with cur := { slotB := true } }
    let z (i : Instr) (k : Nat) : List W32 := ((nth (me (landed (run i s))).x.z 0 []).drop k).take 2
    z (.mclr (sl 0 0 0 0 0 false false 0 false 0 0)) 0 = [0, 0] ∧ z (.vwracc (sl 0 28 0 0 0 false false 0 false 0 8)) 1023 = [7, 0] ∧
    v8 (.vrdacc (sl 8 0 0 0 0 false false 0 false 0 0x18)) 2 s = [7, 7] ∧ v8 (.vrdaccPeek (sl 8 0 0 0 0 false false 0 false 0 0x20)) 2 s = [7, 7] := by
  decide +kernel

theorem test_matrix_configuration :
    ((xOf' (run (.msetf 2 0x7C2) xb)).cfg |>.take 3) = [0, 0, 0x7C2] ∧
    nth (xOf' (run (.msetf 0x14 0xFFFF) xb)).cfg 3 0 = 0xFFFF000 ∧
    ((xOf' (run (.mldc (sl 0 0 0 0 0 false false 0 false 0 8)) xb)).cfg.take 2) = [0x0000000200000001, 0x0000000400000003] := by decide +kernel

/-- The matrix command: A in v0 as f16, B from the start of the weight buffer, one row, one column, one K-block (Table 10.1). -/
def mconf : List W64 := [1, 0x842, 0, 0x1000] ++ List.replicate 12 0

/-- The state before MGO. -/
def xm : State := modX xb fun x => { x with cfg := mconf }

theorem test_mgo :
    let u := run (.mgo (sl 0 0 0 0 0 false false 0 false 0 0)) xm
    ((getCore u 0).qm.q.map fun m => (m.idx, m.words, m.vregs.length)) = [(0, mconf, 1)] ∧
    v8 (.mqry (sl 8 0 0 0 0 false false 0 false 0 0)) 4 u = [1, 1, 0xFFFFFFFF, 1] ∧
    (ctl (run (.vrdacc (sl 8 0 0 0 0 false false 0 false 0 0)) u) .x).hold = some (.tile, 0) := by decide +kernel

/-- R196, R245, R257: XTK, and a taken branch. -/
theorem test_x_control :
    (readV (landed (run (.xtk (sl 8 0 0 0 0 false false 0 false 0 3)) xb)) 8).2.take 2 = [255, 255] ∧
    (ctl (run (.xbt (sl 4 0 0 0 0 false false 0 false 0 5)) xb) .x).delay.map (·.tgt) = some 80 ∧
    (ctl (run (.xloop (sl 1 0 0 3 0 false false 0 false 0 2)) xb) .x).loops = [⟨1, 16, 32⟩] ∧
    (ctl (run (.xend (sl 0 0 0 0 0 false false 0 false 0 0)) xb) .x).st = .ending := by decide +kernel

/-! ## Witnesses: X -/

theorem witness_LoopsStart_illegal :
    let u := run (.sloop nt 1 1 4) ls
    let v := run (.xloop (sl 1 0 0 3 0 false false 0 false 0 2)) lb
    let w : State := xb
    let x : Slot := sl 0 2 0 0 0 false false 0 false 0 0x2002
    (fitS u (.sloop nt 1 1 1) = true ∧ ready .s nt u = true ∧ ∃ l ∈ (ctl u .s).loops, l.n = 1) ∧
    (fitS u (.sloop nt 2 1 9) = true ∧ (∀ l ∈ (ctl u .s).loops, l.n ≠ 2) ∧ ∃ l ∈ (ctl u .s).loops, l.last < (ctl u .s).pc + 4 * 9) ∧
    (fitX v (.xloop (sl 1 0 0 3 0 false false 0 false 0 1)) = true ∧ (ctl v .x).delay = none ∧ ∃ l ∈ (ctl v .x).loops, l.n = 1) ∧
    (fitX v (.xloop (sl 2 0 0 3 0 false false 0 false 0 9)) = true ∧ (∀ l ∈ (ctl v .x).loops, l.n ≠ 2) ∧
      ∃ l ∈ (ctl v .x).loops, l.last < (ctl v .x).pc + 16 * 9) ∧
    (fitX w (.xloop x) = true ∧ (ctl w .x).delay = none ∧ Rule.loopFits (ctl w .x) 0 32 ∧ x.imm.getLsbD 13 = true ∧
      unsettled (xOf' w) (.v 2) = false ∧ (nth (xOf' w).v 2 []).length = 1024) ∧
    (let s : State := { modX (run (.vmul (sl 2 3 3 0 0 false false 0 false 13 0)) xs) (fun x => { x with count := x.count + 1 }) with cur := { slotB := true } }
     fitX s (.xloop x) = true ∧ (ctl s .x).delay = none ∧ Rule.loopFits (ctl s .x) 0 32 ∧ unsettled (xOf' s) (.v 2) = true) := by
  unfold Rule.loopFits; decide +kernel

theorem witness_LanewiseOfX :
    ([.vadd (to8 0 1 0 0 0), .vsub (to8 2 29 0 13 0x1FFF), .vmul (to8 16 16 0 0 0x2000), .vfma (to8 0 1 28 0 0), .vfms (to8 0 1 0 0 0),
      .vmin (to8 0 1 0 0 0), .vmax (to8 0 1 0 13 0), .vabs (to8 2 0 0 13 0), .vneg (to8 0 0 0 0 0), .vclamp (to8 0 28 1 0 0), .vand (to8 2 3 0 0 0),
      .vor (to8 2 3 0 0 0), .vxor (to8 2 3 0 0 0), .vshl (to8 2 29 0 0 0x1F), .vshr (to8 2 3 0 0 0), .vsra (to8 2 3 0 0 0), .vmov (sl 24 16 0 0 7 false false 0 false 0 0),
      .vcvt (to8 0 0 0 13 0), .vflip (to8 0 0 0 2 0), .vunflip (to8 0 0 0 1 0), .vexp2 (to8 0 0 0 0 0), .vlog2 (to8 0 0 0 0 0), .vrcp (to8 0 0 0 0 0),
      .vrsq (to8 0 0 0 0 0), .vsqrt (to8 0 0 0 0 0), .vtanh (to8 0 0 0 0 0), .vsig (sl 15 15 0 0 0 true true 4 true 0 0)] : List Instr).all
      (fun i => (Rule.laneRule i).isSome && fitX seg i && fitX { seg with cur := { slotB := true } } i) = true := by decide +kernel

theorem witness_MovesOfX :
    ([.vsel (to8 0 1 0 0 0), .vldi (to8 0 3 0 13 0x1FFF), .vcmp (to7 0 1 0 11)] : List Instr).all (fitX xs) = true ∧
    ([.vrotr (to8 0 0 0 0 63), .vrotc (to8 0 0 0 0 15), .vbcr (to8 0 0 0 0 63), .vbcc (to8 0 0 0 0 15), .vxpq (to8 0 0 0 0 0)] : List Instr).all
      (fun i => (Rule.moveRule i).isSome && fitX xs i) = true ∧
    ([.vredr (to8 16 0 0 0 8), .vredc (to8 2 0 0 13 4), .vscnr (to8 16 0 0 0 0x18), .vscnc (to8 0 0 0 0 2)] : List Instr).all
      (fun i => (Rule.lineRule i).isSome && fitX seg i) = true := by decide +kernel

theorem witness_MovesOfX_predicates :
    ([.pand (to7 1 2 0 0), .por (to7 0 7 0 0), .pxor (to7 1 1 0 0), .pnot (to7 0 0 0 0)] : List Instr).all
      (fun i => (Rule.predRule i).isSome && fitX xs i) = true ∧
    ([.pset (to7 16 0 0 2), .pset (to7 0 0 0 0x1003), .pcnt (sl 8 3 0 0 7 false false 0 false 0 1), .pcnt (sl 8 3 0 0 7 false false 0 false 0 0),
      .voteAny (sl 3 1 0 0 3 false false 0 false 0 0), .voteAll (sl 0 0 0 0 0 false false 0 false 0 0)] : List Instr).all (fitX seg) = true ∧
    (readP xs 3).2.length = 1024 ∧ (readP xs 0).2.length = 1024 := by decide +kernel

theorem witness_ListsOfX :
    ([.vcompr (sl 8 2 3 0 1 false false 0 false 0 0), .vexpnd (sl 8 2 3 0 1 false false 0 false 0 0), .vhist (sl 8 3 28 2 3 false false 0 false 0 7),
      .vtopk (sl 8 6 7 5 3 false false 0 false 0 0x40F), .vnrm (sl 8 0 28 0 3 false false 0 false 0 1), .vrng (sl 8 28 0 0 0 false false 0 false 13 0),
      .vsample (sl 8 5 29 28 0 false false 0 false 0 0x7F0)] : List Instr).all (fitX xs) = true ∧
    (let r := (readIn xs (sl 8 2 3 0 1 false false 0 false 0 0) 0).2
     r.a.lanes.length = 1024 ∧ r.b.lanes.length = 1024 ∧ r.act.length = 1024) := by decide +kernel

theorem witness_ChecksOfX :
    let i (im : Nat) : Slot := sl 8 0 0 0 0 false false 0 false 0 im
    let s := xs (tc { chk0 with limit := 1 })
    let a := (source s (i 0x40) 0 0)
    (fitX s (.vcheck (i 0x1F)) = true ∧ s.cur.slotB = false ∧ (me s).chk.valid = true ∧ okIs (checkStaging s) () = true ∧
      heatError a.1 (me s).chk (checkedLanes (me s).chk true a.2.lanes) = none ∧
      ((checkedLanes (me s).chk true a.2.lanes).filter fun e => e.2.2.2.2 && e.2.2.1).length = 1) ∧
    (let z := tc { chk0 with limit := 0 }
     fitX (xs z) (.vcheck (i 7)) = true ∧ z.chk.vfy = false ∧ z.chk.mldis = false ∧ z.chk.limit ≠ 0xFFFF) ∧
    (fitX xs (.vspchk (i 0x40)) = true ∧ fitX s (.vspchk (i 0x81)) = true ∧ okIs (stagedHits (writeAll xs (i 0) 24 []) 1) [] = true) := by decide +kernel

theorem witness_TilesOfX :
    let s : State := { ls tz with cur := { slotB := true } }
    (fitX s (.vrdacc (sl 8 0 0 0 0 false false 0 false 0 0x1F)) = true ∧ onTile s 7 = []) ∧
    (fitX (run (.mgo (sl 0 0 0 0 0 false false 0 false 0 0)) xm) (.vrdacc (sl 8 0 0 0 0 false false 0 false 0 0)) = true ∧
      (onTile (run (.mgo (sl 0 0 0 0 0 false false 0 false 0 0)) xm) 0).length = 1) ∧
    ([.vrdaccPeek (sl 8 0 0 0 0 false false 0 false 0 0x1E0), .vwracc (sl 0 28 0 0 0 false false 0 false 0 0x1F), .mclr (sl 0 0 0 0 0 false false 0 false 0 7),
      .mldc (sl 0 0 0 0 0 false false 0 false 0 8), .msetf 15 0xFFFFFFFFFFFFFFFF, .msetf 0x15 0x7FF, .mqry (sl 8 0 0 0 1 false false 0 false 0 0)] : List Instr).all (fitX s) = true ∧
    8 * 128 + 128 ≤ spmUsable (me s) ∧ readError s (.spm 0 0 1024) 128 = none := by decide +kernel

theorem witness_CommandsArePushed_mgo :
    let words := (xOf' xm).cfg.set 0 (BitVec.ofNat 64 (withSig (((thisXWord xm).map fun w => w.tok.sig).getD 0) (nth (xOf' xm).cfg 0 0).toNat))
    fitX xm (.mgo (sl 0 0 0 0 0 false false 0 false 0 0)) = true ∧ words = mconf ∧ okAnd (inSlotB (checkMatrix xm 0 0 words)) (fun _ => true) = true ∧
    queueRoom xm 0 .matrix = true ∧ okIs (sramReady xm ((aRegs (mcmdOf words)).map .v)) () = true := by decide +kernel

theorem witness_OperandsAndResultsOfX :
    unsettled (xOf' xs) (.v 15) = false ∧ ((nth (me seg).ins 0 {}).blocks = ((nth (me seg).ins 0 {}).blocks.head?.toList ++ [])) ∧
    (nth (me seg).ins 0 {}).blocks.length = 1 ∧ (to8 16 0 0 0 0x2000).imm.getLsbD 13 = true ∧ (xOf' xs).ops = [] ∧
    (nth (xOf' xs).v 7 (List.replicate 1024 0)).length = 1024 ∧ (nth (xOf' xs).p 7 []).length = 1024 ∧ (24 : BitVec 5).toNat = 24 := by decide +kernel

theorem witness_FrameOfX :
    (xParts (.vadd (to8 0 1 0 0 0))).isSome = true ∧ isNext (exec (.vadd (to8 0 1 0 0 0)) xs) = true ∧
    (xParts (.mclr (to8 0 0 0 0 0))).isSome = true ∧ isNext (exec .nop xs) = true ∧ isNext (exec (.msetf 0 1) xb) = true ∧
    isNext (exec (.mgo (sl 0 0 0 0 0 false false 0 false 0 0)) xm) = true ∧
    isNext (exec (.vcheck (sl 8 1 0 0 0 false false 0 false 0 0)) xs) = true ∧
    isNext (exec (.vspchk (sl 8 0 1 3 0 false false 0 false 0 0x84)) xs) = true := by decide +kernel

/-! ## Events: tasks and scheduling -/

/-- That world with a core. -/
def w0 (k : Core := { dq := [queuedTask] }) : State := { bootst := 1, cycle := 100, time := 5000, mem := world, ttbase := 0x4000, cores := [(0, k)] }

/-- A state in which the effective values of the root region are computed (R297). -/
def known (s : State) : State := setEff s 0x1000 ((regionEff s 0x1000).getD {})

/-- R43, R303: the head is dispatched with its code and its registers at reset, and starts. -/
theorem test_dispatch_and_start :
    let u := run (.taskDispatch 0) w0
    resident u 0 0 = true ∧ (getTask u 0 0).started = false ∧ (getTask u 0 0).tag = 9 ∧ (getTask u 0 0).code.c = [0, 0x50, 0, 0x90] ∧
    (getCore u 0).dq = [] ∧ (getTask (run (.taskStart 0 0) u) 0 0).started = true ∧ (getTask u 0 0).x.v.length = 2 ∧
    (getCore (run (.taskDispatch 0) (w0 { dq := [{ queuedTask with lrec := record.set 7 7, held := true }] })) 0).dq.length = 1 := by decide +kernel

/-- R44, R291, R300: the last end instruction retires the task; a faulted one is logged as dropped and leaves. -/
theorem test_retirements :
    let e : Task := { te with c := { te.c with ctl := { st := .ending, owes := some 4 } } }
    resident (run (.streamEndRetire 0 0 .c) (st e)) 0 0 = false ∧
    (nth (getTask (run (.streamEndRetire 0 0 .c) (st { e with sc := {} })) 0 0).tpush 4 0 = 1) ∧
    (let f := { w0 { slots := [(1, { te with faulted := true, stopped := true, record := [1] })] } with cur := {} }
     resident (run (.faultedRetirement 0 1) f) 0 1 = false ∧ memNat (run (.faultedRetirement 0 1) f).mem (0x1000 + 152) 4 = 1) := by decide +kernel

/-- R298, R299: charges reach the region's counts; a task of a region past its budget takes cause 0x0E. -/
theorem test_budgets :
    let u := run (.budgetFlush 0) (known (w0 { charges := [(0x1000, (3, 2))] }))
    memNat u.mem 0x1080 8 = 3 ∧ memNat u.mem 0x1088 8 = 2 ∧ (getCore u 0).charges = [] ∧
    (let b := known { w0 { slots := [(0, t0)] } with mem := words [(0x1008, 0x180), (0x1010, 5), (0x1080, 5)] }
     ((getTask (run (.budgetOverrun 0 0) b) 0 0).faults.map fun f => (f.cause, f.detail, f.seq)) = [(0x0E, 1, 6)]) := by decide +kernel

/-- R304: the flip changes the planes once every live task is at a drain point. -/
theorem test_plane_flip :
    let d : Task := { te with drainPt := some 50, c := { te.c with ctl := { st := .busy .kept 0 } } }
    let s := w0 { slots := [(0, d)], shadow := some { victims := [], staged := [], token := true, only := true } }
    let u := run (.planeFlip 0) s
    (getCore u 0).plane = 1 ∧ (getCore u 0).shadow = none ∧ (getTask u 0 0).drainPt = none ∧
    (getCore (run (.planeFlip 0) (w0 { slots := [(0, te)], shadow := some { victims := [], staged := [], token := true, only := true } })) 0).plane = 0 := by
  decide +kernel

/-- R315: an entry of the host launch queue at 0x9000. -/
def hostQueue : State :=
  { w0 {} with lqbase := 0x9000, mem := world ++ words ([(0x9000, 0x0040_0000_0008), (0x9008, 1)] ++ record.zipIdx.map fun e => (0x9080 + 8 * e.2, e.1.toNat)) }

theorem test_host_launch :
    let u := run .hostLaunchEntry hostQueue
    ((getCore u 0).dq.map (·.tag)) = [9] ∧ memNat u.mem 0x9040 8 = 1 ∧ run .hostLaunchEntry u = u := by decide +kernel

/-- A tender of class 5 in flight from the task, its C stream waiting. -/
def tend (b : List Bid := []) (closed : Bool := false) (cores : List Nat := [0, 17]) : Task :=
  { t0 with c := { t0.c with ctl := { st := .busy .tender 0 } }
            tender := some { lrec := record, tt := queuedTask.tt, rcb := 0x1000, cls := 5, key := 3, must := false, start := 90, win := 48, rd := 3, cores := cores, bids := b, closed := closed } }

/-- The world with that task and a core 17 that has a formula of class 5: 100 and one for each task in its queue. -/
def wt (t : Task := tend) : State := { w0 { slots := [(0, t)], forms := [(5, [7, 0])] } with
  cores := [(0, { slots := [(0, t)], forms := [(5, [7, 0])] }), (17, { forms := [(5, [0x1_0000_0000_0064, 0])], dq := [queuedTask] })] }

/-- R311 to R313: bids, their order, the award, no bid, a withdrawal. -/
theorem test_tender_events :
    ((getTask (run (.tenderBid 0 0 17) wt) 0 0).tender.map fun x => (x.cores, x.bids, x.kept)) = some ([0], [⟨17, 102, 2⟩], 1) ∧
    (let c : State := { wt (tend [⟨17, 5, 2⟩, ⟨0, 5, 0⟩, ⟨16, 3, 1⟩]) with cycle := 139 }
     ((getTask (run (.tenderWindowClose 0 0) c) 0 0).tender.map fun x => (x.closed, x.bids.map (·.core))) = some (true, [16, 0, 17])) ∧
    (let u := run (.tenderOffer 0 0) (wt (tend [⟨17, 5, 2⟩] true []))
     (getTask u 0 0).tender = none ∧ nth (getTask u 0 0).c.r 3 0 = 0x111 ∧ (getCore u 17).dq.length = 2 ∧ (getTask u 0 0).c.ctl.st = .run) ∧
    nth (getTask (run (.tenderOffer 0 0) (wt (tend [] true []))) 0 0).c.r 3 99 = 0 ∧
    (getTask (run (.tenderOffer 0 0) (wt (tend [] true []))) 0 0).sys.tstat = 0x20000000000 ∧
    (let n : State := { st { t0 with uid := 7 } with notices := [⟨0, 7, false, 9, 17⟩] }
     (getTask (run (.withdrawalNotice 0) n) 0 0).sys.tstat = 0x11100000009 ∧ (run (.withdrawalNotice 0) n).notices = []) := by decide +kernel

/-- R316: an event on the temperature of core 0 with THR 40 and HYST 4 launches the record at 0x9080, and re-arms below 36. -/
theorem test_counter_event :
    let s (t : Nat) : State := { hostQueue with cores := [(0, { temps := [t, 0, 0] })], events := [(0, { erec := 0x9080, ctl := 0x0004_0000_0028_0002 })] }
    let u := run (.counterEvent 0) (s 40)
    (getCore u 0).dq.length = 1 ∧ (tabGet {} u.events 0).armed = false ∧ (getCore (run (.counterEvent 0) (s 39)) 0).dq.length = 0 ∧
    (let v : State := { u with cores := [(0, { temps := [36, 0, 0] })] }
     (tabGet {} (run (.counterEvent 0) v).events 0).armed = false) ∧
    (let v : State := { u with cores := [(0, { temps := [35, 0, 0] })] }
     (tabGet {} (run (.counterEvent 0) v).events 0).armed = true) := by decide +kernel

/-! ## Events: the handler context -/

/-- R281, R282, R327: a refill event, a walk, and a notification. -/
theorem test_handler_events :
    let m : Miss := { q := 0, va := 0x1_0020_0008, acc := 1, cycle := 90 }
    let t : Task := { t0 with miss := [m], eff := { troot := 0x200000 } }
    let u := run (.refillEvent 0 0) (st t)
    (getCore u 0).h.serving = some (0, 1) ∧ (getCore u 0).h.tmiss = 0x1000100200000 ∧ (getCore u 0).h.ctx.ctl.pc = 96 ∧
    (getTask u 0 0).miss = [{ m with served := true }] ∧
    (let w := run (.tableWalk 0 0 .c) { st { t with tt := { t.tt with refill := none } } with mem := world }
     (getTask w 0 0).miss = [] ∧ ((getCore w 0).tcache.map fun e => (e.vpn, e.e)) = [(2048, 0xF000000000000000)]) ∧
    (getTask (run (.tableWalk 0 0 .c) (st { t with tt := { t.tt with refill := none } })) 0 0).miss = [{ m with noMap := true }] ∧
    (let n := run (.notification 0 0) (st t0 { h := { waiting := [⟨0, 2, 90⟩] } })
     (getCore n 0).h.serving = some (0, 2) ∧ (getCore n 0).h.ctx.ctl.pc = 80 ∧ (getCore n 0).h.waiting = []) := by decide +kernel

/-- R271, R284, Table 16.6: delivery of a fault, a token wait of 0x400 cycles, and a command that WAITM kept waiting. -/
theorem test_delivery_and_timeouts :
    (let u := run (.trapDelivery 0 0) (st { t0 with faults := [{ cause := 7, detail := 0x41, seq := 0, cycle := 99 }] })
     (getCore u 0).h.serving = some (0, 0) ∧ (getCore u 0).h.ctx.ctl.pc = 64 ∧ (getTask u 0 0).stopped = true ∧ nth (getCore u 0).h.trec 7 0 = 0x41) ∧
    (let w (h : Nat) : State := st { t0 with sys := { t0.sys with holdto := 0x3FF }, c := { t0.c with ctl := { hold := some (.token, 6), held := h } } }
     fault (run (.holdTimeout 0 0 .c) (w 0x400)) = some (0x0C, 0x40000000060) ∧ fault (run (.holdTimeout 0 0 .c) (w 0x3FF)) = none) ∧
    (let m : Cmd := { slot := 0, tag := 7, idx := 3, from_ := (0, 0, 1), words := [0x1010], flm := 0, gap := 0 }
     let s : State := { st t0 { qc := { deq := some m, waitAt := 50 } } with cycle := 50 + 0x100000 }
     let u := run (.engineWaitmTimeout 0 .copy) s
     fault u = some (0x0C, 0x10000000000007) ∧ (getCore u 0).qc.deq = none) := by decide +kernel

theorem test_handler_writes :
    let s := hs { t0 with eff := { tctl := true } } { tmiss := 0x100000000, trsel := 3 }
    ((getCore (run (.tfillWrite 0 0xF000000000000000) s) 0).tcache.map (·.vpn)) = [2048] ∧ nth (getTask (run (.trvalWrite 0 9) s) 0 0).c.r 3 0 = 9 ∧
    (getTask (run (.prviolWrite 0 0 0x1234500000009) s) 0 0).sys.prviol = 0xFFFF00000009 ∧
    (getCore (run (.tinvWrite 0 0x100000003) { s with cores := [(0, { myCore s with tcache := [{ id := 0, rcb := 0x1000, vpn := 2048, e := 0xF000000000000000 }] })] }) 0).tcache.all (!·.valid) = true := by
  decide +kernel

/-! ## Events: engines -/

/-- The state of the L tests with a second record at 0x4C0 of elements at 0x480, named by j12. -/
def le2 : State :=
  let s := ls { t2 with j := t2.j.set 12 0x4C0 }
  modCore s 0 fun k => { k with spm := k.spm ++ words [(0x4C0, 0x480), (0x4C8, 0x4D), (0x4D0, 0x10000400004), (0x4D8, 0x100001), (0x4E0, 4), (0x4F0, 0x1001001002004)] }

/-- A pushed command dequeued, run, and retired. -/
def dq (q : Queue) (i : Instr) (s : State) : State := run i (run (.commandDequeue 0 q) s)

/-- R40, R135: a copy of four elements by two, its token. -/
theorem test_copy :
    let u := run (.copyCommand 0) (dq .copy (.copyCommand 0) (run (.copy ⟨0, 20⟩ 5 0 4 12 true false) le2))
    let v := run (.commandRetire 0 .copy 0) u
    memNat (getCore u 0).spm 0x480 16 = 0x00000004000000030000000200000001 ∧ (getCore u 0).qc.deq = none ∧ (getCore u 0).qc.running.length = 1 ∧
    (getCore v 0).qc.running = [] ∧ nth (me v).tpush 4 0 = 1 := by decide +kernel

/-- R91, R96, R101, R113: an image of two rows, of the one row of a list, a prefetch, and the darn pass of the check context's misses. -/
theorem test_weight_commands :
    let w (q : Queue) (op : Instr) (i : Instr) (s : State := ls) : Core := getCore (dq q op (run i s)) 0
    let t := w .weight (.weightTile 0) (.wtile nt 5 5 0 0 1 0)
    memNat t.wb0 64 8 = 0x0000000200000001 ∧ memNat t.wb0 2 2 = 2 ∧ memNat t.wb0 0 2 = 2 ∧ t.wb1 = [] ∧
    memNat (w .weight (.weightGather 0) (.wgath nt 5 0 5 6 0 0 false 0 0)).wb1 64 8 = 0x0000000200000001 ∧
    (w .weight (.prefetch 0) (.pfch nt 5 5 6)).qw.running.length = 1 ∧
    memNat (w .weight (.darnGather 0) (.darn nt 5 0 5 false 0 0 false 0 0) (ls { t2 with chk := { valid := true, mlist := 0x200 } })).wb0 2 2 = 1 := by decide +kernel

/-- R62, R186, R200, R321: a matrix command on two products, its engine's request and grant, its retirement. -/
theorem test_matrix_command :
    let s := modCore { xm with cores := [(0, { myCore xm with slots := [(0, { me xm with x := { (me xm).x with z := [List.replicate 4096 7] } })] })] } 0 fun k => { k with wb0 := words [(0, 0x2000010002), (8, 0x400001001), (64, 0x40003C00)] }
    let u := dq .matrix (.matrixCommand 0) (run (.mgo (sl 0 0 0 0 0 false false 0 false 0 0)) s)
    let g := run (.startGrant 0) { u with cycle := 104 }
    (nth (me u).x.z 0 []).take 2 = [0x40A00000, 7] ∧ (getCore u 0).e0 = .request 100 ∧ (getCore g 0).e0 = .up 104 0 ∧ (tabGet {} g.cols 0).noGrant = 108 ∧
    (let r := modCore { u with cycle := 150 } 0 fun k => { k with qm := { k.qm with running := k.qm.running.map fun r => { r with last := some 110 } } }
     let v := run (.commandRetire 0 .matrix 0) r
     (getCore v 0).qm.running = [] ∧ ((me v).lastIdx, (me v).lastEng) = (0, 0)) ∧
    (getCore (run (.commandRetire 0 .matrix 0) u) 0).qm.running.length = 1 := by decide +kernel

/-- R322: filler after nine cycles, idle after thirty-seven. -/
theorem test_filler :
    let s (c : Nat) (e : EngSt) : State := { st t0 { e0 := e } with cycle := c }
    (getCore (run (.warmWindowExpiry 0 0) (s 109 (.warm 100))) 0).e0 = .filler 100 ∧ (getCore (run (.warmWindowExpiry 0 0) (s 108 (.warm 100))) 0).e0 = .warm 100 ∧
    (getCore (run (.fillerEnd 0 0) (s 137 (.filler 100))) 0).e0 = .idle ∧ (getCore (run (.fillerEnd 0 0) (s 136 (.filler 100))) 0).e0 = .filler 100 := by decide +kernel

/-! ## Events: streams, X, locks, requests of other cores -/

theorem test_stream_events :
    let u := run (.inStreamRun 0 0 7) (run (.istart nt 15 7) (run (.bindi nt 4 0 7 false true) ls))
    let v := run (.inStreamBlock 0 0 7) u
    ((inStream v 0 0 7).blocks.map fun b => (b.lanes.take 5, b.valid.take 5)) = [([1, 2, 3, 4, 0], [true, true, true, true, false])] ∧ (inStream v 0 0 7).runs = [] ∧
    (let d := run (.bindo nt 2 2) ls
     let d := modMe d fun t => { t with outs := t.outs.map fun o => { o with blocks := if o.bind.isSome then [{ block 9 with valid := [true, true, true, true] }] else [] } }
     let e := run (.drainBlock 0 0) (run (.drain nt 2 1) d)
     memNat (getCore e 0).spm 0x400 16 = 0x00000009000000090000000900000009 ∧ (me e).drain = none ∧ (nth (me e).outs 2 {}).blocks = []) := by decide +kernel

theorem test_x_events :
    let u := modX (run (.vmov (to8 2 0 0 0 0)) xs) fun x => { x with count := x.count + 1 }
    (nth (me (run (.xOperationLand 0 0 0) (modX u fun x => { x with v := x.v ++ [vl []] }))).x.v 8 []).take 2 = [5, 0xFFFFFFFB] ∧
    (let v := run (.xSignalPush 0 0) (modX ls fun x => { x with sigs := [4, 5] })
     nth (me v).tpush 4 0 = 1 ∧ (me v).x.sigs = [5]) := by decide +kernel

/-- R138, R146, R256, R309: what another core's task sent arrives. -/
theorem test_arrivals :
    let s : State := { peers with cores := [(0, { k0 with slots := [(0, t0)] }), (5, { spm := spm1, slots := [(2, t0)] })] }
    (let u := run (.remoteTokenArrival 0) (run (.tksigRemote 1 4) s)
     nth (getTask u 5 2).tpush 4 0 = 1 ∧ u.remote = [] ∧ (ctl u .c).st = .run) ∧
    (let u := run (.remoteAccess 0) { s with remote := [.access 0 0 false 5 2 0x400 { op := .load false, d := 3, size := 4, addr := 0x10500400, val := 0 }] }
     reg u 3 = 1 ∧ u.remote = []) ∧
    (let w : LockWait := { bank := 1, line := 0, core := 0, slot := 0, handler := false, tslot := 0, off := 64, acc := { op := .llk, d := 3, size := 8, addr := 64, val := 0 }, since := 9 }
     let u := run (.lockGrant 0 1 0) (st t0 { waits := [w] })
     (getCore u 0).waits = [] ∧ (getCore u 0).locks = [⟨1, 0, 0, 0, false⟩] ∧ (ctx u).lock = some ⟨0, 1, 0⟩) ∧
    (let c : List W64 := [0x10, 0, 0, 0, 0, 0, 0x100 * 2 ^ 32, 0x4C0, 0, 0, 0, 0, 0, 0, 0, 0]
     let u := run (.remqArrival 0) { s with remote := [.cmd 0 0 5 2 .copy 3 64 c] }
     u.remote = [] ∧ ((getCore u 5).qc.q.length = 1 ∨ fault u ≠ none)) := by decide +kernel

/-! ## Events: stack memory, power, links, host, security -/

/-- The task with row 0 of bank 0 held. -/
def heldState : State := run (.lnpeg nt 3 11 0) ls

/-- R75, R81, R82: a refresh suspends, a reopening holds again or loses. -/
theorem test_refresh_and_reopen :
    let u := run (.refresh 0) heldState
    (me u).pegs.map (·.st) = [.suspended] ∧ (getBank u 0).busy = true ∧ (me (run (.lineReopen 0 []) u)).pegs.map (·.st) = [.held] ∧
    ((me (run (.lineReopen 0 [(0, 3)]) u)).pegs.map (·.st) = [.lost] ∧ (run (.lineReopen 0 [(0, 3)]) u).poison.length = 1) ∧
    (let a := run (.rowHammerAlert 0) (modBank heldState 0 fun b => { b with alerts := [5], acts := [(5, 0x1000)] })
     (getBank a 0).alerts = [] ∧ tabGet 9 (getBank a 0).acts 5 = 9 ∧ (me a).pegs.map (·.st) = [.suspended]) := by decide +kernel

/-- R69 to R71: a flip exchanges two regions, an epoch's end clears the counts. -/
theorem test_swap_and_epoch :
    let u := run .swapFlip { ls with swap := some { a := 3, b := 9 } }
    (machineRegion u 3, machineRegion u 9, u.swaps) = (9, 3, 1) ∧
    (let e := run .epochEnd { ls with time := 2000000, traffic := [(0, 5), (1, 5)] }
     e.traffic = [] ∧ e.epochAt = 2000000 ∧ e.epochLen = 2000 ∧ e.swap = none) ∧
    (run .epochEnd { ls with time := 1999999, traffic := [(0, 5)] }).traffic = [(0, 5)] := by decide +kernel

/-- R83 to R86, R345. -/
theorem test_scrub_and_faults :
    let f : ScrubFind := { corrected := [7, 7, 9], bad := [2] }
    let u := run (.patrolScrub 0 6 f) ls
    (rowErr u 0 6).n = 3 ∧ (rowErr u 0 6).bits = [7, 9] ∧ (rowErr u 0 6).hot = some 0 ∧ u.poison = [unmapAddress ls 0 6 2 / 64] ∧
    score (rowErr u 0 6) = 28 ∧ (let r := run (.rowRetirement 0 6) (run (.hotListScrub 0 6 { corrected := [7], bad := [] }) u)
     (getBank r 0).moved = [6] ∧ (getBank r 0).spares = 1) ∧ (getBank (run (.rowRetirement 0 6) u) 0).moved = [] ∧
    (let l := run (.lastingFault (.mismatch 5 1)) { ls with errCnt := [(.mismatch 5 1, 2)] }
     tabGet 7 l.units 5 = 3 ∧ l.ist = 4 ∧ l.lastingNv = [.mismatch 5 1] ∧ (run .errorWindowEnd { l with time := 24 * 3600 * 10 ^ 9 }).lasting = []) := by decide +kernel

/-- R317, R318, R325: the freeze, the voltage step, the throttle level with its hysteresis. -/
theorem test_power :
    let u := run (.timingReplay 33) ls
    (getCore u 33).freeze = 3 ∧ (tabGet {} u.cols (columnOf 33)).rplcnt = 1 ∧
    (let w (n v : Nat) : Nat := (tabGet {} (run (.replayWindowEnd 0) { ls with cycle := 2 ^ 24, cols := [(0, { window := n, vcur := v })] }).cols 0).vcur
     (w 513 0x30, w 512 0x30, w 128 0x30, w 127 0x30, w 0 0x28, w 513 0x46) = (0x31, 0x30, 0x30, 0x2F, 0x28, 0x46)) ∧
    (let l (k t : Nat) : Nat := (tabGet {} (run (.tempSample 0 t 0 0) { ls with cols := [(0, { level := k })] }).cols 0).level
     (l 0 359, l 0 360, l 0 380, l 1 344, l 1 343, l 2 364, l 2 363) = (0, 1, 2, 1, 0, 2, 1)) := by decide +kernel

/-- Table 11.3: bytes on the link for a block of 256 bytes by its non-zero bytes; a block of one non-zero byte restored. -/
theorem test_compression :
    ([0, 40, 223, 224, 256].map fun z => let b := compressBlock (List.replicate z 7 ++ List.replicate (256 - z) 0); (b.sent.length, b.raw)) =
      [(32, false), (72, false), (255, false), (256, true), (256, true)] ∧
    compressPayload (List.replicate 11 0 ++ [5]) = [{ raw := false, len := 12, sent := [0, 8, 5] }] ∧
    expandPayload [{ raw := false, len := 12, sent := [0, 8, 5] }] = List.replicate 11 0 ++ [5] := by decide +kernel

/-- R219, R336: a write flit in order, one that fails, a retraining that fails, a route that waits. -/
theorem test_links :
    let u := run (.flitReceive 2 0 true (.write 0x100 [{ raw := true, len := 2, sent := [1, 2] }])) ls
    memNat u.mem 0x100 2 = 0x201 ∧ (tabGet {} u.links 2).rx = 1 ∧ run (.flitReceive 2 1 true (.write 0x100 [{ raw := true, len := 2, sent := [1, 2] }])) ls = ls ∧
    (tabGet {} (run (.flitReceive 2 0 false (.ack 0)) ls).links 2).fails = 1 ∧
    (let p := run (.portRetrain 2 false) { ls with links := [(2, { retrain := true, fails := 17 })] }
     p.ports = 0xFFFB ∧ (tabGet {} p.links 2).retrain = false) ∧
    (let r : State := { ls with routes := [(5, 0x82)], links := [(2, { unacked := [{ seq := 1, m := 5, body := .ack 0 }] })] }
     let v := run (.routeEntryWrite .host 5 0x83) r
     tabGet 0 v.routes 5 = 0x82 ∧ tabGet 0 (run (.routeChangeEffect 5) v).routes 5 = 0x82 ∧
       tabGet 0 (run (.routeChangeEffect 5) { v with links := [] }).routes 5 = 0x83) := by decide +kernel

/-- R332 to R334, R339. -/
theorem test_host_accesses :
    (run (.hostBar2Read 0x41 2) (run (.hostBar2Write 0x40 [1, 2, 3]) ls)).out = [.completion 0x41 [2, 3] false] ∧
    (run (.hostBar2Read 0x40 1) { ls with bootst := 2 }).out = [.abort] ∧
    (run (.controlSpaceWrite .host 0x10000 0x5FFF) ls).ttbase = 0x5000 ∧ (run (.controlSpaceWrite .sideBand 0x10000 0x5FFF) ls).ttbase = 0 ∧
    (run (.controlSpaceWrite .host 0x10000 0x5FFF) { ls with hlock := 1 }).ttbase = 0 ∧ (run (.tadjWrite .host 0xFFFFFFFF) { ls with tadj := 1 }).tadj = 0xFFFFFFFF ∧
    (run (.domidWrite .host 5) ls).domid = 0 ∧ (run (.domidWrite .host 5) (w0 {})).domid = 5 ∧
    tabGet 7 (run (.unitMapWrite .sideBand 3 5) ls).units 3 = 5 ∧ tabGet 7 (run (.unitMapWrite .host 3 5) ls).units 3 = 7 := by decide +kernel

/-- R331, R334, R337, R338. -/
theorem test_resets :
    (let s : State := { ls with mem := world, ttbase := 0x4000, ien := 5 }
     let u := run .hostReset s
     resident u 0 0 = false ∧ u.ttbase = 0 ∧ u.ien = 0 ∧ u.mem = world ∧ (run (.hrst .sideBand) { s with rsthold := true }).hrstDue = true) ∧
    (let u := run .moduleReset { ls with mem := world, alcnt := 3, svn := 2 }
     u.bootst = 1 ∧ u.mem = [] ∧ u.alcnt = 0 ∧ u.svn = 2 ∧ u.keys.saveNo = 1) ∧ (run .powerOn { ls with keys := { present := false } }).bootst = 5 ∧
    (run .powerOn { ls with svn := 3, images := [⟨0, 2, [], 0⟩] }).bootst = 4 ∧
    (run .timeSlew { ls with time := 1023, tadj := 4 }).time = 1025 ∧ (run .timeSlew { ls with time := 1022, tadj := 4 }).time = 1022 ∧
    (run (.pcieLinkChange true) { ls with pcie := true }).link = true := by decide +kernel

/-- R340 to R343; the digest of no bytes is FIPS 202's. -/
theorem test_security :
    (let u := run (.alarm 0) { ls with ien := 2 }
     u.bootst = 2 ∧ u.alarms = [⟨0, 0, 2, some 100⟩] ∧ u.out = [.msix 1]) ∧ (run (.alarm 5) ls).keys.present = false ∧ (run (.alarm 3) ls).bootst = 1 ∧
    (run .getDigests ls).out = [.digests [0xA7, 0xFF, 0xC6, 0xF8, 0xBF, 0x1E, 0xD7, 0x66, 0x51, 0xC1, 0x47, 0x56, 0xA0, 0x61, 0xD6, 0x62, 0xF5, 0x80, 0xFF, 0x4D, 0xE4, 0x3B, 0x49, 0xFA, 0x82, 0xD8, 0x0A, 0x4B, 0x80, 0xF8, 0x43, 0x4A]] ∧
    (run .getVersion ls).out = [.version [0x12, 0x13]] ∧ (run (.challenge 1) { ls with bootst := 5 }).out = [.spdmError] ∧
    (run (.getMeasurements 1) { ls with keys := { present := false } }).out = [.spdmError] ∧
    (run .pldmPlatformMonitoring { ls with alcnt := 2 }).out = [.platform 1 2 0] := by decide +kernel

/-! ## Witnesses: events -/

/-- Some value of which `p` holds. -/
def someAnd {α : Type} (o : Option α) (p : α → Bool) : Bool :=
  match o with
  | some a => p a
  | none => false

/-- Is an effect stopped by that fault? -/
def stopsWith {α : Type} (m : M α) (cause d : Nat) : Bool :=
  match m with
  | .error (.trap c e) => c == cause && e == d
  | _ => false

theorem witness_TasksStartAndEnd :
    (let k := getCore w0 0
     headTask k = some queuedTask ∧ queuedTask.save = none ∧ queuedTask.waits k = false ∧ freeSlot k = some 0 ∧
     okAnd (dispatchEff w0 queuedTask) (fun d => !overBudget d.1 0x1000 && someAnd (fitPools (k.slots.map (·.2) ++ reserved k) queuedTask.tt) fun al =>
       okAnd (headCode d.1 0 queuedTask d.2) fun h => (fitCode [] h.2 al).isSome && okAnd (preload h.1 0 queuedTask d.2) fun p => p.2 == []) = true) ∧
    (resident w0 0 0 = false ∧ resident (st t0) 0 0 = true) ∧
    (let e : Task := { te with c := { te.c with ctl := { st := .ending, owes := some 4 } } }
     resident (st e) 0 0 = true ∧ halted e 100 = false ∧ endReady (st e) 0 0 .c = true ∧ tokRoom e 4 = true ∧ stillBusy (st e) 0 0 = false ∧
     [Seq.l, .x, .s].all (fun p => (taskCtl e p).st == .ended) = true ∧ (taskCtl { e with sc := {} } .s).st ≠ .ended ∧ endReady (st { e with sc := {} }) 0 0 .c = true) ∧
    (let f : Task := { te with faulted := true, stopped := true }
     resident (st f) 0 0 = true ∧ stillBusy (st f) 0 0 = false ∧ f.eff.rerun = false ∧ dqRoom (st { f with eff := { rerun := true } }) 0 = true) := by
  decide +kernel

/-- A resident task that has all the scratchpad and may be pre-empted into that pool. -/
def big : Task := { te with tt := { te.tt with spm := 32 }, eff := { preempt := true, savep := 0xA000 }, drainPt := some 50, c := { te.c with ctl := { st := .busy .kept 0 } } }

theorem witness_EnginesAndTheirCommands :
    let u := run (.commandDequeue 0 .copy) (run (.copy ⟨0, 20⟩ 5 0 4 12 true false) le2)
    let m : Cmd := { slot := 0, tag := 7, idx := 0, from_ := (0, 0, 1), words := [0x10], flm := 0, gap := 5 }
    ((getCore (run (.copy ⟨0, 20⟩ 5 0 4 12 true false) le2) 0).qc.deq = none ∧ (getCore (run (.copy ⟨0, 20⟩ 5 0 4 12 true false) le2) 0).qc.q.length = 1) ∧
    (let s : State := { st t0 { qm := { q := [m], lastDeq := some 84 } } with cols := [(0, { level := 2 })] }
     Rule.gapOf (tabGet {} s.cols (columnOf 0)).level .matrix m.gap = 16 ∧ 84 + 16 ≤ s.cycle) ∧
    (let s : State := { st t0 { e0 := .request 99 } with cycle := 100 }
     s.cycle % 4 = 0 ∧ (tabGet {} s.cols 0).noGrant ≤ s.cycle ∧ (coresOf 0).flatMap (coreReqs s s.cycle) = [⟨99, 0, 0⟩]) ∧
    (engSt { e1 := .warm 91 } 1 = .warm 91 ∧ 91 + 9 ≤ 100 ∧ engSt { e1 := .filler 63 } 1 = .filler 63 ∧ 63 + 37 ≤ 100) ∧
    (someAnd (getCore u 0).qc.deq (fun m => cmdOp m == 0x10 && tokensReady u 0 m && true) = true ∧ copiesDue (getCore u 0).qc = [] ∧
      (let v := run (.copyCommand 0) u
       let x := modCore v 0 fun k => { k with sramBad := [(0, 128), (0, 129), (0, 130), (0, 131), (0, 132), (0, 133), (0, 134), (0, 135)] }
       let due (w : State) (p : Option EngFault → Bool) : Bool := (startCopy 0 w).isNone && copiesDue (getCore w 0).qc == [0] &&
         someAnd ((getCore w 0).qc.running[0]?) fun r => okAnd (copyBody 0 [] w r.cmd) fun b => p b.2.1
       due v Option.isNone && due x Option.isSome) = true) ∧
    (let v := run (.commandDequeue 0 .weight) (run (.wgath nt 5 0 5 9 0 0 false 0 0) (ls { t2 with j := setNth 0 t2.j 9 0x10 }))
     someAnd (getCore v 0).qw.deq (fun m => tokensReady v 0 m && okAnd (gatherBody 0 (popTokens v 0 m) m) fun _ => true) = true) ∧
    (Rule.commandEvent (.weightTile 0)).isSome = true ∧ isNext (exec (.weightTile 0) ls) = true := by decide +kernel

theorem witness_MatrixAndRetirement :
    let wb := words [(0, 0x2000010002), (8, 0x400001001), (64, 0x40003C00)]
    let s := modCore xm 0 fun k => { k with wb0 := wb }
    let u := run (.commandDequeue 0 .matrix) (run (.mgo (sl 0 0 0 0 0 false false 0 false 0 0)) s)
    let cm (w1 : W64) : Cmd := { slot := 0, tag := 7, idx := 0, from_ := (0, 0, 2), words := [1, w1, 0, 0x1000] ++ List.replicate 12 0, flm := 0, gap := 0 }
    (someAnd (getCore u 0).qm.deq (fun m => !unitGone u 0 (mcmdOf m.words) && tokensReady u 0 m && startOn u 0 m == some (0, 0)
      && (sramStop u 0 (mcmdOf m.words) 0).isNone && (imageStop (mcmdOf m.words) (headerAt wb 0)).isNone) = true ∧ (getCore u 0).qm.running = []) ∧
    (let v := st t0 { qm := { deq := some (cm 0x42) }, wb0 := wb }
     (mcmdOf (cm 0x42).words).asrc = 0 ∧ startOn v 0 (cm 0x42) = some (0, 0) ∧ tokensReady v 0 (cm 0x42) = true ∧
       unitGone v 0 (mcmdOf (cm 0x42).words) = false ∧ sramStop v 0 (mcmdOf (cm 0x42).words) 0 = none ∧
       imageStop (mcmdOf (cm 0x42).words) (headerAt wb 0) = none) ∧
    (let m : Cmd := { cm 0x42 with words := [0x2_0000_0000_0001, 0x42, 0, 0x1000] ++ List.replicate 12 0 }
     unitGone { st t0 with units := [(0, 5)] } 0 (mcmdOf m.words) = true) ∧
    (let r : Running := { cmd := cm 0x42, steady := 1, mx := some { start := [], hid := [], seen := [], okr := [] } }
     let v (p : Option Nat) : State := st { t0 with ins := [{ blocks := [{ block 1 with poison := p }] }] } { qm := { running := [r] } }
     (mcmdOf r.cmd.words).asel % 8 = 0 ∧ (inStream (v none) 0 0 0).blocks.length = 1 ∧ ((inStream (v (some 64)) 0 0 0).blocks.map (·.poison)) = [some 64]) ∧
    (let r : Running := { cmd := cm 0x42, fixed := 40, last := some 60, eng := 1 }
     mayRetire (st t0) .matrix [] r = true ∧ signalsFit t0 r.cmd = true ∧ mayRetire (st t0) .copy [] r = true) := by decide +kernel

theorem witness_ValuesOfLanes :
    (Rule.laneRule (.vexp2 (to8 0 0 0 0 0))).isSome = true ∧ Rule.specialExact 0x73 (Rule.valueOf 0 false 0x40000000) (.fin false 4 1) ∧
    Rule.specialExact 0x74 (Rule.valueOf 0 false 0x3F000000) (.fin true 1 1) ∧
    ((Rule.laneRule (.vcvt (to8 0 0 0 13 15))).isSome = true ∧ (15 : BitVec 14).toNat % 32 = 15 ∧ (13 : BitVec 5).toNat = 13) ∧
    Rule.valueOf 0 true 0x80000001 ≠ .nan ∧ Rule.valueOf 0 true 0x7F800000 ≠ .nan := by
  refine ⟨by decide +kernel, ⟨2, by decide +kernel, rfl⟩, Or.inr (Or.inr ⟨by decide +kernel, 1, Or.inr ⟨by decide +kernel, by decide +kernel, rfl⟩⟩), ?_⟩
  decide +kernel

theorem witness_ValuesOfLists :
    (Rule.topEntries true 0 (nth vregs 0 []) (nth pregs 1 []) 0 none).length = 2 ∧ 0x40 ≤ 64 ∧
    (let l : Lanes := [0x3F800000, 0x3F000000] ++ List.replicate 62 0 ++ [5, 9] ++ List.replicate 62 0 ++ [2] ++ List.replicate 895 0
     Rule.valueOf 0 false 0x3F800000 ≠ .nan ∧ (sample l (f32 false 0x3F800000) (f32 false 0x3F000000) 0).2.2.2 = 0) := by
  decide +kernel

/-- A running matrix command of one product row on two columns, A in a register (`asrc = 2`), a record (1) or a stream (0), its image, and
a tile. -/
def summing (asrc : Nat) (count : Nat := 1) : State :=
  let m : Cmd := {
    slot := 0, tag := 7, idx := 0, from_ := (0, 0, 2), flm := 0, gap := 0, vregs := [nth vregs 0 []]
    words := [1, BitVec.ofNat 64 (0x42 + asrc * 2 ^ 10), 0, 0x1000, BitVec.ofNat 64 (count - 1)] ++ List.replicate 11 0
    lrec := [0x400, 0x42, 0x10000400004, 0x100001, 4, 0, 0x1001001002004, 0, 0, 0, 0, 0] }
  let r : Running := {
    cmd := m, steady := 1
    mx := some { start := List.replicate 4096 7, hid := [], seen := List.replicate 4096 false, okr := List.replicate 64 false, heads := [(0x2000010002, 0x400001001)] } }
  st { t0 with x := { t0.x with z := [List.replicate 4096 7] }, ins := [{ blocks := [block 0x3F800000] }] }
    { spm := spm1, wb0 := words [(0, 0x2000010002), (8, 0x400001001), (64, 0x40003C00)], qm := { running := [r] } }

theorem witness_MatrixSums :
    (let run (s : State) (p : Running → MxRun → MCmd → Bool) : Bool :=
       someAnd (getCore s 0).qm.running.head? fun r => someAnd r.mx fun x => p r x (mcmdOf r.cmd.words) && decide (r.eng < 2) && !x.ended &&
         x.seen == List.replicate 4096 false && x.start.length == 4096 && x.okr.length == 64 && (getCore s 0).qm.running.length == 1 &&
         (getCore s 0).sramBad == [] && (tileOf s 0 0 (mcmdOf r.cmd.words).acct).length == 4096 && !(mcmdOf r.cmd.words).sega
     let passes (f : MCmd) : Nat := (f.lv.map (·.count)).foldl (· * ·) 1
     run (summing 2) (fun _ _ f => f.asrc == 2) = true ∧
     run (summing 1) (fun r _ f => f.asrc == 1 && f.kb == 1 && f.m == 1 && passes f == 1 &&
       (match aRecord (summing 1) 0 0 (layoutOf r.cmd.lrec) 0 (Rule.passOf f 0) 0 0 with
        | .ok _ => true
        | .error _ => false)) = true ∧
     run (summing 0) (fun _ x f => f.asrc == 0 && f.asel == 0 && passes f == 1 && x.pass == 0) = true ∧
     run (summing 0 2) (fun _ x f => passes f == 2 && x.pass == 0) = true ∧
     (inStream (summing 0) 0 0 0).blocks.map (·.poison) = [none]) ∧
    ((13 : Nat) < 14 ∧ 2 ∈ [0, 1, 2, 3, 4, 5, 6, 7, 8, 9, 10, 11, 12] ∧ 0 < (mcmdOf [1, 0x42]).afmt ∧ (mcmdOf [1, 0x42]).afmt < 12) := by
  decide +kernel

theorem witness_CommandEffects :
    (let s := run (.commandDequeue 0 .copy) (run (.copy ⟨0, 20⟩ 5 0 4 12 true false) le2)
     someAnd (getCore s 0).qc.deq (fun m =>
       let ws := boxOf (layoutOf m.lrec).w
       let bits := ws.flatMap (Rule.copyTarget s 0 m)
       okAnd (copyBody 0 [] s m) (fun r => r.2.1.isNone) && (layoutOf m.lrec).fmt == 13 && (layoutOf m.lrec2).fmt == 13 &&
       bits.length == 256 && decide (bits.map (Rule.keyed s)).Nodup &&
       bits.all fun p => !(ws.flatMap (Rule.copySource s 0 m)).contains (placeKey s p.1)) = true) ∧
    (let s := run (.commandDequeue 0 .weight) (run (.wtile nt 5 5 0 0 1 0) ls)
     someAnd (getCore s 0).qw.deq (fun m =>
       let l := layoutOf ((m.words.drop 1).take 12)
       let h := Rule.headerFor l 0 (nth l.w 1 0)
       okAnd (tileBody 0 s m) (fun r => r.2.1.isNone) && l.fmt == 2 && l.sbase == 0 && nth l.st 1 0 == 4 && nth l.w 1 0 == 2 &&
       decide (64 * Rule.imageUnits h ≤ 2 ^ 17) && decide (h.spitch < 2048)) = true) ∧
    (let g (air : Airing) : Bool :=
       let s := run (.commandDequeue 0 .weight) (run (.wgath nt 5 0 5 6 0 0 false 0 0) (ls { t2 with air := air }))
       someAnd (getCore s 0).qw.deq (fun m => okAnd (gatherBody 0 s m) (fun r => r.2.1.isNone) && spm32 s 0 0 (cmdW m 13 % 2 ^ 20) == 1 &&
         !(cmdW m 0).testBit 50 && spm32 s 0 0 (cmdW m 13 % 2 ^ 20 + 4) == 0 && (layoutOf ((m.words.drop 1).take 12)).base == 0x400)
     g {} = true ∧ g { slots := [(0, { base := 0x400, row := 0, haddr := 0, bytes := [1, 2, 3, 4, 5, 6, 7, 8] })] } = true) ∧
    (let p (vfy : Bool) : Bool :=
       let s := run (.commandDequeue 0 .pred) (run (.pred nt 5 8 9 vfy) ls)
       someAnd (getCore s 0).qp.deq (fun m =>
         let d := descOf ((m.words.drop 1).take 8 |>.map (·.toNat))
         okAnd (predictBody 0 s m) (fun r => r.2.1.isNone) && scoreOverlap d vfy (cmdW m 9 % 2 ^ 20) == [] && d.hst != 0 && (cmdW m 0).testBit 48 == vfy)
     p true = true ∧ p false = true) := by
  decide +kernel

theorem witness_StreamEvents :
    let u := run (.inStreamRun 0 0 7) (run (.istart nt 15 7) (run (.bindi nt 4 0 7 false true) ls))
    (((inStream u 0 0 7).runs.map fun r => (r.active, okAnd (runBlock u 0 0 r) fun _ => true)) = [(true, true)] ∧ (inStream u 0 0 7).blocks.length < 2) ∧
    (let r : Run := { bind := { addr := 0, lrec := [0x200000, 0x4D, 0x10000400004, 0x100001, 4, 0, 0x1001001001004, 0, 0, 0, 0, 0], org := [0, 0, 0, 0, 0], xp := false }, cls := 0, flm := 0, snap := {}, pins := [], active := true }
     stopsWith (runBlock u 0 0 r) 6 0x200000 = true) ∧
    (let d := run (.bindo nt 2 2) ls
     let b : Block := { block 9 with valid := [true, true, true, true] }
     let e := run (.drain nt 2 1) (modMe d fun t => { t with outs := t.outs.map fun o => { o with blocks := if o.bind.isSome then [b] else [] } })
     halted (me e) e.cycle = false ∧ someAnd (me e).drain (fun x => x.left == 1 && someAnd (nth (me e).outs x.o {}).bind fun bd =>
       (nth (me e).outs x.o {}).blocks.length == 1 && okAnd (drainWrite e 0 0 bd x b) fun r => r.2.isNone) = true ∧
       (let o : State := modMe e fun t => { t with outs := t.outs.map fun o => { o with bind := o.bind.map fun bd => { bd with lrec := setNth 0 bd.lrec 0 (2 ^ 29) } } }
        someAnd (me o).drain (fun x => someAnd (nth (me o).outs x.o {}).bind fun bd =>
          okAnd (drainWrite o 0 0 bd x b) fun r => r.2.isSome)) = true) ∧
    (let s := modX (run (.vmov (to8 2 0 0 0 0)) xs) fun x => { x with count := x.count + 1, v := x.v ++ [vl []] }
     holdsX (me s) s.cycle = false ∧ ((me s).x.ops.map fun o => (o.item, o.landed, o.clash, decide (o.issued < (me s).x.count), o.val.length)) = [(.v 8, false, false, true, 1024)] ∧
       (nth (me s).x.v 8 []).length = 1024) ∧
    (let d : Drain := { o := 0, left := 0, list := none }
     let t : Task := { t2 with drain := some d }
     let f : Flit := { seq := 1, m := 2, body := .write 0 [], by_ := some (0, 0, t.uid, 3) }
     let w : State := { ls t with links := [(2, { unacked := [f] })] }
     halted t 100 = false ∧ linkWaits (ls t) 0 0 3 0 = false ∧ linkWaits w 0 0 3 0 = true) ∧
    tokRoom (me ls) 4 = true := by decide +kernel

theorem witness_RemoteArrivals :
    let a : Acc := { op := .load false, d := 3, size := 4, addr := 0x10500400, val := 0 }
    let s : State := { peers with cores := [(0, { k0 with slots := [(0, t0)] }), (5, { spm := spm1, slots := [(2, t0)] })] }
    (let w (z : Bool) : LockWait := { bank := 1, line := 0, core := 0, slot := 0, handler := false, tslot := 0, off := 64, acc := { op := if z then .llk else .xchg, d := 3, size := 8, addr := 64, val := 5 }, since := 9 }
     let late : LockWait := { w true with since := 10, slot := 3, tslot := 3 }
     let k (z : Bool) : State := st t0 { waits := [late, w z] }
     (Rule.arrivesBefore (w true) late ∧ (late.bank = 1 ∧ late.line = 0) ∧ late.core < 512 ∧ late.slot < 4 ∧ Rule.lockOf (spmBase t0 + 64) = (1, 0)) ∧
     lockHolder (k true) 0 1 0 = none ∧ waitReady (k true) (w true) = true ∧ waitReady (k false) (w false) = true ∧ lockBank (spmBase t0 + 64) = 1 ∧ lockLine (spmBase t0 + 64) = 0 ∧
       readError (k true) (.spm 0 0 64) 8 = none) ∧
    (senderStopped s 0 0 false = false ∧ stillPeer s 0 0 5 2 = true ∧ stillPeer s 0 0 5 1 = false ∧ 0xFFFC + 4 ≤ spmUsable (getTask s 5 2) ∧ readError s (.spm 5 2 0xFFFC) 4 = none ∧
      a.op = .load false) ∧ tokRoom (getTask s 5 2) 15 = true ∧
    (let c : List W64 := [0x23] ++ [0x400, 0x42, 0x10000400004, 0x100001, 4, 0, 0x1001001002004, 0, 0, 0, 0, 0] ++ [0x200, 0, 0]
     okAnd (checkRemote s 5 2 .weight c) (fun _ => true) = true ∧ queueRoom s 5 .weight = true) := by unfold Rule.arrivesBefore; decide +kernel

theorem witness_RemoteArrivals_atomics :
    let s (l : Option LockRef) (h : List LockHeld) : State := { peers with
      cores := [(0, { k0 with slots := [(0, { t0 with c := { t0.c with lock := l } })] }), (5, { slots := [(2, t0)], locks := h })] }
    let held (c n : Nat) : LockHeld := { bank := 1, line := 0, core := c, slot := n, handler := false }
    let a : State := s none []
    let u : State := s (some ⟨5, 1, 0⟩) [held 0 0]
    (senderStopped a 0 0 false = false ∧ stillPeer a 0 0 5 2 = true ∧ 64 + 8 ≤ spmUsable (getTask a 5 2) ∧
      Rule.lockOf (spmBase (getTask a 5 2) + 64) = (1, 0) ∧ lockHolder a 5 1 0 = none ∧ (getCore a 5).waits = [] ∧ readError a (.spm 5 2 64) 8 = none) ∧
    (Rule.atomOf (.atomXchg 3 7 9 1 0 0) = some (3, 7, 9, 8) ∧ Rule.atomOp (.atomXchg 3 7 9 1 0 0) = .xchg) ∧
    ((lockHolder (s none [held 5 2]) 5 1 0).isSome = true ∧ (ctx (wake (at_ (s none [held 5 2]) 0 0 false))).lock ≠ some ⟨5, 1, 0⟩) ∧
    (ctx (wake (at_ u 0 0 false))).lock = some ⟨5, 1, 0⟩ := by decide +kernel

theorem witness_LaunchAndTenderEvents :
    (hostQueue.lqbase ≠ 0 ∧ memW hostQueue 0x9000 % 2 ^ 32 = 8 ∧ memW hostQueue 0x9000 / 2 ^ 32 % 2 ^ 16 = 64 ∧
      (let fetched (s : State) (p : State → Bool) : Bool := okAnd (reach s [(0x9000, 72)]) fun s1 => okAnd (reach s1 [(0x9080, 64)]) p
       fetched hostQueue (fun s => okAnd (checkLaunch s 512 0x9080 (recordAt s 0x9080) none false) fun r => r.2.2.2.2.all (dqRoom r.1)) &&
       fetched { hostQueue with ttbase := 0x20000 } fun s => stopsWith (checkLaunch s 512 0x9080 (recordAt s 0x9080) none false) 1 6) = true) ∧
    (let s (t : Nat) : State := { hostQueue with cores := [(0, { temps := [t, 0, 0] })], events := [(7, { erec := 0x9080, ctl := 0x0004_0000_0028_0002 })] }
     let v := tabGet {} (s 40).events 7
     watched (s 40) v = some 40 ∧ watched (s 39) v = some 39 ∧ v.ctl.toNat / 2 ^ 16 % 2 ^ 32 = 40 ∧ v.below = true ∧ v.armed = true ∧
       (frontLaunch (s 40) v.erec.toNat).isSome = true) ∧
    ((getTask wt 0 0).tender.isSome = true ∧ 17 ∈ [0, 17] ∧ (tabFind (getCore wt 17).forms 5).isSome = true ∧ (100 ≤ 90 + 48) ∧ ({ wt with cycle := 139 } : State).cycle > 90 + 48) ∧
    (let s := known (wt (tend [⟨17, 5, 2⟩] true []))
     (getTask s 0 0).c.ctl.st = .busy .tender 0 ∧ halted (getTask s 0 0) s.cycle = false ∧ dqRoom s 17 = true ∧ (effKnown s 0x1000).isSome = true ∧
       dqRoom { s with cores := s.cores.map fun k => (k.1, { k.2 with dq := List.replicate 64 queuedTask }) } 17 = false) ∧
    (((getCore (st t0) 0).slots.find? fun e => decide (e.2.uid = 0)).isSome = true ∧ ∀ e ∈ (getCore (st t0) 0).slots, e.2.uid ≠ 8) := by decide +kernel

theorem witness_HandlerEvents :
    let m : Miss := { q := 0, va := 0x1_0020_0008, acc := 1, cycle := 90 }
    let t : Task := { t0 with miss := [m], eff := { troot := 0x200000 } }
    (t.tt.refill = some 24 ∧ (t.miss.find? fun m => !m.served && !m.noMap) = some m ∧ takesNext (getCore (st t) 0) 0 1 = true) ∧
    (let w : State := { st { t with tt := { t.tt with refill := none } } with mem := world }
     (t.miss.find? fun m => !m.noMap && (m.q = seqCode .c || m.q = 4)) = some m ∧ walk { w with mem := [] } 0x200000 m.va = none ∧
       okAnd (reach { w with mem := [] } (walkReads { w with mem := [] } 0x200000 m.va)) (fun _ => true) = true ∧
       okAnd (reach w (walkReads w 0x200000 m.va)) (fun s1 =>
         someAnd (walk w 0x200000 m.va) fun e => (cacheInsert s1 0 0x1000 (m.va / 2 ^ 21) (Rule.nat64 e)).isSome) = true) ∧
    (let n := st t0 { h := { waiting := [⟨0, 2, 90⟩] } }
     resident n 0 0 = true ∧ (getTask n 0 0).tt.note = some 20 ∧ takesNext (getCore n 0) 0 2 = true) ∧ resident (st t0) 0 3 = false := by decide +kernel

theorem witness_HoldTimeoutsAndHandlerWrites :
    (let t : Task := { t0 with sys := { t0.sys with holdto := 0x3FF }, c := { t0.c with ctl := { hold := some (.token, 15), held := 0x400 } } }
     resident (st t) 0 0 = true ∧ halted t 100 = false ∧ (getCore (st t) 0).h.serving = none ∧ tokAvail t 15 = false ∧
       tokRoom { t with tok := setNth 0 t.tok 15 255 } 15 = false ∧ lacks (st { t with tok := setNth 0 t.tok 15 1 }) 0 0 false .c t.c.ctl = false ∧
       (taskCtl t .c).held ≥ Rule.limitOf (sampled (st t) t) ∧ Rule.waitNo .token = some 0) ∧
    (let s := hs t0 { ctx := { r := [], ctl := { hold := some (.lock, 3), held := 0x100000 } } }
     let w : LockWait := { bank := 1, line := 3, core := 0, slot := 0, handler := true, tslot := 0, off := 64, acc := { op := .llk, d := 3, size := 8, addr := 64, val := 5 }, since := 9 }
     let s := modCore s 0 fun k => { k with waits := [w], locks := [{ bank := 1, line := 3, core := 0, slot := 1, handler := false }] }
     (getCore s 0).h.serving = some (0, 0) ∧ (getCore s 0).h.ctx.ctl.held ≥ Rule.limitOf (sampled s (me s)) ∧ resident s 0 0 = true ∧
       lacks s 0 0 true .c (getCore s 0).h.ctx.ctl = true ∧ Rule.waitNo .lock = some 5) ∧
    (let m : Cmd := { slot := 0, tag := 7, idx := 3, from_ := (0, 0, 1), words := [0x1010], flm := 0, gap := 0 }
     let s : State := { st t0 { qc := { deq := some m, waitAt := 50 } } with cycle := 50 + 0x100000 }
     lackingTokens (me s) m = [0] ∧ s.cycle ≥ 50 + Rule.limitOf (sampled s (me s))) ∧
    okAnd (tfill (at_ (hs { t0 with eff := { tctl := true } } { tmiss := 0x100000000 }) 0 0 true) 0xF000000000000000) (fun _ => true) = true ∧
    okAnd (tinv (at_ (hs { t0 with eff := { tctl := true } }) 0 0 true) 0x100000003) (fun _ => true) = true ∧ (Rule.trappedWritten (at_ (hs t0) 0 0 true) 5).isSome = true := by
  decide +kernel

theorem witness_BanksAndScrubbing :
    (let s : State := { ls with time := 2000000 }
     s.epochAt + 1000 * s.epochLen ≤ s.time.toNat ∧ s.swap = none) ∧
    (getBank heldState 0).busy = false ∧ ((me heldState).pegs.map fun p => (p.bank, p.st)) = [(0, .held)] ∧
    (getBank (modBank heldState 0 fun b => { b with alerts := [5] }) 0).alerts = [5] ∧
    (let u := run (.refresh 0) heldState
     (getBank u 0).busy = true ∧ rowSuspended u 0 0 = true) ∧
    (scrubc ls 8191).testBit 0 = true ∧
    (let u := run (.hotListScrub 0 65535 { corrected := [7], bad := [] }) (run (.patrolScrub 0 65535 { corrected := [7, 7, 9], bad := [15] }) ls)
     (rowErr u 0 65535).hot.isSome = true ∧ score (rowErr u 0 65535) ≥ max 1 (scrubc u 0 / 2 ^ 32 % 256) ∧ (getBank u 0).spares < 32) ∧
    (let s : State := { ls with time := 24 * 3600 * 10 ^ 9 }
     s.winAt + max 1 (s.fltcfg.toNat % 2 ^ 16) * 3600 * 10 ^ 9 ≤ s.time.toNat) ∧
    (let s : State := { ls with errCnt := [(.mismatch 5 1, 2)] }
     errCount s (.mismatch 5 1) ≥ faultThreshold s (.mismatch 5 1) ∧ FaultUnit.mismatch 5 1 ∉ s.lasting) := by decide +kernel

theorem witness_PowerAndLinks :
    (getCore ls 511).freeze = 0 ∧ (let s : State := { ls with cycle := 2 ^ 24, cols := [(31, { window := 513, streak := 1 })] }
      (tabGet {} s.cols 31).since + 2 ^ 24 ≤ s.cycle ∧ 2 * 2 ^ 28 < (tabGet {} s.cols 31).window * 2 ^ (tabGet {} s.cols 31).rtgt ∧ (tabGet {} s.cols 31).vcur = (tabGet {} s.cols 31).vmax) ∧
    ls.ports.testBit 15 = true ∧ (tabGet {} ls.links 15).rx = 0 ∧ okAnd (touchRange ls none (2 ^ 39 - 2) 2 true) (fun _ => true) = true ∧
    (tabGet {} ({ ls with links := [(2, { retrain := true, fails := 17 })] } : State).links 2).retrain = true ∧
    (ls.hlock.testBit 2 = false ∧ tabGet 0 ls.routes 63 ≠ 0x8F &&& 0x8F ∧ routeBusy ls 63 = false) ∧
    (let r : State := { ls with routes := [(5, 0x82)], links := [(2, { unacked := [{ seq := 1, m := 5, body := .ack 0 }] })] }
     routeBusy r 5 = true ∧ tabGet 0 r.routes 5 ≠ 0x83 &&& 0x8F ∧ tabFind ({ r with rchange := [(5, 0x83)], links := [] } : State).rchange 5 = some 0x83 ∧
       routeBusy { r with rchange := [(5, 0x83)], links := [] } 5 = false ∧ ({ r with hlock := 4 } : State).hlock.testBit 2 = true) := by decide +kernel

theorem witness_HostAccesses :
    ls.bootst = 1 ∧ okAnd (touchRange ls none (2 ^ 39 - 1) 1 false) (fun _ => true) = true ∧ ({ ls with bootst := 3 } : State).bootst ≠ 1 ∧
    (ls.hlock.testBit 0 = false ∧ ({ ls with hlock := 1 } : State).hlock.testBit 0 = true ∧ ls.hlock.testBit 1 = false ∧ ls.hlock.testBit 3 = false) ∧
    ((∀ k ∈ (w0 {}).cores, k.2.slots = []) ∧ ∃ k ∈ ls.cores, k.2.slots ≠ []) ∧
    (tabGet 7 ls.units 511 < 8 ∧ (0 : W64).toNat % 8 ≠ tabGet 7 ls.units 511 ∧ ∀ i < 64, (0 : W64).toNat.testBit i = true → i < 3 ∧ (tabGet 7 ls.units 511).testBit i = true) ∧
    ((8 : Nat).testBit 3 = true ∧ ∃ i, i < 3 ∧ (7 : Nat).testBit i = true ∧ (tabGet 7 ({ ls with units := [(0, 5)] } : State).units 0).testBit i = false) :=
  ⟨rfl, by decide +kernel, by decide +kernel, by decide +kernel, by decide +kernel, by decide +kernel, rfl, 1, by decide, by decide, by decide⟩

theorem witness_ResetsAndSecurity :
    ls.rsthold = false ∧ ({ ls with rsthold := true } : State).rsthold = true ∧ (ls.keys.present = true ∧ ∀ m, m ∈ ls.images ∨ m ∈ ls.stored → ls.svn ≤ m.svn) ∧
    ({ ls with keys := { present := false } } : State).keys.present = false ∧
    (let s : State := { ls with svn := 3, images := [⟨2, 2, [], 0⟩] }
     ∃ m ∈ s.images, m.svn < s.svn ∧ m.kind < 3) ∧ (∀ m, m ∈ ls.stored → m.svn < 0) ∧
    (let s : State := { ls with tadj := 1, time := 1023 }
     s.tadj ≠ 0 ∧ (s.time.toNat + 1) % 1024 = 0) ∧ Config.unlockResponse 4 = Config.unlockResponse 4 ∧
    Config.unlockResponse 4 + 1 ≠ Config.unlockResponse 4 ∧ ls.alarms.length ≤ 64 ∧ ls.bootst ≠ 5 :=
  ⟨rfl, rfl, ⟨rfl, by intro m h; cases h <;> contradiction⟩, rfl, by decide, by intro m h; contradiction, by decide +kernel, rfl, Nat.succ_ne_self _, by decide, by decide⟩

/-- A pool of one save entry of two pages at 0xA000, and a root region of priority 5 with BPOL 1. -/
def pooled (k : Core) : State :=
  { w0 k with mem := words [(0x1008, 0x185), (0x1040, 1), (0x4000, 0x20001800002), (0xA000, 0x200000001)] }

/-- Four resident tasks of 64 KiB, that of slot `v` open to pre-emption into the pool; the head's code is at hand. -/
def crowded (v : Nat) (off : Nat) : State :=
  let t (i : Nat) : Task := { te with
    rcb := 0x2000
    al := { spm := off + 2 * i, t := 16 * i, v := 16 * i }, drainPt := some 50, c := { te.c with ctl := { st := .busy .kept 0 } }
    eff := if i = v then { preempt := true, savep := 0xA000 } else { preempt := false } }
  pooled { slots := (List.range 4).map fun i => (i, t i), dq := [{ queuedTask with code := some {} }] }

/-- What the first clause of the loader's rule takes, in a state whose head has its code at hand. -/
def stages (s : State) (clash : Bool) : Bool :=
  someAnd (headTask (getCore s 0)) fun q => okAnd (dispatchEff s q) fun d => okAnd (headCode d.1 0 q d.2) fun h =>
    let k := getCore h.1 0
    let lower := (k.slots.filter fun t => t.2.eff.preempt && decide (t.2.eff.prio < d.2.prio)).foldl (fun l t => insertVictim t l) []
    k.shadow.isNone && !rowsWait h.1 (lower.flatMap fun t => poolReads h.1 t.2.eff.savep) && !tokenHolds s 0 && !q.waits (getCore s 0) && !overBudget d.1 q.rcb && !direct k q h.2 && someAnd (takeVictims 0 q.tt h.2 h.1 [] lower) fun r =>
      q.save.isNone && okAnd (preload r.1 0 q d.2) (fun _ => true) &&
        clash == r.2.1.any fun v => overlap r.2.2.spm q.tt.spm (getTask h.1 0 v.1).al.spm (getTask h.1 0 v.1).tt.spm

theorem witness_LoaderAndBudgets :
    stages (crowded 0 0) true = true ∧ stages (crowded 3 2) false = true ∧
    (let h : Shadow := { victims := [], staged := [], token := true, only := true }
     let s := w0 { slots := [(0, big)], shadow := some h }
     canFlip s 0 h = true ∧ (∀ e ∈ (getCore s 0).slots, atDrain s 0 e.1 = true ∧ overran s e.2 = false) ∧ (getCore s 0).dq.length + 0 ≤ 64) ∧
    (let t := newTask w0 queuedTask {} { spm := 4, t := 32, v := 32 } {}
     let h : Shadow := { victims := [], staged := [⟨queuedTask, t⟩], token := true }
     let s := w0 { slots := [(0, { big with tt := { big.tt with spm := 2 } })], shadow := some h }
     let s2 := flipPlanes s 0 []
     canFlip s 0 h = true ∧ Staged.ready s 0 ⟨queuedTask, t⟩ = true ∧ (∀ e ∈ (getCore s 0).slots, atDrain s 0 e.1 = true ∧ overran s e.2 = false) ∧ t.pegs = [] ∧
       okAnd (reach s (regionReads s t.rcb)) (fun _ => true) = true ∧
       freeSlot (getCore s2 0) = some 1 ∧ (fitCode ((getCore s2 0).slots.map (·.2)) t.code t.al).isSome = true ∧ (regionEff s2 0x1000).isSome = true) ∧
    ((w0 {}).time.toNat / 1000 ≠ (getCore (w0 {}) 0).flushAt ∧ rowsWait (w0 {}) (flushReads (w0 {}) 0) = false ∧ ({ w0 {} with time := 999 } : State).time.toNat / 1000 = (getCore (w0 {}) 0).flushAt) ∧
    (let s : State := known { w0 { slots := [(0, t0)] } with mem := words [(0x1008, 0x180), (0x1010, 5), (0x1080, 5)] }
     (untold s (getTask s 0 0)).length = 1 ∧ (getTask s 0 0).faulted = false ∧ (getTask s 0 0).started = true ∧ resident s 0 0 = true) ∧
    (let s : State := { w0 { slots := [(0, { big with tt := { big.tt with spm := 2 } })] } with
       effs := [(0x1000, { buds := [⟨0x1000, 5, 0, 0, false, true⟩] })], mem := words [(0x1080, 5), (0xA000, 0x200000001)] }
     untold s (getTask s 0 0) = [] ∧ overrunning s 0x1000 false ≠ 0 ∧ atDrain s 0 0 = true ∧ dqRoom s 0 = true ∧
       rowsWait s (poolReads s (getTask s 0 0).eff.savep) = false ∧ (getCore s 0).shadow = none ∧
       (getTask s 0 0).started = true ∧ (getTask s 0 0).faulted = false ∧ (claimEntry s (getTask s 0 0)).isSome = true) := by
  decide +kernel

/-! A saved task and its area: the tags are those of the key, whichever it is. -/

theorem length_keccakRounds (n r : Nat) (a : List W64) (h : a.length = 25) : (keccakRounds n r a).length = 25 := by
  induction n generalizing r a with
  | zero => exact h
  | succ n ih => exact ih _ _ (by simp [keccakRound])

theorem length_absorb (n : Nat) (bs : List Byte) (a : List W64) (h : a.length = 25) : (absorb n bs a).length = 25 := by
  induction n generalizing bs a with
  | zero => exact h
  | succ n ih => exact ih _ _ (length_keccakRounds _ _ _ (by simp [h]))

theorem length_kmac (k : BitVec 256) (c : String) (m : List Byte) : (kmac k c m).length = 32 := by
  have h8 : ∀ w : W64, (leBytes 8 w.toNat).length = 8 := fun w => by simp [leBytes]
  have h4 : ∀ l : List W64, l.length = 25 → ((l.take 4).flatMap fun w => leBytes 8 w.toNat).length = 32 := by
    intro l hl
    match l, hl with
    | a :: b :: c :: d :: r, _ => simp [h8]
  exact h4 _ (length_absorb _ _ _ rfl)

/-- The area at 0x100000 without its tags, for a task of tag 9 with no saved scratchpad. -/
def area0 : Memory := words [(0x1008, 0x185), (0x1040, 1), (0x100000, 0x1000000000009), (0x100018, 0x101000)]
/-- With the tag of its image. -/
def area1 : Memory := memWrite area0 0x100028 (kmac (Config.saveKey 0) "CHRODAR-RIMG" [])
/-- With both. -/
def area2 : Memory := memWrite area1 0x100FE0 (kmac (Config.saveKey 0) "CHRODAR-SAVE" (memRead area1 0x100000 0xFE0))

/-- A core whose only task is the saved one at the head of its queue. -/
def saved : State := { w0 { dq := [{ queuedTask with save := some (0xA000, 0x100000), code := some {} }] } with mem := area2 }

theorem memRead_memWrite_out (m : Memory) (b : Nat) (bs : List Byte) (a n : Nat) (h : a + n ≤ b ∨ b + bs.length ≤ a) :
    memRead (memWrite m b bs) a n = memRead m a n := by
  induction n generalizing a with
  | zero => rfl
  | succ n ih => simp only [memRead]; rw [memByte_memWrite_out _ _ _ _ (by omega), ih _ (by omega)]

theorem memRead_memWrite_in (m : Memory) (b : Nat) (bs : List Byte) : memRead (memWrite m b bs) b bs.length = bs := by
  apply List.ext_getElem (by simp)
  intro k h1 h2
  rw [getElem_memRead, memByte_memWrite_in _ _ _ _ h2]

theorem area_reads (a n : Nat) (h : a + n ≤ 0x100028 ∨ (0x100048 ≤ a ∧ a + n ≤ 0x100FE0) ∨ 0x101000 ≤ a) :
    memRead area2 a n = memRead area0 a n := by
  unfold area2 area1
  rw [memRead_memWrite_out _ _ _ _ _ (by rw [length_kmac]; omega), memRead_memWrite_out _ _ _ _ _ (by rw [length_kmac]; omega)]

theorem saved_mem : saved.mem = area2 := by simp only [saved]

theorem area_words (a : Nat) (h : a + 8 ≤ 0x100028 ∨ (0x100048 ≤ a ∧ a + 8 ≤ 0x100FE0)) : memW saved a = memNat area0 a 8 := by
  unfold memW memNat
  rw [saved_mem, area_reads a 8 (by omega)]

theorem saved_checks : checkArea saved 0 { queuedTask with save := some (0xA000, 0x100000), code := some {} } 0x100000 = .ok [] := by
  have hm := saved_mem
  have h0 : memW saved (0x100000 + 0) = 0x1000000000009 := by rw [area_words _ (by omega)]; decide +kernel
  have h10 : memW saved (0x100000 + 0x10) = 0 := by rw [area_words _ (by omega)]; decide +kernel
  have h18 : memW saved (0x100000 + 0x18) = 0x101000 := by rw [area_words _ (by omega)]; decide +kernel
  have h20 : memW saved (0x100000 + 0x20) = 0 := by rw [area_words _ (by omega)]; decide +kernel
  have h48 : memW saved (0x100000 + 0x48) = 0 := by rw [area_words _ (by omega)]; decide +kernel
  have hk : saved.keys.saveNo = 0 := rfl
  have hp : ∀ a n, poisonIn saved a n = none := by
    intro a n; unfold poisonIn; simp [show saved.poison = [] from rfl]
  have ht : memRead area2 (0x100000 + 0xFE0) 32 = kmac (Config.saveKey 0) "CHRODAR-SAVE" (memRead area2 0x100000 0xFE0) := by
    have : memRead area2 0x100000 0xFE0 = memRead area1 0x100000 0xFE0 := by
      unfold area2; exact memRead_memWrite_out _ _ _ _ _ (by omega)
    rw [this]
    have := memRead_memWrite_in area1 0x100FE0 (kmac (Config.saveKey 0) "CHRODAR-SAVE" (memRead area1 0x100000 0xFE0))
    rw [length_kmac] at this; exact this
  have hi : memRead area2 (0x100000 + 0x28) 32 = kmac (Config.saveKey 0) "CHRODAR-RIMG" [] := by
    unfold area2
    rw [memRead_memWrite_out _ _ _ _ _ (by omega)]
    have := memRead_memWrite_in area0 0x100028 (kmac (Config.saveKey 0) "CHRODAR-RIMG" [])
    rw [length_kmac] at this; exact this
  have hg : areaGaps.any (fun g => memNat area2 (0x100000 + g.1) g.2 ≠ 0) = false := by
    have : ∀ g ∈ areaGaps, memNat area2 (0x100000 + g.1) g.2 = memNat area0 (0x100000 + g.1) g.2 := by
      intro g hg
      have hb : ∀ g ∈ areaGaps, 0x100000 + g.1 + g.2 ≤ 0x100028 ∨ (0x100048 ≤ 0x100000 + g.1 ∧ 0x100000 + g.1 + g.2 ≤ 0x100FE0) := by decide +kernel
      unfold memNat
      rw [area_reads _ _ (by have := hb g hg; omega)]
    rw [List.any_eq_false]
    intro g hg'
    rw [this g hg']
    revert g; decide +kernel
  unfold checkArea
  simp only [hp, hm, hk, h0, h10, h18, h20, h48, ht, hg]
  rw [show bits 0 31 0 = 0 from rfl, show memRead area2 0x101000 0 = [] from rfl, hi]
  rw [if_neg (by decide), if_neg (by simp), if_neg (by decide +kernel), if_neg (by decide), if_neg (by simp), if_neg (by decide +kernel),
    if_neg (by decide +kernel)]

/-- The head of that core. -/
def savedHead : QTask := { queuedTask with save := some (0xA000, 0x100000), code := some {} }

/-- The state in which the chain of its region has been read. -/
def saved1 : State := (reach saved [(0x1000, 160)]).toOption.getD saved

/-- The state in which its region's effective values are computed. -/
def saved2 : State := setEff saved1 0x1000 (effOf saved1 [0x1000])

theorem saved1_eq : reach saved [(0x1000, 160)] = .ok saved1 := by
  have h : (reach saved [(0x1000, 160)]).isOk = true := by decide +kernel
  unfold saved1
  cases hr : reach saved [(0x1000, 160)] with
  | ok t => rfl
  | error e => rw [hr] at h; cases h

theorem checkArea_reached {s t : State} (h : Reached s t) (c : Nat) (q : QTask) (a : Nat) : checkArea t c q a = checkArea s c q a := by
  unfold checkArea
  simp only [memW, poisonIn, engUsable, coreUsable, h.mem, h.poison, h.keys, h.units, h.bootMap]
  rfl

theorem setEff_mem (s : State) (a : Nat) (e : Eff) : (setEff s a e).mem = s.mem := rfl

theorem checkArea_setEff (s : State) (b : Nat) (e : Eff) (c : Nat) (q : QTask) (a : Nat) :
    checkArea (setEff s b e) c q a = checkArea s c q a := rfl

theorem dispatchEff_ok {s t : State} {q : QTask} {ch : List Nat} (hr : reachGood s (regionReads s q.rcb) = .ok t)
    (h : regionChain t q.rcb = some ch) : dispatchEff s q = .ok (setEff t q.rcb (effOf t ch), effOf t ch) := by
  simp only [dispatchEff, readRegion, h, bind, Except.bind, hr]

theorem witness_LoaderAndBudgets_restore :
    let q := savedHead
    headTask (getCore saved 0) = some q ∧ tokenHolds saved 0 = false ∧ q.waits (getCore saved 0) = false ∧
    dispatchEff saved q = .ok (saved2, effOf saved1 [0x1000]) ∧ overBudget saved2 q.rcb = false ∧
    headCode saved2 0 q (effOf saved1 [0x1000]) = .ok (saved2, {}) ∧ direct (getCore saved2 0) q {} = false ∧
    (∃ al, takeVictims 0 q.tt {} saved2 [] [] = some (saved2, [], al)) ∧ (getCore saved2 0).slots = [] ∧ q.save = some (0xA000, 0x100000) ∧
    ∃ s3, reach saved2 [(0x100000, 4096), (memW saved2 (0x100000 + 0x18), memW saved2 (0x100000 + 0x20) % 2 ^ 32)] = .ok s3 ∧
      checkArea s3 0 q 0x100000 = .ok [] := by
  have hw : ∀ a, a + 8 ≤ 0x100000 → memW saved a = memNat area0 a 8 := fun a h => area_words a (by omega)
  have h1 : rcbOk saved 0x1000 = true := by
    have : ∀ m ∈ rcbMask.zipIdx, memW saved (0x1000 + 8 * m.2) &&& m.1 = memW saved (0x1000 + 8 * m.2) := by
      intro m hm
      have : m.2 < 32 := by revert m; decide +kernel
      rw [hw _ (by omega)]; revert m; decide +kernel
    simp only [rcbOk, Bool.and_eq_true, decide_eq_true_eq, List.all_eq_true]
    exact ⟨⟨by decide, by decide⟩, fun m hm => by simpa using this m hm⟩
  have h0 : memW saved 0x1000 = 0 := by rw [hw 0x1000 (by omega)]; decide +kernel
  have hr := reach_reached saved1_eq
  have h11 : rcbOk saved1 0x1000 = true := by
    have : rcbOk saved1 0x1000 = rcbOk saved 0x1000 := by unfold rcbOk memW; rw [hr.mem]
    rw [this, h1]
  have h2 : regionChain saved1 0x1000 = some [0x1000] := by
    have : memW saved1 0x1000 = 0 := by rw [← h0]; simp only [memW, hr.mem]
    simp [regionChain, rcbChain, h11, this]
  have h3 : reachGood saved (regionReads saved 0x1000) = .ok saved1 := by
    have hp : saved1.poison = [] := by rw [hr.poison]; rfl
    have : regionReads saved 0x1000 = [(0x1000, 160)] := by simp [regionReads, pathReads, h1, h0]
    simp [reachGood, this, saved1_eq, bind, Except.bind, poisonIn, hp]
  have hm2 : saved2.mem = saved.mem := by rw [saved2, setEff_mem]; exact hr.mem
  have hs : (getCore saved2 0).slots = [] := by
    have : saved1.cores = saved.cores := hr.cores
    simp only [saved2, setEff, getCore, this]; rfl
  have hb : budgetsOf saved1 [0x1000] = [budgetAt saved1 0x1000 0x1000] := rfl
  have hb2 : (budgetAt saved1 0x1000 0x1000).bpol = true := by
    have : memW saved1 (0x1000 + 8) = memNat area0 0x1008 8 := by
      rw [← hw 0x1008 (by omega)]; simp only [memW, hr.mem]
    simp only [budgetAt, this]; decide +kernel
  have he : charged saved2 0x1000 = [budgetAt saved1 0x1000 0x1000] := by
    have : saved1.effs = [] := hr.effs
    simp only [charged, effNow, saved2, setEff, this]
    simp [tabFind, tabSet, effOf, hb]
  have hk : ∀ a, memW saved2 a = memW saved a := fun a => by simp only [memW, hm2]
  have h18 : memW saved2 (0x100000 + 0x18) = 0x101000 := by rw [hk, area_words _ (by omega)]; decide +kernel
  have h20 : memW saved2 (0x100000 + 0x20) = 0 := by rw [hk, area_words _ (by omega)]; decide +kernel
  refine ⟨rfl, rfl, by decide +kernel, ?_, ?_, rfl, rfl, ⟨{}, ?_⟩, hs, rfl, ?_⟩
  · exact dispatchEff_ok h3 h2
  · show overBudget saved2 0x1000 = false
    simp [overBudget, overrunning, he, hb2]
  · have : fitSet (getCore saved2 0) [] queuedTask.tt {} = some {} := by
      have h : saved1.cores = saved.cores := hr.cores
      simp only [saved2, setEff, getCore, h]; decide +kernel
    simp only [takeVictims, show savedHead.tt = queuedTask.tt from rfl, List.map_nil, this]
  · rw [h18, h20]
    have h : (reach saved2 [(0x100000, 4096), (0x101000, 0 % 2 ^ 32)]).isOk = true := by decide +kernel
    cases hr3 : reach saved2 [(0x100000, 4096), (0x101000, 0 % 2 ^ 32)] with
    | error e => rw [hr3] at h; cases h
    | ok s3 =>
      refine ⟨s3, rfl, ?_⟩
      rw [checkArea_reached (reach_reached hr3)]
      rw [saved2, checkArea_setEff, checkArea_reached hr]
      exact saved_checks

/-! ## Witnesses: encodings, steps, invariants -/

theorem witness_DecodeEncode :
    (Instr.ldb 31 31 15 0x7FF).wf ∧ (encodeC (.ldb 31 31 15 0x7FF)).isSome = true ∧ (Instr.copy ⟨31, 31⟩ 15 0 15 15 true true).wf ∧
    (encodeL (.copy ⟨31, 31⟩ 15 0 15 15 true true)).isSome = true ∧ (Instr.drainx ⟨16, 31⟩ 3 7 256).wf ∧ (encodeS (.drainx ⟨16, 31⟩ 3 7 256)).isSome = true ∧
    (⟨7, ⟨31, 31⟩, false, .vadd (sl 15 15 29 0 7 true true 4 true 0 0x1FFF), .mgo (sl 0 0 0 0 0 false false 0 false 0 0)⟩ : XWord).wf := by decide +kernel

theorem witness_StepMovesTheNextAgent :
    let s : State := { st t0 with agenda := [.seq 0 0 .l] }
    let s1 : State := st t0
    (coreRuns s 0 = true ∧ mayIssue s 0 0 .l = true ∧ nth (getCore s 0).issued (seqCode .l) false = false ∧ withheld s 0 = false ∧ outranked s1 0 0 .l = false ∧
      fetchWord (getTask s 0 0) .l (taskCtl (getTask s 0 0) .l).pc = some 0 ∧ fetchBad s1 .l = false ∧ (Rule.decoded .l 0).1.isSome = true ∧ (Rule.decoded .l 0).2 = [] ∧
      (Rule.decoded .l 0).1.map (Machine.ready s1 .l) = some true ∧ (Rule.decoded .l 0).1.map (Machine.ready (st { t0 with jlate := [(0, 1)] }) .l) = some false) ∧
    (reservedCycle { cyc := 8 } = true ∧ handlerReady s1 0 = false) ∧
    (eventInfo s1 (.copyCommand 511) = some (true, some 511, true) ∧ s.bootst = 1 ∧ (getCore s 511).freeze = 0 ∧ ({ s with bootst := 3 } : State).bootst ≠ 1 ∧
      (getCore (run (.timingReplay 511) s1) 511).freeze ≠ 0) ∧ eventInfo s1 (.add 0 0 0) = none ∧ ¬(512 < 512 ∧ 0 < 4) ∧ s.tadj = 0 := by
  decide +kernel

theorem witness_XWordsIssue :
    let w : XWord := ⟨0, ⟨0, 0⟩, false, .nop, .nop⟩
    (xOf' xs).until_ ≤ xs.cycle ∧ (match fetch xs .x with | .ok n => n == 0 | .error _ => false) = true ∧ decodeX 0 = (some w, []) ∧ xFails (ctxOf xs .x) w = [] ∧ (xOf' xs).next + w.gap ≤ (xOf' xs).count ∧
    interlocked (xOf' xs) (slotItems w.a ++ slotItems w.b) = false ∧ okIs (holdWord (settle xs) w) () = true ∧ w.tok.wait.getLsbD 4 = false ∧
    stoppedAt (runSlots (modCtl (settle xs) .x fun c => { c with hold := none }) w) = false ∧ owedPush (me xs) = none := by decide +kernel

theorem witness_XWordsIssue_waits :
    let w : XWord := ⟨0, ⟨18, 0⟩, false, .nop, .nop⟩
    let n := (encodeXWord 0 w.tok .nop .nop).getD 0
    let s (n : Nat) : State := xs { t2 with code := { t2.code with x := leBytes 16 n } }
    let s0 := modCtl (settle (s n)) .x fun c => { c with hold := none }
    decodeX n = (some w, []) ∧ (match fetch (s n) .x with | .ok k => k == n | .error _ => false) = true ∧ xFails (ctxOf (s n) .x) w = [] ∧
    w.tok.wait.getLsbD 4 = true ∧ w.tok.wait.toNat % 16 = 2 ∧ interlocked (xOf' (s n)) (slotItems w.a ++ slotItems w.b) = false ∧
    okIs (holdWord (settle (s n)) w) () = true ∧ stoppedAt (runSlots (modMe s0 fun t => tokPop t 2) w) = false ∧
    tokAvail (me (settle (xs { t2 with tok := [] }))) 2 = false ∧
    (let i : Instr := .xloop (sl 1 0 0 3 0 false false 0 false 0 2)
     let r := runSlots (modCtl (settle xs) .x fun c => { c with hold := none }) { w with tok := nt, b := i }
     let v := runSlots (modCtl (settle xs) .x fun c => { c with hold := none }) { w with tok := nt, b := .vcheck (sl 28 1 0 0 0 false false 0 false 0 0) }
     stoppedAt r = false ∧ (ctl r .x).st = .run ∧ stoppedAt v = true ∧ (ctl v .x).hold = none) ∧
    (let v := run (.mgo (sl 0 0 0 0 0 false false 0 false 0 0)) xm
     let r := runSlots (modCtl (settle v) .x fun c => { c with hold := none }) { w with tok := nt, b := .vrdacc (sl 8 0 0 0 0 false false 0 false 0 0) }
     (ctl r .x).hold.isSome = true) := by decide +kernel

theorem witness_MemoriesStayCanonical :
    let s : State := { ls with agenda := [.seq 0 0 .c], mem := world }
    s.memoriesWf = true ∧ isNext (step s) = true ∧ State.reset.memoriesWf = true := by decide +kernel

/-- R304, R306: the loader takes the victim that a head needs, stages the head beside it, or waits for the victim's scratchpad. -/
theorem test_loader :
    let u := run (.loaderStage 0) (crowded 3 2)
    ((getCore u 0).shadow.map fun h => (h.victims, h.staged.map (·.qt.tag), h.only)) = some ([(3, 0xA000, 0xC000)], [9], false) ∧ (getCore u 0).dq = [] ∧
    ((getCore (run (.loaderStage 0) (crowded 0 0)) 0).shadow.map fun h => (h.victims, h.staged.map (·.qt.tag), h.only)) = some ([(0, 0xA000, 0xC000)], [], true) ∧
    memNat u.mem 0xA040 1 = 1 := by decide +kernel

/-- R107: in verify mode every row is of class Q and in U. -/
theorem test_predict :
    let u := dq .pred (.predictScore 0) (run (.pred nt 5 8 9 true) ls)
    ((getCore u 0).qp.running.map fun r => r.chk.map fun k => (k.valid && k.vfy, k.mlist)) = [some (true, 0x1000)] ∧
    ((getCore u 0).qp.running.map fun r => r.chk.map fun k => k.u) = [some [(0, true)]] ∧
    memNat (getCore u 0).spm 0xE00 8 = 1 ∧ memNat (getCore u 0).spm 0xF00 8 = 1 ∧ memNat (getCore u 0).spm 0xD00 8 = 0 := by decide +kernel

theorem witness_LineInstructions_turns :
    let full := ls { t2 with pegs := List.replicate 8 ⟨1, 1, 0, .held⟩ }
    let u := run (.refresh 0) heldState
    pegTurn (Rule.begun .l nt ls) 0 0 0 = true ∧ pegTurn (Rule.begun .l nt full) 0 0 0 = true ∧ inSwap full 0 = false ∧
    ((getBank u 0).busy = true ∧ fitL u (.lnopen nt 11 0) = true ∧ ready .l nt u = true ∧
      okIs (lineAddr (Rule.begun .l nt u) 0x100000000) (some 0) = true) := by decide +kernel

theorem witness_LocalLoadAndRaggedUpdates_steps :
    let s := run (.rgapnd nt 2 1 3) (ls { t2 with y := [0, 1, 0x280, 2, 4, 5, 0, 0] })
    someAnd (me s).rag (fun r => r.done.isNone && okAnd (writeAt s (0, 0) r.head r.btab (leBytes 8 0)) fun _ => true) = true ∧
    (let v := moveSeq s 0 0 .s
     someAnd (me v).rag (fun r => r.done.isSome && okAnd (writeAt v (0, 0) r.last (r.ad + 88) (leBytes 8 3)) fun _ => true) = true ∧ linkWaits v 0 0 3 0 = false) := by decide +kernel

theorem witness_RemoteArrivals_grants :
    let a : Acc := { op := .llk, d := 3, size := 8, addr := 0x10500040, val := 5 }
    let w : LockWait := { bank := 1, line := 0, core := 0, slot := 0, handler := false, tslot := 2, off := 64, acc := a, since := 9 }
    let s : State := { peers with cores := [(0, { k0 with slots := [(0, t0)] }), (5, { waits := [w], slots := [(2, t0)] })] }
    (getCore s 5).waits = [w] ∧ Rule.lockOf (spmBase (getTask s 5 2) + 64) = (1, 0) ∧ lockHolder s 5 1 0 = none ∧ waitReady s w = true ∧ stillPeer s 0 0 5 2 = true ∧
    64 + 8 ≤ spmUsable (getTask s 5 2) ∧ lockBank (spmBase (getTask s 5 2) + 64) = 1 ∧ lockLine (spmBase (getTask s 5 2) + 64) = 0 ∧
    readError s (.spm 5 2 64) 8 = none := by decide +kernel

theorem witness_BanksAndScrubbing_windows :
    (openRow ls 8191 65535).isSome = true ∧ (getBank ls 8191).busy = false ∧ (getBank (run (.refresh 0) heldState) 0).busy = true ∧
    (rootRegion (w0 {}) = none ∧ (rootRegion { ls with root := some 0x1000 }).isSome = true) ∧
    (let u := run (.hotListScrub 0 65535 { corrected := [7], bad := [] }) (run (.patrolScrub 0 65535 { corrected := [7, 7, 9], bad := [15] }) ls)
     let e := rowErr (rollWindow u) 0 65535
     e.hot.isSome = true ∧ e.acted = false ∧ score e ≥ max 1 (scrubc u 0 / 2 ^ 32 % 256) ∧
       (let f := modBank u 0 fun b => { b with spares := 32 }
        (rowErr (rollWindow f) 0 65535).hot.isSome = true ∧ (rowErr (rollWindow f) 0 65535).acted = false ∧ (getBank f 0).spares ≥ 32)) ∧
    ls.time.toNat < ls.winAt + max 1 (ls.fltcfg.toNat % 2 ^ 16) * 3600 * 10 ^ 9 ∧
    (let s : State := { ls with errCnt := [(.mismatch 5 1, 2)] }
     errCount (rollWindow s) (.mismatch 5 1) ≥ faultThreshold s (.mismatch 5 1) ∧ FaultUnit.mismatch 5 1 ∉ (rollWindow s).lasting) := by
  decide +kernel

theorem witness_PowerAndLinks_bounds :
    (let k : Column := { window := 513, streak := 1 }
     k.vmin ≤ k.vmax ∧ 10 ≤ k.rtgt ∧ k.rtgt ≤ 30 ∧ k.vmin ≤ k.vcur ∧ k.vcur ≤ k.vmax ∧ 1 ≤ k.streak ∧
       ({ window := 3 } : Column).window * 2 ^ ({ window := 3 } : Column).rtgt ≤ 2 * 2 ^ 28 ∧
       ({ vcur := 200, vmax := 128 } : Column).vmax < ({ vcur := 200, vmax := 128 } : Column).vcur ∧
       ({ vcur := 0, vmin := 64 } : Column).vcur < ({ vcur := 0, vmin := 64 } : Column).vmin) ∧
    ((∀ t ∈ ([-80, 500, 0] : List Int), -80 ≤ t ∧ t ≤ 500) ∧ ∃ t ∈ ([-81, 500, 0] : List Int), t < -80 ∨ 500 < t) ∧
    okAnd (touchRange ls none 0x100 8 false) (fun _ => true) = true ∧
    (let f : Flit := { seq := 1, m := 2, body := .ack 0, by_ := some (0, 0, 0, 1), va := 0x20000000040 }
     let s : State := { ls with links := [(2, { retrain := true, fails := 17, unacked := [f] })] }
     s.ports.testBit 2 = true ∧ (tabGet {} s.links 2).unacked = [f] ∧ f.by_ = some (0, 0, (getTask s 0 0).uid, 1) ∧ resident s 0 0 = true) ∧
    (let f (q : Nat) : Flit := { seq := 1, m := 2, body := .write 0x100 [], by_ := some (0, 0, t2.uid, q), va := 0x20000000040, idx := 5 }
     let m : Cmd := { slot := 0, tag := 7, idx := 5, from_ := (0, 0, 1), words := [0x10], flm := 0, gap := 0 }
     let s : State := { ls { t2 with rag := some { ad := 0, btab := 0, gen := 0, head := .mem 0, last := .mem 0 } } { qc := { running := [{ cmd := m }] } } with
       links := [(2, { retrain := true, unacked := [f 3] })]
       remote := [.link 0 0 false 2 1 { op := .load false, d := 3, size := 8, addr := 0, val := 0 } none false] }
     (getTask s 0 0).rag.isSome = true ∧ (f 3).by_ = some (0, 0, (getTask s 0 0).uid, 3) ∧ (f 4).by_ = some (0, 0, (getTask s 0 0).uid, 4) ∧
       (getCore s 0).qc.running.map (fun r => (r.cmd.slot, r.cmd.idx)) = [(0, (f 4).idx)] ∧ resident s 0 0 = true ∧ s.remote.length = 1) := by
  decide +kernel

theorem witness_HostAccesses_waits :
    (let u : State := { run (.refresh 0) heldState with hostq := [.read 0 1] }
     u.bootst = 1 ∧ u.hostq = .read 0 1 :: [] ∧ okAnd (hostAccess u (.read 0 1)) (fun _ => true) = false ∧
       okAnd (touchRange u none 0 1 false) (fun _ => true) = false) ∧ ls.hostq = [] ∧
    okAnd (touchRange ls none (2 ^ 39 - 1) 1 true) (fun _ => true) = true ∧ ls.hlock.testBit 1 = false ∧ tabFind ls.sbAt 0x20000 ≠ some ls.cycle ∧
    tabFind ({ ls with sbAt := [(0x20000, 100)] } : State).sbAt 0x20000 = some 100 ∧ tabFind ({ ls with sbAt := [(0, 100)] } : State).sbAt 0 = some ls.cycle ∧
    tabFind ls.sbAt 0 ≠ some ls.cycle ∧ ({ ls with hlock := 2 } : State).hlock.testBit 1 = true := by
  decide +kernel

theorem witness_ResetsAndSecurity_loads :
    ((∀ m, m ∈ ls.images ∨ m ∈ ls.stored → imageGood ls m = true) ∧ ls.keys.present = true ∧ ls.superv.block = [] ∧ ls.superv.table = []) ∧
    (let s : State := { ls with superv := { rcb := 0x1000, block := [1], types := 0x4000, table := [2, 3] }, units := [(3, 6)] }
     s.superv.block ≠ [] ∧ 1 < s.superv.table.length ∧ (3, 6) ∈ s.units ∧ (6 : Nat).testBit 0 = false ∧ s.unitBack = []) ∧
    (let s : State := { ls with svn := 3, images := [⟨2, 2, [], 0⟩] }
     s.stored = [] ∧ ∃ m ∈ s.images, imageGood s m = false) ∧ (∀ a ∈ ls.alarms, a.at_ ≠ some ls.cycle ∨ a.src ≤ 0) :=
  ⟨⟨by intro m h; cases h <;> contradiction, rfl, rfl, rfl⟩, by decide, ⟨rfl, _, .head _, rfl⟩, by intro a h; contradiction⟩

/-- The task at a word of C. -/
def atWord (w : Nat) : State := st { t0 with code := { t0.code with c := leBytes 4 w } } k0

theorem witness_StepMovesTheNextAgent_order :
    (let s := st { t0 with lc := {} }
     (Rule.decoded .l 0).1.map (fun i => yields s (noteLate s .l i (run i s)) 0 0 1) = some false) ∧
    (let s := run (.commandDequeue 0 .copy) (run (.copy ⟨0, 20⟩ 5 0 4 12 true false) le2)
     eventRank s (.copyCommand 0) = some (0, 0, 5) ∧ yields s (run (.copyCommand 0) s) 0 0 5 = false) ∧
    (let i : Instr := .stb 1 7 0 0
     let u := atWord ((encodeC i).getD 0)
     let t := moveSeq u 0 0 .c
     nextC u = some i ∧ orderOf i = .store 0 ∧ storePlace u i = some (.spm 0 0 64, 1) ∧ storeDone u t = true) ∧
    (let i : Instr := .stl 1 7 14 3 1 0
     let u := atWord ((encodeC i).getD 0)
     nextC u = some i ∧ orderOf i = .release 14 1 ∧ storePlace u i = some (.spm 0 0 64, 8) ∧ storeDone u (moveSeq u 0 0 .c) = true) ∧
    (let s := atWord ((encodeC (.tkwait 4)).getD 0)
     let s : State := modTask s 0 0 fun t => { t with tok := [0, 0, 0, 0, 1], lc := {} }
     yields s (noteLate s .l (.jli ⟨20, 0⟩ 3 7) (run (.jli ⟨20, 0⟩ 3 7) s)) 0 0 1 = true) ∧
    (let e : Held := { who := .seq 0 0 .c, cls := 0, place := .mem 0x200040, bytes := [1] }
     let r : Held := { e with rel := some 1 }
     (e.place = .mem 0x200040 ∧ 0x200040 / 2 ^ 21 % 2 ^ 18 = ({ a := 1, b := 3 } : Swap).a) ∧
     e.rel = none ∧ inScope 1 r.who (.seq 300 0 .c) = false ∧ inScope 1 r.who (.seq 0 3 .l) = true) ∧
    (let i : Instr := .fence 3 0xFFFF
     let u := atWord ((encodeC i).getD 0)
     let e : Held := { who := .seq 0 0 .c, cls := 15, place := .mem 0, bytes := [1] }
     nextC u = some i ∧ inScope 3 (.seq 0 0 .c) (.run 300 1 0 0) = true ∧ e.who = .seq 0 0 .c ∧ (0xFFFF : BitVec 16).getLsbD e.cls = true ∧
       (publish (.seq 0 0 .c) (fun e => (0xFFFF : BitVec 16).getLsbD e.cls) 3 { u with held := [e] }).held.length = 1) := by
  decide +kernel

end Sys2Proof.Tests
end

section
/-!
PROOFS. What the bytes of every memory read as after a store at a place (R2, R142): a store writes one memory, and there its own bytes.
-/
namespace Sys2Proof.Machine

/-! ## The memory that a store writes -/

theorem storeAt_spm_spm (s : State) (c slot off : Nat) (bs : List Byte) (d : Nat) :
    (getCore (storeAt s (.spm c slot off) bs) d).spm =
      if d = c then memWrite (getCore s c).spm (spmBase (getTask s c slot) + off) bs else (getCore s d).spm :=
  (storeAt_memories s (.spm c slot off) bs).1 d

theorem storeAt_mem_mem (s : State) (pa : Nat) (bs : List Byte) : (storeAt s (.mem pa) bs).mem = memWrite s.mem pa bs :=
  (storeAt_memories s (.mem pa) bs).2.1

theorem storeAt_far_farMem (s : State) (m pa : Nat) (bs : List Byte) :
    (storeAt s (.far m pa) bs).farMem = memWrite s.farMem (m * 2 ^ 41 + pa) bs :=
  (storeAt_memories s (.far m pa) bs).2.2

/-! ## Its bytes, and the others -/

/-- The place names the same bytes after the store, as no task's allotment moves. -/
theorem byteAt_storeAt (s : State) (p : Place) (bs : List Byte) (k : Nat) (h : k < bs.length) :
    Rule.byteAt (storeAt s p bs) p k = bs[k] := by
  cases p with
  | spm c slot off => simp only [Rule.byteAt, storeAt_getTask, storeAt_spm_spm, if_true, memByte_memWrite_in _ _ _ _ h]
  | mem pa => simp only [Rule.byteAt, storeAt_mem_mem, memByte_memWrite_in _ _ _ _ h]
  | far m pa => simp only [Rule.byteAt, storeAt_far_farMem, memByte_memWrite_in _ _ _ _ h]

theorem memByte_spm_storeAt_of_not_hitsSpm {s : State} {p : Place} {bs : List Byte} {c a : Nat}
    (h : ¬ Rule.hitsSpm s p bs.length c a) : memByte (getCore (storeAt s p bs) c).spm a = memByte (getCore s c).spm a := by
  cases p with
  | spm d slot off =>
    simp only [Rule.hitsSpm] at h
    rw [storeAt_spm_spm]
    split
    · subst c; exact memByte_memWrite_out _ _ _ _ (by omega)
    · rfl
  | mem pa => rfl
  | far m pa => rfl

theorem memByte_mem_storeAt_of_not_hitsMem {s : State} {p : Place} {bs : List Byte} {a : Nat}
    (h : ¬ Rule.hitsMem p bs.length a) : memByte (storeAt s p bs).mem a = memByte s.mem a := by
  cases p with
  | mem pa =>
    simp only [Rule.hitsMem] at h
    rw [storeAt_mem_mem]
    exact memByte_memWrite_out _ _ _ _ (by omega)
  | spm c slot off => rfl
  | far m pa => rfl

theorem memByte_farMem_storeAt_of_not_hitsFar {s : State} {p : Place} {bs : List Byte} {a : Nat}
    (h : ¬ Rule.hitsFar p bs.length a) : memByte (storeAt s p bs).farMem a = memByte s.farMem a := by
  cases p with
  | far m pa =>
    simp only [Rule.hitsFar] at h
    rw [storeAt_far_farMem]
    exact memByte_memWrite_out _ _ _ _ (by omega)
  | spm c slot off => rfl
  | mem pa => rfl

/-- Settles O8, memory by memory: the store's bytes where its place lies, and every other byte as before. -/
theorem storedBytesAndNoOthers : Obligations.StoredBytesAndNoOthers := fun s p bs =>
  ⟨byteAt_storeAt s p bs, fun _ _ => memByte_spm_storeAt_of_not_hitsSpm, fun _ => memByte_mem_storeAt_of_not_hitsMem,
    fun _ => memByte_farMem_storeAt_of_not_hitsFar⟩

end Sys2Proof.Machine
end

section
/-!
PROOFS. What a step does (R12, R15, R36): the move of the agent that the agenda names, then the drop of stale table words (R130).
-/
namespace Sys2Proof.Machine

/-! ## The step -/

theorem step_of_agenda {s : State} {a : Config.Agent} {rest : List Config.Agent} (h : s.agenda = a :: rest) :
    step s = moveAgent { s with agenda := rest } a := by simp only [step, h]

theorem moveAgent_of_moveAny {s t : State} {a : Config.Agent} (h : moveAny s a = .next t) : moveAgent s a = .next (dropStale t) := by
  simp only [moveAgent, h]

theorem step_of_moveAny {s t : State} {a : Config.Agent} {rest : List Config.Agent} (h : s.agenda = a :: rest)
    (hm : moveAny { s with agenda := rest } a = .next t) : step s = .next (dropStale t) :=
  (step_of_agenda h).trans (moveAgent_of_moveAny hm)

/-! ## Yielding at token queues (R19) -/

theorem yields_of_tokUses_eq {s t : State} {c n : Nat} (h : tokUses t c n = tokUses s c n) (r : Nat) : yields s t c n r = false := by
  simp only [yields, h, bne_self_eq_false, Bool.false_and]

theorem yields_cur (s : State) (x : Cursor) (c n r : Nat) : yields s { s with cur := x } c n r = false :=
  have h : getTask { s with cur := x } c n = getTask s c n := rfl
  yields_of_tokUses_eq (by simp only [tokUses, h]) r

theorem yields_self (s : State) (c n r : Nat) : yields s s c n r = false := yields_of_tokUses_eq rfl r

theorem moveSeq_of_not_yields {s t : State} {c n : Nat} {q : Seq} (h : moveSeqFree s c n q = t)
    (hy : yields s t c n (seqCode q) = false) : moveSeq s c n q = t := by
  simp only [moveSeq, h, hy, Bool.false_eq_true, if_false]

theorem moveSeq_of_yields {s t : State} {c n : Nat} {q : Seq} (h : moveSeqFree s c n q = t)
    (hy : yields s t c n (seqCode q) = true) : moveSeq s c n q = s := by
  simp only [moveSeq, h, hy, if_true]

/-! ## A word of C, L or S -/

/-- A word that is fetched whole and fails no check runs once what it reads is there, and waits until then (R36, R232, R241). -/
theorem issueWord_decoded {s : State} {q : Seq} {w : Nat} {i : Instr} (hq : q ≠ .x) (hw : fetchWord (me s) q (ctl s q).pc = some w)
    (hb : fetchBad s q = false) (hd : Rule.decoded q w = (some i, [])) :
    issueWord s q = if ready s q i then noteLate s q i (after s (exec i s)) else s := by
  have hf : fetch s q = .ok w := by simp [fetch, hw, hb]
  cases q with
  | c => simp only [Rule.decoded] at hd; simp [issueWord, hf, hd]
  | s => simp only [Rule.decoded] at hd; simp [issueWord, hf, hd]
  | l =>
    simp only [Rule.decoded] at hd
    cases hl : bubble s
    · simp [issueWord, hf, hd, hl]
    · simp [issueWord, hl, ready]
  | x => exact absurd rfl hq

/-- The sequencer of a started task that may issue, and that nothing comes before, issues its next word (R12). -/
theorem moveSeqFree_issues {s : State} {c n : Nat} {q : Seq} (hq : q ≠ .x) (hr : coreRuns s c = true) (hm : mayIssue s c n q = true)
    (hi : nth (getCore s c).issued (seqCode q) false = false) (hw : withheld s c = false) (ho : outranked s c n q = false)
    (hh : q = .c → reservedCycle (getCore s c) = true → handlerReady s c = false) :
    moveSeqFree s c n q = issueWord { s with cur := { core := c, slot := n } } q := by
  have hv : (q == .c && reservedCycle (getCore s c) && handlerReady s c) = false := by
    simp only [Bool.eq_false_iff, ne_eq, Bool.and_eq_true, beq_iff_eq]
    rintro ⟨⟨hc, hg⟩, hx⟩
    exact Bool.false_ne_true ((hh hc hg).symm.trans hx)
  have hm' := hm
  simp only [mayIssue, Bool.and_eq_true, Bool.not_eq_true', beq_iff_eq] at hm'
  obtain ⟨⟨⟨⟨hres, hst⟩, hha⟩, hrun⟩, -⟩ := hm'
  have ht : tryWord s c n q = issueWord { s with cur := { core := c, slot := n } } q := by
    cases q
    case x => exact absurd rfl hq
    all_goals rfl
  simp [moveSeqFree, hr, hres, hst, hha, hrun, hm, hi, hw, ho, hv, hq, ht]

/-- The C context of a task moves in order, its next word known (R261). -/
theorem moveC_inOrder {s : State} {c n : Nat} {i : Instr} (h : nextC { s with cur := { core := c, slot := n } } = some i)
    (f : State → State) :
    moveC s c (some n) false f = inOrder (.seq c n .c) { s with cur := { core := c, slot := n } } i f := by
  simp only [moveC, contextOf, h, Bool.false_eq_true, if_false]

theorem moveOrdered_c {s : State} {c n : Nat} {i : Instr} (h : nextC { s with cur := { core := c, slot := n } } = some i) :
    moveOrdered s c n .c = inOrder (.seq c n .c) { s with cur := { core := c, slot := n } } i fun s => moveSeq s c n .c :=
  have e : moveOrdered s c n .c = moveC s c (some n) false fun s => moveSeq s c n .c := rfl
  e.trans (moveC_inOrder h _)

/-- Where the agenda asks for it, what the word stores is held apart. -/
theorem moveC_held {s : State} {c n : Nat} {i : Instr} (h : nextC { s with cur := { core := c, slot := n } } = some i)
    (f : State → State) :
    moveC s c (some n) true f = held (.seq c n .c) { s with cur := { core := c, slot := n } } i f := by
  simp only [moveC, contextOf, h, if_true]

/-! ## Events -/

theorem moveEventFree_runs {s : State} {i : Instr} {compute : Bool} {core : Option Nat} (hi : eventInfo s i = some (compute, core, true))
    (hb : compute = true → s.bootst = 1) (hf : ∀ c, core = some c → (getCore s c).freeze = 0) : moveEventFree s i = exec i s := by
  have running : (compute && decide (s.bootst ≠ 1)) = false := by
    cases compute with
    | false => rfl
    | true => simp [hb rfl]
  cases core with
  | none => simp only [moveEventFree, hi, running, Bool.not_true, Bool.or_self, Bool.false_eq_true, if_false]
  | some c =>
    simp only [moveEventFree, hi, running, hf c rfl, Bool.not_true, ne_eq, not_true_eq_false, decide_false, Bool.or_self,
      Bool.false_eq_true, if_false]

/-- An event of a frozen core, or of compute while the module is halted, does not come about (R317, R342). -/
theorem moveEventFree_waits {s : State} {i : Instr} {compute : Bool} {core : Option Nat} (hi : eventInfo s i = some (compute, core, true))
    (h : (compute = true ∧ s.bootst ≠ 1) ∨ ∃ c, core = some c ∧ (getCore s c).freeze ≠ 0) : moveEventFree s i = .next s := by
  rcases h with ⟨hc, hb⟩ | ⟨c, hc, hf⟩
  · simp [moveEventFree, hi, hc, hb]
  · simp [moveEventFree, hi, hc, hf]

theorem moveEvent_of_not_yields {s t : State} {i : Instr} (h : moveEventFree s i = .next t)
    (hy : ∀ c n r, eventRank s i = some (c, n, r) → yields s t c n r = false) : moveEvent s i = .next t := by
  simp only [moveEvent, h]
  split
  · rename_i c n r hr
    rw [hy c n r hr]; rfl
  · rfl

/-- An event that moves leads to what its instruction leads to, or changes nothing. -/
theorem moveEvent_cases {s t : State} {i : Instr} (h : moveEvent s i = .next t) : t = s ∨ exec i s = .next t := by
  have free : ∀ u, moveEventFree s i = .next u → u = s ∨ exec i s = .next u := by
    intro u hu
    unfold moveEventFree at hu
    split at hu
    · cases hu
    · split at hu
      · cases hu
      · dsimp only at hu
        generalize (_ || _ : Bool) = waits at hu
        cases waits
        · exact .inr hu
        · cases hu; exact .inl rfl
  unfold moveEvent at h
  split at h
  · rename_i u hu
    split at h
    · split at h <;> cases h
      · exact .inl rfl
      · exact free _ hu
    · cases h; exact free _ hu
  · exact free _ h

/-- While no store is held apart, an event comes about plainly. -/
theorem moveAny_ev {s : State} (h : s.held = []) (i : Instr) : moveAny s (.ev i) = moveEvent s i := by
  unfold moveAny
  split <;> try contradiction
  · rename_i c n k he
    cases he
    split
    · rename_i t ht
      rw [viewed_none h, ht]; rfl
    · rfl
  · rename_i hn he
    cases he
    rw [afterSeen_none h]

end Sys2Proof.Machine
end

section
/-!
PROOFS. A cycle of the core clock writes no byte of stack memory or of a scratchpad, and every resident task stays, with its TAG.
-/
namespace Sys2Proof.Machine

/-! ## What a cycle leaves alone -/

/-- Stack memory and the scratchpads are as before, and every resident task is still there. -/
structure Undisturbed (s t : State) : Prop where
  mem : t.mem = s.mem
  spm : ∀ c, (getCore t c).spm = (getCore s c).spm
  task : ∀ c n, resident s c n = true → resident t c n = true ∧ (getTask t c n).tag = (getTask s c n).tag

/-- The same, before the clock moves on. -/
structure WithinCycle (s t : State) : Prop extends Undisturbed s t where
  cycle : t.cycle = s.cycle

theorem Undisturbed.trans {s t u : State} (h : Undisturbed s t) (g : Undisturbed t u) : Undisturbed s u where
  mem := g.mem.trans h.mem
  spm c := (g.spm c).trans (h.spm c)
  task c n hs :=
    have ⟨ht, e⟩ := h.task c n hs
    have ⟨hu, f⟩ := g.task c n ht
    ⟨hu, f.trans e⟩

namespace WithinCycle

/-- A move that leaves memory, the cores and the cycle leaves all of it. -/
theorem of_cores {s t : State} (hm : t.mem = s.mem) (hc : t.cores = s.cores) (hy : t.cycle = s.cycle) : WithinCycle s t := by
  have hg : ∀ c, getCore t c = getCore s c := fun c => by simp only [getCore, hc, hy]
  exact ⟨⟨hm, fun c => by rw [hg], fun c n h => by simpa only [resident, getTask, hg, and_true] using h⟩, hy⟩

theorem refl (s : State) : WithinCycle s s := of_cores rfl rfl rfl

theorem trans {s t u : State} (h : WithinCycle s t) (g : WithinCycle t u) : WithinCycle s u :=
  ⟨h.toUndisturbed.trans g.toUndisturbed, g.cycle.trans h.cycle⟩

/-- Moves made one after another leave what each leaves. -/
theorem foldl {α : Type} {f : State → α → State} (hf : ∀ s a, WithinCycle s (f s a)) (l : List α) (s : State) :
    WithinCycle s (l.foldl f s) := by
  induction l generalizing s with
  | nil => exact .refl s
  | cons a l ih => exact (hf s a).trans (ih _)

theorem modCore (s : State) (c : Nat) {g : Core → Core} (hs : ∀ k, (g k).slots = k.slots) (hm : ∀ k, (g k).spm = k.spm) :
    WithinCycle s (modCore s c g) := by
  have hg : ∀ d, (getCore (Machine.modCore s c g) d).spm = (getCore s d).spm ∧
      (getCore (Machine.modCore s c g) d).slots = (getCore s d).slots := by
    intro d
    by_cases hd : d = c
    · subst hd; simp only [getCore_modCore_same, hs, hm, and_self]
    · simp only [getCore_modCore_ne _ _ hd, and_self]
  exact ⟨⟨rfl, fun d => (hg d).1, fun d n h => by simpa only [resident, getTask, (hg d).2, and_true] using h⟩, rfl⟩

theorem modTask (s : State) (c n : Nat) {f : Task → Task} (hf : ∀ t, (f t).tag = t.tag) : WithinCycle s (modTask s c n f) := by
  refine ⟨⟨rfl, fun d => ?_, fun d m h => ?_⟩, rfl⟩
  · by_cases hd : d = c
    · subst hd; simp only [Machine.modTask, putTask, getCore_modCore_same]
    · simp only [Machine.modTask, putTask, getCore_modCore_ne _ _ hd]
  · by_cases hd : d = c ∧ m = n
    · obtain ⟨rfl, rfl⟩ := hd
      refine ⟨?_, by rw [getTask_modTask_same, hf]⟩
      simp only [resident, Machine.modTask, putTask, getCore_modCore_same, tabFind_tabSet_same, Option.isSome_some]
    · have hne : d ≠ c ∨ m ≠ n := by omega
      refine ⟨?_, by rw [getTask_modTask_ne _ _ hne]⟩
      by_cases hc : d = c
      · subst hc
        simpa only [resident, Machine.modTask, putTask, getCore_modCore_same, tabFind_tabSet_ne _ _ (hne.resolve_left (by simp))] using h
      · simpa only [resident, Machine.modTask, putTask, getCore_modCore_ne _ _ hc] using h

theorem modX (s : State) (f : XCtx → XCtx) : WithinCycle s (modX s f) :=
  modTask (f := fun t => { t with x := f t.x }) s _ _ fun _ => rfl

/-- What an event leads to, where each meaning of it leaves these things. -/
theorem after {s : State} {o : Out} (h : ∀ t, o = .next t → WithinCycle s t) : WithinCycle s (after s o) := by
  cases o with
  | next t => exact h t rfl
  | fault e => exact .refl s
  | refused e => exact .refl s

end WithinCycle

/-! ## The parts of a cycle -/

theorem landOne_withinCycle (s : State) (k : Nat) : WithinCycle s (landOne s k) := by
  have clear : ∀ (b : Prop) [Decidable b] (c a : Nat) (p : Nat → Bool), WithinCycle s (if b then sramClear s c a p else s) := by
    intro b _ c a p
    split
    · exact .modCore s _ (fun _ => rfl) fun _ => rfl
    · exact .refl s
  have count : ∀ (b : Prop) [Decidable b] (t : State), WithinCycle t (if b then t else bump t) := by
    intro b _ t
    split
    · exact .refl t
    · exact .of_cores rfl rfl rfl
  unfold landOne
  dsimp only
  split
  · exact .refl s
  · split
    · exact .refl s
    · exact (clear _ _ _ _).trans ((count _ _).trans (.modX _ _))

theorem landOp_withinCycle (s : State) (k : Nat) : WithinCycle s (landOp s k) := by
  unfold landOp
  split
  · split
    · refine .foldl (fun t j => ?_) _ s
      split
      · exact landOne_withinCycle t j
      · exact .refl t
    · exact landOne_withinCycle s k
  · exact .refl s

theorem dropOps_withinCycle (s : State) : WithinCycle s (dropOps s) := .modX s _

theorem settle_withinCycle (s : State) : WithinCycle s (settle s) := by
  refine WithinCycle.trans ?_ (dropOps_withinCycle _)
  refine .foldl (fun t k => ?_) _ s
  split
  · split
    · exact landOp_withinCycle t k
    · exact .refl t
  · exact .refl t

theorem idleX_withinCycle (s : State) : WithinCycle s (idleX s) := .trans (.modX s _) (settle_withinCycle _)

theorem idleRest_withinCycle (s : State) : WithinCycle s (idleRest s) := by
  refine .foldl (fun s k => ?_) _ s
  split
  · refine .foldl (fun s e => ?_) _ s
    dsimp only
    split
    · exact .trans (t := { s with cur := { core := k.1, slot := e.1 } }) (.of_cores rfl rfl rfl)
        ((idleX_withinCycle _).trans (.of_cores rfl rfl rfl))
    · exact .refl s
  · exact .refl s

@[simp] theorem setEngSt_slots (k : Core) (e : Nat) (x : EngSt) : (setEngSt k e x).slots = k.slots := by unfold setEngSt; split <;> rfl
@[simp] theorem setEngSt_spm (k : Core) (e : Nat) (x : EngSt) : (setEngSt k e x).spm = k.spm := by unfold setEngSt; split <;> rfl

theorem grantReq_withinCycle (s : State) (b : Nat) (r : Req) : WithinCycle s (grantReq s b r) := by
  refine .modCore s _ (fun k => ?_) fun k => ?_ <;>
    (simp only [List.foldl_cons, List.foldl_nil]; split <;> split <;> simp only [setEngSt_slots, setEngSt_spm])

theorem boundaryGrants_withinCycle (s : State) : WithinCycle s (boundaryGrants s) := by
  unfold boundaryGrants
  split
  · exact .refl s
  · refine .foldl (fun s col => .after fun t ht => ?_) _ s
    unfold execStartGrant at ht
    dsimp only at ht
    split at ht
    · cases ht; exact .refl s
    · cases ht
      exact .trans (.foldl (fun s r => grantReq_withinCycle s _ r) _ s) (.of_cores rfl rfl rfl)

theorem execCommandRetire_withinCycle {s t : State} {c k : Nat} {q : Queue} (h : execCommandRetire c q k s = .next t) :
    WithinCycle s t := by
  have leaves : ∀ s : State, WithinCycle s (modCore s c fun x => modEngQ x q fun e => { e with running := e.running.eraseIdx k }) :=
    fun s => .modCore s c (fun _ => by cases q <;> rfl) fun _ => by cases q <;> rfl
  have counted : ∀ (b : Prop) [Decidable b] (s : State) (l : Core → List (Nat × Nat)),
      WithinCycle s (if b then modCore s c fun x => { x with keys := l x } else s) := by
    intro b _ s l
    split
    · exact .modCore s c (fun _ => rfl) fun _ => rfl
    · exact .refl s
  have signals : ∀ (p : Nat → Bool) (l : List Nat) (u : Task), (l.foldl (fun t i => if p i then tokPush t i else t) u).tag = u.tag := by
    intro p l
    induction l with
    | nil => exact fun _ => rfl
    | cons i l ih => intro u; rw [List.foldl_cons, ih]; split <;> rfl
  unfold execCommandRetire at h
  dsimp only at h
  split at h
  · cases h; exact .refl s
  · split at h
    · cases h; exact .refl s
    · cases h
      refine WithinCycle.trans ?_ (.modTask _ _ _ fun u => ?_)
      · refine WithinCycle.trans ?_ (counted _ _ _)
        exact (leaves s).trans (.modCore _ c (fun _ => rfl) fun _ => rfl)
      · rw [signals]
        split <;> split <;> rfl

theorem dueRetirements_withinCycle (s : State) : WithinCycle s (dueRetirements s) := by
  refine .foldl (fun s k => .foldl (fun s j => .after fun t ht => ?_) _ s) _ s
  rcases moveEvent_cases ht with rfl | h
  · exact .refl t
  · exact execCommandRetire_withinCycle h

theorem relevel_withinCycle (s : State) (col : Nat) : WithinCycle s (relevel s col) := by
  unfold relevel
  dsimp only
  split
  · exact .refl s
  · refine WithinCycle.trans (t := modCol s col fun k => { k with level := levelOf s col }) (.of_cores rfl rfl rfl) ?_
    refine .foldl (fun s c => .foldl (fun s e => ?_) _ s) _ _
    split
    · exact .refl s
    · exact .modCore s c (fun _ => rfl) fun _ => rfl

theorem windowEnd_withinCycle (s : State) (col : Nat) : WithinCycle s (windowEnd s col) := by
  unfold windowEnd
  dsimp only
  split
  · exact .refl s
  · refine WithinCycle.trans ?_ (relevel_withinCycle _ _)
    exact .of_cores rfl rfl rfl

theorem windowsEnd_withinCycle (s : State) : WithinCycle s (windowsEnd s) := by
  unfold windowsEnd
  split
  · exact .foldl windowEnd_withinCycle _ s
  · exact .refl s

/-! ## The cores, a cycle later -/

theorem tabFind_map {α β : Type} (f : Nat → α → β) (l : Tab α) (c : Nat) :
    tabFind (l.map fun k => (k.1, f k.1 k.2)) c = (tabFind l c).map (f c) := by
  induction l with
  | nil => rfl
  | cons k l ih =>
    simp only [List.map_cons, tabFind]
    split
    · rename_i h; subst h; rfl
    · exact ih

theorem tabGet_eq_tabFind {α : Type} (d : α) (l : Tab α) (c : Nat) : tabGet d l c = (tabFind l c).getD d := by
  induction l with
  | nil => rfl
  | cons k l ih =>
    simp only [tabGet, tabFind]
    split
    · rfl
    · exact ih

theorem taskCycle_tag (b : Bool) (y : Nat) (t : Task) : (taskCycle b y t).tag = t.tag := by
  unfold taskCycle
  dsimp only
  split
  · rfl
  · split <;> rfl

theorem engineCycle_kept (y : Nat) (k : Core) : (engineCycle y k).slots = k.slots ∧ (engineCycle y k).spm = k.spm := by
  have winds : ∀ (l : List Running) (k : Core), (l.foldl (fun k r => windDown k r y) k).slots = k.slots ∧
      (l.foldl (fun k r => windDown k r y) k).spm = k.spm := by
    intro l
    induction l with
    | nil => exact fun _ => ⟨rfl, rfl⟩
    | cons r l ih =>
      intro k
      obtain ⟨h1, h2⟩ := ih (windDown k r y)
      have : (windDown k r y).slots = k.slots ∧ (windDown k r y).spm = k.spm := by
        simp only [windDown, List.foldl_cons, List.foldl_nil]
        split <;> split <;> simp only [setEngSt_slots, setEngSt_spm, and_self]
      exact ⟨h1.trans this.1, h2.trans this.2⟩
  exact winds _ _

theorem coreCycle_spm (y : Nat) (k : Core) : (coreCycle y k).spm = k.spm := by
  simp only [coreCycle]
  split
  · rfl
  · exact (engineCycle_kept _ _).2

theorem coreCycle_slots (y : Nat) (k : Core) :
    (coreCycle y k).slots = k.slots.map fun e => (e.1, taskCycle (decide (k.freeze ≠ 0)) y e.2) := by
  simp only [coreCycle]
  split
  · rfl
  · rw [(engineCycle_kept _ _).1]

/-- A task in a core that is not listed, or that the cycle moves on, is the task it was. -/
theorem coresCycle_undisturbed (s : State) :
    Undisturbed s { s with cycle := s.cycle + 1, cores := s.cores.map fun k => (k.1, coreCycle s.cycle k.2) } := by
  have hg : ∀ c, getCore { s with cycle := s.cycle + 1, cores := s.cores.map fun k => (k.1, coreCycle s.cycle k.2) } c =
      match tabFind s.cores c with
      | some k => coreCycle s.cycle k
      | none => { cyc := BitVec.ofNat 64 (s.cycle + 1) } := by
    intro c
    simp only [getCore, tabGet_eq_tabFind, tabFind_map fun _ k => coreCycle s.cycle k]
    cases tabFind s.cores c <;> rfl
  have hs : ∀ c, getCore s c = (tabFind s.cores c).getD { cyc := BitVec.ofNat 64 s.cycle } := fun c => tabGet_eq_tabFind ..
  refine ⟨rfl, fun c => ?_, fun c n h => ?_⟩
  · rw [hg, hs]
    cases tabFind s.cores c with
    | none => rfl
    | some k => exact coreCycle_spm _ k
  · simp only [resident, getTask, hg, hs, tabGet_eq_tabFind] at h ⊢
    cases hc : tabFind s.cores c with
    | none => simp only [hc, Option.getD_none] at h; cases h
    | some k =>
      simp only [hc, Option.getD_some, coreCycle_slots] at h ⊢
      rw [tabFind_map fun _ t => taskCycle (decide (k.freeze ≠ 0)) s.cycle t]
      cases ht : tabFind k.slots n with
      | none => rw [ht] at h; cases h
      | some t => exact ⟨rfl, taskCycle_tag _ _ t⟩

theorem clockCycle_undisturbed (s : State) : Undisturbed s (clockCycle s) ∧ (clockCycle s).cycle = s.cycle + 1 := by
  have before : WithinCycle s (dueRetirements (boundaryGrants (idleRest s))) :=
    (idleRest_withinCycle s).trans ((boundaryGrants_withinCycle _).trans (dueRetirements_withinCycle _))
  unfold clockCycle
  dsimp only
  generalize dueRetirements (boundaryGrants (idleRest s)) = t at before ⊢
  have ends := windowsEnd_withinCycle { t with cycle := t.cycle + 1, cores := t.cores.map fun k => (k.1, coreCycle t.cycle k.2) }
  exact ⟨before.toUndisturbed.trans ((coresCycle_undisturbed t).trans ends.toUndisturbed), ends.cycle.trans (congrArg (· + 1) before.cycle)⟩

/-- Table words dropped from the caches leave memories and tasks alone (R130). -/
theorem dropStale_withinCycle (s : State) : WithinCycle s (dropStale s) := by
  refine ⟨⟨rfl, fun c => by rw [dropStale_core], fun c n h => ?_⟩, rfl⟩
  simpa only [resident, getTask, dropStale_core, and_true] using h

end Sys2Proof.Machine
end

section
/-!
PROOFS. Stores of C held apart (R259 to R264): a late store stays held, and its move changes no scratchpad; a held store performs, is
shown to an agent, or is published to a scope.
-/
namespace Sys2Proof.Machine

/-! ## A word of C leaves the scratchpads of the other cores -/

/-- The same context runs, and the scratchpad of every core but its own is as before. -/
structure OwnSpmOnly (s t : State) : Prop where
  cur : t.cur = s.cur
  spm : ∀ d, d ≠ s.cur.core → (getCore t d).spm = (getCore s d).spm

namespace OwnSpmOnly

theorem refl (s : State) : OwnSpmOnly s s := ⟨rfl, fun _ _ => rfl⟩

theorem trans {s t u : State} (h : OwnSpmOnly s t) (g : OwnSpmOnly t u) : OwnSpmOnly s u :=
  ⟨g.cur.trans h.cur, fun d hd => (g.spm d (by rwa [h.cur])).trans (h.spm d hd)⟩

theorem of_kept {s t : State} (h : Kept s t) : OwnSpmOnly s t := ⟨h.cur, fun d _ => h.spm d⟩

theorem of_touched {s t : State} (h : Touched s t) : OwnSpmOnly s t := ⟨h.cur, fun d _ => h.spm d⟩

theorem modMyCore (s : State) (g : Core → Core) : OwnSpmOnly s (modMyCore s g) :=
  ⟨rfl, fun d hd => by rw [Machine.modMyCore, getCore_modCore_ne _ _ hd]⟩

theorem modMe (s : State) (f : Task → Task) : OwnSpmOnly s (modMe s f) := by
  rw [modMe_eq]; exact modMyCore s _

theorem modCtx (s : State) (f : CCtx → CCtx) : OwnSpmOnly s (modCtx s f) := by
  unfold Machine.modCtx
  split
  · exact modMyCore s _
  · exact modMe s _

theorem raise (s : State) (q : Seq) (cause detail : Nat) : OwnSpmOnly s (raise s q cause detail) := by
  unfold Machine.raise
  split
  · exact of_kept (kept_handlerFault ..)
  · exact .trans (of_kept (kept_modCtl s q _)) (modMe _ _)

/-- A request that leaves the core, and the word that waits for its answer. -/
theorem remote (s : State) (l : List Remote) (q : Seq) (f : Ctl → Ctl) : OwnSpmOnly s (modCtl { s with remote := l } q f) :=
  .trans (t := { s with remote := l }) ⟨rfl, fun _ _ => rfl⟩ (of_kept (kept_modCtl _ q f))

end OwnSpmOnly

/-! ## The accesses of stores -/

/-- A stop that leaves the state in which it came about. -/
def Stop.inPlace : Stop → Prop
  | .trapIn _ _ _ | .holdIn _ _ _ => False
  | _ => True

theorem stopWord_ownSpmOnly (s : State) (q : Seq) {e : Stop} (h : e.inPlace) : OwnSpmOnly s (stopWord s q e) := by
  cases e with
  | trap c d => exact .raise s q c d
  | trapIn t c d => exact h.elim
  | hold k n => exact .of_kept (kept_noteHold ..)
  | early k n => exact .of_kept (kept_noteHold ..)
  | holdIn t k n => exact h.elim
  | miss va acc => exact .of_kept (kept_noteMiss ..)

theorem issuedAt_ownSpmOnly (s : State) (q : Seq) (e : Stop) : OwnSpmOnly s (issuedAt s q e) := by
  cases e
  case trap | trapIn => exact .of_kept (kept_markIssue s q)
  all_goals exact .refl s

/-- A computation ends with a value that satisfies `P`, or with a stop that leaves the state. -/
def Ends {α : Type} (P : α → Prop) : M α → Prop
  | .ok a => P a
  | .error e => e.inPlace

namespace Ends

variable {α β : Type} {P : α → Prop} {Q : β → Prop}

theorem bind {m : M α} {f : α → M β} (h : Ends P m) (g : ∀ a, P a → Ends Q (f a)) : Ends Q (m >>= f) := by
  cases m with
  | ok a => exact g a h
  | error e => exact h

theorem need (b : Bool) (c d : Nat) : Ends (fun _ => True) (Machine.need b c d) := by cases b <;> trivial

end Ends

theorem inAllot_ends (s : State) (c n off k a : Nat) : Ends (fun _ => True) (inAllot s c n off k a) := by
  unfold inAllot; split <;> trivial

theorem onPeer_ends (s : State) (c n core off k a : Nat) : Ends (fun _ => True) (onPeer s c n core off k a) := by
  unfold onPeer
  split
  · trivial
  · exact inAllot_ends ..

theorem atPhysical_ends (s : State) (c n pa k a : Nat) : Ends (fun _ => True) (atPhysical s c n pa k a) := by
  unfold atPhysical
  split
  · trivial
  · split
    · exact onPeer_ends ..
    · trivial

theorem through_ends (s : State) (c n e va k : Nat) : Ends (fun _ => True) (through s c n e va k) := by
  unfold through
  split
  · split
    · trivial
    · split <;> trivial
  · exact atPhysical_ends ..

theorem entryFor_ends (s : State) (c n va k acc : Nat) (old : Bool) : Ends (fun _ => True) (entryFor s c n va k acc old) := by
  unfold entryFor
  dsimp only
  split
  · trivial
  · split
    · trivial
    · split
      · split <;> trivial
      · trivial

theorem placeOf_ends (s : State) (c n a k acc : Nat) (old : Bool) : Ends (fun _ => True) (placeOf s c n a k acc old) := by
  unfold placeOf
  split
  · exact inAllot_ends ..
  · split
    · unfold onCore
      split
      · exact inAllot_ends ..
      · exact onPeer_ends ..
    · exact (entryFor_ends ..).bind fun e _ => through_ends ..

/-- The resolution of an address answers a place, or stops in place. -/
theorem resolve_ends (s : State) (a k acc : Nat) : Ends (fun _ => True) (resolve s a k acc) := by
  unfold resolve
  dsimp only
  split
  · split
    · trivial
    · exact atPhysical_ends ..
  · exact placeOf_ends ..

theorem touch_ends (s : State) (who : Option (Nat × Nat)) (pa : Nat) (wr : Bool) : Ends (fun _ => True) (touch s who pa wr) := by
  cases who <;> simp only [touch] <;> (repeat' split) <;> trivial

/-- Rows touched change no scratchpad. -/
theorem touchRange_ends (s : State) (who : Option (Nat × Nat)) (pa k : Nat) (wr : Bool) :
    Ends (OwnSpmOnly s) (touchRange s who pa k wr) := by
  have stops : Ends (fun _ => True) (touchRange s who pa k wr) := by
    unfold touchRange
    split
    · trivial
    · generalize upto _ _ = l
      induction l generalizing s with
      | nil => trivial
      | cons g l ih =>
        rw [List.foldlM_cons]
        exact (touch_ends ..).bind fun t _ => ih t
  cases h : touchRange s who pa k wr with
  | ok t => exact .of_touched (touchRange_touched h)
  | error e => rw [h] at stops; exact stops

theorem storeAt_ownSpmOnly (s : State) (p : Place) (bs : List Byte) (h : ∀ c n off, p = .spm c n off → c = s.cur.core) :
    OwnSpmOnly s (storeAt s p bs) := by
  refine ⟨storeAt_cur .., fun d hd => ?_⟩
  rw [(storeAt_memories s p bs).1 d]
  cases p with
  | spm c n off => exact if_neg fun e => hd (e.trans (h c n off rfl))
  | mem pa => rfl
  | far m pa => rfl

/-- A store puts its bytes at its place and sets no register. -/
theorem accEffect_store {s : State} {a : Acc} (h : a.op = .store) (p : Place) :
    accEffect s a p = storeAt s p (leBytes a.size (a.val.toNat % 2 ^ (8 * a.size))) := by
  simp only [accEffect, accWrite, accResult, h]

theorem accAtBank_store_ends {s : State} {a : Acc} (h : a.op = .store) (n off : Nat) :
    Ends (OwnSpmOnly s) (accAtBank s a s.cur.core n off) := by
  simp only [accAtBank, h, accKind, if_true, accEffect_store h]
  exact storeAt_ownSpmOnly s _ _ fun c m b hp => by cases hp; rfl

theorem accGlobal_store_ends {s : State} {a : Acc} (h : a.op = .store) (pa : Nat) : Ends (OwnSpmOnly s) (accGlobal s a pa) := by
  refine (touchRange_ends ..).bind fun t ht => ?_
  simp only [h, accKind, if_true, accEffect_store h]
  exact ht.trans (storeAt_ownSpmOnly t _ _ fun c n off hp => by cases hp)

theorem accFar_store_ends {s : State} {a : Acc} (h : a.op = .store) (m pa : Nat) :
    Ends (OwnSpmOnly s) (accFar s a (.far m pa) m pa) := by
  have sent := OwnSpmOnly.of_touched (sendFlit_touched s m (accFlit s a (.far m pa) pa) (s.cur.core, s.cur.slot) 0 a.addr.toNat)
  simp only [accFar, accWrite, h]
  have stored := sent.trans (storeAt_ownSpmOnly _ (.far m pa) (leBytes a.size (a.val.toNat % 2 ^ (8 * a.size))) fun c n off hp => by cases hp)
  split
  · exact stored
  · exact stored.trans (.remote ..)

/-- Wherever a store goes, it writes no scratchpad but that of its own core: one of another core is asked to (R138). -/
theorem cAccess_store_ends {s : State} {a : Acc} (h : a.op = .store) : Ends (OwnSpmOnly s) (cAccess a s) := by
  unfold cAccess
  simp only [h, reduceCtorEq, decide_false, Bool.false_and, Bool.false_eq_true, if_false, Bool.or_self]
  refine (Ends.need ..).bind fun _ _ => (resolve_ends ..).bind fun p _ => ?_
  cases p with
  | spm c n off =>
    dsimp only
    split
    · rename_i hc; subst hc; exact accAtBank_store_ends rfl n off
    · exact .remote ..
  | mem pa => exact accGlobal_store_ends rfl pa
  | far m pa => exact accFar_store_ends rfl m pa

/-! ## The words that store -/

/-- A word of C that may be held apart makes one store. -/
theorem exec_holdable {i : Instr} (h : (holdable i).isSome = true) :
    ∃ a : State → Acc, (∀ s, (a s).op = .store) ∧ ∀ s, exec i s = execC i (fun s => cAccess (a s) s) s := by
  cases i
  case stb d a c o => exact ⟨fun s => { op := .store, d := 0, size := 1, addr := cmAddr s a o 1, val := reg s d }, fun _ => rfl, fun _ => rfl⟩
  case sth d a c o => exact ⟨fun s => { op := .store, d := 0, size := 2, addr := cmAddr s a o 2, val := reg s d }, fun _ => rfl, fun _ => rfl⟩
  case stw d a c o => exact ⟨fun s => { op := .store, d := 0, size := 4, addr := cmAddr s a o 4, val := reg s d }, fun _ => rfl, fun _ => rfl⟩
  case std d a c o => exact ⟨fun s => { op := .store, d := 0, size := 8, addr := cmAddr s a o 8, val := reg s d }, fun _ => rfl, fun _ => rfl⟩
  case stl d a c z sc o =>
    exact ⟨fun s => { op := .store, d := 0, size := 2 ^ z.toNat, addr := reg s a + BitVec.ofNat 64 (o.toNat * 2 ^ z.toNat), val := reg s d },
      fun _ => rfl, fun _ => rfl⟩
  all_goals cases h

theorem after_exec_holdable (s : State) {i : Instr} (h : (holdable i).isSome = true) : OwnSpmOnly s (after s (exec i s)) := by
  obtain ⟨a, ha, hx⟩ := exec_holdable h
  have issue := OwnSpmOnly.of_kept (kept_markIssue s .c)
  have body := cAccess_store_ends (s := markIssue s .c) (ha (markIssue s .c))
  rw [hx]
  rcases execC_cases i (fun s => cAccess (a s) s) s with ⟨f, -, e⟩ | ⟨t, ht, e⟩ | ⟨x, he, e⟩ <;> rw [e]
  · exact .raise ..
  · rw [ht] at body
    exact issue.trans (.trans body (.trans (.of_kept (kept_modCtl ..)) (.of_kept (kept_finish ..))))
  · rw [he] at body
    exact (issuedAt_ownSpmOnly ..).trans (stopWord_ownSpmOnly _ _ body)

theorem noteLate_ownSpmOnly (s t : State) (q : Seq) (i : Instr) : OwnSpmOnly t (noteLate s q i t) := by
  unfold noteLate
  split
  · cases q with
    | c =>
      dsimp only
      split
      · split
        · exact .refl t
        · exact .modCtx t _
      · exact .refl t
    | l =>
      dsimp only
      split
      · exact .modMe t _
      · exact .refl t
    | x => exact .refl t
    | s => exact .refl t
  · exact .refl t

/-- The next word of C, where it stores, changes no other core's scratchpad, whatever comes of it. -/
theorem issueWord_holdable {s : State} {i : Instr} (hn : nextC s = some i) (h : (holdable i).isSome = true) :
    OwnSpmOnly s (issueWord s .c) := by
  obtain ⟨w, hw, hd⟩ := Option.bind_eq_some_iff.mp hn
  unfold issueWord
  rw [if_neg (by simp)]
  simp only [fetch, hw]
  split
  · rename_i t ht
    split at ht <;> cases ht
    exact .raise ..
  · rename_i w' hw'
    split at hw' <;> cases hw'
    split
    · rename_i hr; rw [hr] at hd; cases hd
    · rename_i j hr
      rw [hr] at hd; cases hd
      split
      · exact (after_exec_holdable s h).trans (noteLate_ownSpmOnly ..)
      · exact .refl s
    · exact .raise ..

theorem moveSeq_holdable {s : State} {c n : Nat} {i : Instr} (hc : s.cur = { core := c, slot := n }) (hn : nextC s = some i)
    (h : (holdable i).isSome = true) : OwnSpmOnly s (moveSeq s c n .c) := by
  have hs : { s with cur := { core := c, slot := n } } = s := by rw [← hc]
  have free : OwnSpmOnly s (moveSeqFree s c n .c) := by
    unfold moveSeqFree
    simp only [hs]
    split
    · exact .refl s
    · split
      · exact .of_kept (kept_retire ..)
      · exact .refl s
      · exact .refl s
      · simp only [show (Seq.c == Seq.x) = false from rfl, Bool.false_and, Bool.false_eq_true, if_false]
        split
        · exact .refl s
        · simp only [tryWord, hs]
          exact issueWord_holdable hn h
      · exact .refl s
  unfold moveSeq
  dsimp only
  split
  · exact .refl s
  · exact free

/-! ## A late store stays held -/

/-- With the memories of `s`, a listed core has the scratchpad that it had in `s`. -/
theorem withMemories_spm (s t : State) (c : Nat) :
    (getCore (withMemories s t) c).spm = if (tabFind t.cores c).isSome then (getCore s c).spm else [] := by
  have hf : tabFind (withMemories s t).cores c =
      (tabFind t.cores c).map fun k => { k with spm := (getCore s c).spm, sramBad := (getCore s c).sramBad } :=
    tabFind_map (fun d (k : Core) => ({ k with spm := (getCore s d).spm, sramBad := (getCore s d).sramBad } : Core)) t.cores c
  rw [getCore, tabGet_eq_tabFind, hf]
  cases tabFind t.cores c <;> rfl

/-- A move that changes the scratchpad of its own core alone, a core that counts an issued word, leaves every scratchpad as it was
where the memories are put back. -/
theorem withMemories_spm_eq {s t : State} (h : OwnSpmOnly s t) (hd : storeDone s t = true) (c : Nat) :
    (getCore (withMemories s t) c).spm = (getCore s c).spm := by
  rw [withMemories_spm]
  split
  · rfl
  · rename_i hc
    have hk : getCore t c = { cyc := BitVec.ofNat 64 t.cycle } := by
      simp only [Bool.not_eq_true, Option.isSome_eq_false_iff, Option.isNone_iff_eq_none] at hc
      simp only [getCore, tabGet_eq_tabFind, hc, Option.getD_none]
    by_cases he : c = s.cur.core
    · have : nth (getCore t c).issued 0 false = true := by
        simp only [storeDone, Bool.and_eq_true] at hd
        rw [he, ← h.cur]; exact hd.1.1.2
      rw [hk] at this; cases this
    · rw [← h.spm c he, hk]

/-- The store that a word holds apart, where its place is near and no store is held. -/
theorem heldStore_eq {s : State} {i : Instr} {w : Viewer} {cls k : Nat} {rel : Option Nat} {p : Place} (hs : s.held = [])
    (hi : holdable i = some (cls, rel)) (hc : cls ≠ 15) (hp : storePlace s i = some (p, k)) (hf : ∀ m a, p ≠ .far m a)
    (hn : ∀ d j a, p = .spm d j a → d = s.cur.core) :
    ∃ e, heldStore w s i = some e ∧ e.who = w ∧ e.cls = cls ∧ e.place = p ∧ e.rel = rel ∧ e.seen = [] ∧ e.upTo = none := by
  obtain ⟨x, hx, -⟩ := Option.bind_eq_some_iff.mp hp
  obtain ⟨a, z⟩ := x
  have key : heldStore w s i = some
      { who := w, cls := cls, place := p, bytes := [], rel := rel, addr := a.toNat, page := usedPage s a.toNat, rcb := (me s).rcb } := by
    unfold heldStore
    simp only [hi, hp, hx, hs, List.any_nil]
    cases p with
    | spm d j b => simp [hn d j b rfl, hc]
    | mem pa => simp [hc]
    | far m b => exact absurd rfl (hf m b)
  exact ⟨_, key, rfl, rfl, rfl, rfl, rfl, rfl⟩

/-- R259, R264: a store that performs late leaves every memory as it was and stays held with its bytes. -/
theorem held_of_storeDone {s : State} {i : Instr} {w : Viewer} {f : State → State} {cls k : Nat} {rel : Option Nat} {p : Place}
    (hs : s.held = []) (hi : holdable i = some (cls, rel)) (hc : cls ≠ 15) (hp : storePlace s i = some (p, k)) (hf : ∀ m a, p ≠ .far m a)
    (hn : ∀ d j a, p = .spm d j a → d = s.cur.core) (hd : storeDone s (f s) = true) (ho : OwnSpmOnly s (f s)) :
    ∃ e, (held w s i f).held = [e] ∧ e.who = w ∧ e.cls = cls ∧ e.place = p ∧ e.bytes = bytesAt (f s) p k ∧ e.rel = rel ∧
      e.seen = [] ∧ e.upTo = none ∧ (held w s i f).mem = s.mem ∧ ∀ d, (getCore (held w s i f) d).spm = (getCore s d).spm := by
  obtain ⟨e, he, hw, hcls, hpl, hrel, hseen, hup⟩ := heldStore_eq (w := w) hs hi hc hp hf hn
  have key : held w s i f = { withMemories s (f s) with held := [{ e with bytes := bytesAt (f s) p k }] } := by
    unfold held
    simp only [he, hp, perform_none hs, ite_self, hd, if_true, hs, List.nil_append]
  rw [key]
  exact ⟨_, rfl, hw, hcls, hpl, rfl, hrel, hseen, hup, rfl, withMemories_spm_eq ho hd⟩

/-! ## Held stores perform -/

/-- Where no held store must perform, none does. -/
theorem parted_of_none {p : Held → Bool} {l : List Held} (h : ∀ e ∈ l, p e = false) : parted p l = ([], l) := by
  induction l with
  | nil => rfl
  | cons e l ih =>
    simp only [parted, ih fun x hx => h x (.tail _ hx), h e (.head _), List.any_nil, Bool.or_false, Bool.false_eq_true, if_false]

theorem perform_of_none {p : Held → Bool} {s : State} (h : ∀ e ∈ s.held, p e = false) : perform p s = s := by
  simp only [perform, parted_of_none h]; rfl

theorem mem_parted_of_pos {p : Held → Bool} {l : List Held} {e : Held} (he : e ∈ l) (h : p e = true) : e ∈ (parted p l).1 := by
  have := (parted_perm p l).mem_iff.mpr he
  rcases List.mem_append.mp this with h1 | h2
  · exact h1
  · rw [parted_performs p l e h2] at h; cases h

/-- The first held store performs at once. -/
theorem performOne_first {s : State} {e : Held} {r : List Held} (h : s.held = e :: r) :
    performOne s 0 = landHeld { s with held := r } e := by
  simp only [performOne, h, List.getElem?_cons_zero, List.take_zero, List.any_nil, Bool.false_eq_true, if_false,
    List.eraseIdx_cons_zero, putHeld, List.foldl_cons, List.foldl_nil]

/-- A store of stack memory that lands is recorded by a swap of its region under way (R71). -/
theorem landHeld_swap {s : State} {e : Held} {y : Swap} (h : s.swap = some y) :
    ∃ z, (landHeld s e).swap = some z ∧ (∀ g ∈ y.touched, g ∈ z.touched) ∧ z.a = y.a ∧ z.b = y.b ∧
      ∀ pa, e.place = .mem pa → pa / 2 ^ 21 % 2 ^ 18 = y.a ∨ pa / 2 ^ 21 % 2 ^ 18 = y.b → pa / 64 ∈ z.touched := by
  have other : (∀ pa, e.place ≠ .mem pa) → (landHeld s e).swap = s.swap := by
    intro hne
    cases hp : e.place with
    | spm c n off => simp only [landHeld, hp]; rfl
    | mem pa => exact absurd hp (hne pa)
    | far m pa => simp only [landHeld, hp]; rfl
  by_cases hp : ∃ pa, e.place = .mem pa
  · obtain ⟨pa, hp⟩ := hp
    have hr : bits pa 38 21 = pa / 2 ^ 21 % 2 ^ 18 := by rw [bits, Nat.shiftRight_eq_div_pow]
    have key : (landHeld s e).swap = some (if (y.a = bits pa 38 21 || y.b = bits pa 38 21) && !y.touched.contains (pa / 64)
        then { y with touched := y.touched ++ [pa / 64] } else y) := by
      simp only [landHeld, hp, storeAt, storeMem, recordWrite, h, Option.map_some]
    refine ⟨_, key, ?_⟩
    split
    · refine ⟨fun g hg => List.mem_append_left _ hg, rfl, rfl, fun pa' hp' _ => ?_⟩
      cases hp.symm.trans hp'
      exact List.mem_append_right _ (.head _)
    · rename_i hn
      refine ⟨fun _ hg => hg, rfl, rfl, fun pa' hp' hab => ?_⟩
      cases hp.symm.trans hp'
      rw [← hr] at hab
      refine Decidable.byContradiction fun hm => hn ?_
      simp only [Bool.and_eq_true, Bool.or_eq_true, decide_eq_true_eq, Bool.not_eq_true', List.contains_eq_mem, decide_eq_false_iff_not]
      exact ⟨hab.imp Eq.symm Eq.symm, hm⟩
  · exact ⟨y, (other fun pa hpa => hp ⟨pa, hpa⟩).trans h, fun _ hg => hg, rfl, rfl, fun pa hpa => absurd ⟨pa, hpa⟩ hp⟩

/-! ## Held stores reach other agents -/

/-- A wider scope holds the agents of a narrower one (Table 14.4). -/
theorem inScope_mono {k m : Nat} (h : k ≤ m) {a b : Viewer} (hs : inScope k a b = true) : inScope m a b = true := by
  unfold inScope at hs ⊢
  dsimp only at hs ⊢
  match k, m, h with
  | 0, 0, _ | 1, 1, _ | 2, 2, _ => exact hs
  | 0, 1, _ | 0, 2, _ | 1, 2, _ => simp only [beq_iff_eq] at hs ⊢; rw [hs]
  | _, m + 3, _ => rfl
  | k + 1, 0, h | k + 2, 1, h | k + 3, 2, h => omega

/-- A store published to a scope is seen by every agent in it. -/
theorem sees_of_upTo {e : Held} {k m : Nat} {w : Viewer} (h : e.upTo = some m) (hk : k ≤ m) (hs : inScope k e.who w = true) :
    e.sees w = true := by
  simp only [Held.sees, h, inScope_mono hk hs, Bool.or_true]

theorem le_foldl_max (l : List Held) (k : Nat) :
    k ≤ l.foldl (fun k e => max k (e.rel.getD 0)) k ∧ ∀ e ∈ l, e.rel.getD 0 ≤ l.foldl (fun k e => max k (e.rel.getD 0)) k := by
  induction l generalizing k with
  | nil => exact ⟨Nat.le_refl k, fun e h => by cases h⟩
  | cons a l ih =>
    obtain ⟨h1, h2⟩ := ih (max k (a.rel.getD 0))
    refine ⟨by rw [List.foldl_cons]; omega, fun e he => ?_⟩
    rw [List.foldl_cons]
    rcases List.mem_cons.mp he with rfl | he
    · omega
    · exact h2 e he

/-- What a store of the list becomes where those of agent `w` that satisfy `p`, and those before them, reach the scope `sc`. -/
def reachScope (w : Viewer) (p : Held → Bool) (sc : Nat) (l : List Held) (e : Held) : Held :=
  let now := (parted (fun e => e.who == w && p e) l).1
  if now.contains e then { e with upTo := some (max (now.foldl (fun k e => max k (e.rel.getD 0)) sc) (e.upTo.getD 0)) } else e

theorem publish_eq_map (w : Viewer) (p : Held → Bool) (sc : Nat) (s : State) :
    publish w p sc s =
      let t := perform (fun e => e.rel.isSome && e.who != w) s
      { t with held := t.held.map (reachScope w p sc t.held) } := rfl

theorem reachScope_eq (w : Viewer) (p : Held → Bool) (sc : Nat) (l : List Held) (e : Held) :
    reachScope w p sc l e = { e with upTo := (reachScope w p sc l e).upTo } := by
  unfold reachScope
  dsimp only
  split <;> rfl

/-- A store of the agent that satisfies `p` reaches the scope, and its own where it is an `STL`. -/
theorem reachScope_upTo {w : Viewer} {p : Held → Bool} {l : List Held} {e : Held} (he : e ∈ l) (hw : e.who = w) (hp : p e = true)
    (sc : Nat) : ∃ m, (reachScope w p sc l e).upTo = some m ∧ sc ≤ m ∧ e.rel.getD 0 ≤ m := by
  have now := mem_parted_of_pos (p := fun e => e.who == w && p e) he (by simp [hw, hp])
  obtain ⟨h1, h2⟩ := le_foldl_max (parted (fun e => e.who == w && p e) l).1 sc
  unfold reachScope
  rw [if_pos (List.contains_iff_mem.mpr now)]
  exact ⟨_, rfl, Nat.le_trans h1 (Nat.le_max_left ..), Nat.le_trans (h2 e now) (Nat.le_max_left ..)⟩

/-- While no `STL` of another agent is held, publishing performs nothing. -/
theorem publish_of_no_release {s : State} {w : Viewer} (h : ∀ e ∈ s.held, e.rel = none ∨ e.who = w) (p : Held → Bool) (sc : Nat) :
    publish w p sc s = { s with held := s.held.map (reachScope w p sc s.held) } := by
  have : perform (fun e => e.rel.isSome && e.who != w) s = s := by
    refine perform_of_none fun e he => ?_
    rcases h e he with h | h <;> simp [h]
  rw [publish_eq_map, this]

end Sys2Proof.Machine
end

section
/-!
PROOFS. The next agent of the agenda moves (R12, R15, R19, R36, R130, R259 to R264): the move of each kind of agent, and their sum.
-/
namespace Sys2Proof.Machine

/-! ## Sequencers -/

theorem moveAny_seq {c n : Nat} (hc : c < 512) (hn : n < 4) (s : State) (q : Seq) :
    moveAny s (.seq c n q) = .next (moveOrdered s c n q) := by
  simp only [moveAny, hc, hn, decide_true, Bool.and_self, if_true]

theorem moveAny_noSuchUnit {c n : Nat} (h : ¬(c < 512 ∧ n < 4)) (s : State) (q : Seq) :
    moveAny s (.seq c n q) = .fault .noSuchUnit := by
  have hf : (decide (c < 512) && decide (n < 4)) = false := by simpa using h
  simp only [moveAny, hf, Bool.false_eq_true, if_false]

theorem nextC_of_fetch {s : State} {c n w : Nat} {i : Instr} (hw : fetchWord (getTask s c n) .c (taskCtl (getTask s c n) .c).pc = some w)
    (hd : Rule.decoded .c w = (some i, [])) : nextC { s with cur := { core := c, slot := n } } = some i :=
  Option.bind_eq_some_iff.mpr ⟨w, hw, congrArg Prod.fst hd⟩

/-- While no store is held, the sequencers move plainly; C's move chooses its context first. -/
theorem moveOrdered_decoded {s : State} {c n w : Nat} {q : Seq} {i : Instr} (hh : s.held = [])
    (hw : fetchWord (getTask s c n) q (taskCtl (getTask s c n) q).pc = some w) (hd : Rule.decoded q w = (some i, [])) :
    moveOrdered s c n q = moveSeq (if q = .c then { s with cur := { core := c, slot := n } } else s) c n q := by
  by_cases hc : q = .c
  · subst hc
    rw [if_pos rfl]
    exact (moveOrdered_c (nextC_of_fetch hw hd)).trans (inOrder_none (s := { s with cur := { core := c, slot := n } }) hh _ _ _)
  · rw [if_neg hc]; exact moveOrdered_none hh c n hc

/-- A sequencer that nothing comes before runs its decoded word, unless the word waits for what it reads or yields (R12, R19, R36). -/
theorem moveSeq_decoded {s u t : State} {c n w : Nat} {q : Seq} {i : Instr} (hu : u = { s with cur := { core := c, slot := n } })
    (hq : q ≠ .x) (hr : coreRuns s c = true) (hm : mayIssue s c n q = true)
    (hi : nth (getCore s c).issued (seqCode q) false = false) (hw : withheld s c = false) (ho : outranked s c n q = false)
    (hh : q = .c → reservedCycle (getCore s c) = true → handlerReady s c = false)
    (hf : fetchWord (getTask s c n) q (taskCtl (getTask s c n) q).pc = some w) (hb : fetchBad u q = false)
    (hd : Rule.decoded q w = (some i, [])) :
    (ready u q i = true → exec i u = .next t →
      (yields s (noteLate u q i t) c n (seqCode q) = false → moveSeq s c n q = noteLate u q i t) ∧
      (yields s (noteLate u q i t) c n (seqCode q) = true → moveSeq s c n q = s)) ∧
    (ready u q i = false → moveSeq s c n q = u) := by
  have hf' : fetchWord (me u) q (ctl u q).pc = some w := by subst hu; cases q <;> exact hf
  have move : moveSeqFree s c n q = if ready u q i then noteLate u q i (after u (exec i u)) else u := by
    rw [← issueWord_decoded hq hf' hb hd, hu]
    exact moveSeqFree_issues hq hr hm hi hw ho hh
  refine ⟨fun hrd hx => ?_, fun hrd => ?_⟩
  · rw [hrd, if_pos rfl, hx] at move
    exact ⟨moveSeq_of_not_yields move, moveSeq_of_yields move⟩
  · rw [hrd, if_neg Bool.false_ne_true] at move
    exact moveSeq_of_not_yields move (by rw [hu]; exact yields_cur ..)

/-! ## Events -/

theorem moveAny_ev_runs {s t : State} {i : Instr} {compute : Bool} {core : Option Nat} (hh : s.held = [])
    (hi : eventInfo s i = some (compute, core, true)) (hx : exec i s = .next t)
    (hy : ∀ c n r, eventRank s i = some (c, n, r) → yields s t c n r = false)
    (hb : compute = true → s.bootst = 1) (hf : ∀ c, core = some c → (getCore s c).freeze = 0) : moveAny s (.ev i) = .next t :=
  (moveAny_ev hh i).trans (moveEvent_of_not_yields ((moveEventFree_runs hi hb hf).trans hx) hy)

theorem moveAny_ev_waits {s : State} {i : Instr} {compute : Bool} {core : Option Nat} (hh : s.held = [])
    (hi : eventInfo s i = some (compute, core, true))
    (hw : (compute = true ∧ s.bootst ≠ 1) ∨ ∃ c, core = some c ∧ (getCore s c).freeze ≠ 0) : moveAny s (.ev i) = .next s :=
  (moveAny_ev hh i).trans (moveEvent_of_not_yields (moveEventFree_waits hi hw) fun _ _ _ _ => yields_self ..)

theorem moveAny_ev_notAnEvent {s : State} {i : Instr} (hh : s.held = []) (hi : eventInfo s i = none) :
    moveAny s (.ev i) = .refused .notAnEvent := by
  simp only [moveAny_ev hh, moveEvent, moveEventFree, hi]

/-! ## The clock -/

theorem moveAny_clock {s : State} (hh : s.held = []) : moveAny s .clock = .next (clockCycle s) := by
  simp only [moveAny, afterSeen_none hh]

/-! ## Late stores -/

theorem holdable_of_order {i : Instr} {cls : Nat} {rel : Option Nat}
    (h : (orderOf i = .store cls ∧ rel = none) ∨ ∃ sc, orderOf i = .release cls sc ∧ rel = some sc) : holdable i = some (cls, rel) := by
  rcases h with ⟨h, rfl⟩ | ⟨sc, h, rfl⟩ <;> simp only [holdable, h]

theorem moveAny_late {s : State} {c n : Nat} {i : Instr} (hc : c < 512) (hn : n < 4)
    (hi : nextC { s with cur := { core := c, slot := n } } = some i) :
    moveAny s (.late c n false) =
      .next (held (.seq c n .c) { s with cur := { core := c, slot := n } } i fun s => moveSeq s c n .c) := by
  simp only [moveAny, hc, hn, decide_true, Bool.and_self, if_true, Bool.false_eq_true, if_false, moveC_held hi]

/-! ## Held stores -/

theorem moveAny_perform {s : State} {e : Held} {r : List Held} (h : s.held = e :: r) :
    moveAny s (.perform 0) =
      .next { storeAt { s with held := r } e.place e.bytes with swap := (landHeld { s with held := r } e).swap } := by
  rw [← landHeld_eq]; exact congrArg _ (performOne_first h)

/-- R264: the first held store is shown to one agent. -/
theorem moveAny_showTo {s : State} {e : Held} {r : List Held} {w : Viewer} (hh : s.held = e :: r)
    (hw : ∀ d ∈ s.held, d.who = w → d.rel = none) (hs : ∀ sc, e.rel = some sc → inScope sc e.who w = false) :
    moveAny s (.showTo 0 w) = .next { s with held := { e with seen := e.seen ++ [w] } :: r } := by
  have hr : (e.rel.map fun sc => inScope sc e.who w).getD false = false := by
    cases hx : e.rel with
    | none => rfl
    | some sc => exact hs sc hx
  have ha : (s.held.any fun d => d.who == w && d.rel.isSome) = false := by
    rw [List.any_eq_false]
    intro d hd
    by_cases hx : d.who = w
    · simp [hw d hd hx]
    · simp [hx]
  rw [hh] at ha
  simp only [moveAny, showTo, hh, List.getElem?_cons_zero, hr, ha, List.take_zero, List.any_nil, Bool.false_or, Bool.false_eq_true,
    if_false, List.set_cons_zero]

/-- R264: the first held store, an `STL`, reaches all agents of its scope at once. -/
theorem moveAny_showTo_release {s : State} {e : Held} {r : List Held} {w : Viewer} {sc : Nat} (hh : s.held = e :: r)
    (he : e.rel = some sc) (hs : inScope sc e.who w = true) (hr : ∀ d ∈ r, d.rel = none ∨ d.who = e.who) :
    ∃ f l, moveAny s (.showTo 0 w) = .next { s with held := f :: l } ∧ f.place = e.place ∧ f.bytes = e.bytes ∧
      f.who = e.who ∧ ∀ x, inScope sc e.who x = true → f.sees x = true := by
  have none : ∀ d ∈ s.held, d.rel = none ∨ d.who = e.who := by
    intro d hd
    rw [hh] at hd
    rcases List.mem_cons.mp hd with rfl | hd
    · exact .inr rfl
    · exact hr d hd
  have hm : moveAny s (.showTo 0 w) = .next (publish e.who (· == e) 0 s) := by
    simp only [moveAny, showTo, hh, List.getElem?_cons_zero, he, Option.map_some, Option.getD_some, hs, if_true]
  rw [publish_of_no_release none, hh, List.map_cons] at hm
  obtain ⟨k, hk, -, hle⟩ := reachScope_upTo (w := e.who) (p := (· == e)) (l := e :: r) (.head _) rfl (beq_self_eq_true e) 0
  have hf := reachScope_eq e.who (· == e) 0 (e :: r) e
  have hwho : (reachScope e.who (· == e) 0 (e :: r) e).who = e.who := by rw [hf]
  rw [he] at hle
  exact ⟨_, _, hm, by rw [hf], by rw [hf], hwho, fun x hx => sees_of_upTo hk hle (by rw [hwho]; exact hx)⟩

/-- What an agent publishes of its own to a scope, every agent in that scope sees (R262). -/
theorem publish_sees {s : State} {me w : Viewer} {p : Held → Bool} (hp : ∀ e u, p { e with upTo := u } = p e) {sc : Nat} {e : Held}
    (he : e ∈ (publish me p sc s).held) (hme : e.who = me) (hc : p e = true) (hw : inScope sc me w = true) : e.sees w = true := by
  simp only [publish_eq_map] at he
  obtain ⟨d, hd, rfl⟩ := List.mem_map.mp he
  rw [reachScope_eq] at hme hc
  rw [hp] at hc
  obtain ⟨k, hk, hle, -⟩ := reachScope_upTo hd hme hc sc
  exact sees_of_upTo hk hle (by rw [reachScope_eq]; exact hme ▸ hw)

/-! ## The step -/

/-- Settles O57: the step is the move of the agent that the agenda names, and the moves are those above. -/
theorem stepMovesTheNextAgent : Obligations.StepMovesTheNextAgent := by
  intro s rest s1 to_
  refine ⟨fun t c => dropStale_core t c, ?seq, ?event, ?notAnEvent, ?noSuchUnit, ?clock, ?tick, fun m a h => step_of_moveAny h rfl,
    fun h => step_of_moveAny h rfl, fun h => step_of_moveAny h rfl, ?late, ?held, ?fence⟩
  case seq =>
    intro c n w q i t h hq hc hn u b hh hr hm hi hw ho hres hf hb hd
    have move (v : State) (hv : moveSeq b c n q = v) : step s = to_ v :=
      step_of_moveAny h ((moveAny_seq hc hn s1 q).trans (congrArg _ ((moveOrdered_decoded (s := s1) hh hf hd).trans hv)))
    have word := moveSeq_decoded (s := b) (u := u) (t := t) (by cases q <;> rfl) hq (by cases q <;> exact hr) (by cases q <;> exact hm)
      (by cases q <;> exact hi) (by cases q <;> exact hw) ho (by cases q <;> exact hres) (by cases q <;> exact hf) hb hd
    exact ⟨fun hrd hx => ⟨fun hy => move _ ((word.1 hrd hx).1 hy), fun hy => move _ ((word.1 hrd hx).2 hy)⟩,
      fun hrd => move _ (word.2 hrd)⟩
  case event =>
    intro i compute core t h hh hi hx hy
    exact ⟨fun hb hf => step_of_moveAny h (moveAny_ev_runs (s := s1) hh hi hx hy hb hf),
      fun hw => step_of_moveAny h (moveAny_ev_waits (s := s1) hh hi hw)⟩
  case notAnEvent =>
    intro i h hh hi
    rw [step_of_agenda h, moveAgent, moveAny_ev_notAnEvent (s := s1) hh hi]
  case noSuchUnit =>
    intro c n q h hc
    rw [step_of_agenda h, moveAgent, moveAny_noSuchUnit hc]
  case clock =>
    intro h hh
    obtain ⟨moved, cycle⟩ := clockCycle_undisturbed s1
    have dropped := dropStale_withinCycle (clockCycle s1)
    have all := moved.trans dropped.toUndisturbed
    exact ⟨_, step_of_moveAny h (moveAny_clock (s := s1) hh), dropped.cycle.trans cycle, all.mem, fun c => ⟨all.task c, all.spm c⟩⟩
  case tick =>
    intro h ht
    have one : tickTime s1 = { s1 with time := s.time + 1 } := by
      simp only [tickTime, s1, ht, ne_eq, not_true_eq_false, decide_false, Bool.false_and, Bool.false_eq_true, if_false]
    exact step_of_moveAny h (congrArg _ one)
  case late =>
    intro c n k cls rel i p h hc hn hh u t hi ho hcls hp hf hnear hd
    have hold := holdable_of_order ho
    have own : OwnSpmOnly u t := moveSeq_holdable rfl hi (by rw [hold]; rfl)
    obtain ⟨e, he, hw, hcl, hpl, hby, hre, hse, hup, hme, hsp⟩ :=
      held_of_storeDone (s := u) (w := .seq c n .c) (f := fun s => moveSeq s c n .c) hh hold hcls hp hf hnear hd own
    refine ⟨_, e, step_of_moveAny h (moveAny_late (s := s1) hc hn hi), he, hw, hcl, hpl, hby, hre, hse, hup, hme, fun d a => ?_⟩
    rw [dropStale_core]; exact congrArg (memByte · a) (hsp d)
  case held =>
    intro e r hh
    refine ⟨fun h => ⟨_, step_of_moveAny h (moveAny_perform (s := s1) hh), fun y hy => landHeld_swap hy⟩,
      fun w h hw hs => step_of_moveAny h (moveAny_showTo (s := s1) hh hw hs), fun w sc h he hs hr => ?_⟩
    obtain ⟨f, l, hm, hfl⟩ := moveAny_showTo_release (s := s1) hh he hs hr
    exact ⟨f, l, step_of_moveAny h hm, hfl⟩
  case fence =>
    intro c n sc m h hc hn u me v hi
    have move : moveOrdered s1 c n .c = moveSeq v c n .c := moveOrdered_c (s := s1) hi
    refine ⟨step_of_moveAny h ((moveAny_seq hc hn s1 .c).trans (congrArg _ move)), fun hs => ?_, fun w e hw he hme hcl =>
      publish_sees (fun _ _ => rfl) he hme hcl hw⟩
    rw [show v = _ from publish_of_no_release (s := u) hs _ _]

end Sys2Proof.Machine
end
